-- ==== Sys2Proof/Word.lean ====
section
/-! DEFINITION. The octet of the two serial links, and the sparse table in which the model keeps the
records that spec/01 R2 keys by station, lane, face, aspect and string. -/

namespace Sys2Proof

/-- One octet of the host link (R181) or of the gantry link (R145). -/
abbrev Octet := BitVec 8

/-- A table of records by number. Canonical form (`Tab.wf`, Machine/Ops.lean): numbers strictly rising, and
no record equal to the one an unlisted number reads as. -/
abbrev Tab (α : Type) := List (Nat × α)

end Sys2Proof
end

