-- ==== Sys2Proof/Syntax.lean ====
section
/-! DEFINITION. The commands of the block: one constructor of `Instr` for each row of spec/opcode_table.json. The
command rows carry the TAG and the body of the host frame that is taken (R183); their KIND is the table of R198. -/

namespace Sys2Proof

/-- The two connections of the gantry link (R144). -/
inductive LinkEnd where
  | west
  | east
  deriving DecidableEq, Repr

/-- The direction a head faces, and the direction of travel of its traffic (Conventions). -/
inductive Face where
  | a
  | b
  deriving DecidableEq, Repr

/-- A head, named by station, lane and face (R1). -/
structure HeadRef where
  station : Nat
  lane : Nat
  face : Face
  deriving DecidableEq, Repr

/-- The commands of the block, one for each row of spec/opcode_table.json, in its order. -/
inductive Instr where
  /-- POWER_UP (R16). Power comes up and the part runs the start-up sequence with reset cause POWER_UP. -/
  | powerUp
  /-- RESET_N_FALL (R17). RESET_N goes low: the part is held in reset, attention flags clear, ALERT deasserts, and transmission, FLASH_SYNC drive and any store write stop. -/
  | resetNFall
  /-- RESET_N_RISE (R16). RESET_N returns high after being held low, and the start-up sequence runs with reset cause RESET_PIN. -/
  | resetNRise
  /-- HOST_FRAME_RECEIVED (R183). A good host frame completes and takes a free command slot, or is dropped with LINK_OVERRUN when all four slots are full; in either case it restarts the silence timer. -/
  | hostFrameReceived (octets : List Octet)
  /-- HOST_FRAME_DROPPED (R182). A host frame is dropped on a LEN, break or CRC fault found at an octet's arrival; the fault counter is raised, LINK_ERROR is raised and the receiver hunts again. -/
  | hostFrameDropped (octets : List Octet) (brk : Bool)
  /-- HOST_GAP_TIMEOUT (R182). 5 ms pass inside a host frame with no further octet, so the frame is dropped as a gap fault and LINK_ERROR is raised. -/
  | hostGapTimeout (octets : List Octet)
  /-- HOST_TRANSMIT_END (R186). The last octet of a host frame is sent; the transmitter sends the oldest queued reply, else a pending notice, else goes IDLE, and after the RESTART reply the start-up sequence begins. -/
  | hostTransmitEnd
  /-- SILENCE_TIMEOUT (R188). The silence timer expires, and HOST_SILENT is raised and becomes active. -/
  | silenceTimeout
  /-- UNKNOWN_KIND (R185). A command of unknown KIND is taken and answered by the port with BAD_KIND. -/
  | unknownKind (kind tag : Octet) (body : List Octet)
  /-- SET_TUNNEL (R4). The command writes the TUNNEL record in STANDBY, resets the zone dim levels, and applies changes of N and L. -/
  | setTunnel (tag : Octet) (body : List Octet)
  /-- GET_TUNNEL (R10). The command returns the TUNNEL record. -/
  | getTunnel (tag : Octet) (body : List Octet)
  /-- SET_LANE (R6). The command writes the LANE record of one lane in STANDBY. -/
  | setLane (tag : Octet) (body : List Octet)
  /-- GET_LANE (R47). The command returns one lane's LANE record and lane status. -/
  | getLane (tag : Octet) (body : List Octet)
  /-- SET_STATION (R7). The command writes the STATION record of one station in STANDBY, and may empty accumulators and blank the recorded identity. -/
  | setStation (tag : Octet) (body : List Octet)
  /-- GET_STATION (R10). The command returns one STATION record. -/
  | getStation (tag : Octet) (body : List Octet)
  /-- SET_PROVING (R8). The command writes the PROVING record with clamping, and on a change empties every accumulator and adjusts SUSPECT fail counts. -/
  | setProving (tag : Octet) (body : List Octet)
  /-- GET_PROVING (R10). The command returns the PROVING record. -/
  | getProving (tag : Octet) (body : List Octet)
  /-- SET_DUTY (R9). The command writes the DUTY record, and any change of duty empties every accumulator. -/
  | setDuty (tag : Octet) (body : List Octet)
  /-- GET_DUTY (R10). The command returns the DUTY record. -/
  | getDuty (tag : Octet) (body : List Octet)
  /-- SET_DIM (R9). The command sets a zone's current dim level and empties the accumulators of that zone's stations when the level changes. -/
  | setDim (tag : Octet) (body : List Octet)
  /-- GET_DIM (R10). The command returns the current dim levels of the four zones. -/
  | getDim (tag : Octet) (body : List Octet)
  /-- START (R12). The command validates the configuration and enters RUN with every lane SHUT, the queue empty and any lamp test ended, then runs the scan. -/
  | start (tag : Octet) (body : List Octet)
  /-- STOP (R13). In RUN with every lane SHUT and no task active, the command cancels queued tasks, empties the override table and enters STANDBY. -/
  | stop (tag : Octet) (body : List Octet)
  /-- GET_MODE (R14). The command returns the mode record. -/
  | getMode (tag : Octet) (body : List Octet)
  /-- COMMIT (R18). The command begins writing the configuration region and holds the command processor in WRITING. -/
  | commit (tag : Octet) (body : List Octet)
  /-- SAVE_SIGNATURES (R18). The command begins writing the signature region, clears the unsaved flag and holds the processor in WRITING. -/
  | saveSignatures (tag : Octet) (body : List Octet)
  /-- STORE_WRITE_COMPLETE (R18). A store write ends; the region becomes VALID, or INVALID with STORE_FAILED raised, the reply is queued and the processor returns to READY. -/
  | storeWriteComplete (ok : Bool)
  /-- RESTART (R19). The command queues its OK reply and closes the command processor until that reply has been sent. -/
  | restart (tag : Octet) (body : List Octet)
  /-- CLOSE_LANE (R52). The command queues a HOST CLOSE task for a lane that projects to RUN, then runs the scan. -/
  | closeLane (tag : Octet) (body : List Octet)
  /-- OPEN_LANE (R53). The command queues a HOST OPEN task in one direction for a lane that projects to SHUT, then runs the scan. -/
  | openLane (tag : Octet) (body : List Octet)
  /-- REVERSE_LANE (R54). The command queues a CLOSE and an OPEN of the other direction together for a lane that projects to RUN, then runs the scan. -/
  | reverseLane (tag : Octet) (body : List Octet)
  /-- CANCEL_TASK (R55). The command removes a queued task of a given lane and kind with outcome CANCELLED, then runs the scan. -/
  | cancelTask (tag : Octet) (body : List Octet)
  /-- CONFIRM_CLEAR (R32). The command sets the confirmed flag of a lane in CLEARANCE, or makes the lane SHUT with its task DONE when its confirm window is open. -/
  | confirmClear (tag : Octet) (body : List Octet)
  /-- ABORT_LANE (R38). The command stops a closing, a clearance or a fresh opening of one lane and restores, reopens or shuts the lane. -/
  | abortLane (tag : Octet) (body : List Octet)
  /-- CLOSE_NOW (R41). The command makes a lane SHUT at once, sets its emergency flag, pre-empts its task, cancels its queued tasks and runs the scan. -/
  | closeNow (tag : Octet) (body : List Octet)
  /-- GET_QUEUE (R59). The command returns the active task, the CLOSE tasks held in CLEARANCE and the queued tasks. -/
  | getQueue (tag : Octet) (body : List Octet)
  /-- SET_PLAN (R60). The command writes the six targets of one plan. -/
  | setPlan (tag : Octet) (body : List Octet)
  /-- GET_PLAN (R60). The command returns the six targets of one plan. -/
  | getPlan (tag : Octet) (body : List Octet)
  /-- SELECT_PLAN (R61). The command expands a plan with origin PLAN and applies it all or nothing. -/
  | selectPlan (tag : Octet) (body : List Octet)
  /-- CLOSING_STEP_EXPIRY (R28). The step timer of a lane in CLOSING expires, and the front advances or the lane enters CLEARANCE. -/
  | closingStepExpiry (lane : Nat)
  /-- OPENING_STEP_EXPIRY (R35). The step timer of a lane in OPENING expires; the front moves toward the entry, and at front 0 the lane enters RUN and its task ends DONE. -/
  | openingStepExpiry (lane : Nat)
  /-- CLEARANCE_TIMER_EXPIRY (R30). The clearance timer expires, and the lane becomes SHUT with its task DONE or opens its confirm window and raises CLEARANCE_CONFIRM_DUE. -/
  | clearanceTimerExpiry (lane : Nat)
  /-- CONFIRM_WINDOW_EXPIRY (R31). The confirm window expires, the lane becomes SHUT, its CLOSE task ends STALLED and its queued OPEN tasks are cancelled. -/
  | confirmWindowExpiry (lane : Nat)
  /-- GET_HEADS (R86). The command returns the head records of one station. -/
  | getHeads (tag : Octet) (body : List Octet)
  /-- GET_CLOSURES (R87). The command returns the entry-closure set and the closure-lost, failed and cascade counts of the section. -/
  | getClosures (tag : Octet) (body : List Octet)
  /-- OVERRIDE (R89). The command places or replaces an override entry on one head with a restrictive aspect and a clamped hold. -/
  | override (tag : Octet) (body : List Octet)
  /-- RELEASE (R92). The command removes the override entry of one head. -/
  | release (tag : Octet) (body : List Octet)
  /-- GET_OVERRIDES (R95). The command returns the override table. -/
  | getOverrides (tag : Octet) (body : List Octet)
  /-- OVERRIDE_HOLD_EXPIRY (R91). An override entry's hold reaches zero; the entry is removed, its head is re-resolved and OVERRIDE_EXPIRED is raised. -/
  | overrideHoldExpiry (heads : List HeadRef)
  /-- LAMP_TEST (R97). The command starts a lamp test in STANDBY on one face of one station with a chosen aspect. -/
  | lampTest (tag : Octet) (body : List Octet)
  /-- END_LAMP_TEST (R99). The command ends the active lamp test with cause HOST. -/
  | endLampTest (tag : Octet) (body : List Octet)
  /-- GET_LAMP_TEST (R101). The command returns the lamp-test record and the last-end record. -/
  | getLampTest (tag : Octet) (body : List Octet)
  /-- LAMP_TEST_WINDOW_EXPIRY (R99). The lamp-test window expires; the test ends with cause WINDOW and LAMP_TEST_ENDED is raised. -/
  | lampTestWindowExpiry
  /-- CLEAR_FAULT (R126). The command returns the strings of a head or station to UNPROVEN and its head conditions to NORMAL. -/
  | clearFault (tag : Octet) (body : List Octet)
  /-- GET_LAMPS (R127). The command returns the proving state of one head. -/
  | getLamps (tag : Octet) (body : List Octet)
  /-- GET_FAULTS (R128). The command returns the FAULT strings, non-NORMAL heads and false-open records of the section. -/
  | getFaults (tag : Octet) (body : List Octet)
  /-- FREEZE (R134). The command writes the freeze flag. -/
  | freeze (tag : Octet) (body : List Octet)
  /-- FIX_SIGNATURE (R135). The command makes a string's signature entry FIXED with a clamped value. -/
  | fixSignature (tag : Octet) (body : List Octet)
  /-- UNFIX (R136). The command makes a FIXED signature entry LEARNED with the same value. -/
  | unfix (tag : Octet) (body : List Octet)
  /-- UNLEARN (R137). The command makes every LEARNED entry of a station's heads UNLEARNED. -/
  | unlearn (tag : Octet) (body : List Octet)
  /-- GET_SIGNATURES (R142). The command returns a head's signature entries with its station's identity and learning records. -/
  | getSignatures (tag : Octet) (body : List Octet)
  /-- GET_LEARNING (R142). The command returns the Signature Table summary. -/
  | getLearning (tag : Octet) (body : List Octet)
  /-- GANTRY_ANSWER (R155). A good SAMPLE answer arrives; miss counts reset, the station may return, and the identity, supply status and sample records are handed on. -/
  | gantryAnswer (link : LinkEnd) (octets : List Octet)
  /-- GANTRY_BAD_ANSWER (R149). A frame received as an exchange's answer fails a test and is counted as a miss with cause CRC, ADDRESS or FORM. -/
  | gantryBadAnswer (link : LinkEnd) (octets : List Octet) (brk : Bool)
  /-- GANTRY_STRAY_FRAME (R145). A gantry frame that begins while its end has no exchange in flight is received and discarded. -/
  | gantryStrayFrame (link : LinkEnd) (octets : List Octet)
  /-- GANTRY_GAP_TIMEOUT (R145). More than 1 ms passes between octets of a gantry frame, and the frame ends as broken. -/
  | gantryGapTimeout (link : LinkEnd) (octets : List Octet)
  /-- POLL_TIMEOUT (R153). No start octet arrives within 10 ms of a poll, and the exchange ends as a miss with cause TIMEOUT. -/
  | pollTimeout (link : LinkEnd)
  /-- GANTRY_TRANSMIT_END (R153). A gantry frame finishes sending; an answerless frame lets the poller choose its next frame, and a poll starts its answer timeout. -/
  | gantryTransmitEnd (link : LinkEnd)
  /-- REPROBE_TIMER_EXPIRY (R157). The reprobe timer of a REROUTED station expires, and a reprobe becomes due on its home poller. -/
  | reprobeTimerExpiry (station : Nat)
  /-- RESTORE_STATION (R162). The command returns a CUT station to ONLINE or REROUTED, sets RESTORE pending, and clears its strings and conditions. -/
  | restoreStation (tag : Octet) (body : List Octet)
  /-- GET_RING (R165). The command returns the state of the pollers and the station records. -/
  | getRing (tag : Octet) (body : List Octet)
  /-- HALF_PERIOD_EXPIRY (R167). The half-period timer expires; the phase toggles, PHASE frames are marked pending, and in DRIVING the line follows the phase. -/
  | halfPeriodExpiry
  /-- FLASH_SYNC_EDGE (R170). An edge on FLASH_SYNC while following sets the phase to the line level and restarts the half-period and loss timers. -/
  | flashSyncEdge (high : Bool)
  /-- LOSS_TIMER_EXPIRY (R171). The loss timer expires in FOLLOWING; the line state becomes FREE_RUNNING and FLASH_SYNC_LOST is raised. -/
  | lossTimerExpiry
  /-- GET_FLASH (R173). The command returns the flash state. -/
  | getFlash (tag : Octet) (body : List Octet)
  /-- SECOND_TIMER_EXPIRY (R174). The clock's second timer expires and the time of week advances by one second. -/
  | secondTimerExpiry
  /-- SET_CLOCK (R175). The command sets the clock RUNNING at the given time and restarts the second timer. -/
  | setClock (tag : Octet) (body : List Octet)
  /-- GET_CLOCK (R176). The command returns the clock state. -/
  | getClock (tag : Octet) (body : List Octet)
  /-- SET_SCHEDULE (R177). The command writes or empties one schedule entry. -/
  | setSchedule (tag : Octet) (body : List Octet)
  /-- GET_SCHEDULE (R177). The command returns the schedule table and the last-firing record. -/
  | getSchedule (tag : Octet) (body : List Octet)
  /-- ACK_ATTENTION (R191). The command clears the latched and repeat flags of the named kinds and reports what they were. -/
  | ackAttention (tag : Octet) (body : List Octet)
  /-- SET_NOTICE_MASK (R192). The command makes exactly the named kinds enabled. -/
  | setNoticeMask (tag : Octet) (body : List Octet)
  /-- GET_ATTENTION (R194). The command returns every kind's flags, the ALERT level and the pending-notice marker. -/
  | getAttention (tag : Octet) (body : List Octet)
  /-- GET_LINK (R195). The command returns the host link state and sets the five error counters to 0. -/
  | getLink (tag : Octet) (body : List Octet)
  /-- POWER_FAILURE (R17). The supply fails; the part stops, any store write in progress stops, and the region being written is invalid at the next load. -/
  | powerFailure
  deriving DecidableEq, Repr

end Sys2Proof
end

