-- ==== Sys2Proof/Decode.lean ====
section
/-! DEFINITION. The words of spec/opcode_table.json: no row gives any bits ("fields" is empty in every row), so no word
spells a command. Commands arrive as host frames, whose KIND names the row (R198; Machine/Idle.lean). Log entry 20. -/

namespace Sys2Proof

/-- The command a word spells by the table's bits: none, since no row of the table has bits (log entry 20). -/
def decodeTableWord (_nbits _w : Nat) : Option Instr := none

end Sys2Proof
end

