-- ==== Sys2Proof/Config.lean ====
section
/-! DEFINITION. The capacities of the part (spec/00, Capacities at a glance) and the fixed times its rules name.
The manual states a result for every value of the operands, so there is no free value here. -/

namespace Sys2Proof.Config

/-- Stations the part can address (R2). -/
def maxStations : Nat := 16
/-- Lanes the part can address (R2). -/
def maxLanes : Nat := 6
/-- Command slots of the Host Link Port (R183). -/
def slotCount : Nat := 4
/-- Places of the reply queue (R186). -/
def replyPlaces : Nat := 4
/-- Places of the changeover queue (R49). -/
def queuePlaces : Nat := 8
/-- Plans of the plan table (R60). -/
def planCount : Nat := 8
/-- Entries of the override table (R88). -/
def overridePlaces : Nat := 32
/-- Entries of the schedule table (R177). -/
def scheduleCount : Nat := 24
/-- Dimming zones (Conventions). -/
def zoneCount : Nat := 4
/-- Where an error counter stays (R182, R183). -/
def counterTop : Nat := 65535
/-- Octets of the longest reply body, from STATUS (R199). -/
def replyOctets : Nat := 240
/-- The reprobe timer, in ms (R156, R157). -/
def reprobeMs : Nat := 30000
/-- The answer timeout of a poll, in ms (R153). -/
def answerMs : Nat := 10
/-- The lowest duty at which signatures are learned and refreshed, in permille (R130). -/
def learnDuty : Nat := 500
/-- The greatest current the part handles, in mA (Conventions). -/
def maxCurrent : Nat := 1023

end Sys2Proof.Config
end

