-- ==== Sys2Proof/Machine/State.lean ====
section
/-! DEFINITION. The state of the TC-16, block by block as spec/00 (Blocks) gives them, the reasons a step could stop,
and the state after reset. Every field cites the rule that names it; INVENTORY.md lists them with their reset values. -/

namespace Sys2Proof.Machine

/-! ### Codes and small records -/

/-- The symbols a head can show (R66); their codes are their places here (R199). -/
inductive Aspect where
  /-- OPEN -/
  | opn
  /-- SHUT -/
  | shut
  | divertL
  | divertR
  | slow
  | dark
  deriving DecidableEq, Repr

/-- AVAILABLE, DEGRADED or FAILED (R72). -/
inductive Avail where
  | available
  | degraded
  | failed
  deriving DecidableEq, Repr

/-- STANDBY or RUN (R11). -/
inductive Mode where
  | standby
  | run
  deriving DecidableEq, Repr

/-- The source of the last reset (R14). -/
inductive ResetCause where
  | powerUp
  | resetPin
  | restart
  deriving DecidableEq, Repr

/-- A time of week of a RUNNING clock (R174). -/
structure Time where
  weekday : Nat
  hour : Nat
  minute : Nat
  second : Nat
  deriving DecidableEq, Repr

/-- A stamp: the time of week, or none for "clock unset" (R174). -/
abbrev Stamp := Option Time

/-- MASTER or FOLLOWER (R4). -/
inductive Role where
  | master
  | follower
  deriving DecidableEq, Repr

/-- The TUNNEL record (R4), with its written flag. -/
structure Tunnel where
  written : Bool
  n : Nat
  l : Nat
  stepTime : Nat
  clearance : Nat
  confirm : Nat
  lampWindow : Nat
  silence : Nat
  autoSchedule : Bool
  autoStart : Bool
  halfPeriod : Nat
  role : Role
  dims : List Nat
  freeze : Bool
  deriving DecidableEq, Repr

/-- Lane kinds (R6). -/
inductive LaneKind where
  | tidal
  | fixedA
  | fixedB
  deriving DecidableEq, Repr

/-- Merge preferences (R6). -/
inductive MergePref where
  | lower
  | higher
  deriving DecidableEq, Repr

/-- Clearance modes (R6). -/
inductive ClearanceMode where
  | timed
  | confirmed
  deriving DecidableEq, Repr

/-- A LANE record (R6). -/
structure LaneCfg where
  kind : LaneKind
  merge : MergePref
  clearance : ClearanceMode
  deriving DecidableEq, Repr

/-- A STATION record (R7). -/
structure StationCfg where
  zone : Nat
  learn : Bool
  deriving DecidableEq, Repr

/-- The PROVING record (R8). -/
structure Proving where
  depth : Nat
  threshold : Nat
  tolerance : Nat
  floor : Nat
  spread : Nat
  dark : Nat
  learnMin : Nat
  learnMax : Nat
  deriving DecidableEq, Repr

/-- Plan targets (R60). -/
inductive Target where
  | dir (d : Face)
  | shut
  | keep
  deriving DecidableEq, Repr

/-- A schedule entry (R177); the weekday set is the octet of R199. -/
structure ScheduleEntry where
  weekdays : Octet
  hour : Nat
  minute : Nat
  plan : Nat
  deriving DecidableEq, Repr

/-- What a CONFIG_INVALID names (R12, R197). -/
inductive ConfigFault where
  | tunnel
  | lane (l : Nat)
  | station (k : Nat)
  | plan (id : Nat)
  deriving DecidableEq, Repr

/-- The configuration records the Configuration Store owns (R3 to R9). -/
structure Records where
  tunnel : Tunnel
  lanes : Tab (Option LaneCfg)
  stations : Tab (Option StationCfg)
  proving : Proving
  duties : List Nat
  deriving DecidableEq, Repr

/-- The contents of the configuration region (R15; Configuration records). -/
structure ConfigImage where
  records : Records
  plans : List (List Target)
  schedule : List (Option ScheduleEntry)
  mask : BitVec 22
  deriving DecidableEq, Repr

/-- A signature entry (R129). -/
inductive SigEntry where
  | unlearned
  | learned (value : Nat)
  | fixed (value : Nat)
  deriving DecidableEq, Repr

/-- The contents of the signature region (R15, R140). -/
structure SigImage where
  entries : Tab SigEntry
  idents : Tab (Option (BitVec 32))
  deriving DecidableEq, Repr

/-- A store write in progress, with the contents held when the command was taken (R18). -/
inductive StoreWrite where
  | config (image : ConfigImage)
  | signature (image : SigImage)
  deriving DecidableEq, Repr

/-! ### Block states -/

/-- The supply and the RESET_N line (R16, R17). -/
structure Power where
  on : Bool
  /-- the level of RESET_N, true for high -/
  resetN : Bool
  /-- the reset cause that a rise of RESET_N will give: POWER_UP when power came up while it was low (R16) -/
  heldCause : ResetCause
  deriving DecidableEq, Repr

/-- The Configuration Store (R3 to R19). -/
structure ConfigStore where
  records : Records
  /-- the current dim level of each zone (R9) -/
  dims : List Nat
  mode : Mode
  /-- the region states of the mode record, true for VALID (R14) -/
  configValid : Bool
  sigValid : Bool
  resetCause : ResetCause
  startRefusal : Option ConfigFault
  /-- what the non-volatile regions hold; none is a region whose checksum does not agree (R15) -/
  nvConfig : Option ConfigImage
  nvSig : Option SigImage
  writing : Option StoreWrite
  deriving DecidableEq, Repr

/-- Task kinds (R48). -/
inductive TaskKind where
  | close
  /-- OPEN with its direction -/
  | opn (d : Face)
  deriving DecidableEq, Repr

/-- Task origins (R48). -/
inductive Origin where
  | host
  | plan
  | schedule
  deriving DecidableEq, Repr

/-- A task record (R48). -/
structure Task where
  lane : Nat
  kind : TaskKind
  origin : Origin
  plan : Option Nat
  stamp : Stamp
  deriving DecidableEq, Repr

/-- Task outcomes (R44). -/
inductive TaskOutcome where
  | done
  | aborted
  | failed
  | cancelled
  | superseded
  | preEmpted
  | stalled
  deriving DecidableEq, Repr

/-- Reasons of FAILED (R44). -/
inductive Reason where
  | shutNotProven
  | stationUnavailable
  | emergencyHold
  | closureLost
  deriving DecidableEq, Repr

/-- A last-outcome record (R44). -/
structure LastOutcome where
  kind : TaskKind
  origin : Origin
  plan : Option Nat
  outcome : TaskOutcome
  reason : Option Reason
  stamp : Stamp
  deriving DecidableEq, Repr

/-- A lane state with the fields R20 makes present in it. -/
inductive LanePhase where
  | run (d : Face)
  | closing (d : Face) (front : Nat) (merge : Aspect) (task : Task)
  | clearance (d : Face) (confirmed window : Bool) (task : Task)
  | shut
  | opening (d : Face) (front : Nat) (restore : Bool) (task : Option Task)
  deriving DecidableEq, Repr

/-- A lane record (R20). The timer is the remaining ms of the one lane timer (R24). -/
structure LaneRec where
  phase : LanePhase
  timer : Option Nat
  emergency : Bool
  last : Option LastOutcome
  deriving DecidableEq, Repr

/-- The Changeover Engine (R20, R49, R60). -/
structure Engine where
  lanes : Tab LaneRec
  queue : List Task
  plans : List (List Target)
  deriving DecidableEq, Repr

/-- The derived fields of a head record (R66). `avail` lists the five lit aspects in the order of R2. -/
structure HeadRec where
  laneDemand : Aspect
  cascade : Bool
  override : Option Aspect
  lampTest : Option Aspect
  effective : Aspect
  avail : List Avail
  resolved : Aspect
  closureLost : Bool
  deriving DecidableEq, Repr

/-- An override entry (R88), its remaining hold in ms. -/
structure Override where
  head : HeadRef
  aspect : Aspect
  hold : Nat
  setTime : Stamp
  deriving DecidableEq, Repr

/-- An active lamp-test record (R96), its remaining window in ms. -/
structure LampTest where
  station : Nat
  face : Face
  aspect : Aspect
  window : Nat
  deriving DecidableEq, Repr

/-- Causes of a lamp test's ending (R96). -/
inductive LampEndCause where
  | window
  | host
  | start
  | station
  deriving DecidableEq, Repr

/-- The last-end record (R96). -/
structure LampEnd where
  station : Nat
  face : Face
  aspect : Aspect
  cause : LampEndCause
  deriving DecidableEq, Repr

/-- The Aspect Resolver (R66, R88, R96). `heads` holds, for each lane and face at place 2*lane+face, the records of
its positions from the entry on; `displayed` holds none for UNKNOWN. -/
structure Resolver where
  heads : List (List HeadRec)
  displayed : Tab (Option Aspect)
  overrides : List Override
  lampTest : Option LampTest
  lampLast : Option LampEnd
  deriving DecidableEq, Repr

/-- String states (R102). -/
inductive StringState where
  | unproven
  | ok
  | suspect
  | fault
  deriving DecidableEq, Repr

/-- Verdicts (R113). -/
inductive Verdict where
  | pass
  | failLow
  | failHigh
  | failSpread
  | inconclusive
  deriving DecidableEq, Repr

/-- An accumulator: samples held, their sum, least and greatest (R102). Empty: all 0. -/
structure Acc where
  count : Nat
  sum : Nat
  least : Nat
  greatest : Nat
  deriving DecidableEq, Repr

/-- The last result of a string (R114). -/
structure LastResult where
  avg : Nat
  least : Nat
  greatest : Nat
  low : Int
  high : Int
  verdict : Verdict
  dim : Nat
  deriving DecidableEq, Repr

/-- A string record (R102). `proved` is the model's own history of the string, which decides nothing: whether it has passed a
proving since the reset (R141), its station's return from LOST (R124) and the last event that made it UNPROVEN (log entry
33). With it the statements say of which proving an OK string is the result. -/
structure StringRec where
  state : StringState
  fails : Nat
  acc : Acc
  last : Option LastResult
  proved : Bool
  deriving DecidableEq, Repr

/-- Head conditions (R103). -/
inductive HeadCondition where
  | normal
  | mismatch
  | miswired
  deriving DecidableEq, Repr

/-- A head proving record (R103). -/
structure HeadProving where
  condition : HeadCondition
  mismatches : Nat
  openLeaks : Nat
  otherLeaks : Nat
  deriving DecidableEq, Repr

/-- Causes of a false-open (R103). -/
inductive FalseOpenCause where
  | shownOpen
  | openLeak
  deriving DecidableEq, Repr

/-- A false-open record (R103). -/
structure FalseOpen where
  head : HeadRef
  cause : FalseOpenCause
  time : Stamp
  deriving DecidableEq, Repr

/-- The Lamp Proving Unit (R102, R103). -/
structure LampUnit where
  strings : Tab StringRec
  heads : Tab HeadProving
  falseOpen : Tab (Option FalseOpen)
  deriving DecidableEq, Repr

/-- A string named by station, lane, face, aspect and string 1 or 2 (R2). -/
structure StringRef where
  head : HeadRef
  aspect : Aspect
  string : Nat
  deriving DecidableEq, Repr

/-- The action of a driver change (R138). -/
inductive ChangeAction where
  | unlearned
  | kept
  deriving DecidableEq, Repr

/-- A last-change record (R138). -/
structure LastChange where
  previous : BitVec 32
  current : BitVec 32
  action : ChangeAction
  count : Nat
  time : Stamp
  deriving DecidableEq, Repr

/-- The last-rejection record (R132). -/
structure Rejection where
  string : StringRef
  verdict : Verdict
  avg : Nat
  duty : Nat
  time : Stamp
  deriving DecidableEq, Repr

/-- The Signature Table (R129, R138, R140). A blank identity is none. -/
structure SigTable where
  entries : Tab SigEntry
  idents : Tab (Option (BitVec 32))
  changes : Tab (Option LastChange)
  rejection : Option Rejection
  unsaved : Bool
  deriving DecidableEq, Repr

/-- Station states (R151). -/
inductive StationState where
  | online
  | rerouted
  | lost
  | cut
  deriving DecidableEq, Repr

/-- Miss causes (R149, R151). -/
inductive MissCause where
  | none
  | timeout
  | crc
  | address
  | form
  deriving DecidableEq, Repr

/-- A station record (R151). The home end follows from N and the number. `supply` is none, or whether it is OPEN. -/
structure StationRec where
  state : StationState
  current : LinkEnd
  missWest : Nat
  missEast : Nat
  causeWest : MissCause
  causeEast : MissCause
  answered : Bool
  reprobe : Option Nat
  supplyOpen : Option Bool
  restorePending : Bool
  deriving DecidableEq, Repr

/-- A gantry frame without its start octet and CRC (R145). -/
structure GantryFrame where
  address : Octet
  kind : Octet
  body : List Octet
  deriving DecidableEq, Repr

/-- An exchange: the station polled, and whether it is a reprobe (R153, R165). -/
structure Exchange where
  station : Nat
  reprobe : Bool
  deriving DecidableEq, Repr

/-- The receiver of one end: hunting, or in a frame with the octets after its start octet, and whether that frame is
the answer of an exchange (R145). -/
inductive GantryRx where
  | hunting
  | inFrame (answer : Bool) (got : List Octet)
  deriving DecidableEq, Repr

/-- One end's poller (R152, R153). -/
structure Poller where
  /-- the frame being sent -/
  sending : Option GantryFrame
  /-- the exchange in flight -/
  exchange : Option Exchange
  /-- the remaining ms of the answer timeout, once the poll has been sent -/
  answerTimer : Option Nat
  /-- the last station served in the present round; none at the start of a round -/
  last : Option Nat
  /-- stations whose reprobe is due, in the order in which it became due -/
  due : List Nat
  phasePending : Bool
  /-- the poll that a RESTORE frame was just sent ahead of (R147) -/
  committed : Option Exchange
  rx : GantryRx
  deriving DecidableEq, Repr

/-- The Gantry Link Controller (R151, R152). -/
structure Link where
  stations : Tab StationRec
  west : Poller
  east : Poller
  deriving DecidableEq, Repr

/-- FLASH_SYNC line states (R166). -/
inductive LineState where
  | driving
  | following
  | freeRunning
  | notDriven
  deriving DecidableEq, Repr

/-- Results of a firing (R180). -/
inductive FiringResult where
  | fired (superseded added : Nat)
  | hostSilent
  | duplicate
  | queueFull
  deriving DecidableEq, Repr

/-- The last-firing record (R180). -/
structure LastFiring where
  time : Time
  indices : List Nat
  candidate : Nat
  plan : Nat
  result : FiringResult
  deriving DecidableEq, Repr

/-- The Time Base (R166, R174, R177, R180). `phase` is true for ON; an UNSET clock is none. -/
structure TimeBase where
  phase : Bool
  halfTimer : Option Nat
  line : LineState
  lossTimer : Option Nat
  clock : Option Time
  secondTimer : Option Nat
  schedule : List (Option ScheduleEntry)
  lastFiring : Option LastFiring
  deriving DecidableEq, Repr

/-- A host frame without its start octet, LEN and CRC (R181). -/
structure HostFrame where
  kind : Octet
  tag : Octet
  body : List Octet
  deriving DecidableEq, Repr

/-- The host receiver: HUNTING, or IN_FRAME with the octets after the start octet (R181). -/
inductive HostRx where
  | hunting
  | inFrame (got : List Octet)
  deriving DecidableEq, Repr

/-- Command processor states (R184). -/
inductive Processor where
  | ready
  | writing
  | closed
  deriving DecidableEq, Repr

/-- The Host Link Port (R181 to R188). The transmitter is IDLE when `tx` is none. The silence timer has expired
when `silence` is none. -/
structure HostPort where
  slots : List HostFrame
  processor : Processor
  replies : List HostFrame
  tx : Option HostFrame
  noticePending : Bool
  noticeCount : Octet
  rx : HostRx
  crcErrors : Nat
  lengthErrors : Nat
  gapErrors : Nat
  breakErrors : Nat
  overruns : Nat
  silence : Option Nat
  deriving DecidableEq, Repr

/-- The Attention Unit (R189, R193): bit i of a flag word is the flag of the kind with index i. -/
structure Attention where
  active : BitVec 22
  latched : BitVec 22
  rep : BitVec 22
  enabled : BitVec 22
  alert : Bool
  deriving DecidableEq, Repr

/-- The state of the TC-16. `pending` is the model's queue of commands that wait, first in first out. -/
structure State where
  power : Power
  config : ConfigStore
  engine : Engine
  resolver : Resolver
  lamps : LampUnit
  sigs : SigTable
  link : Link
  time : TimeBase
  host : HostPort
  attn : Attention
  pending : List Instr
  deriving DecidableEq, Repr

/-- The reasons a step could stop with a fault. The manual gives the part no event that stops it, and no meaning
raises this; it keeps the type inhabited. -/
inductive Fault where
  /-- Raised by no meaning. Safe: a stop that never happens supports no false claim. -/
  | neverRaised
  deriving DecidableEq, Repr

/-- The reasons a step could be refused. -/
inductive Refusal where
  /-- Raised by an arm of `exec` whose row has no meaning yet. Safe: nothing is claimed of such a row. -/
  | notModelled (mnemonic : String)
  deriving DecidableEq, Repr

/-! ### Reset values -/

/-- The unwritten TUNNEL record (R4, R16). -/
def Tunnel.default : Tunnel :=
  { written := false, n := 0, l := 0, stepTime := 8, clearance := 120, confirm := 600, lampWindow := 60,
    silence := 10, autoSchedule := false, autoStart := false, halfPeriod := 500, role := .master,
    dims := [0, 0, 0, 0], freeze := false }

/-- The default PROVING record (R8). -/
def Proving.default : Proving :=
  { depth := 3, threshold := 3, tolerance := 15, floor := 5, spread := 60, dark := 15, learnMin := 40,
    learnMax := 900 }

/-- The default duties, level 0 first (R9). -/
def defaultDuties : List Nat := [1000, 700, 500, 350, 250, 150, 80, 40]

/-- The records of a part whose configuration region is invalid (R16). -/
def Records.default : Records :=
  { tunnel := .default, lanes := [], stations := [], proving := .default, duties := defaultDuties }

/-- A plan whose every target is KEEP (R60). -/
def keepPlan : List Target := [.keep, .keep, .keep, .keep, .keep, .keep]

/-- The plan table of an invalid region (R16, R60). -/
def defaultPlans : List (List Target) :=
  [keepPlan, keepPlan, keepPlan, keepPlan, keepPlan, keepPlan, keepPlan, keepPlan]

/-- The schedule table of an invalid region (R16, R177). -/
def defaultSchedule : List (Option ScheduleEntry) := List.replicate 24 none

/-- A lane record at reset (R21). -/
def LaneRec.reset : LaneRec := { phase := .shut, timer := none, emergency := false, last := none }

/-- The empty accumulator (R102). -/
def Acc.empty : Acc := { count := 0, sum := 0, least := 0, greatest := 0 }

/-- A string record at reset (R102). -/
def StringRec.reset : StringRec := { state := .unproven, fails := 0, acc := .empty, last := none, proved := false }

/-- A head proving record at reset (R103). -/
def HeadProving.reset : HeadProving := { condition := .normal, mismatches := 0, openLeaks := 0, otherLeaks := 0 }

/-- A station record at reset on the end given, its home end (R151). -/
def StationRec.reset (home : LinkEnd) : StationRec :=
  { state := .online, current := home, missWest := 0, missEast := 0, causeWest := .none, causeEast := .none,
    answered := false, reprobe := none, supplyOpen := none, restorePending := false }

/-- A poller at reset (R148, R164). -/
def Poller.reset : Poller :=
  { sending := none, exchange := none, answerTimer := none, last := none, due := [], phasePending := false,
    committed := none, rx := .hunting }

/-- The part as delivered, after power has come up with RESET_N high and the start-up sequence of R16 has run: both
regions invalid (R15), so unconfigured, in STANDBY, with its pollers idle. Log entry 1. -/
def State.reset : State :=
  { power := { on := true, resetN := true, heldCause := .resetPin }
    config :=
      { records := .default, dims := [0, 0, 0, 0], mode := .standby, configValid := false, sigValid := false,
        resetCause := .powerUp, startRefusal := none, nvConfig := none, nvSig := none, writing := none }
    engine := { lanes := [], queue := [], plans := defaultPlans }
    resolver := { heads := [], displayed := [], overrides := [], lampTest := none, lampLast := none }
    lamps := { strings := [], heads := [], falseOpen := [] }
    sigs := { entries := [], idents := [], changes := [], rejection := none, unsaved := true }
    link := { stations := [], west := .reset, east := .reset }
    time :=
      { phase := true, halfTimer := some 500, line := .notDriven, lossTimer := none, clock := none,
        secondTimer := none, schedule := defaultSchedule, lastFiring := none }
    host :=
      { slots := [], processor := .ready, replies := [], tx := none, noticePending := false, noticeCount := 0,
        rx := .hunting, crcErrors := 0, lengthErrors := 0, gapErrors := 0, breakErrors := 0, overruns := 0,
        silence := some 10000 }
    attn := { active := 0, latched := 0, rep := 0, enabled := BitVec.allOnes 22, alert := false }
    pending := [] }

end Sys2Proof.Machine
end

