-- ==== Sys2Proof/Machine/Framing.lean ====
section
/-! DEFINITION. The frames of the two serial links: the CRC-16, the octets of a frame, the host receiver
(R181, R182) and the gantry receivers (R145, R149, R200). -/

namespace Sys2Proof.Machine

/-- The octet of a number below 256 (a larger number wraps). -/
def octet (n : Nat) : Octet := BitVec.ofNat 8 n

/-- The two octets of a 16-bit number, high octet first (R199). -/
def be16 (n : Nat) : List Octet := [octet (n / 256), octet n]

/-- The four octets of a 32-bit number, high octet first (R199). -/
def be32 (n : Nat) : List Octet := [octet (n / 16777216), octet (n / 65536), octet (n / 256), octet n]

/-- The octet at a place of a body, as a number; 0 beyond its end. -/
def oct (b : List Octet) (i : Nat) : Nat := (b.getD i 0).toNat

/-- The two-octet number at a place of a body, high octet first (R199). -/
def oct2 (b : List Octet) (i : Nat) : Nat := oct b i * 256 + oct b (i + 1)

/-! ### CRC-16 -/

/-- One bit of the CRC-16 register, polynomial x^16+x^12+x^5+1, most significant bit first (R181). -/
def crcBit (c : BitVec 16) : BitVec 16 := if c.msb then (c <<< 1) ^^^ 0x1021#16 else c <<< 1

/-- One octet into the CRC-16 register (R181). -/
def crcOctet (c : BitVec 16) (o : Octet) : BitVec 16 :=
  crcBit (crcBit (crcBit (crcBit (crcBit (crcBit (crcBit (crcBit (c ^^^ (o.setWidth 16 <<< 8)))))))))

/-- The CRC-16 over octets, from all ones, neither reflected nor inverted at the end (R181). -/
def crc16 (os : List Octet) : BitVec 16 := os.foldl crcOctet 0xFFFF#16

/-- The CRC-16 of octets as the two octets sent, high octet first (R181). -/
def crcOctets (os : List Octet) : List Octet := be16 (crc16 os).toNat

/-! ### Host frames -/

/-- The start octet of a host frame (R198, Host frames). -/
def hostStart : Octet := 0xA5#8

/-- LEN, KIND, TAG and body: what the CRC of a host frame is taken over (R181). -/
def HostFrame.checked (f : HostFrame) : List Octet := octet f.body.length :: f.kind :: f.tag :: f.body

/-- A host frame as it stands on the line (R181). -/
def HostFrame.octets (f : HostFrame) : List Octet := hostStart :: (f.checked ++ crcOctets f.checked)

/-- The faults on which the host receiver drops a frame (R182). -/
inductive HostFault where
  | length
  | gap
  | brk
  | crc
  deriving DecidableEq, Repr

/-- What the host receiver finds at an octet's arrival. -/
inductive HostRxEvent where
  | good (f : HostFrame)
  | dropped (fault : HostFault)
  deriving DecidableEq, Repr

/-- The octets of a frame, less its start octet, have all arrived: LEN + 5 of them (R181). -/
def hostComplete (got : List Octet) : Bool := got.length == oct got 0 + 5

/-- What the octets of a whole frame are: good, or dropped for its CRC (R181, R182). -/
def hostJudge (got : List Octet) : HostRxEvent :=
  let checked := got.take (oct got 0 + 3)
  if got.drop (oct got 0 + 3) = crcOctets checked then
    .good { kind := got.getD 1 0, tag := got.getD 2 0, body := checked.drop 3 }
  else .dropped .crc

/-- The host receiver takes one octet (R181, R182). -/
def HostRx.octet (rx : HostRx) (o : Octet) : HostRx × Option HostRxEvent :=
  match rx with
  | .hunting => if o = hostStart then (.inFrame [], none) else (.hunting, none)
  | .inFrame got =>
    let got' := got ++ [o]
    if got'.length = 1 ∧ 240 < o.toNat then (.hunting, some (.dropped .length))
    else if hostComplete got' then (.hunting, some (hostJudge got'))
    else (.inFrame got', none)

/-- The host receiver takes octets in turn; the events it finds, in order. -/
def HostRx.feed (rx : HostRx) : List Octet → HostRx × List HostRxEvent
  | [] => (rx, [])
  | o :: os =>
    let r := rx.octet o
    let rest := r.1.feed os
    (rest.1, r.2.toList ++ rest.2)

/-- A gap or a break: inside a frame it drops the frame with the fault given, in HUNTING it changes nothing
(R181, R182). -/
def HostRx.cutShort (rx : HostRx) (fault : HostFault) : HostRx × List HostRxEvent :=
  match rx with
  | .hunting => (.hunting, [])
  | .inFrame _ => (.hunting, [.dropped fault])

/-! ### Gantry frames -/

/-- The start octet of a gantry frame (Gantry frames). -/
def gantryStart : Octet := 0xC3#8

/-- Gantry frame kinds (Gantry frames). -/
def kindAspect : Octet := 1#8
def kindCut : Octet := 2#8
def kindRestore : Octet := 3#8
def kindPhase : Octet := 4#8
def kindSample : Octet := 9#8

/-- The broadcast address (Gantry frames). -/
def broadcast : Octet := 31#8

/-- Address, kind and body: what the CRC of a gantry frame is taken over (R145). -/
def GantryFrame.checked (f : GantryFrame) : List Octet := f.address :: f.kind :: f.body

/-- A gantry frame as it stands on the line (R145). -/
def GantryFrame.octets (f : GantryFrame) : List Octet := gantryStart :: (f.checked ++ crcOctets f.checked)

/-- What the octets of a gantry frame so far, less its start octet, say of it (R200). -/
inductive GantryProgress where
  /-- more octets are to come -/
  | partly
  /-- the octet just taken breaks the frame: an unknown kind or a count above 12 -/
  | broken
  /-- the frame is whole -/
  | whole
  deriving DecidableEq, Repr

/-- The place, after the start octet, of the octet that holds the count of a kind's list, and the octets each item
and the rest of the body take (Gantry frames). -/
def gantryLayout (kind : Octet) : Option (Option Nat × Nat × Nat) :=
  if kind = kindAspect then some (some 2, 1, 3)
  else if kind = kindCut then some (none, 0, 0)
  else if kind = kindRestore then some (none, 0, 0)
  else if kind = kindPhase then some (none, 0, 1)
  else if kind = kindSample then some (some 7, 11, 6)
  else none

/-- How far the octets after the start octet have come (R145, R200). -/
def gantryProgress (got : List Octet) : GantryProgress :=
  if got.length < 2 then .partly
  else
    match gantryLayout (got.getD 1 0) with
    | none => .broken
    | some (none, _, rest) => if got.length < rest + 4 then .partly else .whole
    | some (some at_, item, rest) =>
      if got.length ≤ at_ then .partly
      else if 12 < oct got at_ then .broken
      else if got.length < rest + item * oct got at_ + 4 then .partly
      else .whole

/-- What a gantry receiver finds: a frame that ended whole or broken, and whether it was an exchange's answer. -/
inductive GantryRxEvent where
  | whole (answer : Bool) (got : List Octet)
  | broken (answer : Bool)
  deriving DecidableEq, Repr

/-- The receiver of an end takes one octet; `inFlight` says whether an exchange is in flight on the end, which makes a
frame that starts now its answer (R145). DESIGN CHOICE (log entry 30): an octet that breaks a frame by its kind or its count
(R200) is taken with that frame, even where it is a start octet, and the receiver hunts from the next one. -/
def GantryRx.octet (rx : GantryRx) (inFlight : Bool) (o : Octet) : GantryRx × Option GantryRxEvent :=
  match rx with
  | .hunting => if o = gantryStart then (.inFrame inFlight [], none) else (.hunting, none)
  | .inFrame answer got =>
    let got' := got ++ [o]
    match gantryProgress got' with
    | .partly => (.inFrame answer got', none)
    | .broken => (.hunting, some (.broken answer))
    | .whole => (.hunting, some (.whole answer got'))

/-- A gap of more than 1 ms or a framing error: it ends a frame as broken (R145). -/
def GantryRx.cutShort (rx : GantryRx) : GantryRx × Option GantryRxEvent :=
  match rx with
  | .hunting => (.hunting, none)
  | .inFrame answer _ => (.hunting, some (.broken answer))

/-- The tests a frame received as an answer passes or fails, in the order of R149: none for a good answer, else the
cause of the miss. -/
def answerFault (station lanes : Nat) (got : List Octet) : Option MissCause :=
  let n := got.length - 2
  if got.drop n ≠ crcOctets (got.take n) then some .crc
  else if got.getD 1 0 ≠ kindSample then some .form
  else if oct got 0 ≠ station then some .address
  else if oct got 7 ≠ 2 * lanes then some .form
  else none

/-- A sample record as its octets carry it, its currents taken as at most 1,023 mA (R104, R200). -/
structure Sample where
  shown : Nat
  dim : Nat
  phase : Nat
  lit1 : Nat
  lit2 : Nat
  leakOpen : Nat
  leakOther : Nat
  deriving DecidableEq, Repr

/-- A current above 1,023 mA is taken as 1,023 mA (R200). -/
def clampCurrent (n : Nat) : Nat := min n Config.maxCurrent

/-- The sample record that begins at a place (R199 Gantry frames, R200). -/
def sampleAt (got : List Octet) (i : Nat) : Sample :=
  { shown := oct got i, dim := oct got (i + 1), phase := oct got (i + 2),
    lit1 := clampCurrent (oct2 got (i + 3)), lit2 := clampCurrent (oct2 got (i + 5)),
    leakOpen := clampCurrent (oct2 got (i + 7)), leakOther := clampCurrent (oct2 got (i + 9)) }

/-- The contents of a SAMPLE frame (R149). -/
structure SampleFrame where
  ident : BitVec 32
  supplyOpen : Bool
  records : List Sample
  deriving DecidableEq, Repr

/-- The contents of a good answer, from the octets after its start octet (R149, R200). -/
def readSample (got : List Octet) : SampleFrame :=
  { ident := got.getD 2 0 ++ got.getD 3 0 ++ got.getD 4 0 ++ got.getD 5 0
    supplyOpen := oct got 6 != 0
    records := (List.range (oct got 7)).map fun j => sampleAt got (8 + 11 * j) }

/-- A sample record as the octets a driver sends (Gantry frames). -/
def Sample.octets (r : Sample) : List Octet :=
  [octet r.shown, octet r.dim, octet r.phase] ++ be16 r.lit1 ++ be16 r.lit2 ++ be16 r.leakOpen ++ be16 r.leakOther

/-- A driver's SAMPLE frame (R149; Gantry frames). -/
def sampleFrame (station : Nat) (f : SampleFrame) : GantryFrame :=
  { address := octet station, kind := kindSample
    body := be32 f.ident.toNat ++ [if f.supplyOpen then 1#8 else 0#8, octet f.records.length] ++
      f.records.flatMap Sample.octets }

end Sys2Proof.Machine
end

