-- ==== Sys2Proof/Machine/Ops.lean ====
section
/-! DEFINITION. The named operations over the tables and registers of State: the sparse tables, the numbering of heads
and strings (R2), the accessors of every block, and the tests of the section's bounds (R1). -/

namespace Sys2Proof

/-- The code of a face (R199). -/
def Face.code : Face → Nat
  | .a => 0
  | .b => 1

/-- The other face. -/
def Face.other : Face → Face
  | .a => .b
  | .b => .a

/-- The number of a head among all the part can address: 12 to a station, two to a lane. -/
def HeadRef.key (h : HeadRef) : Nat := 12 * h.station + 2 * h.lane + h.face.code

/-- The other end of the gantry link. -/
def LinkEnd.other : LinkEnd → LinkEnd
  | .west => .east
  | .east => .west

end Sys2Proof

namespace Sys2Proof.Machine

/-! ### Sparse tables -/

/-- The record of a number; an unlisted number reads as `d`. -/
def Tab.get {α : Type} (d : α) : Tab α → Nat → α
  | [], _ => d
  | (k, v) :: t, i => if i = k then v else Tab.get d t i

/-- Writes the record of a number, keeping the canonical form. -/
def Tab.set {α : Type} [DecidableEq α] (d : α) : Tab α → Nat → α → Tab α
  | [], i, v => if v = d then [] else [(i, v)]
  | (k, w) :: t, i, v =>
    if i < k then (if v = d then (k, w) :: t else (i, v) :: (k, w) :: t)
    else if i = k then (if v = d then t else (i, v) :: t)
    else (k, w) :: Tab.set d t i v

/-- Applies `f` to the listed records whose numbers pass `p`, keeping the canonical form. It is used with functions
that leave the unlisted record `d` as it is. -/
def Tab.mapWhere {α : Type} [DecidableEq α] (d : α) (p : Nat → Bool) (f : α → α) : Tab α → Tab α
  | [] => []
  | (k, v) :: t =>
    if p k then (if f v = d then Tab.mapWhere d p f t else (k, f v) :: Tab.mapWhere d p f t)
    else (k, v) :: Tab.mapWhere d p f t

/-- The listed records whose numbers pass `p` are forgotten: their numbers read as the unlisted record again. -/
def Tab.eraseWhere {α : Type} (p : Nat → Bool) (t : Tab α) : Tab α := t.filter fun e => !p e.1

/-- The numbers a table lists, greater than a bound, rise, and no record equals `d`. -/
def Tab.wfAbove {α : Type} [DecidableEq α] (d : α) : Option Nat → Tab α → Bool
  | _, [] => true
  | b, (k, v) :: t => (b.all (· < k)) && v != d && Tab.wfAbove d (some k) t

/-- The canonical form of a table. -/
def Tab.wf {α : Type} [DecidableEq α] (d : α) (t : Tab α) : Bool := Tab.wfAbove d none t

/-- Writes one record of many numbers. -/
def Tab.setAll {α : Type} [DecidableEq α] (d : α) (v : α) (t : Tab α) (is : List Nat) : Tab α :=
  is.foldl (fun t i => Tab.set d t i v) t

/-! ### Numbering (R2) -/

/-- The aspect index of R2, and the code of R199 for every aspect. -/
def Aspect.code : Aspect → Nat
  | .opn => 0
  | .shut => 1
  | .divertL => 2
  | .divertR => 3
  | .slow => 4
  | .dark => 5

/-- The aspect of a code; none outside the six. -/
def Aspect.ofCode : Nat → Option Aspect
  | 0 => some .opn
  | 1 => some .shut
  | 2 => some .divertL
  | 3 => some .divertR
  | 4 => some .slow
  | 5 => some .dark
  | _ => none

/-- The lit aspects in the order of R2. -/
def litAspects : List Aspect := [.opn, .shut, .divertL, .divertR, .slow]

/-- The number of a string among the 1,920 (R2): ten to a head; `i` is its index within the head. -/
def stringKey (h : HeadRef) (i : Nat) : Nat := 10 * h.key + i

/-- The string index within a head of string 1 or 2 of an aspect (R2). -/
def stringIndex (a : Aspect) (string : Nat) : Nat := 2 * a.code + (string - 1)

/-- The section head index of a head (R2). -/
def headIndex (lanes : Nat) (h : HeadRef) : Nat := h.station * (2 * lanes) + (2 * h.lane + h.face.code)

/-- The heads of one station with `l` lanes, in head order (Conventions). -/
def stationHeads (l k : Nat) : List HeadRef :=
  (List.range l).flatMap fun i => [⟨k, i, .a⟩, ⟨k, i, .b⟩]

/-- The station at a position of a face (Conventions, Positions). -/
def stationAt (n : Nat) (f : Face) (pos : Nat) : Nat :=
  match f with
  | .a => pos
  | .b => n - 1 - pos

/-- The position of a station along a face (Conventions, Positions). -/
def positionOf (n : Nat) (f : Face) (k : Nat) : Nat := stationAt n f k

/-! ### The section -/

/-- N of the TUNNEL record (Conventions). -/
def State.n (s : State) : Nat := s.config.records.tunnel.n

/-- L of the TUNNEL record (Conventions). -/
def State.l (s : State) : Nat := s.config.records.tunnel.l

/-- The stations of the section. -/
def State.stationNumbers (s : State) : List Nat := List.range s.n

/-- The lanes of the section. -/
def State.laneNumbers (s : State) : List Nat := List.range s.l

/-- The heads of the section in head order (Conventions). -/
def State.sectionHeads (s : State) : List HeadRef := s.stationNumbers.flatMap (stationHeads s.l)

/-- A head lies in the section (R1). -/
def State.hasHead (s : State) (h : HeadRef) : Bool := decide (h.station < s.n) && decide (h.lane < s.l)

/-- A head number belongs to the section. -/
def State.headKeyIn (s : State) (key : Nat) : Bool := decide (key / 12 < s.n) && decide (key % 12 / 2 < s.l)

/-- A string number belongs to the section. -/
def State.stringKeyIn (s : State) (key : Nat) : Bool := s.headKeyIn (key / 10)

/-- A string number belongs to the heads of a station in the section. -/
def State.stringOfStation (s : State) (k key : Nat) : Bool :=
  decide (key / 120 = k) && s.stringKeyIn key

/-- A head number belongs to the heads of a station in the section. -/
def State.headOfStation (s : State) (k key : Nat) : Bool := decide (key / 12 = k) && s.headKeyIn key

/-! ### Accessors -/

/-- The LANE record of a lane (R6). -/
def State.laneCfg (s : State) (l : Nat) : Option LaneCfg := Tab.get none s.config.records.lanes l

/-- The STATION record of a station (R7). -/
def State.stationCfg (s : State) (k : Nat) : Option StationCfg := Tab.get none s.config.records.stations k

/-- The lane record of a lane (R20). -/
def State.lane (s : State) (l : Nat) : LaneRec := Tab.get LaneRec.reset s.engine.lanes l

/-- Writes the lane record of a lane. -/
def State.setLane (s : State) (l : Nat) (r : LaneRec) : State :=
  { s with engine.lanes := Tab.set LaneRec.reset s.engine.lanes l r }

/-- Writes the changeover queue. -/
def State.setQueue (s : State) (q : List Task) : State := { s with engine.queue := q }

/-- The string record of a string number (R102). -/
def State.string (s : State) (key : Nat) : StringRec := Tab.get StringRec.reset s.lamps.strings key

/-- Writes the string record of a string number. -/
def State.setString (s : State) (key : Nat) (r : StringRec) : State :=
  { s with lamps.strings := Tab.set StringRec.reset s.lamps.strings key r }

/-- Changes the string records whose numbers pass a test. -/
def State.mapStrings (s : State) (p : Nat → Bool) (f : StringRec → StringRec) : State :=
  { s with lamps.strings := Tab.mapWhere StringRec.reset p f s.lamps.strings }

/-- The head proving record of a head (R103). -/
def State.proving (s : State) (h : HeadRef) : HeadProving := Tab.get HeadProving.reset s.lamps.heads h.key

/-- Writes the head proving record of a head. -/
def State.setProving (s : State) (h : HeadRef) (r : HeadProving) : State :=
  { s with lamps.heads := Tab.set HeadProving.reset s.lamps.heads h.key r }

/-- Changes the head proving records whose numbers pass a test. -/
def State.mapProving (s : State) (p : Nat → Bool) (f : HeadProving → HeadProving) : State :=
  { s with lamps.heads := Tab.mapWhere HeadProving.reset p f s.lamps.heads }

/-- The false-open record of a station (R103). -/
def State.falseOpen (s : State) (k : Nat) : Option FalseOpen := Tab.get none s.lamps.falseOpen k

/-- The displayed aspect of a head, none for UNKNOWN (R69). -/
def State.displayed (s : State) (h : HeadRef) : Option Aspect := Tab.get none s.resolver.displayed h.key

/-- Writes the displayed aspect of a head. -/
def State.setDisplayed (s : State) (h : HeadRef) (a : Option Aspect) : State :=
  { s with resolver.displayed := Tab.set none s.resolver.displayed h.key a }

/-- Writes the displayed aspect of every head of a station (R69). -/
def State.setStationDisplayed (s : State) (k : Nat) (a : Option Aspect) : State :=
  (stationHeads s.l k).foldl (fun s h => s.setDisplayed h a) s

/-- The signature entry of a string number (R129). -/
def State.entry (s : State) (key : Nat) : SigEntry := Tab.get SigEntry.unlearned s.sigs.entries key

/-- Writes the signature entry of a string number. -/
def State.setEntry (s : State) (key : Nat) (e : SigEntry) : State :=
  { s with sigs.entries := Tab.set SigEntry.unlearned s.sigs.entries key e }

/-- The recorded driver identity of a station, none for blank (R138). -/
def State.ident (s : State) (k : Nat) : Option (BitVec 32) := Tab.get none s.sigs.idents k

/-- The last-change record of a station (R138). -/
def State.lastChange (s : State) (k : Nat) : Option LastChange := Tab.get none s.sigs.changes k

/-- Sets the unsaved flag (R140). -/
def State.setUnsaved (s : State) : State := { s with sigs.unsaved := true }

/-- The home end of a station (R151). -/
def homeEnd (n k : Nat) : LinkEnd := if k < n / 2 then .west else .east

/-- The station record of a station (R151). DESIGN CHOICE (log entry 32): a record that the table does not list, as none is at
reset on an unconfigured part, reads as ONLINE with current end WEST; R151 gives reset values for a configured section only. -/
def State.station (s : State) (k : Nat) : StationRec := Tab.get (StationRec.reset .west) s.link.stations k

/-- Writes the station record of a station. -/
def State.setStation (s : State) (k : Nat) (r : StationRec) : State :=
  { s with link.stations := Tab.set (StationRec.reset .west) s.link.stations k r }

/-- The poller of an end (R152). -/
def State.poller (s : State) : LinkEnd → Poller
  | .west => s.link.west
  | .east => s.link.east

/-- Writes the poller of an end. -/
def State.setPoller (s : State) (e : LinkEnd) (p : Poller) : State :=
  match e with
  | .west => { s with link.west := p }
  | .east => { s with link.east := p }

/-- The pollers run while N is at least 2 (R164). -/
def State.polling (s : State) : Bool := decide (2 ≤ s.n)

/-- A station is LOST or CUT, so its heads are unavailable (R72). -/
def State.stationDown (s : State) (k : Nat) : Bool :=
  match (s.station k).state with
  | .lost => true
  | .cut => true
  | .online => false
  | .rerouted => false

/-- The current dim level of a station's zone; none without a STATION record (R107). -/
def State.stationDim (s : State) (k : Nat) : Option Nat :=
  (s.stationCfg k).map fun c => s.config.dims.getD c.zone 0

/-- The duty of a dim level (R9, R111). -/
def State.duty (s : State) (dim : Nat) : Nat := s.config.records.duties.getD dim 0

/-- The stamp of the present moment (R174). -/
def State.stamp (s : State) : Stamp := s.time.clock

/-- The part is powered and not held in reset: its events can happen (R16, R17). -/
def State.live (s : State) : Bool := s.power.on && s.power.resetN

/-- Clamping to a range (Conventions). -/
def clamp (lo hi n : Nat) : Nat := max lo (min hi n)

/-- Counts the members of a list that pass a test. -/
def countWhere {α : Type} (p : α → Bool) (xs : List α) : Nat := (xs.filter p).length

end Sys2Proof.Machine
end

