-- ==== Sys2Proof/Machine/Flags.lean ====
section
/-! DEFINITION. The Attention Unit: kinds, raising, condition reports and ALERT (R189 to R193). -/

namespace Sys2Proof.Machine

/-- The 22 attention kinds in index order (R189). -/
inductive AttnKind where
  | taskDone
  | taskUnsuccessful
  | clearanceConfirmDue
  | stringFault
  | aspectFailed
  | headFault
  | entryClosureLost
  | falseOpen
  | stationCut
  | stationLost
  | ringDegraded
  | driverChanged
  | learnRejected
  | overrideExpired
  | lampTestEnded
  | scheduleFired
  | scheduleNotApplied
  | flashSyncLost
  | hostSilent
  | linkError
  | linkOverrun
  | storeFailed
  deriving DecidableEq, Repr

/-- The index of a kind (R189). -/
def AttnKind.index : AttnKind → Nat
  | .taskDone => 0
  | .taskUnsuccessful => 1
  | .clearanceConfirmDue => 2
  | .stringFault => 3
  | .aspectFailed => 4
  | .headFault => 5
  | .entryClosureLost => 6
  | .falseOpen => 7
  | .stationCut => 8
  | .stationLost => 9
  | .ringDegraded => 10
  | .driverChanged => 11
  | .learnRejected => 12
  | .overrideExpired => 13
  | .lampTestEnded => 14
  | .scheduleFired => 15
  | .scheduleNotApplied => 16
  | .flashSyncLost => 17
  | .hostSilent => 18
  | .linkError => 19
  | .linkOverrun => 20
  | .storeFailed => 21

/-- The flag of a kind in a flag word. -/
def AttnKind.bit (k : AttnKind) : BitVec 22 := BitVec.twoPow 22 k.index

/-- A flag word has the flag of a kind set. -/
def hasFlag (w : BitVec 22) (k : AttnKind) : Bool := w.getLsbD k.index

/-- The CRITICAL kinds (R189): indices 6 to 9. -/
def criticalMask : BitVec 22 := 0x3C0#22

/-- Sets or clears the flag of a kind. -/
def putFlag (w : BitVec 22) (k : AttnKind) (v : Bool) : BitVec 22 :=
  if v then w ||| k.bit else w &&& ~~~ k.bit

/-- A raising of a kind (R189). -/
def State.raise (s : State) (k : AttnKind) : State :=
  { s with
    attn :=
      if hasFlag s.attn.latched k then { s.attn with rep := putFlag s.attn.rep k true }
      else { s.attn with latched := putFlag s.attn.latched k true }
    host.noticePending := s.host.noticePending || hasFlag s.attn.enabled k }

/-- A kind raised several times in one event (R189). -/
def State.raiseTimes (s : State) (k : AttnKind) : Nat → State
  | 0 => s
  | n + 1 => (s.raise k).raiseTimes k n

/-- A kind raised where a condition holds. -/
def State.raiseIf (s : State) (c : Bool) (k : AttnKind) : State := if c then s.raise k else s

/-- A condition report (R190). -/
def State.report (s : State) (k : AttnKind) (v : Bool) : State :=
  { s with attn.active := putFlag s.attn.active k v }

/-- ALERT is asserted exactly when a CRITICAL kind is active or latched (R193). -/
def alertLevel (a : Attention) : Bool := (a.active ||| a.latched) &&& criticalMask != 0

/-- The Attention Unit sets the level of ALERT (R193). -/
def State.driveAlert (s : State) : State := { s with attn.alert := alertLevel s.attn }

/-- The latched kinds in ascending index. -/
def indicesOf (w : BitVec 22) : List Nat := (List.range 22).filter fun i => w.getLsbD i

end Sys2Proof.Machine
end

