-- ==== Sys2Proof/Machine/Resolve.lean ====
section
/-! DEFINITION. Aspect resolution (spec/04, with the lane demand of R22): from the present state of the part to the head
table. A head's record depends on its downstream neighbour only through the cascade demand, so the records of one lane
and face are computed from the exit to the entry. -/

namespace Sys2Proof.Machine

/-- The lane demand at a position of a face (R22). -/
def laneDemand (p : LanePhase) (f : Face) (pos : Nat) : Aspect :=
  match p with
  | .run d => if f = d then .opn else .shut
  | .closing d front merge _ =>
    if f = d then (if pos < front then .shut else if pos = front then merge else .opn) else .shut
  | .clearance _ _ _ _ => .shut
  | .shut => .shut
  | .opening d front _ _ => if f = d then (if front ≤ pos then .opn else .shut) else .shut

/-- The override entry of a head, if the table holds one (R68, R88). -/
def State.overrideOf (s : State) (h : HeadRef) : Option Override := s.resolver.overrides.find? fun o => o.head = h

/-- The lamp-test demand of a head (R68, R96): the test aspect in STANDBY, while the active test names the head. -/
def State.lampTestDemand (s : State) (h : HeadRef) : Option Aspect :=
  match s.resolver.lampTest with
  | none => none
  | some t =>
    if s.config.mode = .standby ∧ t.station = h.station ∧ t.face = h.face then some t.aspect else none

/-- The restrictiveness order (Conventions), as a number: SHUT; the diagonals; SLOW; OPEN. -/
def Aspect.rank : Aspect → Nat
  | .shut => 3
  | .divertL => 2
  | .divertR => 2
  | .slow => 1
  | .opn => 0
  | .dark => 0

/-- The more restrictive of two demands; the two diagonals together give SHUT (R70). -/
def moreRestrictive (a b : Aspect) : Aspect :=
  if a.rank < b.rank then b
  else if b.rank < a.rank then a
  else if a = b then a
  else .shut

/-- The effective demand of a head from the demands present on it (R70, R71). -/
def effectiveDemand (mode : Mode) (lane : Aspect) (cascade : Bool) (override lampTest : Option Aspect) : Aspect :=
  match mode with
  | .standby => lampTest.getD .shut
  | .run =>
    let withCascade := if cascade then moreRestrictive lane .shut else lane
    match override with
    | none => withCascade
    | some o => moreRestrictive withCascade o

/-- A head is unavailable (R72). -/
def State.headUnavailable (s : State) (h : HeadRef) : Bool :=
  s.stationDown h.station || (s.proving h).condition != .normal

/-- A string of a head is in FAULT. -/
def State.faulty (s : State) (h : HeadRef) (i : Nat) : Bool := (s.string (stringKey h i)).state == .fault

/-- The availability of an aspect on a head (R72). -/
def State.availability (s : State) (h : HeadRef) (a : Aspect) : Avail :=
  if s.headUnavailable h then .failed
  else if s.faulty h (stringIndex a 1) && s.faulty h (stringIndex a 2) then .failed
  else if s.faulty h (stringIndex a 1) || s.faulty h (stringIndex a 2) then .degraded
  else .available

/-- The availability a head record holds for an aspect. -/
def HeadRec.availOf (r : HeadRec) (a : Aspect) : Avail := r.avail.getD a.code .failed

/-- The resolved aspect (R74). -/
def resolvedAspect (e : Aspect) (avail : Aspect → Avail) : Aspect :=
  if avail e ≠ .failed then e
  else
    match e with
    | .divertL => if avail .shut ≠ .failed then .shut else .dark
    | .divertR => if avail .shut ≠ .failed then .shut else .dark
    | .slow => if avail .shut ≠ .failed then .shut else .dark
    | .opn => .dark
    | .shut => .dark
    | .dark => .dark

/-- The record of a head, given whether its downstream neighbour is closure-lost (R66, R76). -/
def State.resolveHead (s : State) (h : HeadRef) (cascade : Bool) : HeadRec :=
  let lane := laneDemand (s.lane h.lane).phase h.face (positionOf s.n h.face h.station)
  let override := (s.overrideOf h).map (·.aspect)
  let lampTest := s.lampTestDemand h
  let e := effectiveDemand s.config.mode lane cascade override lampTest
  let r := resolvedAspect e (s.availability h)
  { laneDemand := lane, cascade := cascade, override := override, lampTest := lampTest, effective := e,
    avail := litAspects.map (s.availability h), resolved := r
    closureLost := decide (e ≠ .opn) && decide (r = .dark) }

/-- The records of the last `j` positions of a lane's face, from the exit back; each head takes the cascade demand its
downstream neighbour places (R77). -/
def State.resolveChain (s : State) (lane : Nat) (f : Face) : Nat → List HeadRec
  | 0 => []
  | j + 1 =>
    let rest := s.resolveChain lane f j
    let cascade := match rest with
      | [] => false
      | r :: _ => r.closureLost
    s.resolveHead ⟨stationAt s.n f (s.n - 1 - j), lane, f⟩ cascade :: rest

/-- The face of a place of the head table. -/
def faceOfPlace (i : Nat) : Face := if i % 2 = 0 then .a else .b

/-- The head table that the present state of the part calls for (R66, R81). -/
def State.resolveTable (s : State) : List (List HeadRec) :=
  (List.range (2 * s.l)).map fun i => s.resolveChain (i / 2) (faceOfPlace i) s.n

/-- The record a head table of `n` stations holds for a head. -/
def tableAt (t : List (List HeadRec)) (n : Nat) (h : HeadRef) : Option HeadRec :=
  (t.getD (2 * h.lane + h.face.code) [])[positionOf n h.face h.station]?

/-- The head record of a head (R66). -/
def State.headRec (s : State) (h : HeadRef) : Option HeadRec := tableAt s.resolver.heads s.n h

/-- The resolved aspect the head table holds; DARK for a head it does not hold. -/
def State.resolved (s : State) (h : HeadRef) : Aspect :=
  match s.headRec h with
  | none => .dark
  | some r => r.resolved

/-- The availability of a record's effective demand is FAILED (R80). -/
def HeadRec.failed (r : HeadRec) : Bool := r.availOf r.effective == .failed

/-- A head is the entry head of its face (Conventions, Upstream). -/
def isEntry (n : Nat) (h : HeadRef) : Bool := positionOf n h.face h.station == 0

/-- A record is present and passes a test. -/
def recHas (p : HeadRec → Bool) : Option HeadRec → Bool
  | none => false
  | some r => p r

/-- Some head of the section has its E availability FAILED (R80). -/
def anyFailed (t : List (List HeadRec)) : Bool := t.any fun c => c.any HeadRec.failed

/-- Some entry head is closure-lost: the entry-closure set is not empty (R79). -/
def anyEntryLost (t : List (List HeadRec)) : Bool :=
  t.any fun c => match c with
    | [] => false
    | r :: _ => r.closureLost

/-- The pairs of the entry-closure set, in lane order and face A before face B (R79, R87). -/
def State.entryClosures (s : State) : List (Nat × Face) :=
  (List.range (2 * s.l)).filterMap fun i =>
    match s.resolver.heads.getD i [] with
    | [] => none
    | r :: _ => if r.closureLost then some (i / 2, faceOfPlace i) else none

/-- The SHUT aspect of a head is proven: at least one of its two strings is OK, whatever the other is (R33). The check reads
the string states and no other part of a string record (R85). DEDUCED (log entry 28): what R124, R126 and R141 say of the
check follows from R33 and asks for nothing more. -/
def State.shutProven (s : State) (h : HeadRef) : Bool :=
  let ok (i : Nat) : Bool := (s.string (stringKey h (stringIndex .shut i))).state == .ok
  ok 1 || ok 2

/-- The opening start check (R33), made from the present state of the part (R81): none when it passes. -/
def State.startCheck (s : State) (lane : Nat) : Option Reason :=
  if s.stationNumbers.any s.stationDown then some .stationUnavailable
  else
    let chainOk (f : Face) : Bool :=
      let chain := s.resolveChain lane f s.n
      s.stationNumbers.all fun k =>
        let h : HeadRef := ⟨k, lane, f⟩
        recHas (fun r => r.resolved == .shut) chain[positionOf s.n f k]? &&
          (s.displayed h == some .shut && s.shutProven h)
    if chainOk .a && chainOk .b then none else some .shutNotProven

end Sys2Proof.Machine
end

