-- ==== Sys2Proof/Machine/Changeover.lean ====
section
/-! DEFINITION. The Changeover Engine's shared operations: task endings (R44), the sweep (R23 to R29), the scan (R56, R57),
projection (R50), and the expansion and application of plans (R62, R63). -/

namespace Sys2Proof.Machine

/-! ### Lanes -/

/-- A lane in CLOSING or OPENING holds the sweep (R23). -/
def LanePhase.sweeping : LanePhase → Bool
  | .closing _ _ _ _ => true
  | .opening _ _ _ _ => true
  | .run _ => false
  | .clearance _ _ _ _ => false
  | .shut => false

/-- The task a lane carries (R20). -/
def LanePhase.task : LanePhase → Option Task
  | .closing _ _ _ t => some t
  | .clearance _ _ _ t => some t
  | .opening _ _ _ t => t
  | .run _ => none
  | .shut => none

/-- A lane in CLEARANCE with its confirm window open (R30). -/
def LanePhase.windowOpen : LanePhase → Bool
  | .clearance _ _ w _ => w
  | .run _ => false
  | .closing _ _ _ _ => false
  | .shut => false
  | .opening _ _ _ _ => false

/-- A fresh opening: OPENING with the restore flag clear (R36). -/
def LanePhase.freshOpening : LanePhase → Bool
  | .opening _ _ restore _ => !restore
  | .run _ => false
  | .closing _ _ _ _ => false
  | .clearance _ _ _ _ => false
  | .shut => false

/-- The code of a lane state (R199). -/
def LanePhase.code : LanePhase → Nat
  | .run _ => 0
  | .closing _ _ _ _ => 1
  | .clearance _ _ _ _ => 2
  | .shut => 3
  | .opening _ _ _ _ => 4

/-- Puts a lane into a state, with the remaining ms of the lane timer that runs in it. -/
def State.putPhase (s : State) (lane : Nat) (p : LanePhase) (timer : Option Nat) : State :=
  s.setLane lane { s.lane lane with phase := p, timer := timer }

/-- The sweep is free: no lane of the section is in CLOSING or OPENING (R23). -/
def State.sweepFree (s : State) : Bool := s.laneNumbers.all fun l => !(s.lane l).phase.sweeping

/-- The lane that holds the sweep. -/
def State.sweepLane (s : State) : Option Nat := s.laneNumbers.find? fun l => (s.lane l).phase.sweeping

/-- The active-task slot (R20, R49): the task of the lane that holds the sweep. -/
def State.activeTask (s : State) : Option Task := s.sweepLane.bind fun l => (s.lane l).phase.task

/-- The step time in ms (R24). -/
def State.stepMs (s : State) : Nat := s.config.records.tunnel.stepTime * 1000

/-- Every lane of the section is SHUT (R13). -/
def State.allShut (s : State) : Bool := s.laneNumbers.all fun l => (s.lane l).phase == .shut

/-! ### Task endings -/

/-- Writes the last outcome of a lane (R44). -/
def State.writeOutcome (s : State) (lane : Nat) (o : LastOutcome) : State :=
  s.setLane lane { s.lane lane with last := some o }

/-- A task ends: its lane's last outcome is written, and TASK_DONE or TASK_UNSUCCESSFUL is raised (R44). -/
def State.endTask (s : State) (t : Task) (o : TaskOutcome) (r : Option Reason) : State :=
  (s.writeOutcome t.lane
    { kind := t.kind, origin := t.origin, plan := t.plan, outcome := o, reason := r, stamp := s.stamp }).raise
    (if o = .done then .taskDone else .taskUnsuccessful)

/-- The outcome an untasked opening writes when it fails or is aborted (R36, R40). -/
def State.endUntasked (s : State) (lane : Nat) (d : Face) (o : TaskOutcome) (r : Option Reason) : State :=
  (s.writeOutcome lane
    { kind := .opn d, origin := .host, plan := none, outcome := o, reason := r, stamp := s.stamp }).raise
    .taskUnsuccessful

/-- Ends the task of an opening, or writes the outcome of an untasked one. -/
def State.endOpening (s : State) (lane : Nat) (d : Face) (t : Option Task) (o : TaskOutcome) (r : Option Reason) : State :=
  match t with
  | some t => s.endTask t o r
  | none => s.endUntasked lane d o r

/-- The queued tasks that pass a test leave the queue with an outcome, oldest first (R46, R58). -/
def State.removeQueued (s : State) (p : Task → Bool) (o : TaskOutcome) : State :=
  (s.engine.queue.filter p).foldl (fun s t => s.endTask t o none)
    (s.setQueue (s.engine.queue.filter fun t => !p t))

/-- Two tasks have the same kind: the direction of an OPEN does not enter into it (R48). -/
def TaskKind.same : TaskKind → TaskKind → Bool
  | .close, .close => true
  | .opn _, .opn _ => true
  | .close, .opn _ => false
  | .opn _, .close => false

/-- A task is an OPEN. -/
def TaskKind.isOpen : TaskKind → Bool
  | .close => false
  | .opn _ => true

/-- The queued OPEN tasks of a lane are removed CANCELLED (R31, R38, R39). -/
def State.cancelOpens (s : State) (lane : Nat) : State :=
  s.removeQueued (fun t => t.lane == lane && t.kind.isOpen) .cancelled

/-! ### Starting tasks -/

/-- A lane number exists and runs in a direction (R26). -/
def State.runsIn (s : State) (lane : Option Nat) (d : Face) : Bool :=
  match lane with
  | none => false
  | some l => decide (l < s.l) && (s.lane l).phase == .run d

/-- The neighbour on the lower side of a lane. -/
def lowerLane (l : Nat) : Option Nat := if l = 0 then none else some (l - 1)

/-- The aspect that points to a merge target on the lower or the higher side (R26). -/
def mergeToward (d : Face) (lower : Bool) : Aspect :=
  match d with
  | .a => if lower then .divertL else .divertR
  | .b => if lower then .divertR else .divertL

/-- The merge aspect a closing sweep of a lane chooses (R26). -/
def State.mergeAspect (s : State) (lane : Nat) (d : Face) : Aspect :=
  let prefersLower : Bool := match s.laneCfg lane with
    | none => true
    | some c => c.merge == .lower
  let low := s.runsIn (lowerLane lane) d
  let high := s.runsIn (some (lane + 1)) d
  if prefersLower then
    (if low then mergeToward d true else if high then mergeToward d false else .slow)
  else (if high then mergeToward d false else if low then mergeToward d true else .slow)

/-- The merge target a merge aspect points to (R26); none for SLOW. -/
def mergeTarget (lane : Nat) (d : Face) (a : Aspect) : Option Nat :=
  if a = mergeToward d true then lowerLane lane
  else if a = mergeToward d false then some (lane + 1)
  else none

/-- A CLOSE task starts on a lane in RUN (d) (R25). -/
def State.startClose (s : State) (t : Task) (d : Face) : State :=
  s.putPhase t.lane (.closing d 0 (s.mergeAspect t.lane d) t) (some s.stepMs)

/-- Why an OPEN task that the scan reaches on a SHUT lane ends FAILED, if it does (R34, steps 1 and 2). -/
def State.openBar (s : State) (t : Task) : Option Reason :=
  if (s.lane t.lane).emergency ∧ t.origin ≠ .host then some .emergencyHold else s.startCheck t.lane

/-- An OPEN (d) task starts on a SHUT lane (R34, step 3). -/
def State.startOpen (s : State) (t : Task) (d : Face) : State :=
  let r := s.lane t.lane
  s.setLane t.lane
    { r with
      phase := .opening d (s.n - 1) false (some t)
      timer := some s.stepMs
      emergency := if t.origin = .host then false else r.emergency }

/-- The walk of the scan over the queue (R57). `kept` holds the tasks walked past that keep their place. -/
def State.scanQueue (s : State) (kept : List Task) : List Task → State
  | [] => s.setQueue kept
  | t :: rest =>
    if kept.any (fun u => u.lane == t.lane) then s.scanQueue (kept ++ [t]) rest
    else
      match (s.lane t.lane).phase, t.kind with
      | .run d, .close => (s.setQueue (kept ++ rest)).startClose t d
      | .run _, .opn _ => (s.endTask t .cancelled none).scanQueue kept rest
      | .shut, .close => (s.endTask t .cancelled none).scanQueue kept rest
      | .shut, .opn d =>
        match s.openBar t with
        | some r => (s.endTask t .failed (some r)).scanQueue kept rest
        | none => (s.setQueue (kept ++ rest)).startOpen t d
      | .closing _ _ _ _, _ => s.scanQueue (kept ++ [t]) rest
      | .clearance _ _ _ _, _ => s.scanQueue (kept ++ [t]) rest
      | .opening _ _ _ _, _ => s.scanQueue (kept ++ [t]) rest

/-- The scan of the changeover queue: it runs only while the sweep is free (R56, R57). -/
def State.scan (s : State) : State := if s.sweepFree then s.scanQueue [] s.engine.queue else s

/-- A fresh opening of a lane fails with CLOSURE_LOST (R36); the scan is left to the caller. -/
def State.failOpening (s : State) (lane : Nat) : State :=
  match (s.lane lane).phase with
  | .opening d _ false t => (s.putPhase lane .shut none).endOpening lane d t .failed (some .closureLost)
  | _ => s

/-! ### Projection -/

/-- The projected state of a lane before its queued tasks: RUN (d), or none for SHUT (R50, step 1). -/
def LanePhase.projected : LanePhase → Option Face
  | .run d => some d
  | .opening d _ _ _ => some d
  | .shut => none
  | .closing _ _ _ _ => none
  | .clearance _ _ _ _ => none

/-- The effect of a queued task on a projection (R50, step 2). -/
def TaskKind.project : TaskKind → Option Face
  | .close => none
  | .opn d => some d

/-- The projected state of a lane over a queue: RUN (d), or none for SHUT (R50). -/
def State.project (s : State) (queue : List Task) (lane : Nat) : Option Face :=
  (queue.filter fun t => t.lane == lane).foldl (fun _ t => t.kind.project) (s.lane lane).phase.projected

/-- The direction a lane's kind refuses (R43); none for a TIDAL lane or one with no record. -/
def State.barredDirection (s : State) (lane : Nat) : Option Face :=
  match s.laneCfg lane with
  | none => none
  | some c =>
    match c.kind with
    | .tidal => none
    | .fixedA => some .b
    | .fixedB => some .a

/-- A queue holds a task of a lane and kind (R49). -/
def holdsTask (queue : List Task) (t : Task) : Bool := queue.any fun u => u.lane == t.lane && u.kind.same t.kind

/-- Tasks join the queue at its newest end (R49). -/
def State.enqueue (s : State) (ts : List Task) : State := s.setQueue (s.engine.queue ++ ts)

/-! ### Plans -/

/-- The target a plan gives a lane (R60). -/
def State.target (s : State) (plan lane : Nat) : Target :=
  (s.engine.plans.getD (plan - 1) keepPlan).getD lane .keep

/-- A lane with this target and projection gets a CLOSE (R62, step 3). -/
def planCloses (t : Target) (p : Option Face) : Bool :=
  match t, p with
  | .shut, some _ => true
  | .dir d, some e => d != e
  | .shut, none => false
  | .dir _, none => false
  | .keep, _ => false

/-- A lane with this target and projection gets an OPEN in a direction (R62, step 3). -/
def planOpens (t : Target) (p : Option Face) : Option Face :=
  match t with
  | .dir d => if p = some d then none else some d
  | .shut => none
  | .keep => none

/-- The queued tasks a selection does not mark for removal (R62, step 1). -/
def State.unmarked (s : State) : List Task := s.engine.queue.filter fun t => t.origin == .host

/-- The new tasks of a plan's expansion, in order (R62). -/
def State.expandPlan (s : State) (origin : Origin) (plan : Nat) : List Task :=
  let proj := s.project s.unmarked
  let task (l : Nat) (k : TaskKind) : Task := { lane := l, kind := k, origin := origin, plan := some plan, stamp := s.stamp }
  (s.laneNumbers.filter fun l => planCloses (s.target plan l) (proj l)).map (fun l => task l .close) ++
    s.laneNumbers.filterMap fun l => (planOpens (s.target plan l) (proj l)).map fun d => task l (.opn d)

/-- What becomes of a selection (R63). -/
inductive PlanResult where
  | applied (s : State) (superseded added : Nat)
  | duplicate (lane : Nat)
  | queueFull (queued needed : Nat)

/-- The least of a list of numbers; 0 for none. -/
def leastOf (ns : List Nat) : Nat := ns.foldl min (ns.headD 0)

/-- A plan is expanded and applied, all or nothing (R62, R63). -/
def State.selectPlan (s : State) (origin : Origin) (plan : Nat) : PlanResult :=
  let new := s.expandPlan origin plan
  let dups := new.filter (holdsTask s.unmarked)
  if dups ≠ [] then .duplicate (leastOf (dups.map (·.lane)))
  else if Config.queuePlaces < s.unmarked.length + new.length then .queueFull s.unmarked.length new.length
  else
    .applied (((s.removeQueued (fun t => t.origin != .host) .superseded).enqueue new).scan)
      (s.engine.queue.length - s.unmarked.length) new.length

/-- A plan contradicts the kind of a lane (R12, R60). -/
def State.contradicts (s : State) (t : Target) (lane : Nat) : Bool :=
  match t, s.barredDirection lane with
  | .dir d, some barred => d == barred
  | .dir _, none => false
  | .shut, _ => false
  | .keep, _ => false

end Sys2Proof.Machine
end

