-- ==== Sys2Proof/Machine/Signatures.lean ====
section
/-! DEFINITION. The Signature Table's shared operations (spec/07): learning, refresh, rejection, unlearning and driver
identities, with the emptying of accumulators they cause (R110). -/

namespace Sys2Proof.Machine

/-- A string record with its accumulator emptied (R110). -/
def StringRec.emptied (r : StringRec) : StringRec := { r with acc := Acc.empty }

/-- Empties the accumulators of the strings whose numbers pass a test (R110). -/
def State.emptyAccs (s : State) (p : Nat → Bool) : State := s.mapStrings p StringRec.emptied

/-- The class code of an entry (R199). -/
def SigEntry.code : SigEntry → Nat
  | .unlearned => 0
  | .learned _ => 1
  | .fixed _ => 2

/-- The value of an entry, absent when it is UNLEARNED (R129). -/
def SigEntry.value : SigEntry → Option Nat
  | .unlearned => none
  | .learned v => some v
  | .fixed v => some v

/-- An entry's value lies in 1..1023 (R129, R141). -/
def SigEntry.inRange (e : SigEntry) : Bool :=
  match e.value with
  | none => true
  | some v => decide (1 ≤ v) && decide (v ≤ 1023)

/-- An entry changes class, or a FIXED entry is written: the string's accumulator is emptied (R129, R110). -/
def State.changeClass (s : State) (key : Nat) (e : SigEntry) : State :=
  (s.setEntry key e).emptyAccs fun i => i == key

/-- The number of a named string. -/
def StringRef.key (r : StringRef) : Nat := stringKey r.head (stringIndex r.aspect r.string)

/-- The normalized current (R131). -/
def normalized (avg duty : Nat) : Nat := clamp 1 1023 ((avg * 1000 + duty / 2) / duty)

/-- A value after a refresh toward a normalized current (R133). -/
def refreshed (value norm : Nat) : Nat :=
  if value ≤ norm then clamp 1 1023 (value + (norm - value + 4) / 8)
  else clamp 1 1023 (value - (value - norm + 4) / 8)

/-- The learning enable of a station; off without a STATION record (R130). -/
def State.learnEnabled (s : State) (k : Nat) : Bool :=
  match s.stationCfg k with
  | none => false
  | some c => c.learn

/-- Signatures of a station may be learned and rejected (R130). -/
def State.mayLearn (s : State) (k : Nat) : Bool := !s.config.records.tunnel.freeze && s.learnEnabled k

/-- The Signature Table takes a proving result handed to it (R130 to R133). -/
def State.takeResult (s : State) (r : StringRef) (v : Verdict) (avg duty : Nat) : State :=
  if duty < Config.learnDuty then s
  else
    match v, s.entry r.key with
    | .pass, .unlearned =>
      if s.mayLearn r.head.station then (s.changeClass r.key (.learned (normalized avg duty))).setUnsaved else s
    | .pass, .learned old =>
      let new := refreshed old (normalized avg duty)
      if new = old then s else (s.setEntry r.key (.learned new)).setUnsaved
    | .failLow, .unlearned =>
      if s.mayLearn r.head.station then
        ({ s with sigs.rejection := some ⟨r, .failLow, avg, duty, s.stamp⟩ } : State).raise .learnRejected
      else s
    | .failHigh, .unlearned =>
      if s.mayLearn r.head.station then
        ({ s with sigs.rejection := some ⟨r, .failHigh, avg, duty, s.stamp⟩ } : State).raise .learnRejected
      else s
    | _, _ => s

/-- An entry is LEARNED. -/
def SigEntry.isLearned : SigEntry → Bool
  | .learned _ => true
  | .unlearned => false
  | .fixed _ => false

/-- The numbers of the LEARNED entries of a station's heads in the section (R137). -/
def State.learnedKeys (s : State) (k : Nat) : List Nat :=
  (s.sigs.entries.filter fun e => s.stringOfStation k e.1 && e.2.isLearned).map Prod.fst

/-- Every LEARNED entry of a station's heads in the section becomes UNLEARNED (R137, R139). -/
def State.unlearnStation (s : State) (k : Nat) : State :=
  let keys := s.learnedKeys k
  ({ s with sigs.entries := Tab.setAll SigEntry.unlearned SigEntry.unlearned s.sigs.entries keys } : State).emptyAccs
    fun i => keys.contains i

/-- Records a driver identity, or makes it blank (R138). -/
def State.setIdent (s : State) (k : Nat) (id : Option (BitVec 32)) : State :=
  { s with sigs.idents := Tab.set none s.sigs.idents k id }

/-- A driver change at a station (R139). -/
def State.driverChange (s : State) (k : Nat) (old new : BitVec 32) : State :=
  let frozen := s.config.records.tunnel.freeze
  let s1 := (if frozen then s else s.unlearnStation k).setIdent k (some new)
  let change : LastChange :=
    { previous := old, current := new, action := if frozen then .kept else .unlearned
      count := if frozen then 0 else (s.learnedKeys k).length, time := s.stamp }
  ({ s1 with sigs.changes := Tab.set none s1.sigs.changes k (some change) } : State).setUnsaved.raise .driverChanged

/-- The Signature Table takes the identity of a station's answer (R138). -/
def State.takeIdent (s : State) (k : Nat) (id : BitVec 32) : State :=
  match s.ident k with
  | none => (s.setIdent k (some id)).setUnsaved
  | some old => if old = id then s else s.driverChange k old id

end Sys2Proof.Machine
end

