-- ==== Sys2Proof/Machine/LampProving.lean ====
section
/-! DEFINITION. The Lamp Proving Unit's shared operations (spec/06): accumulation, the proving arithmetic, string states,
leak checks, head conditions, false-opens and the clearing of strings and heads. -/

namespace Sys2Proof.Machine

/-- Adding a sample to an accumulator (R108). -/
def Acc.add (a : Acc) (x : Nat) : Acc :=
  if a.count = 0 then { count := 1, sum := x, least := x, greatest := x }
  else { count := a.count + 1, sum := a.sum + x, least := min a.least x, greatest := max a.greatest x }

/-- The average of a full accumulator, to the nearest mA with halves up (R111). -/
def Acc.avg (a : Acc) : Nat := (a.sum + a.count / 2) / a.count

/-- The band of a string (R112): low, which may be negative, and high. -/
def band (p : Proving) (e : SigEntry) (duty : Nat) : Int × Int :=
  match e.value with
  | some v =>
    let expected := (v * duty + 500) / 1000
    let margin := max p.floor ((expected * p.tolerance + 50) / 100)
    ((expected : Int) - (margin : Int), min 1023 ((expected : Int) + (margin : Int)))
  | none => ((((p.learnMin * duty + 500) / 1000 : Nat) : Int), min 1023 (((p.learnMax * duty + 500) / 1000 : Nat) : Int))

/-- The verdict of a proving (R113). -/
def judge (p : Proving) (low high : Int) (avg least greatest : Nat) : Verdict :=
  if low < (p.floor : Int) then .inconclusive
  else if (avg : Int) < low then .failLow
  else if high < (avg : Int) then .failHigh
  else if p.spread < greatest - least then .failSpread
  else .pass

/-- A verdict is one of the three failures (R115). -/
def Verdict.fails : Verdict → Bool
  | .failLow => true
  | .failHigh => true
  | .failSpread => true
  | .pass => false
  | .inconclusive => false

/-- The move of a string's state and fail count on a verdict (R115). -/
def moveString (threshold : Nat) (v : Verdict) (st : StringState) (fails : Nat) : StringState × Nat :=
  if st = .fault then (st, fails)
  else if v = .pass then (.ok, 0)
  else if v.fails then (if threshold ≤ fails + 1 then .fault else .suspect, fails + 1)
  else (st, fails)

/-- The result of a proving of a string from its full accumulator (R111 to R114). -/
def State.proofOf (s : State) (r : StringRef) (acc : Acc) (dim : Nat) : LastResult :=
  let p := s.config.records.proving
  let b := band p (s.entry r.key) (s.duty dim)
  { avg := acc.avg, least := acc.least, greatest := acc.greatest, low := b.1, high := b.2,
    verdict := judge p b.1 b.2 acc.avg acc.least acc.greatest, dim := dim }

/-- The hand-over of a proving to the Signature Table (R117). -/
def State.handOver (s : State) (r : StringRef) (st : StringState) (res : LastResult) (duty : Nat) : State :=
  if st = .fault then s
  else
    match res.verdict with
    | .pass => s.takeResult r .pass res.avg duty
    | .failLow => s.takeResult r .failLow res.avg duty
    | .failHigh => s.takeResult r .failHigh res.avg duty
    | .failSpread => s
    | .inconclusive => s

/-- A proving of a string from its full accumulator (R109, R111 to R117). A PASS enters the
history of the string, in FAULT too (log entry 33). -/
def State.prove (s : State) (r : StringRef) (acc : Acc) (dim : Nat) : State :=
  let rec_ := s.string r.key
  let res := s.proofOf r acc dim
  let moved := moveString s.config.records.proving.threshold res.verdict rec_.state rec_.fails
  let s1 := s.setString r.key
    { state := moved.1, fails := moved.2, acc := Acc.empty, last := some res
      proved := rec_.proved || res.verdict == .pass }
  let s2 := s1.raiseIf (rec_.state != .fault && moved.1 == .fault) .stringFault
  s2.handOver r moved.1 res (s.duty dim)

/-- A sample of a string at a dim level enters its accumulator, and a full one is proved (R108, R109). -/
def State.addSample (s : State) (r : StringRef) (x dim : Nat) : State :=
  let rec_ := s.string r.key
  let acc := rec_.acc.add x
  if acc.count = s.config.records.proving.depth + 1 then s.prove r acc dim
  else s.setString r.key { rec_ with acc := acc }

/-- Stage 4: the currents of the lit strings of the resolved aspect (R108). -/
def State.accumulate (s : State) (h : HeadRef) (aspect : Aspect) (rec_ : Sample) (dim : Nat) : State :=
  match aspect with
  | .dark => s
  | .slow =>
    if rec_.phase = 1 then s.addSample ⟨h, .slow, 1⟩ rec_.lit1 dim else s.addSample ⟨h, .slow, 2⟩ rec_.lit2 dim
  | .opn => (s.addSample ⟨h, .opn, 1⟩ rec_.lit1 dim).addSample ⟨h, .opn, 2⟩ rec_.lit2 dim
  | .shut => (s.addSample ⟨h, .shut, 1⟩ rec_.lit1 dim).addSample ⟨h, .shut, 2⟩ rec_.lit2 dim
  | .divertL => (s.addSample ⟨h, .divertL, 1⟩ rec_.lit1 dim).addSample ⟨h, .divertL, 2⟩ rec_.lit2 dim
  | .divertR => (s.addSample ⟨h, .divertR, 1⟩ rec_.lit1 dim).addSample ⟨h, .divertR, 2⟩ rec_.lit2 dim

/-- Empties the accumulators of all ten strings of a head (R105). -/
def State.emptyHead (s : State) (h : HeadRef) : State := s.emptyAccs fun i => i / 10 == h.key

/-- A head leaves NORMAL for a condition; a head already out of NORMAL keeps its own (R122). -/
def State.enterCondition (s : State) (h : HeadRef) (c : HeadCondition) : State :=
  if (s.proving h).condition = .normal then (s.setProving h { s.proving h with condition := c }).raise .headFault else s

/-- A false-open is detected on a head (R121, steps 1 and 2). -/
def State.detectFalseOpen (s : State) (h : HeadRef) (c : FalseOpenCause) : State :=
  let s1 := s.raise .falseOpen
  match s.falseOpen h.station with
  | some _ => s1
  | none => { s1 with lamps.falseOpen := Tab.set none s1.lamps.falseOpen h.station (some ⟨h, c, s.stamp⟩) }

/-- Stages 1 to 4 on a record of a station that is not CUT (R105 to R108); the flag asks for a cut. -/
def State.acceptLit (s : State) (h : HeadRef) (resolved : Aspect) (dim : Option Nat) (r : Sample) : State × Bool :=
  if Aspect.ofCode r.shown = some resolved then
    let s1 := s.setProving h { s.proving h with mismatches := 0 }
    match dim with
    | none => (s1, false)
    | some d => if r.dim = d ∧ r.phase ≤ 1 then (s1.accumulate h resolved r d, false) else (s1.emptyHead h, false)
  else
    let s1 := s.emptyHead h
    let count := (s.proving h).mismatches + 1
    if count < 3 then (s1.setProving h { s1.proving h with mismatches := count }, false)
    else
      let s2 := s1.setProving h { s1.proving h with mismatches := 0 }
      if Aspect.ofCode r.shown = some .opn then (s2.detectFalseOpen h .shownOpen, true)
      else (s2.enterCondition h .mismatch, false)

/-- The open-leak check of stage 5 (R118, R119); the flag asks for a cut. -/
def State.checkOpenLeak (s : State) (h : HeadRef) (resolved : Aspect) (r : Sample) : State × Bool :=
  let p := s.proving h
  if resolved ≠ .opn ∧ Aspect.ofCode r.shown ≠ some .opn ∧ s.config.records.proving.dark < r.leakOpen then
    if p.openLeaks + 1 < 2 then (s.setProving h { p with openLeaks := p.openLeaks + 1 }, false)
    else ((s.setProving h { p with openLeaks := 0 }).detectFalseOpen h .openLeak, true)
  else (s.setProving h { p with openLeaks := 0 }, false)

/-- The other-leak check of stage 5 (R118, R120). -/
def State.checkOtherLeak (s : State) (h : HeadRef) (r : Sample) : State :=
  let p := s.proving h
  if s.config.records.proving.dark < r.leakOther then
    if p.otherLeaks + 1 < 2 then s.setProving h { p with otherLeaks := p.otherLeaks + 1 }
    else (s.setProving h { p with otherLeaks := 0 }).enterCondition h .miswired
  else s.setProving h { p with otherLeaks := 0 }

/-- A sample record is accepted (R105); the flag asks for the station to be cut (R121). -/
def State.acceptSample (s : State) (h : HeadRef) (resolved : Aspect) (stationCut : Bool) (dim : Option Nat) (r : Sample) :
    State × Bool :=
  let lit := if stationCut then (s, false) else s.acceptLit h resolved dim r
  let leak := lit.1.checkOpenLeak h resolved r
  (leak.1.checkOtherLeak h r, lit.2 || leak.2)

/-- The sample records of a frame are accepted in head order (R104); `resolved` is what each head held when the frame
arrived. The flag asks for the station to be cut. -/
def State.acceptFrame (s : State) (resolved : HeadRef → Aspect) (stationCut : Bool) (dim : Option Nat) :
    List (HeadRef × Sample) → State × Bool
  | [] => (s, false)
  | (h, r) :: rest =>
    let one := s.acceptSample h (resolved h) stationCut dim r
    let more := one.1.acceptFrame resolved stationCut dim rest
    (more.1, one.2 || more.2)

/-! ### Emptying and clearing -/

/-- A head proving record with its three counts at 0 (R123). -/
def HeadProving.zeroed (r : HeadProving) : HeadProving := { r with mismatches := 0, openLeaks := 0, otherLeaks := 0 }

/-- A station enters LOST or CUT: its accumulators and counts are emptied (R123). -/
def State.quietStation (s : State) (k : Nat) : State :=
  (s.emptyAccs (s.stringOfStation k)).mapProving (s.headOfStation k) HeadProving.zeroed

/-- A string record made UNPROVEN with fail count 0, its history beginning anew (R124 to R126, R8; log entry 33). -/
def StringRec.unprove (r : StringRec) : StringRec := { r with state := .unproven, fails := 0, proved := false }

/-- A string record as a return from LOST leaves it: OK and SUSPECT become UNPROVEN, and no proof taken before the loss counts
after it, that of a string which stays in FAULT neither (R124). -/
def StringRec.returned (r : StringRec) : StringRec :=
  match r.state with
  | .ok => r.unprove
  | .suspect => r.unprove
  | .unproven => { r with proved := false }
  | .fault => { r with proved := false }

/-- A station returns from LOST: its OK and SUSPECT strings become UNPROVEN (R124). -/
def State.returnStrings (s : State) (k : Nat) : State := s.mapStrings (s.stringOfStation k) StringRec.returned

/-- A string record cleared: UNPROVEN, fail count 0, accumulator empty, last result kept (R125, R126). -/
def StringRec.cleared (r : StringRec) : StringRec := { r.unprove with acc := Acc.empty }

/-- A head proving record cleared (R125, R126). -/
def HeadProving.cleared (_ : HeadProving) : HeadProving := HeadProving.reset

/-- The strings and heads of a scope are cleared (R125, R126). -/
def State.clearLamps (s : State) (inScope : Nat → Bool) : State :=
  (s.mapStrings (fun i => inScope (i / 10)) StringRec.cleared).mapProving inScope HeadProving.cleared

/-- The strings in FAULT whose numbers pass a test. -/
def State.faultCount (s : State) (p : Nat → Bool) : Nat :=
  countWhere (fun e => p e.1 && e.2.state == .fault) s.lamps.strings

/-- The heads out of NORMAL whose numbers pass a test. -/
def State.conditionCount (s : State) (p : Nat → Bool) : Nat :=
  countWhere (fun e => p e.1 && e.2.condition != .normal) s.lamps.heads

/-- A SUSPECT string record under a lowered fail threshold (R8). -/
def StringRec.rethreshold (threshold : Nat) (r : StringRec) : StringRec :=
  if r.state = .suspect ∧ threshold ≤ r.fails then
    (if threshold - 1 = 0 then r.unprove else { r with fails := threshold - 1 })
  else r

end Sys2Proof.Machine
end

