-- ==== Sys2Proof/Machine/GantryLink.lean ====
section
/-! DEFINITION. The Gantry Link Controller's shared operations (spec/08): frames, the pollers' choice, misses, answers,
loss, return, cut and restore. -/

namespace Sys2Proof.Machine

/-! ### Frames -/

/-- The phase octet of the two codes OFF, ON (R199). -/
def phaseOctet (p : Bool) : Octet := if p then 1#8 else 0#8

/-- The ASPECT frame to a station, from the state as it stands (R146). -/
def State.aspectFrame (s : State) (k : Nat) : GantryFrame :=
  { address := octet k, kind := kindAspect
    body := octet (2 * s.l) :: ((stationHeads s.l k).map fun h => octet (s.resolved h).code) ++
      [octet ((s.stationDim k).getD 0), phaseOctet s.time.phase] }

/-- The CUT frame to a station (R147). -/
def cutFrame (k : Nat) : GantryFrame := { address := octet k, kind := kindCut, body := [] }

/-- The RESTORE frame to a station (R147). -/
def restoreFrame (k : Nat) : GantryFrame := { address := octet k, kind := kindRestore, body := [] }

/-- The PHASE frame, carrying the phase as it stands (R148). -/
def State.phaseFrame (s : State) : GantryFrame :=
  { address := broadcast, kind := kindPhase, body := [phaseOctet s.time.phase] }

/-- The frame that polls a station: CUT for a station in CUT, else ASPECT (R146, R147). -/
def State.pollFrame (s : State) (k : Nat) : GantryFrame :=
  if (s.station k).state = .cut then cutFrame k else s.aspectFrame k

/-! ### The pollers' choice -/

/-- The stations an end serves, in walk order (R152). -/
def State.servedBy (s : State) (e : LinkEnd) : List Nat :=
  let mine := s.stationNumbers.filter fun k => (s.station k).current == e
  match e with
  | .west => mine
  | .east => mine.reverse

/-- A station lies beyond another in an end's walk (R152). -/
def beyond (e : LinkEnd) (last k : Nat) : Bool :=
  match e with
  | .west => decide (last < k)
  | .east => decide (k < last)

/-- The next station of an end's walk; past the last one a new round begins (R152). -/
def State.nextOfWalk (s : State) (e : LinkEnd) : Option Nat :=
  let served := s.servedBy e
  match (s.poller e).last with
  | none => served.head?
  | some last =>
    match served.find? (beyond e last) with
    | some k => some k
    | none => served.head?

/-- A poll that a RESTORE frame was sent ahead of can still be made on the end (R147). -/
def State.stillDue (s : State) (e : LinkEnd) (x : Exchange) : Bool :=
  if x.reprobe then decide (x.station < s.n) && (s.station x.station).state == .rerouted && homeEnd s.n x.station == e
  else (s.servedBy e).contains x.station

/-- The exchange an end's poller turns to: the poll its RESTORE frame went ahead of, else the earliest reprobe due,
else the next station of the walk (R147, R153). A poller whose list is empty turns to none until a station joins it (R152);
a reprobe that is due on it meanwhile stays due (log entry 26). -/
def State.nextExchange (s : State) (e : LinkEnd) : Option Exchange :=
  match s.nextOfWalk e with
  | none => none
  | some next =>
    let byRule : Exchange := match (s.poller e).due with
      | k :: _ => ⟨k, true⟩
      | [] => ⟨next, false⟩
    match (s.poller e).committed with
    | some x => if s.stillDue e x then some x else some byRule
    | none => some byRule

/-- An end's poller begins an exchange by sending its poll, or sends the RESTORE frame that goes before it (R147, R153). -/
def State.beginExchange (s : State) (e : LinkEnd) (x : Exchange) : State :=
  let p := s.poller e
  if (s.station x.station).restorePending then
    (s.setStation x.station { s.station x.station with restorePending := false }).setPoller e
      { p with sending := some (restoreFrame x.station), committed := some x }
  else
    s.setPoller e
      { p with
        sending := some (s.pollFrame x.station)
        exchange := some x
        committed := none
        due := if x.reprobe then p.due.filter (· != x.station) else p.due
        last := if x.reprobe then p.last else some x.station }

/-- An end that is neither sending nor in an exchange chooses what to send next (R148, R153). -/
def State.drivePoller (s : State) (e : LinkEnd) : State :=
  let p := s.poller e
  if !s.polling || p.sending.isSome || p.exchange.isSome then s
  else if p.phasePending then s.setPoller e { p with sending := some s.phaseFrame, phasePending := false }
  else
    match s.nextExchange e with
    | none => s
    | some x => s.beginExchange e x

/-- A new phase marks a PHASE frame pending at each end whose poller runs (R148, R167). -/
def State.markPhase (s : State) : State :=
  if s.polling then
    { s with link.west.phasePending := true, link.east.phasePending := true }
  else s

/-! ### Station records -/

/-- The miss count of an end (R151). -/
def StationRec.miss (r : StationRec) : LinkEnd → Nat
  | .west => r.missWest
  | .east => r.missEast

/-- Writes the miss count of an end. -/
def StationRec.setMiss (r : StationRec) (e : LinkEnd) (n : Nat) : StationRec :=
  match e with
  | .west => { r with missWest := n }
  | .east => { r with missEast := n }

/-- Writes the last miss cause of an end. -/
def StationRec.setCause (r : StationRec) (e : LinkEnd) (c : MissCause) : StationRec :=
  match e with
  | .west => { r with causeWest := c }
  | .east => { r with causeEast := c }

/-- The current end changes: the count of the new current end is set to 0 (R154). -/
def StationRec.moveTo (r : StationRec) (e : LinkEnd) : StationRec := { r.setMiss e 0 with current := e }

/-- A miss on an end: its count rises, up to 3, and its cause is recorded (R154). -/
def StationRec.missed (r : StationRec) (e : LinkEnd) (c : MissCause) : StationRec :=
  (r.setMiss e (min 3 (r.miss e + 1))).setCause e c

/-- A poller without the reprobe of a station that it has not sent, whether due or preceded by its RESTORE frame already. -/
def Poller.withoutReprobe (p : Poller) (k : Nat) : Poller :=
  { p with due := p.due.filter (· != k), committed := p.committed.filter (· != ⟨k, true⟩) }

/-- A poller without the poll of a station that a RESTORE frame went ahead of. -/
def Poller.withoutPoll (p : Poller) (k : Nat) : Poller := { p with committed := p.committed.filter (· != ⟨k, false⟩) }

/-- A station leaves REROUTED: a due reprobe that has not been sent is dropped (R157). -/
def State.dropReprobe (s : State) (k : Nat) : State :=
  { s with link.west := s.link.west.withoutReprobe k, link.east := s.link.east.withoutReprobe k }

/-- A station leaves an end's list: the end serves it no longer, not even with a poll that a RESTORE frame went ahead of
(R152). -/
def State.dropPoll (s : State) (k : Nat) : State :=
  { s with link.west := s.link.west.withoutPoll k, link.east := s.link.east.withoutPoll k }

/-- The active lamp test ends with a cause; the last-end record takes it (R99, R100). -/
def State.endLampTest (s : State) (c : LampEndCause) : State :=
  match s.resolver.lampTest with
  | none => s
  | some t => { s with resolver.lampTest := none, resolver.lampLast := some ⟨t.station, t.face, t.aspect, c⟩ }

/-- A lamp test of a station that becomes LOST or CUT ends with cause STATION (R100). -/
def State.endLampTestAt (s : State) (k : Nat) : State :=
  match s.resolver.lampTest with
  | none => s
  | some t => if t.station = k then s.endLampTest .station else s

/-- The effects on other blocks of a station becoming LOST or CUT (R158, R160). -/
def State.stationGone (s : State) (k : Nat) (displayed : Option Aspect) : State :=
  ((s.setStationDisplayed k displayed).quietStation k).endLampTestAt k

/-- A station becomes LOST; `r` is its record after the miss (R158). -/
def State.loseStation (s : State) (k : Nat) (r : StationRec) : State :=
  let r' := { r with state := .lost, reprobe := none }.moveTo (homeEnd s.n k)
  (((s.setStation k r').dropReprobe k).raise .stationLost).stationGone k none

/-- A miss of an exchange on an end, with its cause (R154, R156, R157, R158, R161). -/
def State.miss (s : State) (e : LinkEnd) (x : Exchange) (c : MissCause) : State :=
  let k := x.station
  let old := s.station k
  let r := old.missed e c
  let third := e == old.current && decide (old.miss e < 3) && decide (r.miss e = 3)
  match old.state with
  | .lost => if e = old.current then s.setStation k (r.moveTo e.other) else s.setStation k r
  | .online =>
    if third then
      (s.setStation k ({ r with state := .rerouted, reprobe := some Config.reprobeMs }.moveTo e.other)).raise .ringDegraded
    else s.setStation k r
  | .rerouted =>
    if third then s.loseStation k r
    else if x.reprobe && e == homeEnd s.n k then s.setStation k { r with reprobe := some Config.reprobeMs }
    else s.setStation k r
  | .cut => if third then s.setStation k (r.moveTo e.other) else s.setStation k r

/-- A LOST station returns on an end (R159); `r` is its record after the answer was counted. -/
def State.returnStation (s : State) (e : LinkEnd) (k : Nat) (r : StationRec) : State :=
  let s1 := if e = r.current then s else s.dropPoll k
  if e = homeEnd s.n k then (s1.setStation k { r with state := .online, current := e }).returnStrings k
  else
    ((s1.setStation k { r with state := .rerouted, current := e, reprobe := some Config.reprobeMs }).raise
      .ringDegraded).returnStrings k

/-- The station's part of a good answer (R155, steps 1 and 2). -/
def State.answerStation (s : State) (e : LinkEnd) (k : Nat) : State :=
  let old := s.station k
  let r := { (old.setMiss e 0).setCause e .none with answered := true }
  match old.state with
  | .lost => s.returnStation e k r
  | .rerouted =>
    if e = homeEnd s.n k then
      ((s.setStation k { r with state := .online, current := e, reprobe := none }).dropReprobe k).dropPoll k
    else s.setStation k r
  | .online => s.setStation k r
  | .cut => s.setStation k r

/-- The supply status of an answer is recorded (R155, step 4). -/
def State.takeSupply (s : State) (k : Nat) (isOpen : Bool) : State :=
  let r := s.station k
  s.setStation k
    { r with supplyOpen := some isOpen, restorePending := r.restorePending || (isOpen && r.state != .cut) }

/-- The displayed aspects of a station's heads are set from its sample records (R69). -/
def State.takeDisplayed (s : State) (recs : List (HeadRef × Sample)) : State :=
  recs.foldl (fun s p => s.setDisplayed p.1 (Aspect.ofCode p.2.shown)) s

/-- A station enters CUT at the Lamp Proving Unit's request; a station already CUT is not changed (R160). -/
def State.cutStation (s : State) (k : Nat) : State :=
  let r := s.station k
  match r.state with
  | .cut => s
  | .online =>
    (((s.setStation k { r with state := .cut, reprobe := none, restorePending := false }).dropReprobe k).raise
      .stationCut).stationGone k (some .dark)
  | .rerouted =>
    (((s.setStation k { r with state := .cut, reprobe := none, restorePending := false }).dropReprobe k).raise
      .stationCut).stationGone k (some .dark)
  | .lost => s

/-- The sample records of a good answer go to the Lamp Proving Unit and the Aspect Resolver, and the station is cut if
the unit asks for it (R155, steps 5 and 6). The resolved aspects are those of the head table, which the event has not
settled yet: what each head held when the frame arrived (R104). -/
def State.takeSamples (s : State) (k : Nat) (f : SampleFrame) : State :=
  let recs := (stationHeads s.l k).zip f.records
  let isCut := (s.station k).state == .cut
  let s1 := if isCut then s else s.takeDisplayed recs
  let r := s1.acceptFrame s.resolved isCut (s.stationDim k) recs
  if r.2 then r.1.cutStation k else r.1

/-- A good answer of a station on an end is taken (R155). -/
def State.takeAnswer (s : State) (e : LinkEnd) (k : Nat) (f : SampleFrame) : State :=
  (((s.answerStation e k).takeIdent k f.ident).takeSupply k f.supplyOpen).takeSamples k f

/-! ### Reception -/

/-- The exchange in flight on an end is over (R153). -/
def State.endExchange (s : State) (e : LinkEnd) : State :=
  s.setPoller e { s.poller e with exchange := none, answerTimer := none }

/-- A frame that ended on an end, whole or broken: the answer of the exchange in flight, or discarded (R145, R149). -/
def State.gantryEvent (s : State) (e : LinkEnd) (ev : GantryRxEvent) : State :=
  match (s.poller e).exchange, ev with
  | some x, .whole true got =>
    match answerFault x.station s.l got with
    | none => (s.endExchange e).takeAnswer e x.station (readSample got)
    | some c => (s.endExchange e).miss e x c
  | some x, .broken true => (s.endExchange e).miss e x .crc
  | some _, .whole false _ => s
  | some _, .broken false => s
  | none, _ => s

/-- The frame an end is receiving is the answer of its exchange. -/
def Poller.answering (p : Poller) : Bool :=
  match p.rx with
  | .hunting => false
  | .inFrame answer _ => answer

/-- An end has received something: its receiver moves, a frame that has begun stops the answer timeout, and a frame that
ended is taken (R145, R153). -/
def State.gantryReceived (s : State) (e : LinkEnd) (r : GantryRx × Option GantryRxEvent) : State :=
  let p := { s.poller e with rx := r.1 }
  let s1 := s.setPoller e { p with answerTimer := if p.answering then none else p.answerTimer }
  match r.2 with
  | none => s1
  | some ev => s1.gantryEvent e ev

/-- An octet arrives on an end. -/
def State.gantryOctet (s : State) (e : LinkEnd) (o : Octet) : State :=
  s.gantryReceived e ((s.poller e).rx.octet (s.poller e).exchange.isSome o)

/-- Octets arrive on an end, in turn. -/
def State.gantryOctets (s : State) (e : LinkEnd) (os : List Octet) : State :=
  os.foldl (fun s o => s.gantryOctet e o) s

/-- A gap or a framing error on an end (R145). -/
def State.gantryCutShort (s : State) (e : LinkEnd) : State := s.gantryReceived e (s.poller e).rx.cutShort

/-! ### Restoring, and changes of the section -/

/-- RESTORE-STATION returns a CUT station to use (R162). -/
def State.restoreStation (s : State) (k : Nat) : State :=
  let r := { s.station k with restorePending := true }
  let s1 :=
    if r.current = homeEnd s.n k then s.setStation k { r with state := .online }
    else (s.setStation k { r with state := .rerouted, reprobe := some Config.reprobeMs }).raise .ringDegraded
  let s2 := (s1.setStationDisplayed k none).clearLamps (s.headOfStation k)
  { s2 with lamps.falseOpen := Tab.set none s2.lamps.falseOpen k none }

/-- The exchanges in flight are abandoned and each poller begins a new round (R153, R164). A frame on the wire runs to
its end, and an answer that has begun is discarded (log entry 13). -/
def Poller.abandoned (p : Poller) : Poller :=
  { p with
    exchange := none
    answerTimer := none
    last := none
    committed := none
    rx := match p.rx with
      | .hunting => .hunting
      | .inFrame _ got => .inFrame false got }

/-- Both pollers abandon their exchanges. -/
def State.abandonExchanges (s : State) : State :=
  { s with link.west := s.link.west.abandoned, link.east := s.link.east.abandoned }

/-- A station's record, and its strings if it was LOST, under a change of N that is already in force (R5, R151). -/
def State.resetStation (s : State) (k : Nat) : State :=
  let r := s.station k
  let home := homeEnd s.n k
  match r.state with
  | .cut => s.setStation k (if r.current = home then r else r.moveTo home)
  | .lost => (s.setStation k (StationRec.reset home)).returnStrings k
  | .online => s.setStation k (StationRec.reset home)
  | .rerouted => s.setStation k (StationRec.reset home)

/-- A change of N: every station of the new section, and no reprobe is due (R5). -/
def State.resetStations (s : State) : State :=
  let s1 := s.stationNumbers.foldl State.resetStation s
  { s1 with link.west.due := [], link.east.due := [] }

end Sys2Proof.Machine
end

