-- ==== Sys2Proof/Machine/Settle.lean ====
section
/-! DEFINITION. What ends every event: the resolver and the engine settle once from all the changes (R81), the condition
reports follow the settled state (R190), the pollers and the transmitter choose what to send (R153, R186), and ALERT takes
its level (R193). Frames and notices are therefore built from the settled state (R81; log entry 5). -/

namespace Sys2Proof.Machine

/-! ### Comparing head tables (R81) -/

/-- The records of two head tables at one place, the old one absent where the old table held none. -/
def pairChain : List HeadRec → List HeadRec → List (Option HeadRec × HeadRec)
  | _, [] => []
  | [], r :: new => (none, r) :: pairChain [] new
  | q :: old, r :: new => (some q, r) :: pairChain old new

/-- A head became closure-lost (R76). -/
def becameLost (p : Option HeadRec × HeadRec) : Bool := p.2.closureLost && !recHas (·.closureLost) p.1

/-- A head's E availability became FAILED (R80). -/
def becameFailed (p : Option HeadRec × HeadRec) : Bool := p.2.failed && !recHas HeadRec.failed p.1

/-- A head's resolved aspect changed (R83). -/
def changedResolved (p : Option HeadRec × HeadRec) : Bool := recHas (fun q => q.resolved != p.2.resolved) p.1

/-- The pairs of one place of two head tables. -/
def pairsAt (old new : List (List HeadRec)) (i : Nat) : List (Option HeadRec × HeadRec) :=
  pairChain (old.getD i []) (new.getD i [])

/-- Some head of a lane became closure-lost (R76). -/
def laneBecameLost (old new : List (List HeadRec)) (lane : Nat) : Bool :=
  (pairsAt old new (2 * lane)).any becameLost || (pairsAt old new (2 * lane + 1)).any becameLost

/-- The numbers of the heads whose resolved aspect changed (R83). -/
def changedHeads (n l : Nat) (old new : List (List HeadRec)) : List Nat :=
  (List.range (2 * l)).flatMap fun i =>
    ((pairsAt old new i).zipIdx.filter fun p => changedResolved p.1).map fun p =>
      (HeadRef.mk (stationAt n (faceOfPlace i) p.2) (i / 2) (faceOfPlace i)).key

/-- The number of pairs that join the entry-closure set (R79). -/
def joiningEntries (l : Nat) (old new : List (List HeadRec)) : Nat :=
  countWhere (fun i => match pairsAt old new i with
    | [] => false
    | p :: _ => becameLost p) (List.range (2 * l))

/-- Some head's E availability became FAILED (R80). -/
def someBecameFailed (l : Nat) (old new : List (List HeadRec)) : Bool :=
  (List.range (2 * l)).any fun i => (pairsAt old new i).any becameFailed

/-! ### Settling -/

/-- Some station of the section became LOST or CUT between two states (R36). -/
def stationFell (before after : State) : Bool :=
  after.stationNumbers.any fun k =>
    ((after.station k).state == .lost && (before.station k).state != .lost) ||
      ((after.station k).state == .cut && (before.station k).state != .cut)

/-- The lanes whose fresh opening fails in the event (R36, R76). -/
def failingLanes (before after : State) (old new : List (List HeadRec)) : List Nat :=
  after.laneNumbers.filter fun l =>
    (after.lane l).phase.freshOpening && (stationFell before after || laneBecameLost old new l)

/-- The engine acts on the reports of the event: fresh openings fail and the scan runs (R36, R76). -/
def State.failOpenings (s : State) (lanes : List Nat) : State :=
  match lanes with
  | [] => s
  | _ :: _ => (lanes.foldl State.failOpening s).scan

/-- The head table takes the settled records: accumulators of heads whose R changed are emptied (R83), and
ENTRY_CLOSURE_LOST and ASPECT_FAILED are raised (R79, R80). -/
def State.takeTable (s : State) (old new : List (List HeadRec)) : State :=
  let changed := changedHeads s.n s.l old new
  let s1 := ({ s with resolver.heads := new } : State).emptyAccs fun i => changed.contains (i / 10)
  (s1.raiseTimes .entryClosureLost (joiningEntries s.l old new)).raiseIf (someBecameFailed s.l old new) .aspectFailed

/-- The head table that an event's reports are compared with: none after a change of N or L (R5, R79). -/
def comparedTable (before after : State) : List (List HeadRec) :=
  if before.n = after.n ∧ before.l = after.l then before.resolver.heads else []

/-- The resolver and the engine settle an event (R81). -/
def settleHeads (before after : State) : State :=
  let old := comparedTable before after
  let lanes := failingLanes before after old after.resolveTable
  let s1 := after.failOpenings lanes
  s1.takeTable old s1.resolveTable

/-! ### Conditions (R190) -/

/-- Some string of the section is in FAULT (R116). -/
def State.anyStringFault (s : State) : Bool := s.lamps.strings.any fun e => s.stringKeyIn e.1 && e.2.state == .fault

/-- Some head of the section is out of NORMAL (R122). -/
def State.anyHeadFault (s : State) : Bool := s.lamps.heads.any fun e => s.headKeyIn e.1 && e.2.condition != .normal

/-- Some station of the section is in a state (R163). -/
def State.anyStation (s : State) (st : StationState) : Bool := s.stationNumbers.any fun k => (s.station k).state == st

/-- Some lane has its confirm window open (R30). -/
def State.anyWindow (s : State) : Bool := s.laneNumbers.any fun l => (s.lane l).phase.windowOpen

/-- The owners report their conditions (R30, R79, R80, R116, R121, R122, R163, R171). HOST_SILENT is reported by the
events of the silence timer (R188). -/
def State.reportConditions (s : State) : State :=
  ((((((((((s.report .clearanceConfirmDue s.anyWindow).report .stringFault s.anyStringFault).report .aspectFailed
    (anyFailed s.resolver.heads)).report .headFault s.anyHeadFault).report .entryClosureLost
    (anyEntryLost s.resolver.heads)).report .falseOpen (s.anyStation .cut)).report .stationCut
    (s.anyStation .cut)).report .stationLost (s.anyStation .lost)).report .ringDegraded
    (s.anyStation .rerouted)).report .flashSyncLost (s.time.line == .freeRunning))

/-! ### The host transmitter (R186, R187) -/

/-- The body of an ATTENTION notice from the Attention Unit as it stands (R187; R199). -/
def noticeBody (a : Attention) : List Octet :=
  let ks := indicesOf a.latched
  [if alertLevel a then 1#8 else 0#8, octet ks.length] ++
    ks.flatMap fun i =>
      [octet i, if a.rep.getLsbD i then 1#8 else 0#8, if a.active.getLsbD i then 1#8 else 0#8]

/-- The transmitter, IDLE, chooses what to send (R186, R187). -/
def State.driveTransmitter (s : State) : State :=
  match s.host.tx, s.host.replies with
  | some _, _ => s
  | none, r :: rest => { s with host.tx := some r, host.replies := rest }
  | none, [] =>
    if s.host.noticePending then
      if s.attn.latched = 0 then { s with host.noticePending := false }
      else
        { s with
          host.noticePending := false
          host.tx := some { kind := 0, tag := s.host.noticeCount, body := noticeBody s.attn } }
    else s

/-- The end of an event that led from `before` to `after`. DESIGN CHOICE (log entry 27): an IDLE transmitter chooses once, at
the end of the event, so where one event both queues a reply and sets the pending-notice marker the reply goes before the
notice, though R186 names each of the two as an event at which it chooses. DESIGN CHOICE (log entry 29): where both pollers
choose in one event the west one chooses first, so that it sends the RESTORE of a station that both would poll (R147). -/
def settle (before after : State) : State :=
  ((((settleHeads before after).reportConditions.drivePoller .west).drivePoller .east).driveTransmitter).driveAlert

/-- The answer to an event that can happen: the settled state. -/
def answer (before after : State) : Host.Outcome State Fault Refusal := .next (settle before after)

/-- An event of a part that is powered and not held in reset; otherwise nothing happens (R17; log entry 2). -/
def event (s : State) (f : State → State) : Host.Outcome State Fault Refusal :=
  if s.live then answer s (f s) else .next s

/-- An event that the state of the part must allow; otherwise it does not happen (log entry 2). -/
def eventIf (s : State) (allowed : Bool) (f : State → State) : Host.Outcome State Fault Refusal :=
  if s.live && allowed then answer s (f s) else .next s

end Sys2Proof.Machine
end

