-- ==== Sys2Proof/Machine/StartUp.lean ====
section
/-! DEFINITION. START (R12), the start-up sequence (R16), the reset line (R17) and the store's regions (R15, R18, R141). -/

namespace Sys2Proof.Machine

/-! ### START -/

/-- A plan is inconsistent with the lane kinds (R12, check 4). -/
def State.planInconsistent (s : State) (id : Nat) : Bool :=
  s.laneNumbers.any fun l => s.contradicts (s.target id l) l

/-- The record a START is refused for (R12); none when every check passes. -/
def State.startFault (s : State) : Option ConfigFault :=
  if !s.config.records.tunnel.written then some .tunnel
  else
    match s.laneNumbers.find? fun l => (s.laneCfg l).isNone with
    | some l => some (.lane l)
    | none =>
      match s.stationNumbers.find? fun k => (s.stationCfg k).isNone with
      | some k => some (.station k)
      | none => ((List.range' 1 Config.planCount).find? s.planInconsistent).map .plan

/-- A lane as START sets it: SHUT, emergency flag clear, its last outcome kept (R12, R21). -/
def LaneRec.started (r : LaneRec) : LaneRec := { r with phase := .shut, timer := none, emergency := false }

/-- The part enters RUN (R12). -/
def State.enterRun (s : State) : State :=
  let s1 : State := s.laneNumbers.foldl (fun s l => s.setLane l (s.lane l).started) s
  let s2 := (s1.setQueue []).endLampTest .start
  { s2 with config.mode := .run, config.startRefusal := none }.scan

/-! ### The store -/

/-- The contents of the configuration region from the working records (R15, R192). -/
def State.configImage (s : State) : ConfigImage :=
  { records := s.config.records, plans := s.engine.plans, schedule := s.time.schedule, mask := s.attn.enabled }

/-- The contents of the signature region from the working entries (R140). -/
def State.sigImage (s : State) : SigImage := { entries := s.sigs.entries, idents := s.sigs.idents }

/-- A signature region loads valid: every value in 1..1023 (R141). -/
def SigImage.valid (i : SigImage) : Bool := i.entries.all fun e => e.2.inRange

/-- The stored signature region, none where its load finds it invalid (R141). -/
def loadSig (nv : Option SigImage) : Option SigImage :=
  match nv with
  | none => none
  | some i => if i.valid then some i else none

/-- A store write in progress stops: the region being written is invalid at the next load (R17). -/
def ConfigStore.stopWrite (c : ConfigStore) : ConfigStore :=
  match c.writing with
  | none => c
  | some (.config _) => { c with writing := none, nvConfig := none }
  | some (.signature _) => { c with writing := none, nvSig := none }

/-- The configuration region a start-up works from: its contents, or those of an invalid region (R16, step 2). -/
def loadedConfig (nv : Option ConfigImage) : ConfigImage :=
  nv.getD { records := .default, plans := defaultPlans, schedule := defaultSchedule, mask := BitVec.allOnes 22 }

/-- The station records of a section of `n` stations at reset (R151). -/
def resetStationTab (n : Nat) : Tab StationRec :=
  (List.range n).foldl (fun t k => Tab.set (StationRec.reset .west) t k (StationRec.reset (homeEnd n k))) []

/-- The flash state at step 6 (R166). -/
def startLine (t : Tunnel) : LineState :=
  if !t.written then .notDriven
  else
    match t.role with
    | .master => .driving
    | .follower => .following

/-- Three half-periods in ms (R171). -/
def lossMs (t : Tunnel) : Nat := 3 * t.halfPeriod

/-- The state after steps 1 to 4 and 6 of the start-up sequence, in STANDBY (R16). The store's contents, the supply and
RESET_N, and the model's queue are what they were. -/
def State.loaded (s : State) (cause : ResetCause) : State :=
  let store := s.config.stopWrite
  let image := loadedConfig store.nvConfig
  let sig := loadSig store.nvSig
  let t := image.records.tunnel
  { power := { s.power with heldCause := .resetPin }
    config :=
      { records := image.records, dims := t.dims, mode := .standby, configValid := store.nvConfig.isSome,
        sigValid := sig.isSome, resetCause := cause, startRefusal := none, nvConfig := store.nvConfig,
        nvSig := store.nvSig, writing := none }
    engine := { lanes := [], queue := [], plans := image.plans }
    resolver := { heads := [], displayed := [], overrides := [], lampTest := none, lampLast := none }
    lamps := { strings := [], heads := [], falseOpen := [] }
    sigs :=
      { entries := (sig.map (·.entries)).getD [], idents := (sig.map (·.idents)).getD [], changes := [],
        rejection := none, unsaved := sig.isNone }
    link := { stations := resetStationTab t.n, west := .reset, east := .reset }
    time :=
      { phase := true, halfTimer := some t.halfPeriod, line := startLine t
        lossTimer := if startLine t = .following then some (lossMs t) else none
        clock := none, secondTimer := none, schedule := image.schedule, lastFiring := none }
    host :=
      { slots := [], processor := .ready, replies := [], tx := none, noticePending := false, noticeCount := 0,
        rx := .hunting, crcErrors := 0, lengthErrors := 0, gapErrors := 0, breakErrors := 0, overruns := 0,
        silence := some (t.silence * 1000) }
    attn := { active := 0, latched := 0, rep := 0, enabled := image.mask, alert := false }
    pending := s.pending }

/-- Step 5: START without a reply, when the configuration region loaded valid and auto-start is on (R16). -/
def State.autoStart (s : State) : State :=
  if s.config.configValid && s.config.records.tunnel.autoStart then
    match s.startFault with
    | none => s.enterRun
    | some f => { s with config.startRefusal := some f }
  else s

/-- The start-up sequence (R16). -/
def State.startUp (s : State) (cause : ResetCause) : State :=
  let s1 := (s.loaded cause).autoStart
  settle s1 s1

/-! ### The reset line and the supply -/

/-- RESET_N falls on a powered part: reception, transmission and any store write stop, the attention flags are cleared,
FLASH_SYNC is not driven, no gantry frame is sent (R17, R166, R164, R186). -/
def State.hold (s : State) : State :=
  { s with
    power.heldCause := .resetPin
    config := s.config.stopWrite
    link.west := { s.link.west.abandoned with sending := none, rx := .hunting }
    link.east := { s.link.east.abandoned with sending := none, rx := .hunting }
    time.phase := true
    time.halfTimer := none
    time.line := .notDriven
    time.lossTimer := none
    time.secondTimer := none
    host.tx := none
    host.rx := .hunting
    host.silence := none
    attn := { active := 0, latched := 0, rep := 0, enabled := s.attn.enabled, alert := false } }

/-- The supply fails: the part stops, and a store write in progress stops (R17). -/
def State.fail (s : State) : State := { s.hold with power.on := false }

end Sys2Proof.Machine
end

