-- ==== Sys2Proof/Machine/Reply.lean ====
section
/-! DEFINITION. Replies: status codes and refusal details (R197), record bodies (R199), and how a command is taken from
its slot and completed (R184, R185, R196). -/

namespace Sys2Proof.Machine

/-! ### Encodings (R199) -/

/-- A one-octet field. -/
def o1 (n : Nat) : List Octet := [octet n]

/-- A flag. -/
def flagOctets (b : Bool) : List Octet := [if b then 1#8 else 0#8]

/-- A band bound: two octets, two's complement (R199). -/
def signed16 (i : Int) : List Octet := be16 ((i % 65536).toNat)

/-- An optional field behind its presence octet. -/
def optional {α : Type} (enc : α → List Octet) : Option α → List Octet
  | none => [0#8]
  | some a => 1#8 :: enc a

/-- A list behind its one-octet count. -/
def counted {α : Type} (enc : α → List Octet) (xs : List α) : List Octet := octet xs.length :: xs.flatMap enc

/-- A time of week; "clock unset" is four octets of 0. -/
def stampOctets : Stamp → List Octet
  | none => [0, 0, 0, 0]
  | some t => [octet t.weekday, octet t.hour, octet t.minute, octet t.second]

/-- An aspect code. -/
def aspectOctets (a : Aspect) : List Octet := o1 a.code

/-- A displayed aspect: the six, and UNKNOWN as 6. -/
def displayedOctets : Option Aspect → List Octet
  | none => [6#8]
  | some a => aspectOctets a

/-- A face or direction code. -/
def faceOctets (f : Face) : List Octet := o1 f.code

/-- A head. -/
def headOctets (h : HeadRef) : List Octet := [octet h.station, octet h.lane, octet h.face.code]

/-- A string. -/
def stringOctets (r : StringRef) : List Octet := headOctets r.head ++ aspectOctets r.aspect ++ o1 r.string

def Mode.code : Mode → Nat
  | .standby => 0
  | .run => 1

def ResetCause.code : ResetCause → Nat
  | .powerUp => 0
  | .resetPin => 1
  | .restart => 2

def Role.code : Role → Nat
  | .master => 0
  | .follower => 1

def LaneKind.code : LaneKind → Nat
  | .tidal => 0
  | .fixedA => 1
  | .fixedB => 2

def MergePref.code : MergePref → Nat
  | .lower => 0
  | .higher => 1

def ClearanceMode.code : ClearanceMode → Nat
  | .timed => 0
  | .confirmed => 1

def Target.code : Target → Nat
  | .dir .a => 0
  | .dir .b => 1
  | .shut => 2
  | .keep => 3

def TaskKind.code : TaskKind → Nat
  | .close => 0
  | .opn _ => 1

def TaskKind.direction : TaskKind → Option Face
  | .close => none
  | .opn d => some d

def Origin.code : Origin → Nat
  | .host => 0
  | .plan => 1
  | .schedule => 2

def TaskOutcome.code : TaskOutcome → Nat
  | .done => 0
  | .aborted => 1
  | .failed => 2
  | .cancelled => 3
  | .superseded => 4
  | .preEmpted => 5
  | .stalled => 6

def Reason.code : Reason → Nat
  | .shutNotProven => 0
  | .stationUnavailable => 1
  | .emergencyHold => 2
  | .closureLost => 3

def Avail.code : Avail → Nat
  | .available => 0
  | .degraded => 1
  | .failed => 2

def StringState.code : StringState → Nat
  | .unproven => 0
  | .ok => 1
  | .suspect => 2
  | .fault => 3

def Verdict.code : Verdict → Nat
  | .pass => 0
  | .failLow => 1
  | .failHigh => 2
  | .failSpread => 3
  | .inconclusive => 4

def HeadCondition.code : HeadCondition → Nat
  | .normal => 0
  | .mismatch => 1
  | .miswired => 2

def FalseOpenCause.code : FalseOpenCause → Nat
  | .shownOpen => 0
  | .openLeak => 1

def ChangeAction.code : ChangeAction → Nat
  | .unlearned => 0
  | .kept => 1

def StationState.code : StationState → Nat
  | .online => 0
  | .rerouted => 1
  | .lost => 2
  | .cut => 3

def MissCause.code : MissCause → Nat
  | .none => 0
  | .timeout => 1
  | .crc => 2
  | .address => 3
  | .form => 4

def LineState.code : LineState → Nat
  | .driving => 0
  | .following => 1
  | .freeRunning => 2
  | .notDriven => 3

def LampEndCause.code : LampEndCause → Nat
  | .window => 0
  | .host => 1
  | .start => 2
  | .station => 3

def linkEndCode : LinkEnd → Nat
  | .west => 0
  | .east => 1

/-- The record type and index of a CONFIG_INVALID (R197). -/
def ConfigFault.detail : ConfigFault → Nat × Nat
  | .tunnel => (1, 0)
  | .lane l => (2, l)
  | .station k => (3, k)
  | .plan id => (4, id)

/-- A task record (R199). DESIGN CHOICE (log entry 31): the direction, which R199 calls present for OPEN, has a presence octet
as the plan id has, which it calls optional. -/
def taskOctets (t : Task) : List Octet :=
  o1 t.lane ++ o1 t.kind.code ++ optional faceOctets t.kind.direction ++ o1 t.origin.code ++ optional o1 t.plan ++
    stampOctets t.stamp

/-- A last-outcome record (R44). DESIGN CHOICE (log entry 31): the direction, the plan id and the reason, which R44 makes present
for some outcomes, each have a presence octet. -/
def outcomeOctets (o : LastOutcome) : List Octet :=
  o1 o.kind.code ++ optional faceOctets o.kind.direction ++ o1 o.origin.code ++ optional o1 o.plan ++
    o1 o.outcome.code ++ optional (fun r => o1 r.code) o.reason ++ stampOctets o.stamp

/-- Seconds of a remaining time in ms, rounded up (R95, R101). -/
def secondsUp (ms : Nat) : Nat := (ms + 999) / 1000

/-- A part of a reply body: fixed octets, or a list that may be cut, with its count's octets and its items (R199). -/
inductive BodyPart where
  | fields (os : List Octet)
  | list (count : List Octet) (items : List (List Octet))

/-- The octets a part takes whatever is cut: its fields, or its count. -/
def BodyPart.least : BodyPart → Nat
  | .fields os => os.length
  | .list c _ => c.length

/-- As many items, in order, as fit into a number of octets. -/
def fitItems : Nat → List (List Octet) → List Octet
  | _, [] => []
  | room, i :: rest => if i.length ≤ room then i ++ fitItems (room - i.length) rest else []

/-- A reply body after STATUS and FREE from its parts; `room` is what the items of lists may still take (R199; log
entry 10). -/
def cutParts : Nat → List BodyPart → List Octet
  | _, [] => []
  | room, .fields os :: rest => os ++ cutParts room rest
  | room, .list c items :: rest =>
    let kept := fitItems room items
    c ++ kept ++ cutParts (room - kept.length) rest

/-- A reply body after STATUS and FREE, its lists cut to the 240 octets of a body (R199). -/
def cutBody (ps : List BodyPart) : List Octet :=
  cutParts (Config.replyOctets - 2 - (ps.map BodyPart.least).sum) ps

/-! ### Status codes (R197) -/

/-- A status code with its two details, or with the body of a command that took effect (R197). -/
structure Reply where
  status : Nat
  body : List Octet
  deriving DecidableEq, Repr

/-- The state after a command and the reply it builds. -/
structure CmdResult where
  state : State
  reply : Reply

/-- OK with a body. -/
def okWith (s : State) (b : List Octet) : CmdResult := ⟨s, ⟨0, b⟩⟩

/-- OK, or CLAMPED where a numeric field was clamped (R197). -/
def okOrClamped (clamped : Bool) (s : State) (b : List Octet) : CmdResult := ⟨s, ⟨if clamped then 1 else 0, b⟩⟩

/-- ACCEPTED with a body. -/
def acceptedWith (s : State) (b : List Octet) : CmdResult := ⟨s, ⟨2, b⟩⟩

/-- A refusal: the code and its two details; the state is unchanged (R197). -/
def refuse (s : State) (code d1 d2 : Nat) : CmdResult := ⟨s, ⟨code, [octet d1, octet d2]⟩⟩

/-- BAD_FIELD at an offset of the body. -/
def badField (s : State) (offset : Nat) : CmdResult := refuse s 18 offset 0

/-! ### Taking and completing a command -/

/-- The modes a command kind is accepted in (R198). -/
inductive Modes where
  | both
  | standbyOnly
  | runOnly
  deriving DecidableEq, Repr

/-- A kind is accepted in a mode (R198). -/
def Modes.accept : Modes → Mode → Bool
  | .both, _ => true
  | .standbyOnly, m => m == .standby
  | .runOnly, m => m == .run

/-- The KIND of a reply (R185). -/
def replyKind (kind : Octet) : Octet := if kind.toNat < 128 then kind + 128#8 else 255#8

/-- The processor takes this frame's command now: it is READY, the frame is in the oldest slot, and the reply queue has
a place (R184; log entry 4). -/
def State.canTake (s : State) (f : HostFrame) : Bool :=
  s.host.processor == .ready && s.host.slots.head? == some f && decide (s.host.replies.length < Config.replyPlaces)

/-- The length and mode checks that stand before a command's own (R196). -/
def checked (len : Nat) (modes : Modes) (act : State → List Octet → CmdResult) (s : State) (body : List Octet) :
    CmdResult :=
  if body.length ≠ len then refuse s 17 len 0
  else if !modes.accept s.config.mode then refuse s 19 s.config.mode.code 0
  else act s body

/-- The oldest slot is released (R184, step 1). -/
def State.releaseSlot (s : State) : State := { s with host.slots := s.host.slots.tail }

/-- FREE: the command slots free (R185). -/
def State.free (s : State) : Nat := Config.slotCount - s.host.slots.length

/-- The reply of a frame's command, STATUS and FREE before its body (R185, R197). -/
def State.replyTo (s : State) (f : HostFrame) (r : Reply) : HostFrame :=
  { kind := replyKind f.kind, tag := f.tag, body := octet r.status :: octet s.free :: r.body }

/-- A command completes: its slot is released, its reply built and queued (R184). -/
def State.complete (s : State) (f : HostFrame) (r : Reply) : State :=
  let s1 := s.releaseSlot
  { s1 with host.replies := s1.host.replies ++ [s1.replyTo f r] }

/-- The frame of a command. -/
def commandFrame (kind : Nat) (tag : Octet) (body : List Octet) : HostFrame := { kind := octet kind, tag := tag, body := body }

/-- A command that completes in the event in which it is taken (R184, R196). -/
def runCommand (kind len : Nat) (modes : Modes) (act : State → List Octet → CmdResult) (tag : Octet) (body : List Octet)
    (s : State) : Host.Outcome State Fault Refusal :=
  let f := commandFrame kind tag body
  eventIf s (s.canTake f) fun s =>
    let r := checked len modes act s body
    r.state.complete f r.reply

end Sys2Proof.Machine
end

