-- ==== Sys2Proof/Machine/Operands.lean ====
section
/-! DEFINITION. The operand forms of command bodies (R198, R199): the tests of structural fields with their offsets
(R3, R196), the codes they carry (R199), and clamping. -/

namespace Sys2Proof.Machine

/-- The offset of the first field, in octet order, that fails its test (R196). -/
def firstBad : List (Bool × Nat) → Option Nat
  | [] => none
  | (good, offset) :: rest => if good then firstBad rest else some offset

/-- Acts on a command whose structural fields all pass; the first that fails refuses it with BAD_FIELD (R196). -/
def withFields (s : State) (tests : List (Bool × Nat)) (act : CmdResult) : CmdResult :=
  match firstBad tests with
  | some offset => badField s offset
  | none => act

/-- A station number lies in the section (R1). -/
def State.okStation (s : State) (n : Nat) : Bool := decide (n < s.n)

/-- A lane number lies in the section (R1). -/
def State.okLane (s : State) (n : Nat) : Bool := decide (n < s.l)

/-- A code of a set of two: a face, a direction, a flag, a role. -/
def okBit (n : Nat) : Bool := decide (n < 2)

/-- The flag of a code. -/
def bitOf (n : Nat) : Bool := n == 1

/-- The face of a code; A for any code but 1. -/
def faceOf (n : Nat) : Face := if n = 1 then .b else .a

/-- The head at a place of a body. -/
def headAt (b : List Octet) (i : Nat) : HeadRef := ⟨oct b i, oct b (i + 1), faceOf (oct b (i + 2))⟩

/-- A head field is an address of the section (R1). -/
def State.okHead (s : State) (b : List Octet) (i : Nat) : Bool :=
  s.okStation (oct b i) && s.okLane (oct b (i + 1)) && okBit (oct b (i + 2))

/-- The aspect of a code; DARK for a code outside the six. -/
def aspectOf (n : Nat) : Aspect := (Aspect.ofCode n).getD .dark

/-- A code of one of the five lit aspects. -/
def okLit (n : Nat) : Bool := decide (n < 5)

/-- The plan target of a code (R199). -/
def targetOf : Nat → Target
  | 0 => .dir .a
  | 1 => .dir .b
  | 2 => .shut
  | _ => .keep

/-- The lane kind of a code (R199). -/
def laneKindOf : Nat → LaneKind
  | 0 => .tidal
  | 1 => .fixedA
  | _ => .fixedB

/-- The merge preference of a code (R199). -/
def mergeOf (n : Nat) : MergePref := if n = 0 then .lower else .higher

/-- The clearance mode of a code (R199). -/
def clearanceOf (n : Nat) : ClearanceMode := if n = 0 then .timed else .confirmed

/-- The role of a code (R199). -/
def roleOf (n : Nat) : Role := if n = 0 then .master else .follower

/-- A plan id (R60). -/
def okPlan (n : Nat) : Bool := decide (1 ≤ n) && decide (n ≤ Config.planCount)

/-- The set of kinds of three octets, kind i at bit i (R199); 24 bits, of which 22 name kinds. -/
def kindSet (b : List Octet) : BitVec 24 := b.getD 2 0 ++ b.getD 1 0 ++ b.getD 0 0

/-- A set of kinds names no index above 21 (R191, R192). -/
def okKindSet (b : List Octet) : Bool := !(kindSet b).getLsbD 22 && !(kindSet b).getLsbD 23

/-- The kinds a set names, as a flag word. -/
def kindWord (b : List Octet) : BitVec 22 := (kindSet b).setWidth 22

/-- A weekday set names at least one weekday and no eighth (R199). -/
def okWeekdays (o : Octet) : Bool := o != 0 && !o.getLsbD 7

/-- A weekday set names a weekday (R199). -/
def hasWeekday (o : Octet) (d : Nat) : Bool := o.getLsbD (d - 1)

/-- The half-period as stored: clamped to 250..1000 ms, then down to a multiple of 10 (R4). -/
def halfPeriodOf (n : Nat) : Nat := clamp 250 1000 n / 10 * 10

end Sys2Proof.Machine
end

