-- ==== Sys2Proof/Machine/PowerEvents.lean ====
section
/-! DEFINITION. The supply and the RESET_N line: POWER_UP, RESET_N_FALL, RESET_N_RISE, POWER_FAILURE (R16, R17). -/

namespace Sys2Proof.Machine

/-- POWER_UP (R16): with RESET_N high the start-up sequence runs with reset cause POWER_UP; with RESET_N low the part is
held in reset, and that cause waits for the rise. Power that comes up on a powered part has been off before (log entry 6). -/
def execPowerUp (s : State) : Host.Outcome State Fault Refusal :=
  let off := s.fail
  let s1 : State := { off with power.on := true }
  if s.power.resetN then .next (s1.startUp .powerUp) else .next { s1 with power.heldCause := .powerUp }

/-- RESET_N_FALL (R17): a powered part is held in reset. -/
def execResetNFall (s : State) : Host.Outcome State Fault Refusal :=
  if !s.power.resetN then .next s
  else if s.power.on then .next { s.hold with power.resetN := false }
  else .next { s with power.resetN := false }

/-- RESET_N_RISE (R16, R17): a powered part runs the start-up sequence. -/
def execResetNRise (s : State) : Host.Outcome State Fault Refusal :=
  if s.power.resetN then .next s
  else if s.power.on then .next (({ s with power.resetN := true } : State).startUp s.power.heldCause)
  else .next { s with power.resetN := true }

/-- POWER_FAILURE (R17): the part stops, and the region being written is invalid at the next load. -/
def execPowerFailure (s : State) : Host.Outcome State Fault Refusal := .next s.fail

end Sys2Proof.Machine
end

