-- ==== Sys2Proof/Machine/HostEvents.lean ====
section
/-! DEFINITION. The host link's events (spec/10): reception, the end of a transmission, host silence, and a command of
unknown KIND. -/

namespace Sys2Proof.Machine

/-- The silence timeout in ms (R188). -/
def State.silenceMs (s : State) : Nat := s.config.records.tunnel.silence * 1000

/-- A counter rises by 1 and stays at 65,535 (R182, R183). -/
def countUp (n : Nat) : Nat := if n < Config.counterTop then n + 1 else n

/-- A good frame arrives: the silence timer restarts, HOST_SILENT ends, and the frame takes a free slot or is dropped
with LINK_OVERRUN (R183, R188). -/
def State.frameArrives (s : State) (f : HostFrame) : State :=
  let s1 := ({ s with host.silence := some s.silenceMs } : State).report .hostSilent false
  if s1.host.slots.length < Config.slotCount then { s1 with host.slots := s1.host.slots ++ [f] }
  else ({ s1 with host.overruns := countUp s1.host.overruns } : State).raise .linkOverrun

/-- A frame is dropped on a fault: its counter rises and LINK_ERROR is raised (R182). -/
def State.frameDropped (s : State) (fault : HostFault) : State :=
  let s1 : State := match fault with
    | .length => { s with host.lengthErrors := countUp s.host.lengthErrors }
    | .gap => { s with host.gapErrors := countUp s.host.gapErrors }
    | .brk => { s with host.breakErrors := countUp s.host.breakErrors }
    | .crc => { s with host.crcErrors := countUp s.host.crcErrors }
  s1.raise .linkError

/-- What the receiver found at an octet (R181, R182). -/
def State.hostEvent (s : State) : HostRxEvent → State
  | .good f => s.frameArrives f
  | .dropped fault => s.frameDropped fault

/-- The receiver's new state and the events it found, in order. -/
def State.hostReceived (s : State) (r : HostRx × List HostRxEvent) : State :=
  r.2.foldl State.hostEvent { s with host.rx := r.1 }

/-- Octets arrive on the host link. -/
def State.hostOctets (s : State) (os : List Octet) : State := s.hostReceived (s.host.rx.feed os)

/-- A gap or a break on the host link. -/
def State.hostCutShort (s : State) (fault : HostFault) : State := s.hostReceived (s.host.rx.cutShort fault)

/-- HOST_FRAME_RECEIVED (R181, R183). -/
def execHostFrameReceived (octets : List Octet) (s : State) : Host.Outcome State Fault Refusal :=
  event s fun s => s.hostOctets octets

/-- HOST_FRAME_DROPPED (R182): the octets carry the LEN or CRC fault, or a break follows them. -/
def execHostFrameDropped (octets : List Octet) (brk : Bool) (s : State) : Host.Outcome State Fault Refusal :=
  event s fun s => if brk then (s.hostOctets octets).hostCutShort .brk else s.hostOctets octets

/-- HOST_GAP_TIMEOUT (R182): 5 ms pass after the octets, inside a frame. -/
def execHostGapTimeout (octets : List Octet) (s : State) : Host.Outcome State Fault Refusal :=
  event s fun s => (s.hostOctets octets).hostCutShort .gap

/-- The frame being sent is the RESTART reply: the processor is CLOSED, nothing is queued behind it (R19). -/
def State.sendsRestartReply (s : State) (f : HostFrame) : Bool :=
  s.host.processor == .closed && s.host.replies.isEmpty && f.kind == replyKind 18#8

/-- The notice count after a frame has been sent (R187). -/
def countAfter (f : HostFrame) (n : Octet) : Octet := if f.kind = 0 then n + 1 else n

/-- HOST_TRANSMIT_END (R186): the transmitter chooses what to send next; after the RESTART reply the start-up sequence
runs (R19). -/
def execHostTransmitEnd (s : State) : Host.Outcome State Fault Refusal :=
  match s.host.tx with
  | none => .next s
  | some f =>
    if s.live && s.sendsRestartReply f then .next (s.startUp .restart)
    else event s fun s => { s with host.tx := none, host.noticeCount := countAfter f s.host.noticeCount }

/-- SILENCE_TIMEOUT (R188). -/
def execSilenceTimeout (s : State) : Host.Outcome State Fault Refusal :=
  eventIf s s.host.silence.isSome fun s =>
    (({ s with host.silence := none } : State).report .hostSilent true).raise .hostSilent

/-- The KINDs the part knows (R198). -/
def knownKinds : List Nat :=
  List.range' 1 18 ++ List.range' 20 11 ++ List.range' 32 11 ++ List.range' 44 6 ++ [52, 53] ++ List.range' 56 5 ++
    [64, 65, 66, 67]

/-- A KIND the part does not know (R185, R198). -/
def unknownKind (kind : Octet) : Bool := !knownKinds.contains kind.toNat

/-- UNKNOWN_KIND (R185): answered by the port with BAD_KIND. -/
def execUnknownKind (kind tag : Octet) (body : List Octet) (s : State) : Host.Outcome State Fault Refusal :=
  let f : HostFrame := { kind := kind, tag := tag, body := body }
  eventIf s (unknownKind kind && s.canTake f) fun s => s.complete f (refuse s 16 kind.toNat 0).reply

end Sys2Proof.Machine
end

