-- ==== Sys2Proof/Machine/ConfigCommands.lean ====
section
/-! DEFINITION. The Configuration Store's commands (spec/01): the records, the modes, and the store. -/

namespace Sys2Proof.Machine

/-! ### SET-TUNNEL -/

/-- The TUNNEL record a SET-TUNNEL body carries, clamped (R4). -/
def tunnelOf (b : List Octet) : Tunnel :=
  { written := true, n := oct b 0, l := oct b 1
    stepTime := clamp 2 120 (oct2 b 2), clearance := clamp 10 1800 (oct2 b 4), confirm := clamp 30 3600 (oct2 b 6)
    lampWindow := clamp 10 300 (oct2 b 8), silence := clamp 2 60 (oct2 b 10)
    autoSchedule := bitOf (oct b 12), autoStart := bitOf (oct b 13), halfPeriod := halfPeriodOf (oct2 b 14)
    role := roleOf (oct b 16)
    dims := [min 7 (oct b 17), min 7 (oct b 18), min 7 (oct b 19), min 7 (oct b 20)]
    freeze := bitOf (oct b 21) }

/-- Some numeric field of a SET-TUNNEL body was clamped or rounded (R4). -/
def tunnelClamped (b : List Octet) : Bool :=
  let t := tunnelOf b
  [t.stepTime, t.clearance, t.confirm, t.lampWindow, t.silence, t.halfPeriod] !=
      [oct2 b 2, oct2 b 4, oct2 b 6, oct2 b 8, oct2 b 10, oct2 b 14] ||
    t.dims != [oct b 17, oct b 18, oct b 19, oct b 20]

/-- The FLASH_SYNC line state follows an accepted SET-TUNNEL (R172). -/
def State.followRole (s : State) : State :=
  let t := s.config.records.tunnel
  match t.role, s.time.line with
  | .master, _ => { s with time.line := .driving, time.lossTimer := none }
  | .follower, .driving => { s with time.line := .following, time.lossTimer := some (lossMs t) }
  | .follower, .notDriven => { s with time.line := .following, time.lossTimer := some (lossMs t) }
  | .follower, .following => s
  | .follower, .freeRunning => s

/-- A string of the section belongs to a station whose zone's dim level differs between two tables of levels. -/
def State.relevelled (s : State) (old : List Nat) (key : Nat) : Bool :=
  s.stringKeyIn key &&
    (s.stationCfg (key / 120)).any fun c => old.getD c.zone 0 != s.config.dims.getD c.zone 0

/-- The accumulators of the stations of every zone whose dim level has changed from an older table of levels are emptied: an
accumulator sees no change of dim level between its first sample and its last (R108, R9, R110; log entry 25). -/
def State.emptyRelevelled (s : State) (old : List Nat) : State := s.emptyAccs (s.relevelled old)

/-- The records of an accepted SET-TUNNEL: those of lanes and stations that leave the section are discarded (R4, R21). -/
def State.writeTunnel (s : State) (t : Tunnel) : State :=
  { s with
    config.records.tunnel := t
    config.dims := t.dims
    config.records.lanes := Tab.eraseWhere (fun i => decide (t.l ≤ i)) s.config.records.lanes
    config.records.stations := Tab.eraseWhere (fun i => decide (t.n ≤ i)) s.config.records.stations
    engine.lanes := Tab.eraseWhere (fun i => decide (t.l ≤ i)) s.engine.lanes }

/-- The new head set of a change of N or L: displayed aspects UNKNOWN, counts and accumulators emptied, exchanges
abandoned (R5, R67, R69, R153). -/
def State.newHeadSet (s : State) : State :=
  let s1 : State := { s with resolver.displayed := Tab.eraseWhere s.headKeyIn s.resolver.displayed }
  ((s1.mapProving s1.headKeyIn HeadProving.zeroed).emptyAccs s1.stringKeyIn).abandonExchanges

/-- The kinds that a change of N or L makes active where they were not are raised once (R5). -/
def State.raiseNewConditions (s : State) (before : State) : State :=
  (((s.raiseIf (s.anyStringFault && !before.anyStringFault) .stringFault).raiseIf
    (s.anyHeadFault && !before.anyHeadFault) .headFault).raiseIf
    (s.anyStation .cut && !before.anyStation .cut) .falseOpen).raiseIf
    (s.anyStation .cut && !before.anyStation .cut) .stationCut

/-- An accepted SET-TUNNEL takes effect (R4, R5, R172). A change of N or L empties every accumulator, and otherwise the new dim
levels empty those of the zones they change (R108). -/
def State.applyTunnel (s : State) (t : Tunnel) : State :=
  let s1 := (s.writeTunnel t).followRole
  let s2 := if s.n = t.n then s1 else s1.resetStations
  if s.n = t.n ∧ s.l = t.l then s2.emptyRelevelled s.config.dims else s2.newHeadSet.raiseNewConditions s

/-- SET-TUNNEL's own checks (R3, R4). -/
def actSetTunnel (s : State) (b : List Octet) : CmdResult :=
  withFields s
    [(decide (2 ≤ oct b 0) && decide (oct b 0 ≤ 16), 0), (decide (1 ≤ oct b 1) && decide (oct b 1 ≤ 6), 1),
      (okBit (oct b 12), 12), (okBit (oct b 13), 13), (okBit (oct b 16), 16), (okBit (oct b 21), 21)]
    (let t := tunnelOf b
     if s.resolver.lampTest.isSome ∧ ¬(t.n = s.n ∧ t.l = s.l) then refuse s 21 0 0
     else okOrClamped (tunnelClamped b) (s.applyTunnel t) [])

/-- SET_TUNNEL (R4). -/
def execSetTunnel (tag : Octet) (body : List Octet) (s : State) : Host.Outcome State Fault Refusal :=
  runCommand 1 22 .standbyOnly actSetTunnel tag body s

/-- The TUNNEL record as a reply carries it: its fields in order, then the written flag (log entry 9). -/
def tunnelOctets (t : Tunnel) : List Octet :=
  o1 t.n ++ o1 t.l ++ be16 t.stepTime ++ be16 t.clearance ++ be16 t.confirm ++ be16 t.lampWindow ++ be16 t.silence ++
    flagOctets t.autoSchedule ++ flagOctets t.autoStart ++ be16 t.halfPeriod ++ o1 t.role.code ++ t.dims.flatMap o1 ++
    flagOctets t.freeze ++ flagOctets t.written

/-- GET_TUNNEL (R10). -/
def execGetTunnel (tag : Octet) (body : List Octet) (s : State) : Host.Outcome State Fault Refusal :=
  runCommand 2 0 .both (fun s _ => okWith s (tunnelOctets s.config.records.tunnel)) tag body s

/-! ### LANE and STATION records -/

/-- SET-LANE's own checks (R6). -/
def actSetLane (s : State) (b : List Octet) : CmdResult :=
  withFields s
    [(s.okLane (oct b 0), 0), (decide (oct b 1 < 3), 1), (okBit (oct b 2), 2), (okBit (oct b 3), 3)]
    (let c : LaneCfg :=
      { kind := laneKindOf (oct b 1), merge := mergeOf (oct b 2), clearance := clearanceOf (oct b 3) }
     okWith { s with config.records.lanes := Tab.set none s.config.records.lanes (oct b 0) (some c) } [])

/-- SET_LANE (R6). -/
def execSetLane (tag : Octet) (body : List Octet) (s : State) : Host.Outcome State Fault Refusal :=
  runCommand 3 4 .standbyOnly actSetLane tag body s

/-- A LANE record as a reply carries it. -/
def laneCfgOctets (c : LaneCfg) : List Octet := o1 c.kind.code ++ o1 c.merge.code ++ o1 c.clearance.code

/-- The code of the lane timer that runs in a lane state (R199). -/
def timerCode : LanePhase → Nat
  | .closing _ _ _ _ => 1
  | .opening _ _ _ _ => 1
  | .clearance _ _ false _ => 2
  | .clearance _ _ true _ => 3
  | .run _ => 0
  | .shut => 0

/-- The fields R20 makes present in a lane state, each optional: direction, front, merge aspect, restore flag,
confirmed flag, window-open field. DESIGN CHOICE (log entry 31): each has a presence octet in every lane state. -/
def phaseOctets : LanePhase → List Octet
  | .run d => 1#8 :: faceOctets d ++ [0, 0, 0, 0, 0]
  | .closing d f m _ => 1#8 :: faceOctets d ++ 1#8 :: o1 f ++ 1#8 :: aspectOctets m ++ [0, 0, 0]
  | .clearance d c w _ => 1#8 :: faceOctets d ++ [0, 0, 0] ++ 1#8 :: flagOctets c ++ 1#8 :: flagOctets w
  | .shut => [0, 0, 0, 0, 0, 0]
  | .opening d f r _ => 1#8 :: faceOctets d ++ 1#8 :: o1 f ++ [0] ++ 1#8 :: flagOctets r ++ [0, 0]

/-- The lane status (R47). -/
def laneStatusOctets (r : LaneRec) : List Octet :=
  o1 r.phase.code ++ phaseOctets r.phase ++ optional taskOctets r.phase.task ++ o1 (timerCode r.phase) ++
    be32 (r.timer.getD 0) ++ flagOctets r.emergency ++ optional outcomeOctets r.last

/-- GET-LANE's own checks (R10, R47). -/
def actGetLane (s : State) (b : List Octet) : CmdResult :=
  withFields s [(s.okLane (oct b 0), 0)]
    (match s.laneCfg (oct b 0) with
     | none => refuse s 22 0 0
     | some c => okWith s (laneCfgOctets c ++ laneStatusOctets (s.lane (oct b 0))))

/-- GET_LANE (R10, R47). -/
def execGetLane (tag : Octet) (body : List Octet) (s : State) : Host.Outcome State Fault Refusal :=
  runCommand 4 1 .both actGetLane tag body s

/-- An accepted SET-STATION (R7, R138, R140). -/
def State.applyStation (s : State) (k : Nat) (c : StationCfg) : State :=
  let old := s.stationCfg k
  let s1 : State := { s with config.records.stations := Tab.set none s.config.records.stations k (some c) }
  let s2 := if old.map (·.zone) = some c.zone then s1 else s1.emptyAccs (s1.stringOfStation k)
  if (s.ident k).isSome then (s2.setIdent k none).setUnsaved else s2

/-- SET-STATION's own checks (R7). -/
def actSetStation (s : State) (b : List Octet) : CmdResult :=
  withFields s [(s.okStation (oct b 0), 0), (decide (oct b 1 < 4), 1), (okBit (oct b 2), 2)]
    (okWith (s.applyStation (oct b 0) { zone := oct b 1, learn := bitOf (oct b 2) }) [])

/-- SET_STATION (R7). -/
def execSetStation (tag : Octet) (body : List Octet) (s : State) : Host.Outcome State Fault Refusal :=
  runCommand 5 3 .standbyOnly actSetStation tag body s

/-- GET-STATION's own checks (R10). -/
def actGetStation (s : State) (b : List Octet) : CmdResult :=
  withFields s [(s.okStation (oct b 0), 0)]
    (match s.stationCfg (oct b 0) with
     | none => refuse s 22 0 0
     | some c => okWith s (o1 c.zone ++ flagOctets c.learn))

/-- GET_STATION (R10). -/
def execGetStation (tag : Octet) (body : List Octet) (s : State) : Host.Outcome State Fault Refusal :=
  runCommand 6 1 .both actGetStation tag body s

/-! ### PROVING and DUTY records, dim levels -/

/-- The PROVING record a SET-PROVING body carries, clamped; learn_min first (R8). -/
def provingOf (b : List Octet) : Proving :=
  let lo := clamp 1 1023 (oct2 b 9)
  { depth := min 15 (oct b 0), threshold := clamp 1 7 (oct b 1), tolerance := clamp 5 50 (oct b 2)
    floor := clamp 2 50 (oct2 b 3), spread := min 1023 (oct2 b 5), dark := clamp 5 100 (oct2 b 7)
    learnMin := lo, learnMax := clamp lo 1023 (oct2 b 11) }

/-- The PROVING record a body carries before clamping. -/
def provingRaw (b : List Octet) : Proving :=
  { depth := oct b 0, threshold := oct b 1, tolerance := oct b 2, floor := oct2 b 3, spread := oct2 b 5
    dark := oct2 b 7, learnMin := oct2 b 9, learnMax := oct2 b 11 }

/-- An accepted SET-PROVING (R8). -/
def State.applyProving (s : State) (p : Proving) : State :=
  let old := s.config.records.proving
  if p = old then s
  else
    let s1 := ({ s with config.records.proving := p } : State).emptyAccs s.stringKeyIn
    if p.threshold < old.threshold then s1.mapStrings (fun _ => true) (StringRec.rethreshold p.threshold) else s1

/-- SET_PROVING (R8). -/
def execSetProving (tag : Octet) (body : List Octet) (s : State) : Host.Outcome State Fault Refusal :=
  runCommand 7 13 .both
    (fun s b => okOrClamped (provingOf b != provingRaw b) (s.applyProving (provingOf b)) []) tag body s

/-- The PROVING record as a reply carries it. -/
def provingOctets (p : Proving) : List Octet :=
  o1 p.depth ++ o1 p.threshold ++ o1 p.tolerance ++ be16 p.floor ++ be16 p.spread ++ be16 p.dark ++ be16 p.learnMin ++
    be16 p.learnMax

/-- GET_PROVING (R10). -/
def execGetProving (tag : Octet) (body : List Octet) (s : State) : Host.Outcome State Fault Refusal :=
  runCommand 8 0 .both (fun s _ => okWith s (provingOctets s.config.records.proving)) tag body s

/-- The eight duties a SET-DUTY body carries, before clamping. -/
def dutiesRaw (b : List Octet) : List Nat := (List.range 8).map fun i => oct2 b (2 * i)

/-- The eight duties a SET-DUTY body carries, clamped (R9). -/
def dutiesOf (b : List Octet) : List Nat := (dutiesRaw b).map (clamp 20 1000)

/-- An accepted SET-DUTY (R9). -/
def State.applyDuties (s : State) (d : List Nat) : State :=
  if d = s.config.records.duties then s
  else ({ s with config.records.duties := d } : State).emptyAccs s.stringKeyIn

/-- SET_DUTY (R9). -/
def execSetDuty (tag : Octet) (body : List Octet) (s : State) : Host.Outcome State Fault Refusal :=
  runCommand 9 16 .both (fun s b => okOrClamped (dutiesOf b != dutiesRaw b) (s.applyDuties (dutiesOf b)) []) tag body s

/-- GET_DUTY (R10). -/
def execGetDuty (tag : Octet) (body : List Octet) (s : State) : Host.Outcome State Fault Refusal :=
  runCommand 10 0 .both (fun s _ => okWith s (s.config.records.duties.flatMap be16)) tag body s

/-- An accepted SET-DIM (R9). -/
def State.applyDim (s : State) (zone level : Nat) : State :=
  let dims := s.config.dims.set zone level
  ({ s with config.dims := dims } : State).emptyRelevelled s.config.dims

/-- SET-DIM's own checks (R9). -/
def actSetDim (s : State) (b : List Octet) : CmdResult :=
  withFields s [(decide (oct b 0 < Config.zoneCount), 0)]
    (okOrClamped (decide (7 < oct b 1)) (s.applyDim (oct b 0) (min 7 (oct b 1))) [])

/-- SET_DIM (R9). -/
def execSetDim (tag : Octet) (body : List Octet) (s : State) : Host.Outcome State Fault Refusal :=
  runCommand 11 2 .both actSetDim tag body s

/-- GET_DIM (R10). -/
def execGetDim (tag : Octet) (body : List Octet) (s : State) : Host.Outcome State Fault Refusal :=
  runCommand 12 0 .both (fun s _ => okWith s (s.config.dims.flatMap o1)) tag body s

/-! ### Modes -/

/-- START's own checks (R12). -/
def actStart (s : State) (_ : List Octet) : CmdResult :=
  match s.startFault with
  | none => okWith s.enterRun []
  | some f => ⟨{ s with config.startRefusal := some f }, (refuse s 31 f.detail.1 f.detail.2).reply⟩

/-- START (R12). -/
def execStart (tag : Octet) (body : List Octet) (s : State) : Host.Outcome State Fault Refusal :=
  runCommand 13 0 .standbyOnly actStart tag body s

/-- The part enters STANDBY (R13). -/
def State.enterStandby (s : State) : State :=
  let s1 := s.removeQueued (fun _ => true) .cancelled
  { s1 with resolver.overrides := [], config.mode := .standby }

/-- STOP's own checks (R13). -/
def actStop (s : State) (_ : List Octet) : CmdResult :=
  if s.allShut && s.activeTask.isNone then okWith s.enterStandby [] else refuse s 20 0 0

/-- STOP (R13). -/
def execStop (tag : Octet) (body : List Octet) (s : State) : Host.Outcome State Fault Refusal :=
  runCommand 14 0 .runOnly actStop tag body s

/-- The mode record (R14). -/
def modeOctets (c : ConfigStore) : List Octet :=
  o1 c.mode.code ++ flagOctets c.records.tunnel.written ++ flagOctets c.configValid ++ flagOctets c.sigValid ++
    o1 c.resetCause.code ++ optional (fun f => o1 f.detail.1 ++ o1 f.detail.2) c.startRefusal

/-- GET_MODE (R14). -/
def execGetMode (tag : Octet) (body : List Octet) (s : State) : Host.Outcome State Fault Refusal :=
  runCommand 15 0 .both (fun s _ => okWith s (modeOctets s.config)) tag body s

/-! ### The store -/

/-- A store write command is taken: the processor is WRITING with the contents held now, and the command's slot stays
occupied (R18, R184). A command with a body completes at once with BAD_LENGTH (R196). -/
def State.beginWrite (s : State) (f : HostFrame) (w : StoreWrite) : State :=
  if f.body.length ≠ 0 then s.complete f (refuse s 17 0 0).reply
  else { s with host.processor := .writing, config.writing := some w }

/-- COMMIT (R18). -/
def execCommit (tag : Octet) (body : List Octet) (s : State) : Host.Outcome State Fault Refusal :=
  let f := commandFrame 16 tag body
  eventIf s (s.canTake f) fun s => s.beginWrite f (.config s.configImage)

/-- SAVE_SIGNATURES (R18, R140): the unsaved flag is cleared when the command is taken. -/
def execSaveSignatures (tag : Octet) (body : List Octet) (s : State) : Host.Outcome State Fault Refusal :=
  let f := commandFrame 17 tag body
  eventIf s (s.canTake f) fun s =>
    let s1 := s.beginWrite f (.signature s.sigImage)
    if body.length ≠ 0 then s1 else { s1 with sigs.unsaved := false }

/-- The store after a write has ended, and the reply (R18, R140). -/
def State.endWrite (s : State) (w : StoreWrite) (ok : Bool) : CmdResult :=
  let s1 : State := { s with host.processor := .ready, config.writing := none }
  match w with
  | .config image =>
    if ok then okWith { s1 with config.nvConfig := some image, config.configValid := true } []
    else
      ⟨({ s1 with config.nvConfig := none, config.configValid := false } : State).raise .storeFailed,
        (refuse s 32 1 0).reply⟩
  | .signature image =>
    if ok then okWith { s1 with config.nvSig := some image, config.sigValid := true } []
    else
      ⟨({ s1 with config.nvSig := none, config.sigValid := false, sigs.unsaved := true } : State).raise .storeFailed,
        (refuse s 32 2 0).reply⟩

/-- STORE_WRITE_COMPLETE (R18): the command in the oldest slot completes and the processor is READY again. -/
def execStoreWriteComplete (ok : Bool) (s : State) : Host.Outcome State Fault Refusal :=
  match s.config.writing, s.host.slots with
  | some w, f :: _ =>
    eventIf s (s.host.processor == .writing) fun s =>
      let r := s.endWrite w ok
      r.state.complete f r.reply
  | some _, [] => .next s
  | none, _ => .next s

/-- RESTART's own effect (R19): its reply is queued and the processor is CLOSED. -/
def actRestart (s : State) (_ : List Octet) : CmdResult := okWith { s with host.processor := .closed } []

/-- RESTART (R19). -/
def execRestart (tag : Octet) (body : List Octet) (s : State) : Host.Outcome State Fault Refusal :=
  runCommand 18 0 .both actRestart tag body s

end Sys2Proof.Machine
end

