-- ==== Sys2Proof/Machine/LaneCommands.lean ====
section
/-! DEFINITION. The Changeover Engine's commands and timers: the lane commands (R51 to R55), CONFIRM-CLEAR, ABORT-LANE and
CLOSE-NOW (spec/02), the queue and the plans (spec/03), and the four lane timers. -/

namespace Sys2Proof.Machine

/-! ### Adding tasks (R51) -/

/-- A task of origin HOST, entered now (R48, R51). -/
def State.hostTask (s : State) (lane : Nat) (k : TaskKind) : Task :=
  { lane := lane, kind := k, origin := .host, plan := none, stamp := s.stamp }

/-- Checks 6 and 7 of R51, the adding of a lane's tasks and the scan. -/
def State.addTasks (s : State) (lane : Nat) (ts : List Task) : CmdResult :=
  if ts.any (holdsTask s.engine.queue) then refuse s 24 lane 0
  else if Config.queuePlaces < s.engine.queue.length + ts.length then refuse s 25 s.engine.queue.length ts.length
  else
    let s1 := s.enqueue ts
    acceptedWith s1.scan (o1 ts.length ++ o1 s1.engine.queue.length)

/-- WRONG_STATE with the lane state (R197; log entry 8). -/
def State.wrongLaneState (s : State) (lane : Nat) : CmdResult := refuse s 20 (s.lane lane).phase.code 0

/-- CLOSE-LANE's own checks (R51, R52). -/
def actCloseLane (s : State) (b : List Octet) : CmdResult :=
  let lane := oct b 0
  withFields s [(s.okLane lane, 0)]
    (match s.project s.engine.queue lane with
     | none => refuse s 23 lane 0
     | some _ => s.addTasks lane [s.hostTask lane .close])

/-- CLOSE_LANE (R52). -/
def execCloseLane (tag : Octet) (body : List Octet) (s : State) : Host.Outcome State Fault Refusal :=
  runCommand 20 1 .runOnly actCloseLane tag body s

/-- OPEN-LANE's own checks (R51, R53). -/
def actOpenLane (s : State) (b : List Octet) : CmdResult :=
  let lane := oct b 0
  let d := faceOf (oct b 1)
  withFields s [(s.okLane lane, 0), (okBit (oct b 1), 1)]
    (if s.barredDirection lane = some d then refuse s 26 lane 0
     else
       match s.project s.engine.queue lane with
       | none => s.addTasks lane [s.hostTask lane (.opn d)]
       | some e => if e = d then refuse s 23 lane 0 else s.wrongLaneState lane)

/-- OPEN_LANE (R53). -/
def execOpenLane (tag : Octet) (body : List Octet) (s : State) : Host.Outcome State Fault Refusal :=
  runCommand 21 2 .runOnly actOpenLane tag body s

/-- REVERSE-LANE's own checks (R51, R54). -/
def actReverseLane (s : State) (b : List Octet) : CmdResult :=
  let lane := oct b 0
  withFields s [(s.okLane lane, 0)]
    (if (s.barredDirection lane).isSome then refuse s 26 lane 0
     else
       match s.project s.engine.queue lane with
       | none => s.wrongLaneState lane
       | some d => s.addTasks lane [s.hostTask lane .close, s.hostTask lane (.opn d.other)])

/-- REVERSE_LANE (R54). -/
def execReverseLane (tag : Octet) (body : List Octet) (s : State) : Host.Outcome State Fault Refusal :=
  runCommand 22 1 .runOnly actReverseLane tag body s

/-- A queued task is the one a CANCEL-TASK names: its lane, and its kind 0 CLOSE or 1 OPEN (R55). -/
def Task.isNamed (lane kind : Nat) (t : Task) : Bool := t.lane == lane && t.kind.code == kind

/-- CANCEL-TASK's own checks (R55). -/
def actCancelTask (s : State) (b : List Octet) : CmdResult :=
  withFields s [(s.okLane (oct b 0), 0), (okBit (oct b 1), 1)]
    (if s.engine.queue.any (Task.isNamed (oct b 0) (oct b 1)) then
       okWith (s.removeQueued (Task.isNamed (oct b 0) (oct b 1)) .cancelled).scan []
     else refuse s 22 0 0)

/-- CANCEL_TASK (R55). -/
def execCancelTask (tag : Octet) (body : List Octet) (s : State) : Host.Outcome State Fault Refusal :=
  runCommand 23 2 .runOnly actCancelTask tag body s

/-! ### Acting on a lane -/

/-- A lane in CLEARANCE becomes SHUT, its CLOSE task ends with an outcome, and the scan runs (R30, R32). -/
def State.endClearance (s : State) (lane : Nat) (t : Task) (o : TaskOutcome) : State :=
  ((s.putPhase lane .shut none).endTask t o none).scan

/-- CONFIRM-CLEAR's own checks (R32). -/
def actConfirmClear (s : State) (b : List Octet) : CmdResult :=
  let lane := oct b 0
  withFields s [(s.okLane lane, 0)]
    (match (s.lane lane).phase with
     | .clearance d _ false t => okWith (s.putPhase lane (.clearance d true false t) (s.lane lane).timer) []
     | .clearance _ _ true t => okWith (s.endClearance lane t .done) []
     | .run _ => s.wrongLaneState lane
     | .closing _ _ _ _ => s.wrongLaneState lane
     | .shut => s.wrongLaneState lane
     | .opening _ _ _ _ => s.wrongLaneState lane)

/-- CONFIRM_CLEAR (R32). -/
def execConfirmClear (tag : Octet) (body : List Octet) (s : State) : Host.Outcome State Fault Refusal :=
  runCommand 24 1 .runOnly actConfirmClear tag body s

/-- ABORT-LANE on a lane in CLOSING (R38). -/
def State.abortClosing (s : State) (lane : Nat) (d : Face) (front : Nat) (t : Task) : CmdResult :=
  if front = 0 then
    okWith ((((s.putPhase lane (.run d) none).endTask t .aborted none).cancelOpens lane).scan) (o1 0)
  else
    okWith (((s.putPhase lane (.opening d front true none) (some s.stepMs)).endTask t .aborted none).cancelOpens lane)
      (o1 4)

/-- ABORT-LANE on a lane in CLEARANCE (R39). -/
def State.abortClearance (s : State) (lane : Nat) (d : Face) (t : Task) : CmdResult :=
  let s1 := ((s.putPhase lane .shut none).endTask t .aborted none).cancelOpens lane
  if s1.sweepFree ∧ s1.startCheck lane = none then
    okWith (s1.putPhase lane (.opening d (s1.n - 1) false none) (some s1.stepMs)) (o1 4)
  else okWith s1.scan (o1 3)

/-- ABORT-LANE on a lane in a fresh opening (R40). -/
def State.abortOpening (s : State) (lane : Nat) (d : Face) (t : Option Task) : CmdResult :=
  okWith (((s.putPhase lane .shut none).endOpening lane d t .aborted none).scan) (o1 3)

/-- ABORT-LANE's own checks (R37 to R40); the body names the state the abort made the lane enter. -/
def actAbortLane (s : State) (b : List Octet) : CmdResult :=
  let lane := oct b 0
  withFields s [(s.okLane lane, 0)]
    (match (s.lane lane).phase with
     | .run _ => refuse s 27 0 0
     | .shut => refuse s 27 3 0
     | .closing d f _ t => s.abortClosing lane d f t
     | .clearance d _ _ t => s.abortClearance lane d t
     | .opening d _ false t => s.abortOpening lane d t
     | .opening _ _ true _ => refuse s 28 0 0)

/-- ABORT_LANE (R37 to R40). -/
def execAbortLane (tag : Octet) (body : List Octet) (s : State) : Host.Outcome State Fault Refusal :=
  runCommand 25 1 .runOnly actAbortLane tag body s

/-- A closing sweep that merges toward a lane takes the merge aspect SLOW (R27). -/
def LanePhase.unmerge (lane target : Nat) : LanePhase → LanePhase
  | .closing d f m t => .closing d f (if mergeTarget lane d m = some target then .slow else m) t
  | .run d => .run d
  | .clearance d c w t => .clearance d c w t
  | .shut => .shut
  | .opening d f r t => .opening d f r t

/-- The merge target of every closing sweep that merges toward a lane is gone (R27). -/
def State.mergeFallback (s : State) (target : Nat) : State :=
  s.laneNumbers.foldl
    (fun s l => s.putPhase l ((s.lane l).phase.unmerge l target) (s.lane l).timer) s

/-- The task of a lane closed by CLOSE-NOW ends PRE_EMPTED (R41, step 3). -/
def State.preEmpt (s : State) (t : Option Task) : State :=
  match t with
  | none => s
  | some t => s.endTask t .preEmpted none

/-- CLOSE-NOW closes a lane (R41). -/
def State.closeNow (s : State) (lane : Nat) : State :=
  let s1 := s.setLane lane { s.lane lane with phase := .shut, timer := none, emergency := true }
  (((s1.preEmpt (s.lane lane).phase.task).removeQueued (fun t => t.lane == lane) .cancelled).mergeFallback lane).scan

/-- CLOSE-NOW's own checks (R41). -/
def actCloseNow (s : State) (b : List Octet) : CmdResult :=
  withFields s [(s.okLane (oct b 0), 0)] (okWith (s.closeNow (oct b 0)) [])

/-- CLOSE_NOW (R41). -/
def execCloseNow (tag : Octet) (body : List Octet) (s : State) : Host.Outcome State Fault Refusal :=
  runCommand 26 1 .runOnly actCloseNow tag body s

/-! ### Reading the queue -/

/-- The tasks held by lanes in CLEARANCE, in lane order (R59). -/
def State.clearanceTasks (s : State) : List Task :=
  s.laneNumbers.filterMap fun l => match (s.lane l).phase with
    | .clearance _ _ _ t => some t
    | .run _ => none
    | .closing _ _ _ _ => none
    | .shut => none
    | .opening _ _ _ _ => none

/-- A queued task behind its place in the queue, counted from 1 (R59). -/
def placedTask (p : Task × Nat) : List Octet := o1 (p.2 + 1) ++ taskOctets p.1

/-- The active task behind its presence octet, with the lane state it is carrying out (R59). -/
def State.activeOctets (s : State) : List Octet :=
  optional (fun t => taskOctets t ++ o1 (s.lane t.lane).phase.code) s.activeTask

/-- GET_QUEUE (R59). DESIGN CHOICE (log entry 9): a task held in CLEARANCE carries no lane octet beside its record, which
begins with the lane (R199). -/
def execGetQueue (tag : Octet) (body : List Octet) (s : State) : Host.Outcome State Fault Refusal :=
  runCommand 27 0 .both
    (fun s _ => okWith s (s.activeOctets ++ counted taskOctets s.clearanceTasks ++ counted placedTask s.engine.queue.zipIdx))
    tag body s

/-! ### Plans -/

/-- The six targets a SET-PLAN body carries (R60). -/
def planOf (b : List Octet) : List Target := (List.range 6).map fun i => targetOf (oct b (i + 1))

/-- The first lane of the section whose kind a plan contradicts (R60). -/
def State.firstContradicted (s : State) (p : List Target) : Option Nat :=
  s.laneNumbers.find? fun l => s.contradicts (p.getD l .keep) l

/-- SET-PLAN's own checks (R60). -/
def actSetPlan (s : State) (b : List Octet) : CmdResult :=
  withFields s ((okPlan (oct b 0), 0) :: (List.range' 1 6).map fun i => (decide (oct b i < 4), i))
    (match s.firstContradicted (planOf b) with
     | some lane => refuse s 26 lane 0
     | none => okWith { s with engine.plans := s.engine.plans.set (oct b 0 - 1) (planOf b) } [])

/-- SET_PLAN (R60). -/
def execSetPlan (tag : Octet) (body : List Octet) (s : State) : Host.Outcome State Fault Refusal :=
  runCommand 28 7 .both actSetPlan tag body s

/-- GET-PLAN's own checks (R60). -/
def actGetPlan (s : State) (b : List Octet) : CmdResult :=
  withFields s [(okPlan (oct b 0), 0)]
    (okWith s ((s.engine.plans.getD (oct b 0 - 1) keepPlan).flatMap fun t => o1 t.code))

/-- GET_PLAN (R60). -/
def execGetPlan (tag : Octet) (body : List Octet) (s : State) : Host.Outcome State Fault Refusal :=
  runCommand 29 1 .both actGetPlan tag body s

/-- SELECT-PLAN's own checks (R61, R63). -/
def actSelectPlan (s : State) (b : List Octet) : CmdResult :=
  withFields s [(okPlan (oct b 0), 0)]
    (match s.selectPlan .plan (oct b 0) with
     | .applied s1 superseded added => acceptedWith s1 (o1 superseded ++ o1 added)
     | .duplicate lane => refuse s 24 lane 0
     | .queueFull queued needed => refuse s 25 queued needed)

/-- SELECT_PLAN (R61). -/
def execSelectPlan (tag : Octet) (body : List Octet) (s : State) : Host.Outcome State Fault Refusal :=
  runCommand 30 1 .runOnly actSelectPlan tag body s

/-! ### Lane timers -/

/-- A lane number lies in the section and its lane is in CLOSING. -/
def State.isClosing (s : State) (lane : Nat) : Bool :=
  s.okLane lane && match (s.lane lane).phase with
    | .closing _ _ _ _ => true
    | .run _ => false
    | .clearance _ _ _ _ => false
    | .shut => false
    | .opening _ _ _ _ => false

/-- A lane number lies in the section and its lane is in OPENING. -/
def State.isOpening (s : State) (lane : Nat) : Bool :=
  s.okLane lane && match (s.lane lane).phase with
    | .opening _ _ _ _ => true
    | .run _ => false
    | .closing _ _ _ _ => false
    | .clearance _ _ _ _ => false
    | .shut => false

/-- A lane number lies in the section and its lane is in CLEARANCE, its window open or not as given. -/
def State.inClearance (s : State) (lane : Nat) (window : Bool) : Bool :=
  s.okLane lane && match (s.lane lane).phase with
    | .clearance _ _ w _ => w == window
    | .run _ => false
    | .closing _ _ _ _ => false
    | .shut => false
    | .opening _ _ _ _ => false

/-- The clearance minimum in ms (R29). -/
def State.clearanceMs (s : State) : Nat := s.config.records.tunnel.clearance * 1000

/-- The confirm window in ms (R30). -/
def State.confirmMs (s : State) : Nat := s.config.records.tunnel.confirm * 1000

/-- The step timer of a closing lane expires (R28, R29). -/
def State.closingStep (s : State) (lane : Nat) : State :=
  match (s.lane lane).phase with
  | .closing d f m t =>
    if f < s.n - 1 then s.putPhase lane (.closing d (f + 1) m t) (some s.stepMs)
    else (s.putPhase lane (.clearance d false false t) (some s.clearanceMs)).scan
  | .run _ => s
  | .clearance _ _ _ _ => s
  | .shut => s
  | .opening _ _ _ _ => s

/-- CLOSING_STEP_EXPIRY (R28). -/
def execClosingStepExpiry (lane : Nat) (s : State) : Host.Outcome State Fault Refusal :=
  eventIf s (s.isClosing lane) fun s => s.closingStep lane

/-- The task of an opening that reaches RUN ends DONE; an untasked one writes nothing (R35). -/
def State.openingDone (s : State) (t : Option Task) : State :=
  match t with
  | none => s
  | some t => s.endTask t .done none

/-- The step timer of an opening lane expires (R35). -/
def State.openingStep (s : State) (lane : Nat) : State :=
  match (s.lane lane).phase with
  | .opening d f r t =>
    if 0 < f - 1 then s.putPhase lane (.opening d (f - 1) r t) (some s.stepMs)
    else ((s.putPhase lane (.run d) none).openingDone t).scan
  | .run _ => s
  | .closing _ _ _ _ => s
  | .clearance _ _ _ _ => s
  | .shut => s

/-- OPENING_STEP_EXPIRY (R35). -/
def execOpeningStepExpiry (lane : Nat) (s : State) : Host.Outcome State Fault Refusal :=
  eventIf s (s.isOpening lane) fun s => s.openingStep lane

/-- A lane's clearance mode is CONFIRMED (R30). -/
def State.needsConfirm (s : State) (lane : Nat) : Bool :=
  (s.laneCfg lane).any fun c => c.clearance == .confirmed

/-- The clearance timer of a lane expires (R30). -/
def State.clearanceEnds (s : State) (lane : Nat) : State :=
  match (s.lane lane).phase with
  | .clearance d c _ t =>
    if s.needsConfirm lane && !c then
      (s.putPhase lane (.clearance d c true t) (some s.confirmMs)).raise .clearanceConfirmDue
    else s.endClearance lane t .done
  | .run _ => s
  | .closing _ _ _ _ => s
  | .shut => s
  | .opening _ _ _ _ => s

/-- CLEARANCE_TIMER_EXPIRY (R30). -/
def execClearanceTimerExpiry (lane : Nat) (s : State) : Host.Outcome State Fault Refusal :=
  eventIf s (s.inClearance lane false) fun s => s.clearanceEnds lane

/-- The confirm window of a lane expires (R31). -/
def State.windowEnds (s : State) (lane : Nat) : State :=
  match (s.lane lane).phase with
  | .clearance _ _ _ t => (((s.putPhase lane .shut none).endTask t .stalled none).cancelOpens lane).scan
  | .run _ => s
  | .closing _ _ _ _ => s
  | .shut => s
  | .opening _ _ _ _ => s

/-- CONFIRM_WINDOW_EXPIRY (R31). -/
def execConfirmWindowExpiry (lane : Nat) (s : State) : Host.Outcome State Fault Refusal :=
  eventIf s (s.inClearance lane true) fun s => s.windowEnds lane

end Sys2Proof.Machine
end

