-- ==== Sys2Proof/Machine/ResolverCommands.lean ====
section
/-! DEFINITION. The Aspect Resolver's commands and timers: the reads of the head table (R86, R87), overrides (R88 to R95) and
the lamp test (R96 to R101). -/

namespace Sys2Proof.Machine

/-! ### Reading heads -/

/-- A head record as a reply carries it, its displayed aspect beside it (R86); the five availabilities stand in
aspect code order (log entry 31). -/
def headRecOctets (r : HeadRec) (displayed : Option Aspect) : List Octet :=
  aspectOctets r.laneDemand ++ optional aspectOctets (if r.cascade then some .shut else none) ++
    optional aspectOctets r.override ++ optional aspectOctets r.lampTest ++ aspectOctets r.effective ++
    o1 (r.availOf r.effective).code ++ r.avail.flatMap (fun v => o1 v.code) ++ aspectOctets r.resolved ++
    displayedOctets displayed ++ flagOctets r.closureLost

/-- The head records of a station in head order, each with its displayed aspect (R86). -/
def State.stationRecs (s : State) (k : Nat) : List (HeadRec × Option Aspect) :=
  (stationHeads s.l k).filterMap fun h => (s.headRec h).map fun r => (r, s.displayed h)

/-- GET-HEADS' own checks (R86). -/
def actGetHeads (s : State) (b : List Octet) : CmdResult :=
  withFields s [(s.okStation (oct b 0), 0)]
    (okWith s (counted (fun p => headRecOctets p.1 p.2) (s.stationRecs (oct b 0))))

/-- GET_HEADS (R86). -/
def execGetHeads (tag : Octet) (body : List Octet) (s : State) : Host.Outcome State Fault Refusal :=
  runCommand 32 1 .both actGetHeads tag body s

/-- The section head indices, ascending, of the heads whose records pass a test (R87). -/
def State.indicesWhere (s : State) (p : HeadRec → Bool) : List Nat :=
  (s.sectionHeads.filter fun h => recHas p (s.headRec h)).map (headIndex s.l)

/-- A list of section head indices in a reply that may be cut. -/
def indexList (is : List Nat) : BodyPart := .list (o1 is.length) (is.map o1)

/-- The body of GET-CLOSURES (R87). -/
def State.closureParts (s : State) : List BodyPart :=
  [.list (o1 s.entryClosures.length) (s.entryClosures.map fun p => o1 p.1 ++ faceOctets p.2),
    indexList (s.indicesWhere (·.closureLost)), indexList (s.indicesWhere HeadRec.failed),
    .fields (o1 (s.indicesWhere (·.cascade)).length)]

/-- GET_CLOSURES (R87). -/
def execGetClosures (tag : Octet) (body : List Octet) (s : State) : Host.Outcome State Fault Refusal :=
  runCommand 33 0 .both (fun s _ => okWith s (cutBody s.closureParts)) tag body s

/-! ### Overrides -/

/-- An aspect an override may ask for (R89, check 4). -/
def Aspect.restricts : Aspect → Bool
  | .shut => true
  | .divertL => true
  | .divertR => true
  | .slow => true
  | .opn => false
  | .dark => false

/-- The override table without the entry of a head. -/
def State.dropOverride (s : State) (h : HeadRef) : State :=
  { s with resolver.overrides := s.resolver.overrides.filter fun o => o.head != h }

/-- An override takes the newest place of the table (R89, R90). -/
def State.placeOverride (s : State) (h : HeadRef) (a : Aspect) (minutes : Nat) : State :=
  let s1 := s.dropOverride h
  { s1 with
    resolver.overrides :=
      s1.resolver.overrides ++ [{ head := h, aspect := a, hold := minutes * 60000, setTime := s.stamp }] }

/-- OVERRIDE's own checks (R89). -/
def actOverride (s : State) (b : List Octet) : CmdResult :=
  let h := headAt b 0
  let a := aspectOf (oct b 3)
  let minutes := clamp 1 240 (oct b 4)
  let had := (s.overrideOf h).isSome
  withFields s [(s.okHead b 0, 0), (decide (oct b 3 < 6), 3), (a.restricts, 3)]
    (if !had && decide (Config.overridePlaces ≤ s.resolver.overrides.length) then refuse s 29 32 0
     else
       let s1 := s.placeOverride h a minutes
       okOrClamped (minutes != oct b 4) s1 (flagOctets had ++ o1 s1.resolver.overrides.length))

/-- OVERRIDE (R89). -/
def execOverride (tag : Octet) (body : List Octet) (s : State) : Host.Outcome State Fault Refusal :=
  runCommand 34 5 .runOnly actOverride tag body s

/-- RELEASE's own checks (R92). -/
def actRelease (s : State) (b : List Octet) : CmdResult :=
  withFields s [(s.okHead b 0, 0)]
    (if (s.overrideOf (headAt b 0)).isSome then okWith (s.dropOverride (headAt b 0)) [] else refuse s 22 0 0)

/-- RELEASE (R92). -/
def execRelease (tag : Octet) (body : List Octet) (s : State) : Host.Outcome State Fault Refusal :=
  runCommand 35 3 .both actRelease tag body s

/-- An override entry as a reply carries it (R95). -/
def overrideOctets (o : Override) : List Octet :=
  headOctets o.head ++ aspectOctets o.aspect ++ be16 (secondsUp o.hold) ++ stampOctets o.setTime

/-- GET_OVERRIDES (R95). -/
def execGetOverrides (tag : Octet) (body : List Octet) (s : State) : Host.Outcome State Fault Refusal :=
  runCommand 36 0 .both
    (fun s _ =>
      okWith s (cutBody [.list (o1 s.resolver.overrides.length) (s.resolver.overrides.map overrideOctets)]))
    tag body s

/-- The holds of some entries expire: they leave the table, and each raises OVERRIDE_EXPIRED (R91). -/
def State.overridesExpire (s : State) (heads : List HeadRef) : State :=
  ({ s with resolver.overrides := s.resolver.overrides.filter fun o => !heads.contains o.head } : State).raiseTimes
    .overrideExpired (countWhere (fun o => heads.contains o.head) s.resolver.overrides)

/-- OVERRIDE_HOLD_EXPIRY (R91): the holds of the entries of these heads reach zero together. -/
def execOverrideHoldExpiry (heads : List HeadRef) (s : State) : Host.Outcome State Fault Refusal :=
  eventIf s (!heads.isEmpty && heads.all fun h => (s.overrideOf h).isSome) fun s => s.overridesExpire heads

/-! ### The lamp test -/

/-- A lamp test starts (R97). -/
def State.startLampTest (s : State) (k : Nat) (f : Face) (a : Aspect) : State :=
  { s with
    resolver.lampTest :=
      some { station := k, face := f, aspect := a, window := s.config.records.tunnel.lampWindow * 1000 } }

/-- LAMP-TEST's own checks (R97). -/
def actLampTest (s : State) (b : List Octet) : CmdResult :=
  let k := oct b 0
  withFields s [(s.okStation k, 0), (okBit (oct b 1), 1), (okLit (oct b 2), 2)]
    (if s.resolver.lampTest.isSome then refuse s 21 0 0
     else if s.stationDown k then refuse s 30 k (s.station k).state.code
     else okWith (s.startLampTest k (faceOf (oct b 1)) (aspectOf (oct b 2))) [])

/-- LAMP_TEST (R97). -/
def execLampTest (tag : Octet) (body : List Octet) (s : State) : Host.Outcome State Fault Refusal :=
  runCommand 37 3 .standbyOnly actLampTest tag body s

/-- END-LAMP-TEST's own checks (R99). -/
def actEndLampTest (s : State) (_ : List Octet) : CmdResult :=
  if s.resolver.lampTest.isSome then okWith (s.endLampTest .host) [] else refuse s 22 0 0

/-- END_LAMP_TEST (R99). -/
def execEndLampTest (tag : Octet) (body : List Octet) (s : State) : Host.Outcome State Fault Refusal :=
  runCommand 38 0 .standbyOnly actEndLampTest tag body s

/-- An active lamp-test record as a reply carries it (R101). -/
def lampTestOctets (t : LampTest) : List Octet :=
  o1 t.station ++ faceOctets t.face ++ aspectOctets t.aspect ++ be16 (secondsUp t.window)

/-- The last-end record as a reply carries it (R101). -/
def lampEndOctets (e : LampEnd) : List Octet :=
  o1 e.station ++ faceOctets e.face ++ aspectOctets e.aspect ++ o1 e.cause.code

/-- GET_LAMP_TEST (R101). -/
def execGetLampTest (tag : Octet) (body : List Octet) (s : State) : Host.Outcome State Fault Refusal :=
  runCommand 39 0 .both
    (fun s _ =>
      okWith s (optional lampTestOctets s.resolver.lampTest ++ optional lampEndOctets s.resolver.lampLast))
    tag body s

/-- LAMP_TEST_WINDOW_EXPIRY (R99). -/
def execLampTestWindowExpiry (s : State) : Host.Outcome State Fault Refusal :=
  eventIf s s.resolver.lampTest.isSome fun s => (s.endLampTest .window).raise .lampTestEnded

end Sys2Proof.Machine
end

