-- ==== Sys2Proof/Machine/LampCommands.lean ====
section
/-! DEFINITION. The commands of the Lamp Proving Unit (R126 to R128) and of the Signature Table (R134 to R137, R142). -/

namespace Sys2Proof.Machine

/-! ### Clearing and reading the unit -/

/-- The heads a CLEAR-FAULT clears, as head numbers: one head, or a station's heads in the section (R126). -/
def State.clearScope (s : State) (b : List Octet) (key : Nat) : Bool :=
  if oct b 0 = 0 then key == (headAt b 1).key else s.headOfStation (oct b 1) key

/-- CLEAR-FAULT's own checks (R126, R196): the lane and face of a station scope are passed over. -/
def actClearFault (s : State) (b : List Octet) : CmdResult :=
  withFields s
    [(okBit (oct b 0), 0), (s.okStation (oct b 1), 1), (oct b 0 == 1 || s.okLane (oct b 2), 2),
      (oct b 0 == 1 || okBit (oct b 3), 3)]
    (okWith (s.clearLamps (s.clearScope b))
      (o1 (s.faultCount fun i => s.clearScope b (i / 10)) ++ o1 (s.conditionCount (s.clearScope b))))

/-- CLEAR_FAULT (R126). -/
def execClearFault (tag : Octet) (body : List Octet) (s : State) : Host.Outcome State Fault Refusal :=
  runCommand 40 4 .both actClearFault tag body s

/-- A last result as a reply carries it (R114, R127). -/
def lastResultOctets (r : LastResult) : List Octet :=
  be16 r.avg ++ be16 r.least ++ be16 r.greatest ++ signed16 r.low ++ signed16 r.high ++ o1 r.verdict.code ++ o1 r.dim

/-- A string record as GET-LAMPS gives it (R127). -/
def stringRecOctets (r : StringRec) : List Octet :=
  o1 r.state.code ++ o1 r.fails ++ o1 r.acc.count ++ optional lastResultOctets r.last

/-- GET-LAMPS' own checks (R127). -/
def actGetLamps (s : State) (b : List Octet) : CmdResult :=
  let h := headAt b 0
  let p := s.proving h
  withFields s [(s.okHead b 0, 0)]
    (okWith s
      (o1 p.condition.code ++ o1 p.mismatches ++ o1 p.openLeaks ++ o1 p.otherLeaks ++
        (List.range 10).flatMap fun i => stringRecOctets (s.string (stringKey h i))))

/-- GET_LAMPS (R127). -/
def execGetLamps (tag : Octet) (body : List Octet) (s : State) : Host.Outcome State Fault Refusal :=
  runCommand 41 3 .both actGetLamps tag body s

/-- The strings of a head, in string-index order (R2). -/
def headStrings (h : HeadRef) : List StringRef := litAspects.flatMap fun a => [⟨h, a, 1⟩, ⟨h, a, 2⟩]

/-- The strings of the section in a state, in ascending section head index and string index (R128). -/
def State.stringsIn (s : State) (st : StringState) : List StringRef :=
  (s.sectionHeads.flatMap headStrings).filter fun r => (s.string r.key).state == st

/-- The heads of the section out of NORMAL, by section head index with their conditions (R128). -/
def State.conditionItems (s : State) : List (List Octet) :=
  (s.sectionHeads.filter fun h => (s.proving h).condition != .normal).map fun h =>
    o1 (headIndex s.l h) ++ o1 (s.proving h).condition.code

/-- The false-open records of the section (R128). -/
def State.falseOpenItems (s : State) : List (List Octet) :=
  s.stationNumbers.filterMap fun k =>
    (s.falseOpen k).map fun f => o1 k ++ headOctets f.head ++ o1 f.cause.code ++ stampOctets f.time

/-- The body of GET-FAULTS (R128). -/
def State.faultParts (s : State) : List BodyPart :=
  let faulty := s.stringsIn .fault
  [.list (be16 faulty.length) (faulty.map stringOctets),
    .list (o1 s.conditionItems.length) s.conditionItems,
    .list (o1 s.falseOpenItems.length) s.falseOpenItems,
    .fields (be16 (s.stringsIn .suspect).length)]

/-- GET_FAULTS (R128). -/
def execGetFaults (tag : Octet) (body : List Octet) (s : State) : Host.Outcome State Fault Refusal :=
  runCommand 42 0 .both (fun s _ => okWith s (cutBody s.faultParts)) tag body s

/-! ### The Signature Table -/

/-- FREEZE's own checks (R134). -/
def actFreeze (s : State) (b : List Octet) : CmdResult :=
  withFields s [(okBit (oct b 0), 0)] (okWith { s with config.records.tunnel.freeze := bitOf (oct b 0) } [])

/-- FREEZE (R134). -/
def execFreeze (tag : Octet) (body : List Octet) (s : State) : Host.Outcome State Fault Refusal :=
  runCommand 44 1 .both actFreeze tag body s

/-- The string a FIX-SIGNATURE or UNFIX names (R198). -/
def stringAt (b : List Octet) : StringRef := ⟨headAt b 0, aspectOf (oct b 3), oct b 4⟩

/-- The structural fields of a string address, in body order (R135, R198). -/
def State.stringTests (s : State) (b : List Octet) : List (Bool × Nat) :=
  [(s.okStation (oct b 0), 0), (s.okLane (oct b 1), 1), (okBit (oct b 2), 2), (okLit (oct b 3), 3),
    (decide (1 ≤ oct b 4) && decide (oct b 4 ≤ 2), 4)]

/-- A signature entry as a reply carries it: its class and its value, absent when UNLEARNED (R142; in the
reply of FIX-SIGNATURE too, log entry 31). -/
def entryOctets (e : SigEntry) : List Octet := o1 e.code ++ optional be16 e.value

/-- FIX-SIGNATURE's own checks (R135). -/
def actFixSignature (s : State) (b : List Octet) : CmdResult :=
  let key := (stringAt b).key
  let v := clamp 1 1023 (oct2 b 5)
  withFields s (s.stringTests b)
    (okOrClamped (v != oct2 b 5) (s.changeClass key (.fixed v)).setUnsaved (entryOctets (s.entry key)))

/-- FIX_SIGNATURE (R135). -/
def execFixSignature (tag : Octet) (body : List Octet) (s : State) : Host.Outcome State Fault Refusal :=
  runCommand 45 7 .both actFixSignature tag body s

/-- UNFIX's own checks (R136). -/
def actUnfix (s : State) (b : List Octet) : CmdResult :=
  let key := (stringAt b).key
  withFields s (s.stringTests b)
    (match s.entry key with
     | .fixed v => okWith (s.changeClass key (.learned v)).setUnsaved []
     | .learned _ => refuse s 20 1 0
     | .unlearned => refuse s 20 0 0)

/-- UNFIX (R136). -/
def execUnfix (tag : Octet) (body : List Octet) (s : State) : Host.Outcome State Fault Refusal :=
  runCommand 46 5 .both actUnfix tag body s

/-- UNLEARN discards what has been learned at a station (R137). -/
def State.unlearn (s : State) (k : Nat) : State :=
  if (s.learnedKeys k).isEmpty then s else (s.unlearnStation k).setUnsaved

/-- UNLEARN's own checks (R137). -/
def actUnlearn (s : State) (b : List Octet) : CmdResult :=
  withFields s [(s.okStation (oct b 0), 0)] (okWith (s.unlearn (oct b 0)) (o1 (s.learnedKeys (oct b 0)).length))

/-- UNLEARN (R137). -/
def execUnlearn (tag : Octet) (body : List Octet) (s : State) : Host.Outcome State Fault Refusal :=
  runCommand 47 1 .both actUnlearn tag body s

/-- A driver identity as a reply carries it (R199). -/
def identOctets (i : BitVec 32) : List Octet := be32 i.toNat

/-- A last-change record as a reply carries it (R138, R142). -/
def changeOctets (c : LastChange) : List Octet :=
  identOctets c.previous ++ identOctets c.current ++ o1 c.action.code ++ o1 c.count ++ stampOctets c.time

/-- GET-SIGNATURES' own checks (R142). -/
def actGetSignatures (s : State) (b : List Octet) : CmdResult :=
  let h := headAt b 0
  withFields s [(s.okHead b 0, 0)]
    (okWith s
      (optional identOctets (s.ident h.station) ++ optional changeOctets (s.lastChange h.station) ++
        flagOctets (s.learnEnabled h.station) ++
        (List.range 10).flatMap fun i => entryOctets (s.entry (stringKey h i))))

/-- GET_SIGNATURES (R142). -/
def execGetSignatures (tag : Octet) (body : List Octet) (s : State) : Host.Outcome State Fault Refusal :=
  runCommand 48 3 .both actGetSignatures tag body s

/-- The number of strings of the section whose entries have a class code (R142). -/
def State.classCount (s : State) (code : Nat) : Nat :=
  countWhere (fun r => (s.entry r.key).code == code) (s.sectionHeads.flatMap headStrings)

/-- A last-rejection record as a reply carries it (R132, R142). -/
def rejectionOctets (r : Rejection) : List Octet :=
  stringOctets r.string ++ o1 r.verdict.code ++ be16 r.avg ++ be16 r.duty ++ stampOctets r.time

/-- GET_LEARNING (R142). -/
def execGetLearning (tag : Octet) (body : List Octet) (s : State) : Host.Outcome State Fault Refusal :=
  runCommand 49 0 .both
    (fun s _ =>
      okWith s
        (flagOctets s.config.records.tunnel.freeze ++ flagOctets s.sigs.unsaved ++ be16 (s.classCount 0) ++
          be16 (s.classCount 1) ++ be16 (s.classCount 2) ++ optional rejectionOctets s.sigs.rejection))
    tag body s

end Sys2Proof.Machine
end

