-- ==== Sys2Proof/Machine/GantryCommands.lean ====
section
/-! DEFINITION. The Gantry Link Controller's commands and events: RESTORE-STATION (R162), GET-RING (R165), reception
(R145, R149), the end of a transmission, the answer timeout (R153) and the reprobe timer (R157). -/

namespace Sys2Proof.Machine

/-- RESTORE-STATION's own checks (R162). -/
def actRestoreStation (s : State) (b : List Octet) : CmdResult :=
  withFields s [(s.okStation (oct b 0), 0)]
    (if (s.station (oct b 0)).state = .cut then okWith (s.restoreStation (oct b 0)) []
     else refuse s 20 (s.station (oct b 0)).state.code 0)

/-- RESTORE_STATION (R162). -/
def execRestoreStation (tag : Octet) (body : List Octet) (s : State) : Host.Outcome State Fault Refusal :=
  runCommand 52 1 .both actRestoreStation tag body s

/-- An end as GET-RING gives it (R165). -/
def State.endOctets (s : State) (e : LinkEnd) : List Octet :=
  flagOctets s.polling ++ counted o1 (s.servedBy e) ++
    optional (fun x : Exchange => o1 x.station ++ flagOctets x.reprobe) (s.poller e).exchange ++
    flagOctets (s.poller e).phasePending

/-- A station record as GET-RING gives it (R165). DESIGN CHOICE (log entry 31): both counts before both causes, west before
east; the supply status is absent while it is none; the home end, which follows from N, is not sent. -/
def stationOctets (r : StationRec) : List Octet :=
  o1 r.state.code ++ o1 (linkEndCode r.current) ++ o1 r.missWest ++ o1 r.missEast ++ o1 r.causeWest.code ++
    o1 r.causeEast.code ++ flagOctets r.answered ++ optional be16 r.reprobe ++ optional flagOctets r.supplyOpen ++
    flagOctets r.restorePending

/-- GET_RING (R165). DESIGN CHOICE (log entry 31): R165 does not say which end comes first; the west end does. -/
def execGetRing (tag : Octet) (body : List Octet) (s : State) : Host.Outcome State Fault Refusal :=
  runCommand 53 0 .both
    (fun s _ =>
      okWith s
        (s.endOctets .west ++ s.endOctets .east ++ counted (fun k => stationOctets (s.station k)) s.stationNumbers))
    tag body s

/-- GANTRY_ANSWER (R155): the octets of a good answer arrive. -/
def execGantryAnswer (link : LinkEnd) (octets : List Octet) (s : State) : Host.Outcome State Fault Refusal :=
  event s fun s => s.gantryOctets link octets

/-- GANTRY_BAD_ANSWER (R149): the octets of an answer that fails a test arrive, or a framing error breaks it. -/
def execGantryBadAnswer (link : LinkEnd) (octets : List Octet) (brk : Bool) (s : State) :
    Host.Outcome State Fault Refusal :=
  event s fun s => if brk then (s.gantryOctets link octets).gantryCutShort link else s.gantryOctets link octets

/-- GANTRY_STRAY_FRAME (R145): octets arrive that belong to no exchange. -/
def execGantryStrayFrame (link : LinkEnd) (octets : List Octet) (s : State) : Host.Outcome State Fault Refusal :=
  event s fun s => octets.foldl (fun s o => s.gantryOctet link o) s

/-- GANTRY_GAP_TIMEOUT (R145): more than 1 ms passes after the octets, inside a frame. -/
def execGantryGapTimeout (link : LinkEnd) (octets : List Octet) (s : State) : Host.Outcome State Fault Refusal :=
  event s fun s => (s.gantryOctets link octets).gantryCutShort link

/-- An end waits for the start octet of an answer (R153). -/
def Poller.waiting (p : Poller) : Bool := p.exchange.isSome && p.answerTimer.isSome

/-- The answer timeout ends the exchange of an end (R153). -/
def State.timeOut (s : State) (e : LinkEnd) : State :=
  match (s.poller e).exchange with
  | none => s
  | some x => (s.endExchange e).miss e x .timeout

/-- POLL_TIMEOUT (R153). -/
def execPollTimeout (link : LinkEnd) (s : State) : Host.Outcome State Fault Refusal :=
  eventIf s (s.poller link).waiting fun s => s.timeOut link

/-- The last octet of an end's frame has been sent; after a poll the answer timeout starts (R153), unless the answer's
start octet has come already. -/
def State.frameSent (s : State) (e : LinkEnd) : State :=
  let p := s.poller e
  s.setPoller e
    { p with
      sending := none
      answerTimer := if p.exchange.isSome && !p.answering then some Config.answerMs else p.answerTimer }

/-- GANTRY_TRANSMIT_END (R153). -/
def execGantryTransmitEnd (link : LinkEnd) (s : State) : Host.Outcome State Fault Refusal :=
  eventIf s (s.poller link).sending.isSome fun s => s.frameSent link

/-- A reprobe of a station is due or being made on its home poller, so its timer does not run. -/
def State.reprobing (s : State) (k : Nat) : Bool :=
  let p := s.poller (homeEnd s.n k)
  p.due.contains k || p.committed == some ⟨k, true⟩ || p.exchange == some ⟨k, true⟩

/-- A reprobe becomes due on a station's home poller (R157). -/
def State.reprobeDue (s : State) (k : Nat) : State :=
  let e := homeEnd s.n k
  (s.setStation k { s.station k with reprobe := some 0 }).setPoller e { s.poller e with due := (s.poller e).due ++ [k] }

/-- REPROBE_TIMER_EXPIRY (R157). -/
def execReprobeTimerExpiry (station : Nat) (s : State) : Host.Outcome State Fault Refusal :=
  eventIf s
    (s.okStation station && (s.station station).state == .rerouted && (s.station station).reprobe.isSome &&
      !s.reprobing station)
    fun s => s.reprobeDue station

end Sys2Proof.Machine
end

