-- ==== Sys2Proof/Machine/TimeCommands.lean ====
section
/-! DEFINITION. The Time Base's commands and events (spec/09): the flash phase and FLASH_SYNC, the clock, and the schedule. -/

namespace Sys2Proof.Machine

/-! ### The flash phase -/

/-- The half-period timer starts or restarts (R168). -/
def State.startHalf (s : State) : State := { s with time.halfTimer := some s.config.records.tunnel.halfPeriod }

/-- The phase takes a value; a toggle is handed to the Gantry Link Controller (R167, R170). -/
def State.setPhase (s : State) (p : Bool) : State :=
  if s.time.phase = p then s else ({ s with time.phase := p } : State).markPhase

/-- The level the part drives on FLASH_SYNC, true for high: that of the phase while the line state is DRIVING, and none, the
line not driven, in every other line state (R166, R167, R169, R170, R172). It follows from the phase and the line state, so
State does not hold it a second time (log entry 25). -/
def State.flashSyncOut (s : State) : Option Bool :=
  match s.time.line with
  | .driving => some s.time.phase
  | .following => none
  | .freeRunning => none
  | .notDriven => none

/-- HALF_PERIOD_EXPIRY (R167). In DRIVING the line takes the level of the new phase (`State.flashSyncOut`). -/
def execHalfPeriodExpiry (s : State) : Host.Outcome State Fault Refusal :=
  eventIf s s.time.halfTimer.isSome fun s => (s.setPhase !s.time.phase).startHalf

/-- The part takes the edges of the line as events (R170). -/
def LineState.watches : LineState → Bool
  | .following => true
  | .freeRunning => true
  | .driving => false
  | .notDriven => false

/-- FLASH_SYNC_EDGE (R170): the line has taken a level. -/
def execFlashSyncEdge (high : Bool) (s : State) : Host.Outcome State Fault Refusal :=
  eventIf s s.time.line.watches fun s =>
    { (s.setPhase high).startHalf with
      time.lossTimer := some (lossMs s.config.records.tunnel)
      time.line := .following }

/-- LOSS_TIMER_EXPIRY (R171). -/
def execLossTimerExpiry (s : State) : Host.Outcome State Fault Refusal :=
  eventIf s (s.time.line == .following) fun s =>
    ({ s with time.line := .freeRunning, time.lossTimer := none } : State).raise .flashSyncLost

/-- GET_FLASH (R173). -/
def execGetFlash (tag : Octet) (body : List Octet) (s : State) : Host.Outcome State Fault Refusal :=
  runCommand 56 0 .both
    (fun s _ =>
      okWith s
        (o1 s.config.records.tunnel.role.code ++ be16 s.config.records.tunnel.halfPeriod ++ flagOctets s.time.phase ++
          o1 s.time.line.code ++ be16 (s.time.halfTimer.getD 0) ++ optional be16 s.time.lossTimer))
    tag body s

/-! ### The clock -/

/-- The time of week one second later (R174). -/
def Time.next (t : Time) : Time :=
  if t.second + 1 < 60 then { t with second := t.second + 1 }
  else if t.minute + 1 < 60 then { t with second := 0, minute := t.minute + 1 }
  else if t.hour + 1 < 24 then { t with second := 0, minute := 0, hour := t.hour + 1 }
  else { second := 0, minute := 0, hour := 0, weekday := if t.weekday + 1 < 8 then t.weekday + 1 else 1 }

/-- SET-CLOCK's own checks (R175). -/
def actSetClock (s : State) (b : List Octet) : CmdResult :=
  withFields s
    [(decide (1 ≤ oct b 0) && decide (oct b 0 ≤ 7), 0), (decide (oct b 1 < 24), 1), (decide (oct b 2 < 60), 2),
      (decide (oct b 3 < 60), 3)]
    (okWith
      { s with
        time.clock := some { weekday := oct b 0, hour := oct b 1, minute := oct b 2, second := oct b 3 }
        time.secondTimer := some 1000 }
      [])

/-- SET_CLOCK (R175). -/
def execSetClock (tag : Octet) (body : List Octet) (s : State) : Host.Outcome State Fault Refusal :=
  runCommand 57 4 .both actSetClock tag body s

/-- GET_CLOCK (R176). -/
def execGetClock (tag : Octet) (body : List Octet) (s : State) : Host.Outcome State Fault Refusal :=
  runCommand 58 0 .both (fun s _ => okWith s (flagOctets s.time.clock.isSome ++ stampOctets s.time.clock)) tag body s

/-! ### The schedule -/

/-- SET-SCHEDULE's own checks (R177, R196): the entry fields of an empty marker are passed over. -/
def actSetSchedule (s : State) (b : List Octet) : CmdResult :=
  let empty := oct b 1 == 1
  withFields s
    [(decide (oct b 0 < Config.scheduleCount), 0), (okBit (oct b 1), 1), (empty || okWeekdays (b.getD 2 0), 2),
      (empty || decide (oct b 3 < 24), 3), (empty || decide (oct b 4 < 60), 4), (empty || okPlan (oct b 5), 5)]
    (okWith
      { s with
        time.schedule :=
          s.time.schedule.set (oct b 0)
            (if empty then none
             else some { weekdays := b.getD 2 0, hour := oct b 3, minute := oct b 4, plan := oct b 5 }) }
      [])

/-- SET_SCHEDULE (R177). -/
def execSetSchedule (tag : Octet) (body : List Octet) (s : State) : Host.Outcome State Fault Refusal :=
  runCommand 59 6 .both actSetSchedule tag body s

/-- A schedule entry as a reply carries it. -/
def scheduleOctets (e : ScheduleEntry) : List Octet := [e.weekdays] ++ o1 e.hour ++ o1 e.minute ++ o1 e.plan

/-- A last-firing result: its code, and for FIRED the two numbers, each behind its presence octet (R180). -/
def firingOctets : FiringResult → List Octet
  | .fired superseded added => o1 0 ++ optional o1 (some superseded) ++ optional o1 (some added)
  | .hostSilent => o1 1 ++ [0, 0]
  | .duplicate => o1 2 ++ [0, 0]
  | .queueFull => o1 3 ++ [0, 0]

/-- A last-firing record as a reply carries it (R180). -/
def lastFiringOctets (f : LastFiring) : List Octet :=
  stampOctets (some f.time) ++ counted o1 f.indices ++ o1 f.candidate ++ o1 f.plan ++ firingOctets f.result

/-- GET_SCHEDULE (R177). -/
def execGetSchedule (tag : Octet) (body : List Octet) (s : State) : Host.Outcome State Fault Refusal :=
  runCommand 60 0 .both
    (fun s _ =>
      okWith s (s.time.schedule.flatMap (optional scheduleOctets) ++ optional lastFiringOctets s.time.lastFiring))
    tag body s

/-- An entry names a minute of the week (R178). -/
def ScheduleEntry.names (e : ScheduleEntry) (t : Time) : Bool :=
  hasWeekday e.weekdays t.weekday && e.hour == t.hour && e.minute == t.minute

/-- The indices and plans of the entries that name a minute, in ascending index (R178). -/
def State.matching (s : State) (t : Time) : List (Nat × Nat) :=
  s.time.schedule.zipIdx.filterMap fun p => match p.1 with
    | none => none
    | some e => if e.names t then some (p.2, e.plan) else none

/-- The candidate is held back by host silence (R179). -/
def State.suppressed (s : State) : Bool :=
  hasFlag s.attn.active .hostSilent && !s.config.records.tunnel.autoSchedule

/-- What becomes of the candidate's plan (R179). -/
def State.fire (s : State) (plan : Nat) : State × FiringResult :=
  if s.suppressed then (s.raise .scheduleNotApplied, .hostSilent)
  else
    match s.selectPlan .schedule plan with
    | .applied s1 superseded added => (s1.raise .scheduleFired, .fired superseded added)
    | .duplicate _ => (s.raise .scheduleNotApplied, .duplicate)
    | .queueFull _ _ => (s.raise .scheduleNotApplied, .queueFull)

/-- A minute event (R178 to R180), the clock already holding its minute. -/
def State.minuteEvent (s : State) (t : Time) : State :=
  let found := s.matching t
  match s.config.mode, found.getLast? with
  | .standby, _ => s
  | .run, none => s
  | .run, some (candidate, plan) =>
    let r := (s.raiseTimes .scheduleNotApplied (found.length - 1)).fire plan
    { r.1 with
      time.lastFiring :=
        some { time := t, indices := found.map Prod.fst, candidate := candidate, plan := plan, result := r.2 } }

/-- The second timer expires (R174). -/
def State.secondEnds (s : State) : State :=
  match s.time.clock with
  | none => s
  | some t =>
    let s1 : State := { s with time.clock := some t.next, time.secondTimer := some 1000 }
    if t.next.second = 0 then s1.minuteEvent t.next else s1

/-- SECOND_TIMER_EXPIRY (R174). -/
def execSecondTimerExpiry (s : State) : Host.Outcome State Fault Refusal :=
  eventIf s s.time.clock.isSome State.secondEnds

end Sys2Proof.Machine
end

