-- ==== Sys2Proof/Machine/AttentionCommands.lean ====
section
/-! DEFINITION. The commands of the Attention Unit (R191, R192, R194) and GET-LINK (R195). -/

namespace Sys2Proof.Machine

/-- The named kinds are acknowledged: their latched and repeat flags are cleared (R191). -/
def Attention.ack (a : Attention) (w : BitVec 22) : Attention :=
  { a with latched := a.latched &&& ~~~w, rep := a.rep &&& ~~~w }

/-- The latched and repeat flags of a kind as a reply carries them (R191). -/
def ackOctets (a : Attention) (i : Nat) : List Octet := flagOctets (a.latched.getLsbD i) ++ flagOctets (a.rep.getLsbD i)

/-- ACK-ATTENTION's own checks (R191). -/
def actAckAttention (s : State) (b : List Octet) : CmdResult :=
  withFields s [(okKindSet b, 0)]
    (okWith { s with attn := s.attn.ack (kindWord b) } (counted (ackOctets s.attn) (indicesOf (kindWord b))))

/-- ACK_ATTENTION (R191). -/
def execAckAttention (tag : Octet) (body : List Octet) (s : State) : Host.Outcome State Fault Refusal :=
  runCommand 64 3 .both actAckAttention tag body s

/-- SET-NOTICE-MASK's own checks (R192). -/
def actSetNoticeMask (s : State) (b : List Octet) : CmdResult :=
  withFields s [(okKindSet b, 0)] (okWith { s with attn.enabled := kindWord b } [])

/-- SET_NOTICE_MASK (R192). -/
def execSetNoticeMask (tag : Octet) (body : List Octet) (s : State) : Host.Outcome State Fault Refusal :=
  runCommand 65 3 .both actSetNoticeMask tag body s

/-- The four flags of a kind as a reply carries them (R194). -/
def kindOctets (a : Attention) (i : Nat) : List Octet :=
  flagOctets (a.active.getLsbD i) ++ flagOctets (a.latched.getLsbD i) ++ flagOctets (a.rep.getLsbD i) ++
    flagOctets (a.enabled.getLsbD i)

/-- GET_ATTENTION (R194). -/
def execGetAttention (tag : Octet) (body : List Octet) (s : State) : Host.Outcome State Fault Refusal :=
  runCommand 66 0 .both
    (fun s _ =>
      okWith s
        ((List.range 22).flatMap (kindOctets s.attn) ++ flagOctets s.attn.alert ++ flagOctets s.host.noticePending))
    tag body s

/-- The notice count that the next notice will carry: a notice that is being sent counts as sent (R187, R195; log
entry 21). -/
def HostPort.nextCount (p : HostPort) : Octet :=
  match p.tx with
  | none => p.noticeCount
  | some f => countAfter f p.noticeCount

/-- The state of the Host Link Port as GET-LINK gives it (R195). -/
def State.portOctets (s : State) : List Octet :=
  be16 s.host.crcErrors ++ be16 s.host.lengthErrors ++ be16 s.host.gapErrors ++ be16 s.host.breakErrors ++
    be16 s.host.overruns ++ o1 s.host.slots.length ++ o1 s.host.replies.length ++
    flagOctets (hasFlag s.attn.active .hostSilent) ++ be16 (s.host.silence.getD 0) ++ [s.host.nextCount]

/-- The five counters are set to 0 (R195). -/
def State.zeroCounters (s : State) : State :=
  { s with
    host.crcErrors := 0, host.lengthErrors := 0, host.gapErrors := 0, host.breakErrors := 0, host.overruns := 0 }

/-- GET_LINK (R195). -/
def execGetLink (tag : Octet) (body : List Octet) (s : State) : Host.Outcome State Fault Refusal :=
  runCommand 67 0 .both (fun s _ => okWith s.zeroCounters s.portOctets) tag body s

end Sys2Proof.Machine
end

