-- ==== Sys2Proof/Machine/Dispatch.lean ====
section
/-! DEFINITION. One arm for each row of spec/opcode_table.json: a direct call of the row's meaning. -/

namespace Sys2Proof.Machine

/-- The effect of a command on everything but the queue. -/
def exec (i : Instr) (s : State) : Host.Outcome State Fault Refusal :=
  match i with
  | .powerUp => Sys2Proof.Machine.execPowerUp s
  | .resetNFall => Sys2Proof.Machine.execResetNFall s
  | .resetNRise => Sys2Proof.Machine.execResetNRise s
  | .hostFrameReceived octets => Sys2Proof.Machine.execHostFrameReceived octets s
  | .hostFrameDropped octets brk => Sys2Proof.Machine.execHostFrameDropped octets brk s
  | .hostGapTimeout octets => Sys2Proof.Machine.execHostGapTimeout octets s
  | .hostTransmitEnd => Sys2Proof.Machine.execHostTransmitEnd s
  | .silenceTimeout => Sys2Proof.Machine.execSilenceTimeout s
  | .unknownKind kind tag body => Sys2Proof.Machine.execUnknownKind kind tag body s
  | .setTunnel tag body => Sys2Proof.Machine.execSetTunnel tag body s
  | .getTunnel tag body => Sys2Proof.Machine.execGetTunnel tag body s
  | .setLane tag body => Sys2Proof.Machine.execSetLane tag body s
  | .getLane tag body => Sys2Proof.Machine.execGetLane tag body s
  | .setStation tag body => Sys2Proof.Machine.execSetStation tag body s
  | .getStation tag body => Sys2Proof.Machine.execGetStation tag body s
  | .setProving tag body => Sys2Proof.Machine.execSetProving tag body s
  | .getProving tag body => Sys2Proof.Machine.execGetProving tag body s
  | .setDuty tag body => Sys2Proof.Machine.execSetDuty tag body s
  | .getDuty tag body => Sys2Proof.Machine.execGetDuty tag body s
  | .setDim tag body => Sys2Proof.Machine.execSetDim tag body s
  | .getDim tag body => Sys2Proof.Machine.execGetDim tag body s
  | .start tag body => Sys2Proof.Machine.execStart tag body s
  | .stop tag body => Sys2Proof.Machine.execStop tag body s
  | .getMode tag body => Sys2Proof.Machine.execGetMode tag body s
  | .commit tag body => Sys2Proof.Machine.execCommit tag body s
  | .saveSignatures tag body => Sys2Proof.Machine.execSaveSignatures tag body s
  | .storeWriteComplete ok => Sys2Proof.Machine.execStoreWriteComplete ok s
  | .restart tag body => Sys2Proof.Machine.execRestart tag body s
  | .closeLane tag body => Sys2Proof.Machine.execCloseLane tag body s
  | .openLane tag body => Sys2Proof.Machine.execOpenLane tag body s
  | .reverseLane tag body => Sys2Proof.Machine.execReverseLane tag body s
  | .cancelTask tag body => Sys2Proof.Machine.execCancelTask tag body s
  | .confirmClear tag body => Sys2Proof.Machine.execConfirmClear tag body s
  | .abortLane tag body => Sys2Proof.Machine.execAbortLane tag body s
  | .closeNow tag body => Sys2Proof.Machine.execCloseNow tag body s
  | .getQueue tag body => Sys2Proof.Machine.execGetQueue tag body s
  | .setPlan tag body => Sys2Proof.Machine.execSetPlan tag body s
  | .getPlan tag body => Sys2Proof.Machine.execGetPlan tag body s
  | .selectPlan tag body => Sys2Proof.Machine.execSelectPlan tag body s
  | .closingStepExpiry lane => Sys2Proof.Machine.execClosingStepExpiry lane s
  | .openingStepExpiry lane => Sys2Proof.Machine.execOpeningStepExpiry lane s
  | .clearanceTimerExpiry lane => Sys2Proof.Machine.execClearanceTimerExpiry lane s
  | .confirmWindowExpiry lane => Sys2Proof.Machine.execConfirmWindowExpiry lane s
  | .getHeads tag body => Sys2Proof.Machine.execGetHeads tag body s
  | .getClosures tag body => Sys2Proof.Machine.execGetClosures tag body s
  | .override tag body => Sys2Proof.Machine.execOverride tag body s
  | .release tag body => Sys2Proof.Machine.execRelease tag body s
  | .getOverrides tag body => Sys2Proof.Machine.execGetOverrides tag body s
  | .overrideHoldExpiry heads => Sys2Proof.Machine.execOverrideHoldExpiry heads s
  | .lampTest tag body => Sys2Proof.Machine.execLampTest tag body s
  | .endLampTest tag body => Sys2Proof.Machine.execEndLampTest tag body s
  | .getLampTest tag body => Sys2Proof.Machine.execGetLampTest tag body s
  | .lampTestWindowExpiry => Sys2Proof.Machine.execLampTestWindowExpiry s
  | .clearFault tag body => Sys2Proof.Machine.execClearFault tag body s
  | .getLamps tag body => Sys2Proof.Machine.execGetLamps tag body s
  | .getFaults tag body => Sys2Proof.Machine.execGetFaults tag body s
  | .freeze tag body => Sys2Proof.Machine.execFreeze tag body s
  | .fixSignature tag body => Sys2Proof.Machine.execFixSignature tag body s
  | .unfix tag body => Sys2Proof.Machine.execUnfix tag body s
  | .unlearn tag body => Sys2Proof.Machine.execUnlearn tag body s
  | .getSignatures tag body => Sys2Proof.Machine.execGetSignatures tag body s
  | .getLearning tag body => Sys2Proof.Machine.execGetLearning tag body s
  | .gantryAnswer link octets => Sys2Proof.Machine.execGantryAnswer link octets s
  | .gantryBadAnswer link octets brk => Sys2Proof.Machine.execGantryBadAnswer link octets brk s
  | .gantryStrayFrame link octets => Sys2Proof.Machine.execGantryStrayFrame link octets s
  | .gantryGapTimeout link octets => Sys2Proof.Machine.execGantryGapTimeout link octets s
  | .pollTimeout link => Sys2Proof.Machine.execPollTimeout link s
  | .gantryTransmitEnd link => Sys2Proof.Machine.execGantryTransmitEnd link s
  | .reprobeTimerExpiry station => Sys2Proof.Machine.execReprobeTimerExpiry station s
  | .restoreStation tag body => Sys2Proof.Machine.execRestoreStation tag body s
  | .getRing tag body => Sys2Proof.Machine.execGetRing tag body s
  | .halfPeriodExpiry => Sys2Proof.Machine.execHalfPeriodExpiry s
  | .flashSyncEdge high => Sys2Proof.Machine.execFlashSyncEdge high s
  | .lossTimerExpiry => Sys2Proof.Machine.execLossTimerExpiry s
  | .getFlash tag body => Sys2Proof.Machine.execGetFlash tag body s
  | .secondTimerExpiry => Sys2Proof.Machine.execSecondTimerExpiry s
  | .setClock tag body => Sys2Proof.Machine.execSetClock tag body s
  | .getClock tag body => Sys2Proof.Machine.execGetClock tag body s
  | .setSchedule tag body => Sys2Proof.Machine.execSetSchedule tag body s
  | .getSchedule tag body => Sys2Proof.Machine.execGetSchedule tag body s
  | .ackAttention tag body => Sys2Proof.Machine.execAckAttention tag body s
  | .setNoticeMask tag body => Sys2Proof.Machine.execSetNoticeMask tag body s
  | .getAttention tag body => Sys2Proof.Machine.execGetAttention tag body s
  | .getLink tag body => Sys2Proof.Machine.execGetLink tag body s
  | .powerFailure => Sys2Proof.Machine.execPowerFailure s

end Sys2Proof.Machine
end

