-- ==== Sys2Proof/Machine/Idle.lean ====
section
/-! DEFINITION. What the part does by itself when no command is in the queue (log entries 3 and 23): it takes the command
that waits in the oldest slot (R184), else it lets 1 ms pass, with the expiries of the timers that this brings to 0. -/

namespace Sys2Proof.Machine

/-! ### The waiting command (R184) -/

/-- The row that a frame's command is (R198): its KIND names it, its TAG and body go with it. -/
def rowOf (f : HostFrame) : Instr :=
  match f.kind.toNat with
  | 1 => .setTunnel f.tag f.body
  | 2 => .getTunnel f.tag f.body
  | 3 => .setLane f.tag f.body
  | 4 => .getLane f.tag f.body
  | 5 => .setStation f.tag f.body
  | 6 => .getStation f.tag f.body
  | 7 => .setProving f.tag f.body
  | 8 => .getProving f.tag f.body
  | 9 => .setDuty f.tag f.body
  | 10 => .getDuty f.tag f.body
  | 11 => .setDim f.tag f.body
  | 12 => .getDim f.tag f.body
  | 13 => .start f.tag f.body
  | 14 => .stop f.tag f.body
  | 15 => .getMode f.tag f.body
  | 16 => .commit f.tag f.body
  | 17 => .saveSignatures f.tag f.body
  | 18 => .restart f.tag f.body
  | 20 => .closeLane f.tag f.body
  | 21 => .openLane f.tag f.body
  | 22 => .reverseLane f.tag f.body
  | 23 => .cancelTask f.tag f.body
  | 24 => .confirmClear f.tag f.body
  | 25 => .abortLane f.tag f.body
  | 26 => .closeNow f.tag f.body
  | 27 => .getQueue f.tag f.body
  | 28 => .setPlan f.tag f.body
  | 29 => .getPlan f.tag f.body
  | 30 => .selectPlan f.tag f.body
  | 32 => .getHeads f.tag f.body
  | 33 => .getClosures f.tag f.body
  | 34 => .override f.tag f.body
  | 35 => .release f.tag f.body
  | 36 => .getOverrides f.tag f.body
  | 37 => .lampTest f.tag f.body
  | 38 => .endLampTest f.tag f.body
  | 39 => .getLampTest f.tag f.body
  | 40 => .clearFault f.tag f.body
  | 41 => .getLamps f.tag f.body
  | 42 => .getFaults f.tag f.body
  | 44 => .freeze f.tag f.body
  | 45 => .fixSignature f.tag f.body
  | 46 => .unfix f.tag f.body
  | 47 => .unlearn f.tag f.body
  | 48 => .getSignatures f.tag f.body
  | 49 => .getLearning f.tag f.body
  | 52 => .restoreStation f.tag f.body
  | 53 => .getRing f.tag f.body
  | 56 => .getFlash f.tag f.body
  | 57 => .setClock f.tag f.body
  | 58 => .getClock f.tag f.body
  | 59 => .setSchedule f.tag f.body
  | 60 => .getSchedule f.tag f.body
  | 64 => .ackAttention f.tag f.body
  | 65 => .setNoticeMask f.tag f.body
  | 66 => .getAttention f.tag f.body
  | 67 => .getLink f.tag f.body
  | _ => .unknownKind f.kind f.tag f.body

/-- The host frame that carries a command row (R183, R198); none for the rows that no frame carries. -/
def frameOf : Instr → Option HostFrame
  | .powerUp => none
  | .resetNFall => none
  | .resetNRise => none
  | .hostFrameReceived _ => none
  | .hostFrameDropped _ _ => none
  | .hostGapTimeout _ => none
  | .hostTransmitEnd => none
  | .silenceTimeout => none
  | .unknownKind kind tag body => some { kind := kind, tag := tag, body := body }
  | .setTunnel tag body => some (commandFrame 1 tag body)
  | .getTunnel tag body => some (commandFrame 2 tag body)
  | .setLane tag body => some (commandFrame 3 tag body)
  | .getLane tag body => some (commandFrame 4 tag body)
  | .setStation tag body => some (commandFrame 5 tag body)
  | .getStation tag body => some (commandFrame 6 tag body)
  | .setProving tag body => some (commandFrame 7 tag body)
  | .getProving tag body => some (commandFrame 8 tag body)
  | .setDuty tag body => some (commandFrame 9 tag body)
  | .getDuty tag body => some (commandFrame 10 tag body)
  | .setDim tag body => some (commandFrame 11 tag body)
  | .getDim tag body => some (commandFrame 12 tag body)
  | .start tag body => some (commandFrame 13 tag body)
  | .stop tag body => some (commandFrame 14 tag body)
  | .getMode tag body => some (commandFrame 15 tag body)
  | .commit tag body => some (commandFrame 16 tag body)
  | .saveSignatures tag body => some (commandFrame 17 tag body)
  | .storeWriteComplete _ => none
  | .restart tag body => some (commandFrame 18 tag body)
  | .closeLane tag body => some (commandFrame 20 tag body)
  | .openLane tag body => some (commandFrame 21 tag body)
  | .reverseLane tag body => some (commandFrame 22 tag body)
  | .cancelTask tag body => some (commandFrame 23 tag body)
  | .confirmClear tag body => some (commandFrame 24 tag body)
  | .abortLane tag body => some (commandFrame 25 tag body)
  | .closeNow tag body => some (commandFrame 26 tag body)
  | .getQueue tag body => some (commandFrame 27 tag body)
  | .setPlan tag body => some (commandFrame 28 tag body)
  | .getPlan tag body => some (commandFrame 29 tag body)
  | .selectPlan tag body => some (commandFrame 30 tag body)
  | .closingStepExpiry _ => none
  | .openingStepExpiry _ => none
  | .clearanceTimerExpiry _ => none
  | .confirmWindowExpiry _ => none
  | .getHeads tag body => some (commandFrame 32 tag body)
  | .getClosures tag body => some (commandFrame 33 tag body)
  | .override tag body => some (commandFrame 34 tag body)
  | .release tag body => some (commandFrame 35 tag body)
  | .getOverrides tag body => some (commandFrame 36 tag body)
  | .overrideHoldExpiry _ => none
  | .lampTest tag body => some (commandFrame 37 tag body)
  | .endLampTest tag body => some (commandFrame 38 tag body)
  | .getLampTest tag body => some (commandFrame 39 tag body)
  | .lampTestWindowExpiry => none
  | .clearFault tag body => some (commandFrame 40 tag body)
  | .getLamps tag body => some (commandFrame 41 tag body)
  | .getFaults tag body => some (commandFrame 42 tag body)
  | .freeze tag body => some (commandFrame 44 tag body)
  | .fixSignature tag body => some (commandFrame 45 tag body)
  | .unfix tag body => some (commandFrame 46 tag body)
  | .unlearn tag body => some (commandFrame 47 tag body)
  | .getSignatures tag body => some (commandFrame 48 tag body)
  | .getLearning tag body => some (commandFrame 49 tag body)
  | .gantryAnswer _ _ => none
  | .gantryBadAnswer _ _ _ => none
  | .gantryStrayFrame _ _ => none
  | .gantryGapTimeout _ _ => none
  | .pollTimeout _ => none
  | .gantryTransmitEnd _ => none
  | .reprobeTimerExpiry _ => none
  | .restoreStation tag body => some (commandFrame 52 tag body)
  | .getRing tag body => some (commandFrame 53 tag body)
  | .halfPeriodExpiry => none
  | .flashSyncEdge _ => none
  | .lossTimerExpiry => none
  | .getFlash tag body => some (commandFrame 56 tag body)
  | .secondTimerExpiry => none
  | .setClock tag body => some (commandFrame 57 tag body)
  | .getClock tag body => some (commandFrame 58 tag body)
  | .setSchedule tag body => some (commandFrame 59 tag body)
  | .getSchedule tag body => some (commandFrame 60 tag body)
  | .ackAttention tag body => some (commandFrame 64 tag body)
  | .setNoticeMask tag body => some (commandFrame 65 tag body)
  | .getAttention tag body => some (commandFrame 66 tag body)
  | .getLink tag body => some (commandFrame 67 tag body)
  | .powerFailure => none

/-- The command the processor takes now (R184). -/
def State.waitingCommand (s : State) : Option Instr :=
  match s.host.slots with
  | [] => none
  | f :: _ => if s.canTake f then some (rowOf f) else none

/-! ### Due timers -/

/-- The expiry of a lane's timer, in the state the lane is in (R24). -/
def laneExpiry (lane : Nat) : LanePhase → Option Instr
  | .closing _ _ _ _ => some (.closingStepExpiry lane)
  | .opening _ _ _ _ => some (.openingStepExpiry lane)
  | .clearance _ _ false _ => some (.clearanceTimerExpiry lane)
  | .clearance _ _ true _ => some (.confirmWindowExpiry lane)
  | .run _ => none
  | .shut => none

/-- The expiry of a lane's timer at 0, if the lane is in the section. -/
def State.laneDue (s : State) (lane : Nat) : Option Instr :=
  if lane < s.l ∧ (s.lane lane).timer = some 0 then laneExpiry lane (s.lane lane).phase else none

/-- The overrides whose holds have run out (R91). -/
def State.holdsDue (s : State) : Option Instr :=
  match (s.resolver.overrides.filter fun o => o.hold == 0).map (·.head) with
  | [] => none
  | hs => some (.overrideHoldExpiry hs)

/-- The lamp test's window has run out (R99). -/
def State.windowDue (s : State) : Option Instr :=
  match s.resolver.lampTest with
  | none => none
  | some t => if t.window = 0 then some .lampTestWindowExpiry else none

/-- An expiry that is due when its timer stands at 0. -/
def dueAt (timer : Option Nat) (allowed : Bool) (i : Instr) : Option Instr :=
  if timer = some 0 ∧ allowed = true then some i else none

/-- The reprobe timer of a station of the section at 0, its reprobe not being due yet (R157). -/
def State.reprobeTimerDue (s : State) (k : Nat) : Option Instr :=
  dueAt (s.station k).reprobe (decide (k < s.n) && (s.station k).state == .rerouted && !s.reprobing k)
    (.reprobeTimerExpiry k)

/-- What can fall due, in the order in which expiries that fall together are taken (log entry 23). -/
def dueRows : List (State → Option Instr) :=
  [fun s => dueAt s.time.secondTimer s.time.clock.isSome .secondTimerExpiry] ++
    (List.range 6).map (fun l s => s.laneDue l) ++
    [State.holdsDue, State.windowDue, fun s => dueAt s.host.silence true .silenceTimeout,
      fun s => dueAt s.time.halfTimer true .halfPeriodExpiry,
      fun s => dueAt s.time.lossTimer (s.time.line == .following) .lossTimerExpiry,
      fun s => dueAt s.link.west.answerTimer s.link.west.waiting (.pollTimeout .west),
      fun s => dueAt s.link.east.answerTimer s.link.east.waiting (.pollTimeout .east)] ++
    (List.range 16).map fun k s => s.reprobeTimerDue k

/-- Takes, one after the other, the expiries of a list that are due when their turn comes. -/
def runDue : List (State → Option Instr) → State → Host.Outcome State Fault Refusal
  | [], s => .next s
  | due :: rest, s =>
    match due s with
    | none => runDue rest s
    | some c =>
      match exec c s with
      | .next t => runDue rest t
      | .fault f => .fault f
      | .refused r => .refused r

/-! ### The passing of time -/

/-- A running timer 1 ms later. -/
def timerTick (t : Option Nat) : Option Nat := t.map (· - 1)

/-- A lane record 1 ms later (R24). -/
def LaneRec.tick (r : LaneRec) : LaneRec := { r with timer := timerTick r.timer }

/-- A station record 1 ms later (R157). -/
def StationRec.tick (r : StationRec) : StationRec := { r with reprobe := timerTick r.reprobe }

/-- Every running timer counts down by a millisecond. The expiries that this makes due belong to the same step (`idle`), so
that no timer stands at 0 between steps (R88, R96) but the reprobe timer of a reprobe that is due (log entry 14). -/
def State.tick (s : State) : State :=
  { s with
    engine.lanes := Tab.mapWhere LaneRec.reset (fun _ => true) LaneRec.tick s.engine.lanes
    resolver.overrides := s.resolver.overrides.map fun o => { o with hold := o.hold - 1 }
    resolver.lampTest := s.resolver.lampTest.map fun t => { t with window := t.window - 1 }
    link.stations := Tab.mapWhere (StationRec.reset .west) (fun _ => true) StationRec.tick s.link.stations
    link.west.answerTimer := timerTick s.link.west.answerTimer
    link.east.answerTimer := timerTick s.link.east.answerTimer
    time.halfTimer := timerTick s.time.halfTimer
    time.lossTimer := timerTick s.time.lossTimer
    time.secondTimer := timerTick s.time.secondTimer
    host.silence := timerTick s.host.silence }

/-- A millisecond passes, and the expiries that fall at its end happen (log entries 3 and 23). -/
def State.passMs (s : State) : Host.Outcome State Fault Refusal := runDue dueRows s.tick

/-- A step on an empty queue: the waiting command, else a millisecond (log entry 3). -/
def idle (s : State) : Host.Outcome State Fault Refusal :=
  if s.live then
    match s.waitingCommand with
    | some c => exec c s
    | none => s.passMs
  else .next s

end Sys2Proof.Machine
end

