-- ==== Sys2Proof/Safety.lean ====
section
/-! DEFINITION. What a good state of the part is, in the terms the statements use: the settled state that ends every event
(R81, R190, R193), and the bounds and laws the manual gives for what the part holds. -/

namespace Sys2Proof.Machine

/-! ### Replies and settled states -/

/-- What the host has yet to receive: the frame being sent, then the queued replies (R186). -/
def HostPort.outgoing (p : HostPort) : List HostFrame := p.tx.toList ++ p.replies

/-- The state after a command has completed with a reply, and nothing else has happened: its slot is released, its reply
is queued, and an IDLE transmitter has begun to send (R184, R186). -/
def State.sent (s : State) (f : HostFrame) (r : Reply) : State := (s.complete f r).driveTransmitter

/-- The state of the part between events: the head table is the one its present state calls for (R81), the active flags
are what their owners' conditions say (R190), the pollers and the transmitter have nothing left to choose (R153, R186),
and ALERT has its level (R193). -/
structure State.Settled (s : State) : Prop where
  heads : s.resolver.heads = s.resolveTable
  conditions : s.reportConditions = s
  west : s.drivePoller .west = s
  east : s.drivePoller .east = s
  line : s.driveTransmitter = s
  alert : s.attn.alert = alertLevel s.attn

/-- A part that is powered and not held in reset is settled. -/
def State.SettledWhileLive (s : State) : Prop := s.live = true → s.Settled

/-! ### The configuration -/

/-- A number lies in a range. -/
def within (lo hi n : Nat) : Bool := decide (lo ≤ n) && decide (n ≤ hi)

/-- A TUNNEL record whose fields lie in their ranges; unwritten, its N and L are 0 (R4). -/
def Tunnel.legal (t : Tunnel) : Bool :=
  (if t.written then within 2 16 t.n && within 1 6 t.l else t.n == 0 && t.l == 0) && within 2 120 t.stepTime &&
    within 10 1800 t.clearance && within 30 3600 t.confirm && within 10 300 t.lampWindow && within 2 60 t.silence &&
    within 250 1000 t.halfPeriod && t.halfPeriod % 10 == 0 && t.dims.length == 4 && t.dims.all (within 0 7)

/-- A PROVING record whose fields lie in their ranges (R8). -/
def Proving.legal (p : Proving) : Bool :=
  within 0 15 p.depth && within 1 7 p.threshold && within 5 50 p.tolerance && within 2 50 p.floor &&
    within 0 1023 p.spread && within 5 100 p.dark && within 1 1023 p.learnMin && within p.learnMin 1023 p.learnMax

/-- A schedule entry whose fields lie in their ranges (R177). -/
def ScheduleEntry.legal (e : ScheduleEntry) : Bool :=
  okWeekdays e.weekdays && within 0 23 e.hour && within 0 59 e.minute && within 1 8 e.plan

/-- The contents of a configuration region that the part can write (R4, R8, R9, R60, R177): there are LANE and STATION
records of the section only. -/
def ConfigImage.legal (i : ConfigImage) : Bool :=
  i.records.tunnel.legal && i.records.proving.legal && i.records.lanes.all (fun e => decide (e.1 < i.records.tunnel.l)) &&
    i.records.stations.all (fun e => decide (e.1 < i.records.tunnel.n)) && i.records.duties.length == 8 &&
    i.records.duties.all (within 20 1000) && i.plans.length == 8 && i.plans.all (fun p => p.length == 6) &&
    i.schedule.length == 24 && i.schedule.all fun e => e.all ScheduleEntry.legal

/-- The configuration the part works from, holds in its store and is writing is legal, and the current dim levels lie in
0..7 (R9). -/
def State.ConfigLegal (s : State) : Prop :=
  s.configImage.legal = true ∧ (∀ i, s.config.nvConfig = some i → i.legal = true) ∧
    (∀ i, s.config.writing = some (.config i) → i.legal = true) ∧ s.config.dims.length = 4 ∧
    s.config.dims.all (within 0 7) = true

/-- A RUNNING clock holds a time of week (R174). -/
def State.ClockLegal (s : State) : Prop :=
  ∀ t, s.time.clock = some t →
    (1 ≤ t.weekday ∧ t.weekday ≤ 7) ∧ t.hour ≤ 23 ∧ t.minute ≤ 59 ∧ t.second ≤ 59

/-! ### The lanes, the queue and the tables -/

/-- A lane holds the sweep. -/
def State.sweeps (s : State) (lane : Nat) : Prop := (s.lane lane).phase.sweeping = true

/-- The front of a sweep (R20). -/
def LanePhase.front : LanePhase → Option Nat
  | .closing _ f _ _ => some f
  | .opening _ f _ _ => some f
  | .run _ => none
  | .clearance _ _ _ _ => none
  | .shut => none

/-- A lane timer runs in this lane state (R20, R24). -/
def LanePhase.timed : LanePhase → Bool
  | .closing _ _ _ _ => true
  | .opening _ _ _ _ => true
  | .clearance _ _ _ _ => true
  | .run _ => false
  | .shut => false

/-- The lane records: at most one lane is in CLOSING or OPENING (R23); lanes outside the section are at their reset values
(R20); a lane carries its own task; a front lies in 0..N-1, and a lane timer runs in CLOSING, OPENING and CLEARANCE alone
(R20, R24); queued tasks are of lanes of the section (R48); in STANDBY every lane is SHUT, and the queue and the override
table are empty (R21, R49, R88), and in RUN no lamp test is active (R70). -/
structure State.LanesLegal (s : State) : Prop where
  oneSweep : ∀ l m, s.sweeps l → s.sweeps m → l = m
  outside : ∀ l, s.l ≤ l → s.lane l = LaneRec.reset
  carried : ∀ l t, (s.lane l).phase.task = some t → t.lane = l
  fronts : ∀ l f, (s.lane l).phase.front = some f → f < s.n
  timers : ∀ l, (s.lane l).timer.isSome = (s.lane l).phase.timed
  queued : ∀ t ∈ s.engine.queue, t.lane < s.l
  standby : s.config.mode = .standby →
    (∀ l, (s.lane l).phase = .shut) ∧ s.engine.queue = [] ∧ s.resolver.overrides = []
  untested : s.config.mode = .run → s.resolver.lampTest = none

/-- The capacities: 4 slots and 4 replies (R183, R186), 8 tasks, no two of one lane and kind (R49), 32 overrides, at most
one to a head (R88), and counters that stay at 65,535 (R182, R183). A store write leaves a place for its reply. -/
structure State.WithinCapacity (s : State) : Prop where
  slots : s.host.slots.length ≤ 4
  replies : s.host.replies.length ≤ 4
  writing : s.host.processor = .writing → s.host.replies.length < 4
  queue : s.engine.queue.length ≤ 8
  tasks : s.engine.queue.Pairwise fun t u => ¬(t.lane = u.lane ∧ t.kind.same u.kind = true)
  overrides : s.resolver.overrides.length ≤ 32
  oneEach : s.resolver.overrides.Pairwise fun o p => o.head ≠ p.head
  counters : s.host.crcErrors ≤ 65535 ∧ s.host.lengthErrors ≤ 65535 ∧ s.host.gapErrors ≤ 65535 ∧
    s.host.breakErrors ≤ 65535 ∧ s.host.overruns ≤ 65535

/-- Every LEARNED or FIXED signature value lies in 1..1023 (R129). -/
def State.SignaturesInRange (s : State) : Prop := ∀ key v, (s.entry key).value = some v → 1 ≤ v ∧ v ≤ 1023

/-- The fail count of a string record fits its state (R102); an OK string has passed a proving since it last became UNPROVEN,
and an UNPROVEN one has not (R115; the history of log entry 33). -/
def StringRec.fits (threshold : Nat) (r : StringRec) : Bool :=
  match r.state with
  | .unproven => r.fails == 0 && !r.proved
  | .ok => r.fails == 0 && r.proved
  | .suspect => decide (1 ≤ r.fails) && decide (r.fails < threshold)
  | .fault => decide (r.fails ≤ 7)

/-- The string records: fail counts and histories fit the states, and a string of the section holds at most as many samples as the
depth, its accumulator being emptied when it is full (R102, R109). -/
def State.StringsLegal (s : State) : Prop :=
  (∀ key, (s.string key).fits s.config.records.proving.threshold = true) ∧
    ∀ key, s.stringKeyIn key = true → (s.string key).acc.count ≤ s.config.records.proving.depth

/-- The station records: miss counts up to 3, the reprobe timer present in REROUTED alone (R151), and an ONLINE station of
the section polled from its home end and a REROUTED one from the other (R156 to R162). -/
structure State.StationsLegal (s : State) : Prop where
  misses : ∀ k, (s.station k).missWest ≤ 3 ∧ (s.station k).missEast ≤ 3
  reprobe : ∀ k, (s.station k).reprobe.isSome = true ↔ (s.station k).state = .rerouted
  home : ∀ k, k < s.n → (s.station k).state = .online → (s.station k).current = homeEnd s.n k
  away : ∀ k, k < s.n → (s.station k).state = .rerouted → (s.station k).current = (homeEnd s.n k).other

/-- The contents of a signature region in canonical form. -/
def SigImage.canonical (i : SigImage) : Bool := Tab.wf .unlearned i.entries && Tab.wf none i.idents

/-- The records of a configuration region in canonical form. -/
def Records.canonical (r : Records) : Bool := Tab.wf none r.lanes && Tab.wf none r.stations

/-- A store write's contents in canonical form. -/
def StoreWrite.canonical : StoreWrite → Bool
  | .config i => i.records.canonical
  | .signature i => i.canonical

/-- Every table of the part is in its canonical form: numbers rise, and no entry equals the record an unlisted number
reads as, so that equal tables are equal data. -/
def State.TablesCanonical (s : State) : Prop :=
  (Tab.wf LaneRec.reset s.engine.lanes = true ∧ Tab.wf none s.resolver.displayed = true ∧
      Tab.wf StringRec.reset s.lamps.strings = true ∧ Tab.wf HeadProving.reset s.lamps.heads = true ∧
      Tab.wf none s.lamps.falseOpen = true) ∧
    (Tab.wf .unlearned s.sigs.entries = true ∧ Tab.wf none s.sigs.idents = true ∧
      Tab.wf none s.sigs.changes = true ∧ Tab.wf (StationRec.reset .west) s.link.stations = true) ∧
    s.config.records.canonical = true ∧ (∀ i, s.config.nvConfig = some i → i.records.canonical = true) ∧
    (∀ i, s.config.nvSig = some i → i.canonical = true) ∧ ∀ w, s.config.writing = some w → w.canonical = true

/-- No timer stands at 0 between steps, and none runs longer than it can be started for: the hold of an override lies above 0
and within 14,400 s (R88), the window of an active lamp test above 0 and within 300 s (R96), a lane timer above 0 and within
the confirm window's 3,600 s (R24), and so on. The loss timer runs in FOLLOWING alone (R166), the second timer while the
clock is RUNNING (R174), an answer timeout inside an exchange (R153). A reprobe timer may read 0 (log entry 14). -/
structure State.TimersLegal (s : State) : Prop where
  holds : ∀ o ∈ s.resolver.overrides, 1 ≤ o.hold ∧ o.hold ≤ 14400000
  window : ∀ x, s.resolver.lampTest = some x → 1 ≤ x.window ∧ x.window ≤ 300000
  lanes : ∀ l v, (s.lane l).timer = some v → 1 ≤ v ∧ v ≤ 3600000
  half : ∀ v, s.time.halfTimer = some v → 1 ≤ v ∧ v ≤ 1000
  loss : ∀ v, s.time.lossTimer = some v → 1 ≤ v ∧ v ≤ 3000 ∧ s.time.line = .following
  second : ∀ v, s.time.secondTimer = some v → 1 ≤ v ∧ v ≤ 1000 ∧ s.time.clock.isSome = true
  silence : ∀ v, s.host.silence = some v → 1 ≤ v ∧ v ≤ 60000
  answers : ∀ e v, (s.poller e).answerTimer = some v → 1 ≤ v ∧ v ≤ 10 ∧ (s.poller e).exchange.isSome = true
  reprobes : ∀ k v, (s.station k).reprobe = some v → v ≤ 30000

/-- The laws a state of the part keeps. -/
structure State.Good (s : State) : Prop where
  settled : s.SettledWhileLive
  config : s.ConfigLegal
  clock : s.ClockLegal
  lanes : s.LanesLegal
  capacity : s.WithinCapacity
  signatures : s.SignaturesInRange
  strings : s.StringsLegal
  stations : s.StationsLegal
  tables : s.TablesCanonical

/-! ### Taking a command, and what an event leaves alone -/

/-- A settled part takes this frame's command now (R184). -/
def State.takes (s : State) (f : HostFrame) : Prop := s.Good ∧ s.live = true ∧ s.canTake f = true

/-- The outcome of a command that completes on a state with a reply and does nothing else to it. -/
def State.replies (s : State) (f : HostFrame) (status : Nat) (body : List Octet) : Host.Outcome State Fault Refusal :=
  .next (s.sent f ⟨status, body⟩)

/-- Where a command of this KIND and body waits, it is taken with one reply and no other effect. -/
def State.answers (s : State) (row : Octet → List Octet → Instr) (kind : Nat) (b : List Octet) (status : Nat)
    (reply : List Octet) : Prop :=
  ∀ tag, s.takes (commandFrame kind tag b) → exec (row tag b) s = s.replies (commandFrame kind tag b) status reply

/-- A frame's command has completed: the oldest slot is released, and the reply has joined what the host has yet to receive,
its FREE counting the slots free (R184, R185, R186, R197). DESIGN CHOICE (log entry 27): it does so at the end of the event,
so that an IDLE transmitter sends it before a notice that the same event brings. -/
def State.Replied (s t : State) (f : HostFrame) (status : Nat) (body : List Octet) : Prop :=
  t.host.slots = s.host.slots.tail ∧
    t.host.outgoing =
      s.host.outgoing ++
        [{ kind := replyKind f.kind, tag := f.tag, body := octet status :: octet (4 - s.host.slots.tail.length) :: body }]

/-- Where a command of this KIND and body waits, it is taken with one reply, and the next state passes a test. -/
def State.performs (s : State) (row : Octet → List Octet → Instr) (kind : Nat) (b : List Octet) (status : Nat)
    (reply : List Octet) (p : State → Prop) : Prop :=
  ∀ tag, s.takes (commandFrame kind tag b) →
    ∃ t, exec (row tag b) s = .next t ∧ s.Replied t (commandFrame kind tag b) status reply ∧ p t

/-- The Host Link Port keeps its receiver, its processor, its counters, its notice count and its silence timer. -/
def State.KeepsPort (s t : State) : Prop :=
  t.host =
    { s.host with
      slots := t.host.slots, replies := t.host.replies, tx := t.host.tx, noticePending := t.host.noticePending }

/-- The body of a notice (R187; R199): ALERT, the number of latched kinds, and for each in ascending index its index, its
repeat flag and its active flag. -/
def noticeOf (a : Attention) : List Octet :=
  let latched := (List.range 22).filter fun i => a.latched.getLsbD i
  flagOctets a.alert ++ [octet latched.length] ++
    latched.flatMap fun i => [octet i] ++ flagOctets (a.rep.getLsbD i) ++ flagOctets (a.active.getLsbD i)

/-- A notice is pending or being sent (R187). -/
def State.noticed (s : State) : Prop := s.host.noticePending = true ∨ ∃ f, s.host.tx = some f ∧ f.kind = 0

/-- A kind has been raised this often, or more: the first raising sets latched, and a further one, or one of a kind that was
latched already, sets repeat (R189). -/
def State.RaisedAtLeast (s t : State) (k : AttnKind) (times : Nat) : Prop :=
  (1 ≤ times → hasFlag t.attn.latched k = true) ∧
    (1 ≤ times → (2 ≤ times ∨ hasFlag s.attn.latched k = true) → hasFlag t.attn.rep k = true)

/-- A kind has been raised exactly this often, each raising taken in turn (R189): where it was clear, the first sets latched and
every further one sets repeat; where it was latched already, each sets repeat; and without a raising both flags stay. -/
def State.RaisedTimes (s t : State) (k : AttnKind) (times : Nat) : Prop :=
  hasFlag t.attn.latched k = (hasFlag s.attn.latched k || decide (1 ≤ times)) ∧
    hasFlag t.attn.rep k =
      (hasFlag s.attn.rep k || (decide (2 ≤ times) || (decide (1 ≤ times) && hasFlag s.attn.latched k)))

/-- The (lane, face) pairs that join the entry-closure set (R79). -/
def State.joined (s t : State) : List (Nat × Face) := t.entryClosures.filter fun p => !s.entryClosures.contains p

/-- Some head's E availability becomes FAILED (R80). -/
def State.newlyFailed (s t : State) : Prop :=
  ∃ h q r, s.headRec h = some q ∧ t.headRec h = some r ∧ q.availOf q.effective ≠ .failed ∧ r.availOf r.effective = .failed

/-- The kinds whose active flag follows the settled state (R190). -/
def reportedKinds : List AttnKind :=
  [.clearanceConfirmDue, .stringFault, .aspectFailed, .headFault, .entryClosureLost, .falseOpen, .stationCut, .stationLost,
    .ringDegraded, .flashSyncLost]

/-- What an event does to the attention flags besides raising kinds of a list: the notice mask is unchanged; no latched or
repeat flag is cleared, and none of another kind is set, but that each pair joining the entry-closure set raises
ENTRY_CLOSURE_LOST (R79), and that ASPECT_FAILED is raised once where some head's E availability has become FAILED (R80); a flag
newly set of a kind that is enabled has a notice pending or begun, and a notice newly pending or begun has an enabled kind
latched (R189). -/
structure State.FlagsFollow (s t : State) (kinds : List AttnKind) (joined : List (Nat × Face)) (failed : Prop) : Prop where
  enabled : t.attn.enabled = s.attn.enabled
  kept : ∀ k, k ∉ kinds → k ≠ .entryClosureLost → k ≠ .aspectFailed →
    hasFlag t.attn.latched k = hasFlag s.attn.latched k ∧ hasFlag t.attn.rep k = hasFlag s.attn.rep k
  uncleared : ∀ k, (hasFlag s.attn.latched k = true → hasFlag t.attn.latched k = true) ∧
    (hasFlag s.attn.rep k = true → hasFlag t.attn.rep k = true)
  closures :
    (hasFlag t.attn.latched .entryClosureLost = true ↔
      hasFlag s.attn.latched .entryClosureLost = true ∨ joined ≠ []) ∧
    (hasFlag t.attn.rep .entryClosureLost = true ↔
      hasFlag s.attn.rep .entryClosureLost = true ∨ 2 ≤ joined.length ∨
        (hasFlag s.attn.latched .entryClosureLost = true ∧ joined ≠ []))
  failures :
    (hasFlag t.attn.latched .aspectFailed = true ↔ hasFlag s.attn.latched .aspectFailed = true ∨ failed) ∧
    (hasFlag t.attn.rep .aspectFailed = true ↔
      hasFlag s.attn.rep .aspectFailed = true ∨ (hasFlag s.attn.latched .aspectFailed = true ∧ failed))
  active : ∀ k, k ∉ reportedKinds → hasFlag t.attn.active k = hasFlag s.attn.active k
  notice : ∀ k, hasFlag s.attn.enabled k = true →
    (hasFlag t.attn.latched k ≠ hasFlag s.attn.latched k ∨ hasFlag t.attn.rep k ≠ hasFlag s.attn.rep k) → t.noticed
  cause : t.noticed → s.noticed ∨ ∃ k, hasFlag s.attn.enabled k = true ∧ hasFlag t.attn.latched k = true

/-- What an event that keeps the section does to the attention flags besides raising kinds of a list. -/
def State.KeepsFlags (s t : State) (kinds : List AttnKind) : Prop := s.FlagsFollow t kinds (s.joined t) (s.newlyFailed t)

/-- An event that is no command queues no reply and takes no slot: what is being sent stays, and an IDLE transmitter begins
nothing but a notice (R186, R187). -/
structure State.Unreplied (s t : State) : Prop where
  slots : t.host.slots = s.host.slots
  replies : t.host.replies = s.host.replies
  sending : ∀ f, s.host.tx = some f → t.host.tx = some f
  begun : s.host.tx = none →
    t.host.tx = none ∨ (t.host.tx = some ⟨0, s.host.noticeCount, noticeOf t.attn⟩ ∧ t.host.noticePending = false)

/-- One raising of a kind, in an event that queues no reply (R186, R187, R189): the latched flag is set, or the repeat flag
where it was set already, and no other; where the kind is enabled, a notice is pending, or an IDLE transmitter has begun it;
where it is not, the marker and the transmitter are as before. -/
structure State.Raised (s t : State) (k : AttnKind) : Prop where
  latched : ∀ i, i < 22 → t.attn.latched.getLsbD i = (s.attn.latched.getLsbD i || i == k.index)
  rep : ∀ i, i < 22 → t.attn.rep.getLsbD i = (s.attn.rep.getLsbD i || (i == k.index && s.attn.latched.getLsbD i))
  enabled : t.attn.enabled = s.attn.enabled
  replies : t.host.replies = s.host.replies ∧ t.host.noticeCount = s.host.noticeCount
  marker : hasFlag s.attn.enabled k = true → ∀ f, s.host.tx = some f → t.host.tx = some f ∧ t.host.noticePending = true
  begun : hasFlag s.attn.enabled k = true → s.host.tx = none →
    t.host.tx = some ⟨0, s.host.noticeCount, noticeOf t.attn⟩ ∧ t.host.noticePending = false
  masked : hasFlag s.attn.enabled k = false →
    t.host.tx = s.host.tx ∧ t.host.noticePending = s.host.noticePending

/-- The strings of a head keep their records, but that a change of its resolved aspect empties their accumulators (R83,
R110). -/
def State.KeepsStringsOf (s t : State) (h : HeadRef) : Prop :=
  ∀ i, i < 10 →
    t.string (stringKey h i) =
      if t.resolved h = s.resolved h then s.string (stringKey h i) else { s.string (stringKey h i) with acc := Acc.empty }

/-- The Lamp Proving Unit's records are unchanged, but that the accumulators of each head whose resolved aspect changes are
emptied (R83, R110). -/
def State.KeepsLamps (s t : State) : Prop :=
  t.lamps.heads = s.lamps.heads ∧ t.lamps.falseOpen = s.lamps.falseOpen ∧
    (∀ h, s.hasHead h = true → s.KeepsStringsOf t h) ∧ ∀ key, s.stringKeyIn key = false → t.string key = s.string key

/-- A station record is unchanged, but for the RESTORE-pending mark where a RESTORE frame to the station has just begun
(R147). -/
def State.KeepsStation (s t : State) (k : Nat) : Prop :=
  t.station k = s.station k ∨
    ((s.station k).restorePending = true ∧ t.station k = { s.station k with restorePending := false } ∧
      ∃ e, (t.poller e).sending = some ⟨octet k, 3#8, []⟩)

/-- The Aspect Resolver keeps its tables, and the head table is the one the new state calls for (R81). -/
def State.KeepsResolver (s t : State) : Prop := t.resolver = { s.resolver with heads := t.resolveTable }

/-- The Configuration Store, the Signature Table, the supply and the model's queue are unchanged. -/
def State.KeepsStore (s t : State) : Prop :=
  t.config = s.config ∧ t.sigs = s.sigs ∧ t.power = s.power ∧ t.pending = s.pending

/-- An event of the Changeover Engine, which can raise these kinds: every other block keeps what only its own commands
change. -/
structure State.EngineEvent (s t : State) (kinds : List AttnKind) : Prop where
  store : s.KeepsStore t
  time : t.time = s.time
  resolver : s.KeepsResolver t
  lamps : s.KeepsLamps t
  link : t.link = s.link
  port : s.KeepsPort t
  flags : s.KeepsFlags t kinds

/-- An event of the Aspect Resolver, which can raise these kinds: every other block keeps what only its own commands change. A
fresh opening may have failed (R36). -/
structure State.ResolverEvent (s t : State) (kinds : List AttnKind) : Prop where
  store : s.KeepsStore t
  time : t.time = s.time
  heads : t.resolver.heads = t.resolveTable
  displayed : t.resolver.displayed = s.resolver.displayed
  lamps : s.KeepsLamps t
  link : t.link = s.link
  port : s.KeepsPort t
  flags : s.KeepsFlags t kinds

/-- One lane record is written; the other lanes, the queue and the plans are unchanged. -/
def State.WritesLane (s t : State) (lane : Nat) (r : LaneRec) : Prop :=
  t.lane lane = r ∧ (∀ m, m ≠ lane → t.lane m = s.lane m) ∧ t.engine.queue = s.engine.queue ∧ t.engine.plans = s.engine.plans

/-- A last outcome of a lane's task (R44). -/
def State.outcomeOf (s : State) (t : Task) (o : TaskOutcome) (r : Option Reason) : LastOutcome :=
  { kind := t.kind, origin := t.origin, plan := t.plan, outcome := o, reason := r, stamp := s.stamp }

/-- The queued tasks of origin HOST, which the expansion of a plan leaves (R62). -/
def State.hostTasks (s : State) : List Task := s.engine.queue.filter fun t => t.origin == .host

/-- The queued tasks of origin PLAN and SCHEDULE, which the expansion of a plan marks for removal (R62). -/
def State.markedTasks (s : State) : List Task := s.engine.queue.filter fun t => t.origin != .host

/-- A new task of a lane shares lane and kind with a queued task that stays (R63, the first test). -/
def State.PlanClashes (s : State) (new : List Task) (l : Nat) : Prop :=
  ∃ t ∈ new, t.lane = l ∧ ∃ u ∈ s.hostTasks, u.lane = t.lane ∧ (u.kind = .close ↔ t.kind = .close)

/-- New tasks of a plan are applied (R63): each lane's last outcome is that of its newest marked task, SUPERSEDED, and every
marked task raises TASK_UNSUCCESSFUL (R44, R58); the new tasks stand behind the tasks that stay; and the scan runs. While
the sweep is held, nothing else happens. -/
def State.PlanApplied (s t : State) (new : List Task) : Prop :=
  s.RaisedAtLeast t .taskUnsuccessful s.markedTasks.length ∧
  ∃ u : State, u = { s with engine := u.engine } ∧ u.engine.plans = s.engine.plans ∧
    u.engine.queue = s.hostTasks ++ new ∧
    (∀ l, u.lane l =
      { s.lane l with
        last := match (s.markedTasks.filter fun v => v.lane == l).getLast? with
          | some v => some (s.outcomeOf v .superseded none)
          | none => (s.lane l).last }) ∧
    t.engine = (u.scan).engine ∧ (s.sweepFree = false → t.engine = u.engine)

/-! ### The start-up sequence -/

/-- The state `t` in which the start-up sequence leaves a part that was in the state `s`, FLASH_SYNC high where the part
drives it (R16, with the reset values of R21,
R49, R67, R88, R96, R102, R103, R132, R138, R140, R151, R166, R174, R180, R183 to R189). -/
structure State.StartedFrom (s t : State) (cause : ResetCause) : Prop where
  records : t.config.records = (loadedConfig s.config.stopWrite.nvConfig).records
  dims : t.config.dims = t.config.records.tunnel.dims
  plans : t.engine.plans = (loadedConfig s.config.stopWrite.nvConfig).plans
  schedule : t.time.schedule = (loadedConfig s.config.stopWrite.nvConfig).schedule
  mask : t.attn.enabled = (loadedConfig s.config.stopWrite.nvConfig).mask
  store : t.config.nvConfig = s.config.stopWrite.nvConfig ∧ t.config.nvSig = s.config.stopWrite.nvSig ∧
    t.config.writing = none
  regions : t.config.configValid = t.config.nvConfig.isSome ∧ t.config.sigValid = (loadSig t.config.nvSig).isSome
  signatures : t.sigs = {
    entries := ((loadSig t.config.nvSig).map (·.entries)).getD []
    idents := ((loadSig t.config.nvSig).map (·.idents)).getD []
    changes := [], rejection := none, unsaved := !t.config.sigValid }
  cause : t.config.resetCause = cause
  mode : t.config.mode = .run ↔
    t.config.configValid = true ∧ t.config.records.tunnel.autoStart = true ∧ t.startFault = none
  refusal : t.config.startRefusal =
    if t.config.configValid = true ∧ t.config.records.tunnel.autoStart = true then t.startFault else none
  lanes : (∀ l, t.lane l = LaneRec.reset) ∧ t.engine.queue = []
  resolver : t.resolver = { heads := t.resolveTable, displayed := [], overrides := [], lampTest := none, lampLast := none }
  lamps : t.lamps = { strings := [], heads := [], falseOpen := [] }
  stations : ∀ k, k < t.n → t.station k = StationRec.reset (homeEnd t.n k)
  flash : t.time.phase = true ∧ t.time.halfTimer = some t.config.records.tunnel.halfPeriod ∧
    t.time.line = startLine t.config.records.tunnel ∧
    (t.time.lossTimer = if t.time.line = .following then some (3 * t.config.records.tunnel.halfPeriod) else none) ∧
    t.flashSyncOut = if t.time.line = .driving then some true else none
  clock : t.time.clock = none ∧ t.time.secondTimer = none ∧ t.time.lastFiring = none
  host : t.host = {
    slots := [], processor := .ready, replies := [], tx := none, noticePending := false, noticeCount := 0
    rx := .hunting, crcErrors := 0, lengthErrors := 0, gapErrors := 0, breakErrors := 0, overruns := 0
    silence := some (t.config.records.tunnel.silence * 1000) }
  attention : t.attn.active = 0 ∧ t.attn.latched = 0 ∧ t.attn.rep = 0 ∧ t.attn.alert = false
  pending : t.pending = s.pending

/-- The Attention Unit, the transmitter, FLASH_SYNC, the gantry link and the store as RESET_N low or a lost supply leaves
them (R17, R164, R166, R186). -/
structure State.Stopped (s t : State) : Prop where
  flags : t.attn.active = 0 ∧ t.attn.latched = 0 ∧ t.attn.rep = 0 ∧ t.attn.alert = false
  host : t.host.tx = none ∧ t.host.rx = .hunting
  flash : t.time.phase = true ∧ t.time.line = .notDriven ∧ t.time.halfTimer = none ∧ t.time.lossTimer = none ∧
    t.time.secondTimer = none ∧ t.flashSyncOut = none
  gantry : ∀ e, (t.poller e).sending = none ∧ (t.poller e).exchange = none ∧ (t.poller e).answerTimer = none
  writing : t.config.writing = none
  configRegion : t.config.nvConfig = match s.config.writing with
    | some (.config _) => none
    | _ => s.config.nvConfig
  sigRegion : t.config.nvSig = match s.config.writing with
    | some (.signature _) => none
    | _ => s.config.nvSig

/-! ### The table of command kinds -/

/-- The table of R198: KIND, body octets and modes. -/
def kindTable : List (Nat × Nat × Modes) :=
  [(1, 22, .standbyOnly), (2, 0, .both), (3, 4, .standbyOnly), (4, 1, .both), (5, 3, .standbyOnly), (6, 1, .both),
    (7, 13, .both), (8, 0, .both), (9, 16, .both), (10, 0, .both), (11, 2, .both), (12, 0, .both), (13, 0, .standbyOnly),
    (14, 0, .runOnly), (15, 0, .both), (16, 0, .both), (17, 0, .both), (18, 0, .both)] ++
  [(20, 1, .runOnly), (21, 2, .runOnly), (22, 1, .runOnly), (23, 2, .runOnly), (24, 1, .runOnly), (25, 1, .runOnly),
    (26, 1, .runOnly), (27, 0, .both), (28, 7, .both), (29, 1, .both), (30, 1, .runOnly), (32, 1, .both), (33, 0, .both),
    (34, 5, .runOnly), (35, 3, .both), (36, 0, .both), (37, 3, .standbyOnly), (38, 0, .standbyOnly), (39, 0, .both)] ++
  [(40, 4, .both), (41, 3, .both), (42, 0, .both), (44, 1, .both), (45, 7, .both), (46, 5, .both), (47, 1, .both),
    (48, 3, .both), (49, 0, .both), (52, 1, .both), (53, 0, .both), (56, 0, .both), (57, 4, .both), (58, 0, .both),
    (59, 6, .both), (60, 0, .both), (64, 3, .both), (65, 3, .both), (66, 0, .both), (67, 0, .both)]

/-- The KINDs whose body begins with a lane (R198). -/
def laneKinds : List Nat := [3, 4, 20, 21, 22, 23, 24, 25, 26]

/-- The KINDs whose body begins with a station (R198): of a head too, the station is the first octet. -/
def stationKinds : List Nat := [5, 6, 32, 34, 35, 37, 41, 45, 46, 47, 48, 52]

/-- The second of the week that a time of week is, counted from the first of Monday (R174). -/
def Time.weekSecond (t : Time) : Nat := (((t.weekday - 1) * 24 + t.hour) * 60 + t.minute) * 60 + t.second

/-- ALERT has its level (R193): asserted exactly when ENTRY_CLOSURE_LOST, FALSE_OPEN, STATION_CUT or STATION_LOST is
active or latched. -/
def State.AlertFollows (s : State) : Prop :=
  s.attn.alert = true ↔
    ∃ k ∈ [AttnKind.entryClosureLost, .falseOpen, .stationCut, .stationLost],
      hasFlag s.attn.active k = true ∨ hasFlag s.attn.latched k = true

end Sys2Proof.Machine
end

