-- ==== Sys2Proof/WellFormed.lean ====
section
/-! DEFINITION. Well-formed commands: operands within what the part can address (R2), and octets that are what the row's
name says of them (R181, R182, R145, R149). A meaning is total and takes ill-formed operands too. -/

namespace Sys2Proof

open Sys2Proof.Machine

/-- A body fits a host frame: at most 240 octets (R181). -/
def wfBody (body : List Octet) : Bool := decide (body.length ≤ 240)

/-- A lane the part can address (R2). -/
def wfLane (lane : Nat) : Bool := decide (lane < Config.maxLanes)

/-- A station the part can address (R2). -/
def wfStation (k : Nat) : Bool := decide (k < Config.maxStations)

/-- A head the part can address (R2). -/
def wfHead (h : HeadRef) : Bool := wfStation h.station && wfLane h.lane

/-- What a hunting host receiver makes of octets: its state after them and what it found. -/
def hostReads (os : List Octet) : HostRx × List HostRxEvent := HostRx.hunting.feed os

/-- Octets that are one good host frame (R181). -/
def isGoodFrame (os : List Octet) : Bool :=
  match hostReads os with
  | (.hunting, [.good _]) => true
  | _ => false

/-- Octets at whose last one a frame is dropped, for its LEN or its CRC (R182). -/
def isDroppedFrame (os : List Octet) : Bool :=
  match hostReads os with
  | (.hunting, [.dropped .length]) => true
  | (.hunting, [.dropped .crc]) => true
  | _ => false

/-- Octets that begin a host frame and do not end it. -/
def isOpenFrame (os : List Octet) : Bool :=
  match hostReads os with
  | (.inFrame _, []) => true
  | _ => false

/-- A gantry receiver takes octets in turn, an exchange being in flight; its state after them and what it found. -/
def gantryReads : GantryRx → List Octet → GantryRx × List GantryRxEvent
  | rx, [] => (rx, [])
  | rx, o :: os =>
    let r := rx.octet true o
    let rest := gantryReads r.1 os
    (rest.1, r.2.toList ++ rest.2)

/-- The station an answer names and the lanes its record count stands for make it a good answer (R149). -/
def passesTests (got : List Octet) : Bool := (answerFault (oct got 0) (oct got 7 / 2) got).isNone

/-- Octets that are one good SAMPLE frame (R149). -/
def isGoodAnswer (os : List Octet) : Bool :=
  match gantryReads .hunting os with
  | (.hunting, [.whole true got]) => passesTests got
  | _ => false

/-- Octets that are one frame, whole or broken (R149). -/
def isFrame (os : List Octet) : Bool :=
  match gantryReads .hunting os with
  | (.hunting, [_]) => true
  | _ => false

/-- Octets that begin a gantry frame and do not end it. -/
def isOpenAnswer (os : List Octet) : Bool :=
  match gantryReads .hunting os with
  | (.inFrame _ _, []) => true
  | _ => false

/-- A well-formed command. -/
def Instr.wf : Instr → Bool
  | .powerUp => true
  | .resetNFall => true
  | .resetNRise => true
  | .hostFrameReceived octets => isGoodFrame octets
  | .hostFrameDropped octets brk => if brk then isOpenFrame octets else isDroppedFrame octets
  | .hostGapTimeout octets => isOpenFrame octets
  | .hostTransmitEnd => true
  | .silenceTimeout => true
  | .unknownKind kind _ body => Machine.unknownKind kind && wfBody body
  | .setTunnel _ body => wfBody body
  | .getTunnel _ body => wfBody body
  | .setLane _ body => wfBody body
  | .getLane _ body => wfBody body
  | .setStation _ body => wfBody body
  | .getStation _ body => wfBody body
  | .setProving _ body => wfBody body
  | .getProving _ body => wfBody body
  | .setDuty _ body => wfBody body
  | .getDuty _ body => wfBody body
  | .setDim _ body => wfBody body
  | .getDim _ body => wfBody body
  | .start _ body => wfBody body
  | .stop _ body => wfBody body
  | .getMode _ body => wfBody body
  | .commit _ body => wfBody body
  | .saveSignatures _ body => wfBody body
  | .storeWriteComplete _ => true
  | .restart _ body => wfBody body
  | .closeLane _ body => wfBody body
  | .openLane _ body => wfBody body
  | .reverseLane _ body => wfBody body
  | .cancelTask _ body => wfBody body
  | .confirmClear _ body => wfBody body
  | .abortLane _ body => wfBody body
  | .closeNow _ body => wfBody body
  | .getQueue _ body => wfBody body
  | .setPlan _ body => wfBody body
  | .getPlan _ body => wfBody body
  | .selectPlan _ body => wfBody body
  | .closingStepExpiry lane => wfLane lane
  | .openingStepExpiry lane => wfLane lane
  | .clearanceTimerExpiry lane => wfLane lane
  | .confirmWindowExpiry lane => wfLane lane
  | .getHeads _ body => wfBody body
  | .getClosures _ body => wfBody body
  | .override _ body => wfBody body
  | .release _ body => wfBody body
  | .getOverrides _ body => wfBody body
  | .overrideHoldExpiry heads => !heads.isEmpty && heads.all wfHead && decide heads.Nodup
  | .lampTest _ body => wfBody body
  | .endLampTest _ body => wfBody body
  | .getLampTest _ body => wfBody body
  | .lampTestWindowExpiry => true
  | .clearFault _ body => wfBody body
  | .getLamps _ body => wfBody body
  | .getFaults _ body => wfBody body
  | .freeze _ body => wfBody body
  | .fixSignature _ body => wfBody body
  | .unfix _ body => wfBody body
  | .unlearn _ body => wfBody body
  | .getSignatures _ body => wfBody body
  | .getLearning _ body => wfBody body
  | .gantryAnswer _ octets => isGoodAnswer octets
  | .gantryBadAnswer _ octets brk => if brk then isOpenAnswer octets else isFrame octets
  | .gantryStrayFrame _ octets => isFrame octets
  | .gantryGapTimeout _ octets => isOpenAnswer octets
  | .pollTimeout _ => true
  | .gantryTransmitEnd _ => true
  | .reprobeTimerExpiry station => wfStation station
  | .restoreStation _ body => wfBody body
  | .getRing _ body => wfBody body
  | .halfPeriodExpiry => true
  | .flashSyncEdge _ => true
  | .lossTimerExpiry => true
  | .getFlash _ body => wfBody body
  | .secondTimerExpiry => true
  | .setClock _ body => wfBody body
  | .getClock _ body => wfBody body
  | .setSchedule _ body => wfBody body
  | .getSchedule _ body => wfBody body
  | .ackAttention _ body => wfBody body
  | .setNoticeMask _ body => wfBody body
  | .getAttention _ body => wfBody body
  | .getLink _ body => wfBody body
  | .powerFailure => true

end Sys2Proof
end

