-- ==== Sys2Proof/Certificates/Slice0/Obligations.lean ====
section
/-! DEFINITION. The statements for the provers. Each says what a rule of spec/ says; OBLIGATIONS.json gives their tiers and
the rules they cite. The words `takes`, `replies`, `Replied` and the `Keeps...` parts are those of Sys2Proof/Safety.lean. -/

open Sys2Proof Sys2Proof.Machine

/-! ### Steps -/

/-- A step at a state whose queue has a command in front is that command's effect on the state with the queue's rest. -/
def Obligations.StepRunsFront : Prop :=
  ∀ (s : State) (c : Instr) (rest : List Instr), s.pending = c :: rest → step s = exec c { s with pending := rest }

/-- On an empty queue the part acts by itself (the model's choice, log entries 3, 4 and 23): an unpowered or held part does
nothing; a powered one takes the command that waits in the oldest slot (R184), else a millisecond passes. Then every
running timer falls by 1 ms, none below 0, and nothing else changes; and of the second timer, the lane timers in lane order,
the override holds, the lamp-test window, the silence timer, the half-period timer, the loss timer, the answer timeouts
west and east, and the reprobe timers in station order, each that stands at 0 when its turn comes expires in the same
step. -/
def Obligations.EmptyQueueSteps : Prop :=
  ∀ s : State,
    (s.pending = [] →
      (s.live = false → step s = .next s) ∧
      (∀ f rest, s.live = true → s.host.slots = f :: rest → s.host.processor = .ready → s.host.replies.length < 4 →
        step s = exec (rowOf f) s) ∧
      (s.live = true → (s.host.slots = [] ∨ s.host.processor ≠ .ready ∨ 4 ≤ s.host.replies.length) →
        step s = runDue dueRows s.tick)) ∧
    (s.TablesCanonical →
      s.tick = { s with
        engine.lanes := s.tick.engine.lanes
        resolver.overrides := s.resolver.overrides.map fun o => { o with hold := o.hold - 1 }
        resolver.lampTest := s.resolver.lampTest.map fun x => { x with window := x.window - 1 }
        link.stations := s.tick.link.stations
        link.west.answerTimer := s.link.west.answerTimer.map (· - 1)
        link.east.answerTimer := s.link.east.answerTimer.map (· - 1)
        time.halfTimer := s.time.halfTimer.map (· - 1)
        time.lossTimer := s.time.lossTimer.map (· - 1)
        time.secondTimer := s.time.secondTimer.map (· - 1)
        host.silence := s.host.silence.map (· - 1) } ∧
      (∀ l, s.tick.lane l = { s.lane l with timer := (s.lane l).timer.map (· - 1) }) ∧
      ∀ k, s.tick.station k = { s.station k with reprobe := (s.station k).reprobe.map (· - 1) }) ∧
    (dueRows.map fun due => due s) =
      [if s.time.secondTimer = some 0 ∧ s.time.clock.isSome = true then some Instr.secondTimerExpiry else none] ++
      ((List.range 6).map fun l =>
        if l < s.l ∧ (s.lane l).timer = some 0 then
          match (s.lane l).phase with
          | .closing _ _ _ _ => some (.closingStepExpiry l)
          | .opening _ _ _ _ => some (.openingStepExpiry l)
          | .clearance _ _ false _ => some (.clearanceTimerExpiry l)
          | .clearance _ _ true _ => some (.confirmWindowExpiry l)
          | .run _ => none
          | .shut => none
        else none) ++
      [if (s.resolver.overrides.filter fun o => o.hold == 0) = [] then none
        else some (.overrideHoldExpiry ((s.resolver.overrides.filter fun o => o.hold == 0).map (·.head))),
        if s.resolver.lampTest.any (fun x => x.window == 0) = true then some .lampTestWindowExpiry else none,
        if s.host.silence = some 0 then some .silenceTimeout else none,
        if s.time.halfTimer = some 0 then some .halfPeriodExpiry else none,
        if s.time.lossTimer = some 0 ∧ s.time.line = .following then some .lossTimerExpiry else none,
        if s.link.west.answerTimer = some 0 ∧ s.link.west.exchange.isSome = true then some (.pollTimeout .west) else none,
        if s.link.east.answerTimer = some 0 ∧ s.link.east.exchange.isSome = true then some (.pollTimeout .east)
        else none] ++
      ((List.range 16).map fun k =>
        if k < s.n ∧ (s.station k).state = .rerouted ∧ (s.station k).reprobe = some 0 ∧
            k ∉ (s.poller (homeEnd s.n k)).due ∧ (s.poller (homeEnd s.n k)).committed ≠ some ⟨k, true⟩ ∧
            (s.poller (homeEnd s.n k)).exchange ≠ some ⟨k, true⟩ then some (.reprobeTimerExpiry k)
        else none) ∧
    (runDue [] s = .next s ∧ ∀ due rest,
      (due s = none → runDue (due :: rest) s = runDue rest s) ∧
      ∀ c t, due s = some c → exec c s = .next t → runDue (due :: rest) s = runDue rest t)

/-- No command stops the part: every step answers a next state, and so does every command in every state. A row that the state
rules out leaves the state as it is (the model's choice, log entry 2), and a step on an empty queue is what log entry 3 makes
it (the model's choice too). -/
def Obligations.PartNeverStops : Prop :=
  ∀ s : State, (∃ t, step s = .next t) ∧ ∀ c : Instr, ∃ t, exec c s = .next t

/-! ### Reset, the supply and the start-up sequence -/

/-- The part as delivered (log entry 1) keeps every law of `State.Good`, its timers are legal, and ALERT follows its flags. -/
def Obligations.ResetIsGood : Prop := State.reset.Good ∧ State.reset.TimersLegal ∧ State.reset.AlertFollows

/-- POWER-UP with RESET_N high and the rise of RESET_N on a powered part run the start-up sequence of R16 with their causes;
power that comes up on a part whose regions are both invalid leaves the state `State.reset` (log entry 1). -/
def Obligations.StartUpSequence : Prop :=
  ∀ s : State,
    (s.power.resetN = true → ∃ t, exec .powerUp s = .next t ∧ s.StartedFrom t .powerUp ∧ t.live = true) ∧
    (s.power.resetN = true → s.config.nvConfig = none → s.config.nvSig = none →
      exec .powerUp s = .next { State.reset with pending := s.pending }) ∧
    (s.power.on = true → s.power.resetN = false →
      ∃ t, exec .resetNRise s = .next t ∧ s.StartedFrom t s.power.heldCause ∧ t.live = true)

/-- RESET_N low, and a lost supply: the attention flags are cleared and ALERT is deasserted, nothing is sent or received,
FLASH_SYNC is not driven, exchanges are abandoned, and a store write in progress stops and leaves its region invalid, the
other region unaffected (R17). Power that comes up while RESET_N is low waits with the cause POWER_UP (R16). -/
def Obligations.HeldInReset : Prop :=
  ∀ s : State,
    (s.live = true → ∃ t, exec .resetNFall s = .next t ∧ s.Stopped t ∧ t.power = ⟨true, false, .resetPin⟩) ∧
    (∃ t, exec .powerFailure s = .next t ∧ s.Stopped t ∧ t.power.on = false ∧ t.power.resetN = s.power.resetN) ∧
    (s.power.resetN = false →
      ∃ t, exec .powerUp s = .next t ∧ s.Stopped t ∧ t.power = ⟨true, false, .powerUp⟩)

/-! ### What every step keeps -/

/-- Between events the part is settled: every step from a good state of a powered part leaves the head table that its
state calls for, the active flags that its conditions call for, nothing for the pollers and the transmitter to choose, and
ALERT at its level (R81, R153, R186, R190, R193). -/
def Obligations.SettledKept : Prop := ∀ s t : State, s.Good → step s = .next t → t.SettledWhileLive

/-- At most one lane holds the sweep, lanes outside the section stay at their reset values, a lane carries its own task, queued
tasks are of lanes of the section, and in STANDBY every lane is SHUT and the queue and the override table are empty. -/
def Obligations.LanesLegalKept : Prop := ∀ s t : State, s.Good → step s = .next t → t.LanesLegal

/-- After every step the capacities of the slots, the replies, the changeover queue, the override table and the counters hold,
and every table keeps its canonical form, so that equal tables are equal data. -/
def Obligations.CapacitiesAndTablesKept : Prop :=
  ∀ s t : State, s.Good → step s = .next t → t.WithinCapacity ∧ t.TablesCanonical

/-- The configuration in force, stored and being written stays in the ranges the rules give, and a RUNNING clock holds a time
of week. -/
def Obligations.ConfigurationKept : Prop := ∀ s t : State, s.Good → step s = .next t → t.ConfigLegal ∧ t.ClockLegal

/-- After every step: every LEARNED or FIXED signature value lies in 1..1023; fail counts fit the string states, an OK
string has passed a proving since it last became UNPROVEN and an UNPROVEN one has yet to (the history of log entry 33), and an
accumulator of the section never holds more samples than the depth; miss counts stay within 3, the reprobe timer is present
in REROUTED alone, and a station of the section that is ONLINE is polled from its home end and one REROUTED from the other
(R102, R109, R115, R129, R151, R156). -/
def Obligations.RecordsLegalKept : Prop :=
  ∀ s t : State, s.Good → step s = .next t → t.SignaturesInRange ∧ t.StringsLegal ∧ t.StationsLegal

/-- After every step no timer stands at 0 and none runs longer than it can be started for: each override of the table has a
remaining hold above zero and within 14,400 s (R88), the window of an active lamp test lies above zero and within 300 s
(R96), and so for the timers of lanes, phase, loss, clock, silence and answers; a reprobe timer lies within 30 s (it may
read 0 by log entry 14). That an idle step takes the expiries of its millisecond in the same step is log entry 3. -/
def Obligations.TimersLegalKept : Prop :=
  ∀ s t : State, s.Good → s.TimersLegal → step s = .next t → t.TimersLegal

/-- ALERT is asserted exactly when a CRITICAL kind is active or latched, and every step from a state where that holds leaves a
state where it holds. -/
def Obligations.AlertKept : Prop := ∀ s t : State, s.AlertFollows → step s = .next t → t.AlertFollows

/-! ### Aspect resolution -/

/-- Over any lane no head of face A and head of face B are both resolved OPEN; and a head of the section resolved OPEN faces
the lane's direction, the lane being in RUN, CLOSING or OPENING, or, in STANDBY, is named by the active lamp test. A head
is resolved OPEN only where its effective demand is OPEN, which in RUN needs a lane demand OPEN (R75). -/
def Obligations.NeverBothOpen : Prop :=
  ∀ s : State, s.Settled →
    (∀ j k lane, ¬(s.resolved ⟨j, lane, .a⟩ = .opn ∧ s.resolved ⟨k, lane, .b⟩ = .opn)) ∧
    (∀ h, s.hasHead h = true → s.resolved h = .opn → s.config.mode = .run →
      match (s.lane h.lane).phase with
      | .run d => h.face = d
      | .closing d _ _ _ => h.face = d
      | .opening d _ _ _ => h.face = d
      | .clearance _ _ _ _ => False
      | .shut => False) ∧
    (∀ h, s.hasHead h = true → s.resolved h = .opn → s.config.mode = .standby →
      ∃ w, s.resolver.lampTest = some ⟨h.station, h.face, .opn, w⟩) ∧
    ∀ h r, s.headRec h = some r → r.resolved = .opn →
      r.effective = .opn ∧ (s.config.mode = .run → r.laneDemand = .opn)

/-- Every head of the section is closure-lost exactly when its effective demand is not OPEN and its resolved aspect is DARK; an
upstream neighbour (positions count from the entry: face A by rising station numbers, face B by falling ones) carries a
cascade demand exactly while its downstream head is closure-lost; and the entry head of a lane
and face is closure-lost exactly when the pair is in the entry-closure set, while which ENTRY_CLOSURE_LOST is active
(R76, R77, R78, R79). -/
def Obligations.CascadeLaw : Prop :=
  (∀ n k, k < n → positionOf n .a k = k ∧ positionOf n .b k = n - 1 - k) ∧
  ∀ s : State, s.Settled → ∀ h, s.hasHead h = true →
    ∃ r, s.headRec h = some r ∧
      (r.closureLost = true ↔ r.effective ≠ .opn ∧ r.resolved = .dark) ∧
      (∀ u v, s.hasHead u = true → u.lane = h.lane → u.face = h.face → s.headRec u = some v →
        positionOf s.n u.face u.station + 1 = positionOf s.n h.face h.station → v.cascade = r.closureLost) ∧
      (positionOf s.n h.face h.station + 1 = s.n → r.cascade = false) ∧
      (positionOf s.n h.face h.station = 0 →
        (r.closureLost = true ↔ (h.lane, h.face) ∈ s.entryClosures) ∧
          (r.closureLost = true → hasFlag s.attn.active .entryClosureLost = true))

/-- The record of every head of the section (R66): its lane demand follows from the lane's state, direction and front (R22);
its override demand is that of the head's entry (R68); its effective demand is in RUN the most restrictive of its demands,
two diagonals together giving SHUT, and in STANDBY the lamp-test aspect or SHUT (R70, R71); an aspect is FAILED on a head that
is LOST, CUT or out of NORMAL and where both its strings are in FAULT, DEGRADED where one is (R72); the resolved aspect is the
effective demand where that can be shown, else SHUT for a diagonal or SLOW where SHUT can be shown, else DARK (R74). -/
def Obligations.ResolvedAspects : Prop :=
  ∀ (s : State) (h : HeadRef) (r : HeadRec), s.Settled → s.hasHead h = true → s.headRec h = some r →
    (let pos := positionOf s.n h.face h.station
     let demands : List Aspect := r.laneDemand :: ((if r.cascade then [Aspect.shut] else []) ++ r.override.toList)
     let down : Prop := (s.station h.station).state = .lost ∨ (s.station h.station).state = .cut ∨
      (s.proving h).condition ≠ .normal
     let faulty (a : Aspect) (i : Nat) : Prop := (s.string (stringKey h (stringIndex a i))).state = .fault
     (r.laneDemand = match (s.lane h.lane).phase with
      | .run d => if h.face = d then .opn else .shut
      | .closing d front merge _ =>
        if h.face ≠ d ∨ pos < front then .shut else if pos = front then merge else .opn
      | .clearance _ _ _ _ => .shut
      | .shut => .shut
      | .opening d front _ _ => if h.face = d ∧ front ≤ pos then .opn else .shut) ∧
     (r.override = none ↔ ∀ o ∈ s.resolver.overrides, o.head ≠ h) ∧
     (∀ a, r.override = some a → ∃ o ∈ s.resolver.overrides, o.head = h ∧ o.aspect = a) ∧
     (s.config.mode = .standby → r.effective = match s.resolver.lampTest with
      | some x => if x.station = h.station ∧ x.face = h.face then x.aspect else .shut
      | none => .shut) ∧
     (s.config.mode = .run →
      (.shut ∈ demands → r.effective = .shut) ∧
      (.divertL ∈ demands → .divertR ∈ demands → r.effective = .shut) ∧
      (∀ a, (a = .divertL ∨ a = .divertR) → a ∈ demands → (∀ b ∈ demands, b = a ∨ b = .slow ∨ b = .opn) →
        r.effective = a) ∧
      (.slow ∈ demands → (∀ b ∈ demands, b = .slow ∨ b = .opn) → r.effective = .slow) ∧
      ((∀ b ∈ demands, b = .opn) → r.effective = .opn)) ∧
     (∀ a, a ≠ .dark →
      ((down ∨ (faulty a 1 ∧ faulty a 2)) → r.availOf a = .failed) ∧
      (¬down → (faulty a 1 ↔ ¬faulty a 2) → r.availOf a = .degraded) ∧
      (¬down → ¬faulty a 1 → ¬faulty a 2 → r.availOf a = .available)) ∧
     (r.availOf r.effective ≠ .failed → r.resolved = r.effective) ∧
     (r.availOf r.effective = .failed →
      ((r.effective = .divertL ∨ r.effective = .divertR ∨ r.effective = .slow) → r.availOf .shut ≠ .failed →
        r.resolved = .shut) ∧
      ((r.effective = .shut ∨ r.effective = .opn ∨ r.availOf .shut = .failed) → r.resolved = .dark)))

/-! ### Frames -/

/-- The frames of both links are read back. For every well-formed command row that a host frame carries, the octets of its
frame are read back as that frame, good, and its KIND names the row (R181, R198). For every contents a driver can send, the
octets of its SAMPLE frame are received whole as an answer, pass the tests of R149 for its station and the lanes of its
records, and are read back as the contents (R145, R149, R199, R200). -/
def Obligations.FramesReadBack : Prop :=
  (∀ (i : Instr) (f : HostFrame), i.wf = true → frameOf i = some f →
    hostReads f.octets = (.hunting, [.good f]) ∧ rowOf f = i) ∧
  ∀ (k lanes : Nat) (f : SampleFrame), k < 16 → 1 ≤ lanes → lanes ≤ 6 → f.records.length = 2 * lanes →
    (∀ r ∈ f.records, r.shown < 256 ∧ r.dim < 256 ∧ r.phase < 256 ∧ r.lit1 ≤ 1023 ∧ r.lit2 ≤ 1023 ∧
      r.leakOpen ≤ 1023 ∧ r.leakOther ≤ 1023) →
    ∃ got, gantryReads .hunting (sampleFrame k f).octets = (.hunting, [.whole true got]) ∧
      answerFault k lanes got = none ∧ readSample got = f

/-! ### The host link -/

/-- HOST_FRAME_RECEIVED: a good frame that arrives at a hunting receiver restarts the silence timer and ends HOST_SILENT; it
takes a free slot as the newest, and nothing else changes; with four slots occupied it is dropped with LINK_OVERRUN
(R183, R188). SILENCE_TIMEOUT: the silence timer stops, and HOST_SILENT becomes active and is raised; no other block changes
(R188). Each of the two raisings sets latched, or repeat where latched was set, and brings a notice exactly where the mask
enables its kind (R189, R192). -/
def Obligations.HostFrameReceived : Prop :=
  (∀ (s : State) (f : HostFrame), s.Good → s.live = true → s.host.rx = .hunting → f.body.length ≤ 240 →
    (s.host.slots.length < 4 →
      exec (.hostFrameReceived f.octets) s =
        .next { s with
          host.slots := s.host.slots ++ [f]
          host.silence := some (s.config.records.tunnel.silence * 1000)
          attn.active := putFlag s.attn.active .hostSilent false }) ∧
    (s.host.slots.length = 4 →
      ∃ t, exec (.hostFrameReceived f.octets) s = .next t ∧ t.host.slots = s.host.slots ∧
        t.host.silence = some (s.config.records.tunnel.silence * 1000) ∧
        hasFlag t.attn.active .hostSilent = false ∧
        t.host.overruns = min 65535 (s.host.overruns + 1) ∧ s.Raised t .linkOverrun ∧
        t.config = s.config ∧ t.engine = s.engine ∧ t.resolver = s.resolver ∧ t.lamps = s.lamps ∧ t.sigs = s.sigs ∧
        t.link = s.link ∧ t.time = s.time)) ∧
  ∀ s : State, s.Good → s.live = true → s.host.silence.isSome = true →
    ∃ t, exec .silenceTimeout s = .next t ∧ t.host.silence = none ∧ hasFlag t.attn.active .hostSilent = true ∧
      s.Raised t .hostSilent ∧ t.host.slots = s.host.slots ∧
      t.config = s.config ∧ t.engine = s.engine ∧ t.resolver = s.resolver ∧ t.lamps = s.lamps ∧ t.sigs = s.sigs ∧
      t.link = s.link ∧ t.time = s.time

/-- HOST_FRAME_DROPPED and HOST_GAP_TIMEOUT: a frame dropped for its LEN, its CRC, a break or a gap raises the counter of its
fault, which stays at 65,535, and LINK_ERROR; it takes no slot, gets no reply and does not restart the silence timer, and
the receiver hunts again; what is being sent stays, and an IDLE transmitter begins nothing but a notice. The raising sets
latched, or repeat where latched was set, and brings a notice exactly where the mask enables LINK_ERROR (R182, R189, R192). -/
def Obligations.HostFrameDropped : Prop :=
  ∀ (s : State) (os : List Octet), s.Good → s.live = true → s.host.rx = .hunting →
    (∀ brk fault, (if brk then isOpenFrame os = true ∧ fault = HostFault.brk
        else hostReads os = (.hunting, [.dropped fault]) ∧ (fault = .length ∨ fault = .crc)) →
      ∃ t, exec (.hostFrameDropped os brk) s = .next t ∧ t.host.rx = .hunting ∧ t.host.slots = s.host.slots ∧
        t.host.silence = s.host.silence ∧ t.host.overruns = s.host.overruns ∧ s.Raised t .linkError ∧
        t.host.crcErrors = (if fault = .crc then min 65535 (s.host.crcErrors + 1) else s.host.crcErrors) ∧
        t.host.lengthErrors = (if fault = .length then min 65535 (s.host.lengthErrors + 1) else s.host.lengthErrors) ∧
        t.host.breakErrors = (if fault = .brk then min 65535 (s.host.breakErrors + 1) else s.host.breakErrors) ∧
        t.host.gapErrors = s.host.gapErrors ∧
        t.config = s.config ∧ t.engine = s.engine ∧ t.resolver = s.resolver ∧ t.lamps = s.lamps ∧ t.sigs = s.sigs ∧
        t.link = s.link ∧ t.time = s.time) ∧
    (isOpenFrame os = true →
      ∃ t, exec (.hostGapTimeout os) s = .next t ∧ t.host.rx = .hunting ∧ t.host.slots = s.host.slots ∧
        t.host.silence = s.host.silence ∧ t.host.overruns = s.host.overruns ∧ s.Raised t .linkError ∧
        t.host.gapErrors = min 65535 (s.host.gapErrors + 1) ∧
        t.host.crcErrors = s.host.crcErrors ∧ t.host.lengthErrors = s.host.lengthErrors ∧
        t.host.breakErrors = s.host.breakErrors ∧
        t.config = s.config ∧ t.engine = s.engine ∧ t.resolver = s.resolver ∧ t.lamps = s.lamps ∧ t.sigs = s.sigs ∧
        t.link = s.link ∧ t.time = s.time)

/-- HOST_TRANSMIT_END: the transmitter sends the oldest queued reply, else a notice that is pending while a kind is latched,
whose tag is the notice count and whose body gives ALERT, the number of latched kinds and, for each in ascending index, its
index, repeat flag and active flag (R199), else it is IDLE; a notice that has been sent advances the notice count; after the
RESTART reply the start-up sequence runs with cause RESTART (R19, R186, R187). -/
def Obligations.HostTransmitEnd : Prop :=
  ∀ (s : State) (f : HostFrame), s.Good → s.live = true → s.host.tx = some f →
    (s.sendsRestartReply f = true → ∃ t, exec .hostTransmitEnd s = .next t ∧ s.StartedFrom t .restart) ∧
    (s.sendsRestartReply f = false →
      ∃ t, exec .hostTransmitEnd s = .next t ∧ t = { s with host := t.host } ∧
        t.host =
          { s.host with
            tx := t.host.tx, replies := t.host.replies, noticePending := t.host.noticePending
            noticeCount := if f.kind = 0 then s.host.noticeCount + 1 else s.host.noticeCount } ∧
        (∀ r rest, s.host.replies = r :: rest →
          t.host.tx = some r ∧ t.host.replies = rest ∧ t.host.noticePending = s.host.noticePending) ∧
        (s.host.replies = [] → s.host.noticePending = true → s.attn.latched ≠ 0 →
          (let latched := (List.range 22).filter fun i => s.attn.latched.getLsbD i
           t.host.tx = some ⟨0, t.host.noticeCount,
            [if s.attn.alert = true then 1 else 0, octet latched.length] ++ latched.flatMap fun i =>
              [octet i, if s.attn.rep.getLsbD i = true then 1 else 0, if s.attn.active.getLsbD i = true then 1 else 0]⟩ ∧
            t.host.replies = [] ∧ t.host.noticePending = false)) ∧
        (s.host.replies = [] → (s.host.noticePending = false ∨ s.attn.latched = 0) →
          t.host.tx = none ∧ t.host.replies = [] ∧ t.host.noticePending = false))

/-! ### The checks that all commands share -/

/-- A command of a KIND the part does not know is answered by the port with BAD_KIND, with reply KIND 128 more than its own,
or 255 where that is above 255. Every command whose body does not have the length of its KIND is refused with BAD_LENGTH and
that length; every command of the right length in a mode that does not accept its KIND is refused with WRONG_MODE and the
present mode. None of these has any other effect (R185, R196, R197, R198). -/
def Obligations.KindLengthAndModeChecked : Prop :=
  (∀ (s : State) (f : HostFrame), s.takes f → (∀ row ∈ kindTable, f.kind.toNat ≠ row.1) →
    exec (.unknownKind f.kind f.tag f.body) s = s.replies f 16 [f.kind, 0] ∧
      replyKind f.kind = if f.kind.toNat < 128 then BitVec.ofNat 8 (f.kind.toNat + 128) else 255#8) ∧
  ∀ (s : State) (i : Instr) (f : HostFrame) (row : Nat × Nat × Modes), i.wf = true → frameOf i = some f → s.takes f →
    row ∈ kindTable → f.kind.toNat = row.1 →
    (f.body.length ≠ row.2.1 → exec i s = s.replies f 17 [octet row.2.1, 0]) ∧
    (f.body.length = row.2.1 → row.2.2.accept s.config.mode = false →
      exec i s = s.replies f 19 [if s.config.mode = .run then 1 else 0, 0])

/-- Every command whose body begins with a lane outside the section, or with a station outside it, is refused with BAD_FIELD at
offset 0 and has no other effect; on an unconfigured part that is every one of them. A command of one head whose lane or
face is none of the section is refused with BAD_FIELD at the head's first octet (the model's choice, log entry 7), and
FIX-SIGNATURE and UNFIX name the first field of the string address that fails (R1, R135, R136, R196, R197). -/
def Obligations.AddressesChecked : Prop :=
  ∀ (s : State) (i : Instr) (f : HostFrame) (row : Nat × Nat × Modes), i.wf = true → frameOf i = some f → s.takes f →
    row ∈ kindTable → f.kind.toNat = row.1 → f.body.length = row.2.1 → row.2.2.accept s.config.mode = true →
    (row.1 ∈ laneKinds → s.l ≤ oct f.body 0 → exec i s = s.replies f 18 [0, 0]) ∧
    (row.1 ∈ stationKinds → s.n ≤ oct f.body 0 → exec i s = s.replies f 18 [0, 0]) ∧
    (row.1 ∈ [34, 35, 41, 48] → (s.l ≤ oct f.body 1 ∨ 2 ≤ oct f.body 2) → exec i s = s.replies f 18 [0, 0]) ∧
    (row.1 ∈ [45, 46] → oct f.body 0 < s.n → ∀ offset,
      firstBad [(decide (oct f.body 1 < s.l), 1), (decide (oct f.body 2 < 2), 2), (decide (oct f.body 3 < 5), 3),
        (decide (1 ≤ oct f.body 4 ∧ oct f.body 4 ≤ 2), 4)] = some offset →
      exec i s = s.replies f 18 [octet offset, 0])

/-! ### Reading state -/

/-- The reads of configuration, engine, resolver and Time Base, in either mode; none changes anything. GET-TUNNEL, GET-PROVING,
GET-DUTY, GET-DIM and GET-MODE return their records as they stand; GET-LANE and GET-STATION the record of a lane or station
of the section, the lane status behind the first, or NOT_FOUND where no record has been written (R10, R14, R47). GET-QUEUE
returns the active task with its lane's state, the tasks held in CLEARANCE and the queue, oldest first; GET-PLAN a plan's
targets; GET-HEADS the head records of a station, each with its displayed aspect; GET-CLOSURES the entry-closure set and the
heads that are closure-lost, failed and under cascade; GET-OVERRIDES the override table; GET-LAMP-TEST the lamp test and its
last end (R59, R60, R86, R87, R95, R101). GET-FLASH returns the flash state and GET-CLOCK the clock (R173, R176). The layouts
R199 leaves open are those of log entries 9, 10 and 31. -/
def Obligations.ConfigEngineAndTimeReads : Prop :=
  ∀ s : State,
    (let t := s.config.records.tunnel
     s.answers .getTunnel 2 [] 0
      ([octet t.n, octet t.l] ++ be16 t.stepTime ++ be16 t.clearance ++ be16 t.confirm ++ be16 t.lampWindow ++
        be16 t.silence ++ flagOctets t.autoSchedule ++ flagOctets t.autoStart ++ be16 t.halfPeriod ++
        [if t.role = .master then 0#8 else 1#8] ++ t.dims.map octet ++ flagOctets t.freeze ++ flagOctets t.written)) ∧
    (let p := s.config.records.proving
     s.answers .getProving 8 [] 0
      ([octet p.depth, octet p.threshold, octet p.tolerance] ++ be16 p.floor ++ be16 p.spread ++ be16 p.dark ++
        be16 p.learnMin ++ be16 p.learnMax)) ∧
    s.answers .getDuty 10 [] 0 (s.config.records.duties.flatMap be16) ∧
    s.answers .getDim 12 [] 0 (s.config.dims.map octet) ∧
    s.answers .getMode 15 [] 0
      ([if s.config.mode = .run then 1#8 else 0#8] ++ flagOctets s.config.records.tunnel.written ++
        flagOctets s.config.configValid ++ flagOctets s.config.sigValid ++ [octet s.config.resetCause.code] ++
        optional (fun f => [octet f.detail.1, octet f.detail.2]) s.config.startRefusal) ∧
    (∀ lane : Octet, lane.toNat < s.l →
      match s.laneCfg lane.toNat with
      | none => s.answers .getLane 4 [lane] 22 [0, 0]
      | some c =>
        s.answers .getLane 4 [lane] 0
          ([octet c.kind.code, octet c.merge.code, octet c.clearance.code] ++ laneStatusOctets (s.lane lane.toNat))) ∧
    (∀ k : Octet, k.toNat < s.n →
      match s.stationCfg k.toNat with
      | none => s.answers .getStation 6 [k] 22 [0, 0]
      | some c => s.answers .getStation 6 [k] 0 ([octet c.zone] ++ flagOctets c.learn)) ∧
    s.answers .getQueue 27 [] 0
      (optional (fun t => taskOctets t ++ [octet (s.lane t.lane).phase.code]) s.activeTask ++
        counted taskOctets s.clearanceTasks ++ counted placedTask s.engine.queue.zipIdx) ∧
    (∀ id : Octet, 1 ≤ id.toNat → id.toNat ≤ 8 →
      s.answers .getPlan 29 [id] 0 ((s.engine.plans.getD (id.toNat - 1) keepPlan).map fun t => octet t.code)) ∧
    (∀ id : Octet, id.toNat = 0 ∨ 8 < id.toNat → s.answers .getPlan 29 [id] 18 [0, 0]) ∧
    (∀ k : Octet, k.toNat < s.n →
      s.answers .getHeads 32 [k] 0
        (counted (fun p => headRecOctets p.1 p.2)
          ((stationHeads s.l k.toNat).filterMap fun h => (s.headRec h).map fun r => (r, s.displayed h)))) ∧
    s.answers .getClosures 33 [] 0
      (cutBody
        [.list [octet s.entryClosures.length] (s.entryClosures.map fun p => [octet p.1, octet p.2.code]),
          indexList (s.indicesWhere (·.closureLost)), indexList (s.indicesWhere HeadRec.failed),
          .fields [octet (s.indicesWhere (·.cascade)).length]]) ∧
    s.answers .getOverrides 36 [] 0
      (cutBody
        [.list [octet s.resolver.overrides.length]
          (s.resolver.overrides.map fun o =>
            headOctets o.head ++ [octet o.aspect.code] ++ be16 ((o.hold + 999) / 1000) ++ stampOctets o.setTime)]) ∧
    s.answers .getLampTest 39 [] 0
      (optional
          (fun t : LampTest =>
            [octet t.station, octet t.face.code, octet t.aspect.code] ++ be16 ((t.window + 999) / 1000))
          s.resolver.lampTest ++
        optional (fun e : LampEnd => [octet e.station, octet e.face.code, octet e.aspect.code, octet e.cause.code])
          s.resolver.lampLast) ∧
    s.answers .getFlash 56 [] 0
      ([if s.config.records.tunnel.role = .master then 0#8 else 1#8] ++ be16 s.config.records.tunnel.halfPeriod ++
        flagOctets s.time.phase ++ [octet s.time.line.code] ++ be16 (s.time.halfTimer.getD 0) ++
        optional be16 s.time.lossTimer) ∧
    (∀ t, s.time.clock = some t →
      s.answers .getClock 58 [] 0 [1, octet t.weekday, octet t.hour, octet t.minute, octet t.second]) ∧
    (s.time.clock = none → s.answers .getClock 58 [] 0 [0, 0, 0, 0, 0])

/-- GET-LAMPS, GET-FAULTS, GET-SIGNATURES, GET-LEARNING, GET-RING, GET-SCHEDULE and GET-ATTENTION read the Lamp Proving Unit,
the Signature Table, the gantry link, the schedule and the attention flags in either mode and change nothing; GET-LINK
reads the Host Link Port and sets its five counters to 0 (R127, R128, R142, R165, R177, R194, R195). The layouts R199 leaves
open, the west end before the east one in GET-RING among them, are those of log entries 9, 10, 21 and 31. -/
def Obligations.LampAndLinkReads : Prop :=
  ∀ s : State,
    (∀ k l f : Octet, k.toNat < s.n → l.toNat < s.l → f.toNat < 2 →
      (let h : HeadRef := ⟨k.toNat, l.toNat, if f.toNat = 0 then .a else .b⟩
       s.answers .getLamps 41 [k, l, f] 0
          ([octet (s.proving h).condition.code, octet (s.proving h).mismatches, octet (s.proving h).openLeaks,
              octet (s.proving h).otherLeaks] ++
            (List.range 10).flatMap fun i => stringRecOctets (s.string (stringKey h i))) ∧
        s.answers .getSignatures 48 [k, l, f] 0
          (optional identOctets (s.ident k.toNat) ++ optional changeOctets (s.lastChange k.toNat) ++
            flagOctets (s.learnEnabled k.toNat) ++
            (List.range 10).flatMap fun i => entryOctets (s.entry (stringKey h i))))) ∧
    s.answers .getFaults 42 [] 0
      (cutBody
        [.list (be16 (s.stringsIn .fault).length) ((s.stringsIn .fault).map stringOctets),
          .list [octet s.conditionItems.length] s.conditionItems,
          .list [octet s.falseOpenItems.length] s.falseOpenItems, .fields (be16 (s.stringsIn .suspect).length)]) ∧
    s.answers .getLearning 49 [] 0
      (flagOctets s.config.records.tunnel.freeze ++ flagOctets s.sigs.unsaved ++ be16 (s.classCount 0) ++
        be16 (s.classCount 1) ++ be16 (s.classCount 2) ++ optional rejectionOctets s.sigs.rejection) ∧
    s.answers .getRing 53 [] 0
      (s.endOctets .west ++ s.endOctets .east ++ counted (fun k => stationOctets (s.station k)) (List.range s.n)) ∧
    s.answers .getSchedule 60 [] 0
      (s.time.schedule.flatMap (optional scheduleOctets) ++ optional lastFiringOctets s.time.lastFiring) ∧
    s.answers .getAttention 66 [] 0
      ((List.range 22).flatMap (fun i =>
          flagOctets (s.attn.active.getLsbD i) ++ flagOctets (s.attn.latched.getLsbD i) ++
            flagOctets (s.attn.rep.getLsbD i) ++ flagOctets (s.attn.enabled.getLsbD i)) ++
        flagOctets s.attn.alert ++ flagOctets s.host.noticePending) ∧
    ∀ tag, s.takes (commandFrame 67 tag []) →
      exec (.getLink tag []) s =
        ({ s with
          host.crcErrors := 0, host.lengthErrors := 0, host.gapErrors := 0, host.breakErrors := 0,
          host.overruns := 0 } : State).replies (commandFrame 67 tag []) 0
          (be16 s.host.crcErrors ++ be16 s.host.lengthErrors ++ be16 s.host.gapErrors ++ be16 s.host.breakErrors ++
            be16 s.host.overruns ++ [octet s.host.slots.length, octet s.host.replies.length] ++
            flagOctets (hasFlag s.attn.active .hostSilent) ++ be16 (s.host.silence.getD 0) ++ [s.host.nextCount])

/-! ### Configuration -/

/-- SET-TUNNEL in STANDBY writes the whole record, its numeric fields clamped and CLAMPED reported, and the half-period cut
to a multiple of 10 ms; it sets the dim levels to the new defaults, discards the LANE and STATION records, and the lane
records, that leave the section, and FLASH_SYNC follows the role at once: driven at the level of the present phase, or
released; identities, the clock and the tables stay. With N and L kept, the accumulators of the stations of every zone whose
dim level changes are emptied, so that no accumulator sees a change of level (R108; log entry 25, for R110 does not list
it), and no other. With a lamp test active, a change of N or L is BUSY. A structural field out of range is BAD_FIELD, the
first one named (R3, R4, R21, R172). Where the event also raises a kind and the transmitter is IDLE, that the reply goes
before the notice is the model's choice, log entry 27. -/
def Obligations.SetTunnel : Prop :=
  ∀ (s : State) (b : List Octet), s.config.mode = .standby → b.length = 22 →
    (let bad := firstBad [(decide (2 ≤ oct b 0 ∧ oct b 0 ≤ 16), 0), (decide (1 ≤ oct b 1 ∧ oct b 1 ≤ 6), 1),
        (decide (oct b 12 < 2), 12), (decide (oct b 13 < 2), 13), (decide (oct b 16 < 2), 16), (decide (oct b 21 < 2), 21)]
     let record : Tunnel :=
      { written := true, n := oct b 0, l := oct b 1, stepTime := max 2 (min 120 (oct2 b 2))
        clearance := max 10 (min 1800 (oct2 b 4)), confirm := max 30 (min 3600 (oct2 b 6))
        lampWindow := max 10 (min 300 (oct2 b 8)), silence := max 2 (min 60 (oct2 b 10))
        autoSchedule := oct b 12 == 1, autoStart := oct b 13 == 1
        halfPeriod := max 250 (min 1000 (oct2 b 14)) / 10 * 10, role := if oct b 16 = 0 then .master else .follower
        dims := [min 7 (oct b 17), min 7 (oct b 18), min 7 (oct b 19), min 7 (oct b 20)], freeze := oct b 21 == 1 }
     let unclamped : Prop := record.stepTime = oct2 b 2 ∧ record.clearance = oct2 b 4 ∧ record.confirm = oct2 b 6 ∧
      record.lampWindow = oct2 b 8 ∧ record.silence = oct2 b 10 ∧ record.halfPeriod = oct2 b 14 ∧
      record.dims = [oct b 17, oct b 18, oct b 19, oct b 20]
     (∀ offset, bad = some offset → s.answers .setTunnel 1 b 18 [octet offset, 0]) ∧
     (bad = none → s.resolver.lampTest.isSome = true → ¬(oct b 0 = s.n ∧ oct b 1 = s.l) →
      s.answers .setTunnel 1 b 21 [0, 0]) ∧
     (bad = none → (s.resolver.lampTest = none ∨ (oct b 0 = s.n ∧ oct b 1 = s.l)) →
      ∀ status, (status = if unclamped then 0 else 1) →
      s.performs .setTunnel 1 b status [] fun t =>
        t.config = { s.config with records := t.config.records, dims := record.dims } ∧
        t.config.records = { s.config.records with
          tunnel := record, lanes := t.config.records.lanes, stations := t.config.records.stations } ∧
        (∀ l, t.laneCfg l = if l < oct b 1 then s.laneCfg l else none) ∧
        (∀ k, t.stationCfg k = if k < oct b 0 then s.stationCfg k else none) ∧
        (∀ l, t.lane l = if l < oct b 1 then s.lane l else LaneRec.reset) ∧
        t.engine.queue = s.engine.queue ∧ t.engine.plans = s.engine.plans ∧ t.sigs = s.sigs ∧
        t.time = { s.time with line := t.time.line, lossTimer := t.time.lossTimer } ∧
        (record.role = .master →
          t.time.line = .driving ∧ t.time.lossTimer = none ∧ t.flashSyncOut = some s.time.phase) ∧
        (record.role = .follower → t.flashSyncOut = none) ∧
        (record.role = .follower → (s.time.line = .driving ∨ s.time.line = .notDriven) →
          t.time.line = .following ∧ t.time.lossTimer = some (3 * record.halfPeriod)) ∧
        (record.role = .follower → (s.time.line = .following ∨ s.time.line = .freeRunning) →
          t.time.line = s.time.line ∧ t.time.lossTimer = s.time.lossTimer) ∧
        t.resolver.overrides = s.resolver.overrides ∧ t.resolver.lampTest = s.resolver.lampTest ∧
        t.resolver.lampLast = s.resolver.lampLast ∧ s.KeepsPort t ∧ t.attn.enabled = s.attn.enabled ∧
        (oct b 0 = s.n → oct b 1 = s.l → s.KeepsFlags t [] ∧
          t.link = s.link ∧ t.resolver = s.resolver ∧ t.lamps = { s.lamps with strings := t.lamps.strings } ∧
          ∀ key, t.string key =
            if s.stringKeyIn key = true ∧ (s.stationCfg (key / 120)).any (fun c =>
                s.config.dims.getD c.zone 0 != record.dims.getD c.zone 0) = true then
              { s.string key with acc := Acc.empty }
            else s.string key)))

/-- A SET-TUNNEL that changes N or L brings a new head set: every displayed aspect of the new section is UNKNOWN, its counts
and accumulators are empty, and the exchanges in flight are abandoned; conditions and string states stay. Where N changes,
every station of the new section starts anew on its home end, its OK and SUSPECT strings UNPROVEN and the history of all its
strings begun anew if it was LOST (log entry 33), but a CUT station stays CUT and moves to its new home end, whose miss
count is then 0. Each poller begins a new round: nothing of its walk is behind it, and the first station it polls is the
first of its list. STRING_FAULT, HEAD_FAULT, FALSE_OPEN and STATION_CUT are raised once where they become active,
ASPECT_FAILED where a head of the new table fails, and ENTRY_CLOSURE_LOST by each pair of the new entry-closure set (R2, R5,
R69, R79, R80, R124, R151, R153, R154, R164). That a frame being sent stays on the wire is log entry 13; that a station
which comes back into the section in CUT is found in CUT is log entry 32. -/
def Obligations.SetTunnelNewSection : Prop :=
  ∀ (s t : State) (b : List Octet) (tag : Octet), s.config.mode = .standby → b.length = 22 →
    s.takes (commandFrame 1 tag b) → (2 ≤ oct b 0 ∧ oct b 0 ≤ 16) → (1 ≤ oct b 1 ∧ oct b 1 ≤ 6) →
    (oct b 12 < 2 ∧ oct b 13 < 2 ∧ oct b 16 < 2 ∧ oct b 21 < 2) → s.resolver.lampTest = none →
    ¬(oct b 0 = s.n ∧ oct b 1 = s.l) → exec (.setTunnel tag b) s = .next t →
    t.n = oct b 0 ∧ t.l = oct b 1 ∧
    (∀ h, t.hasHead h = true → t.displayed h = none ∧
      t.proving h = { s.proving h with mismatches := 0, openLeaks := 0, otherLeaks := 0 } ∧
      ∀ i, i < 10 →
        (t.string (stringKey h i)).acc = Acc.empty ∧
        (t.string (stringKey h i)).last = (s.string (stringKey h i)).last ∧
        ((oct b 0 ≠ s.n ∧ (s.station h.station).state = .lost) → (t.string (stringKey h i)).proved = false) ∧
        (¬(oct b 0 ≠ s.n ∧ (s.station h.station).state = .lost) →
          (t.string (stringKey h i)).proved = (s.string (stringKey h i)).proved) ∧
        if oct b 0 ≠ s.n ∧ (s.station h.station).state = .lost ∧
            ((s.string (stringKey h i)).state = .ok ∨ (s.string (stringKey h i)).state = .suspect) then
          (t.string (stringKey h i)).state = .unproven ∧ (t.string (stringKey h i)).fails = 0
        else
          (t.string (stringKey h i)).state = (s.string (stringKey h i)).state ∧
            (t.string (stringKey h i)).fails = (s.string (stringKey h i)).fails) ∧
    (∀ k, k < t.n →
      (oct b 0 = s.n → s.KeepsStation t k) ∧
      (oct b 0 ≠ s.n → (s.station k).state ≠ .cut → t.station k = StationRec.reset (homeEnd (oct b 0) k)) ∧
      (oct b 0 ≠ s.n → (s.station k).state = .cut →
        t.station k = { s.station k with
          current := homeEnd (oct b 0) k
          missWest := if (s.station k).current = .east ∧ homeEnd (oct b 0) k = .west then 0 else (s.station k).missWest
          missEast := if (s.station k).current = .west ∧ homeEnd (oct b 0) k = .east then 0 else (s.station k).missEast })) ∧
    t.falseOpen = s.falseOpen ∧
    (∀ e, (t.poller e).answerTimer = none ∧
      (let before (j k : Nat) : Prop := match e with
        | .west => j < k
        | .east => k < j
       let serves (k : Nat) : Prop := k < t.n ∧ (t.station k).current = e
       let firstOfRound (k : Nat) : Prop := serves k ∧ ∀ j, serves j → ¬before j k
       ((s.poller e).sending.isSome = true →
        (t.poller e).sending = (s.poller e).sending ∧ (t.poller e).exchange = none ∧ (t.poller e).committed = none ∧
          (t.poller e).last = none) ∧
       ((s.poller e).sending = none → (s.poller e).phasePending = false → (∃ k, serves k) →
        (t.poller e).sending.isSome = true ∧
          ((t.poller e).exchange.isSome = true ∨ (t.poller e).committed.isSome = true)) ∧
       (∀ x, (t.poller e).exchange = some x ∨ (t.poller e).committed = some x → x.reprobe = false →
        firstOfRound x.station) ∧
       (∀ k, (t.poller e).last = some k → (t.poller e).exchange = some ⟨k, false⟩)) ∧
      (oct b 0 ≠ s.n → (t.poller e).due = [] ∧
        ∀ x, (t.poller e).exchange = some x ∨ (t.poller e).committed = some x → x.reprobe = false)) ∧
    s.FlagsFollow t [.stringFault, .headFault, .falseOpen, .stationCut] t.entryClosures
      (∃ h r, t.headRec h = some r ∧ r.availOf r.effective = .failed) ∧
    (∀ k : AttnKind, k ∈ [AttnKind.stringFault, .headFault, .falseOpen, .stationCut] →
      (let began : Prop := hasFlag t.attn.active k = true ∧ hasFlag s.attn.active k = false
       (hasFlag t.attn.latched k = true ↔ hasFlag s.attn.latched k = true ∨ began) ∧
        (hasFlag t.attn.rep k = true ↔ hasFlag s.attn.rep k = true ∨ (hasFlag s.attn.latched k = true ∧ began)))) ∧
    ∀ h, t.hasHead h = true → t.resolved h = .shut ∨ t.resolved h = .dark

/-- SET-LANE writes the record of a lane of the section in STANDBY; SET-STATION writes that of a station, empties the
accumulators of its strings where its zone changes or is its first, and makes its recorded identity blank. A code out of
range is BAD_FIELD at its place. Nothing else changes (R6, R7, R138; the unsaved flag by log entry 24). -/
def Obligations.SetLaneAndStation : Prop :=
  ∀ (s : State) (a x y z : Octet), s.config.mode = .standby →
    (a.toNat < s.l →
      (3 ≤ x.toNat → s.answers .setLane 3 [a, x, y, z] 18 [1, 0]) ∧
      (x.toNat < 3 → 2 ≤ y.toNat → s.answers .setLane 3 [a, x, y, z] 18 [2, 0]) ∧
      (x.toNat < 3 → y.toNat < 2 → 2 ≤ z.toNat → s.answers .setLane 3 [a, x, y, z] 18 [3, 0]) ∧
      (x.toNat < 3 → y.toNat < 2 → z.toNat < 2 →
        s.performs .setLane 3 [a, x, y, z] 0 [] fun t =>
          t = { s with config.records.lanes := t.config.records.lanes, host := t.host } ∧ s.KeepsPort t ∧
          ∀ l, t.laneCfg l =
            if l = a.toNat then
              some
                { kind := if x.toNat = 0 then .tidal else if x.toNat = 1 then .fixedA else .fixedB
                  merge := if y.toNat = 0 then .lower else .higher
                  clearance := if z.toNat = 0 then .timed else .confirmed }
            else s.laneCfg l)) ∧
    (a.toNat < s.n →
      (4 ≤ x.toNat → s.answers .setStation 5 [a, x, y] 18 [1, 0]) ∧
      (x.toNat < 4 → 2 ≤ y.toNat → s.answers .setStation 5 [a, x, y] 18 [2, 0]) ∧
      (x.toNat < 4 → y.toNat < 2 →
        s.performs .setStation 5 [a, x, y] 0 [] fun t =>
          t = { s with
            config.records.stations := t.config.records.stations, lamps.strings := t.lamps.strings
            sigs.idents := t.sigs.idents, sigs.unsaved := s.sigs.unsaved || (s.ident a.toNat).isSome
            host := t.host } ∧ s.KeepsPort t ∧
          (∀ k, t.stationCfg k = if k = a.toNat then some ⟨x.toNat, y.toNat == 1⟩ else s.stationCfg k) ∧
          (∀ k, t.ident k = if k = a.toNat then none else s.ident k) ∧
          ∀ key, t.string key =
            if (s.stationCfg a.toNat).map (·.zone) ≠ some x.toNat ∧ s.stringOfStation a.toNat key = true then
              { s.string key with acc := Acc.empty }
            else s.string key))

/-- SET-PROVING, SET-DUTY and SET-DIM act in either mode, their fields clamped and CLAMPED reported. A PROVING record or a
duty that changes empties every accumulator of the section, a lowered fail threshold brings SUSPECT fail counts below it (a
count that would be 0 makes the string UNPROVEN, its history begun anew by log entry 33), and a dim level that changes empties the
accumulators of its zone's stations; a write that changes nothing leaves the strings alone (R8, R9; the strings of R8's
threshold by log entry 11). -/
def Obligations.SetProvingDutyAndDim : Prop :=
  ∀ (s : State) (b : List Octet),
    (b.length = 13 →
      (let lo := max 1 (min 1023 (oct2 b 9))
       let p : Proving :=
        { depth := min 15 (oct b 0), threshold := max 1 (min 7 (oct b 1)), tolerance := max 5 (min 50 (oct b 2))
          floor := max 2 (min 50 (oct2 b 3)), spread := min 1023 (oct2 b 5), dark := max 5 (min 100 (oct2 b 7))
          learnMin := lo, learnMax := max lo (min 1023 (oct2 b 11)) }
       let raw : Proving := ⟨oct b 0, oct b 1, oct b 2, oct2 b 3, oct2 b 5, oct2 b 7, oct2 b 9, oct2 b 11⟩
       let old := s.config.records.proving
       s.performs .setProving 7 b (if p = raw then 0 else 1) [] fun t =>
        t = { s with config.records.proving := p, lamps.strings := t.lamps.strings, host := t.host } ∧ s.KeepsPort t ∧
        (p = old → t.lamps = s.lamps) ∧
        (p ≠ old → ∀ key,
          (t.string key).acc = (if s.stringKeyIn key = true then Acc.empty else (s.string key).acc) ∧
          (t.string key).last = (s.string key).last ∧
          if (s.string key).state = .suspect ∧ p.threshold < old.threshold ∧ p.threshold ≤ (s.string key).fails then
            (t.string key).fails = p.threshold - 1 ∧
              (t.string key).state = (if p.threshold = 1 then .unproven else .suspect) ∧
              (t.string key).proved = (if p.threshold = 1 then false else (s.string key).proved)
          else
            (t.string key).state = (s.string key).state ∧ (t.string key).fails = (s.string key).fails ∧
              (t.string key).proved = (s.string key).proved))) ∧
    (b.length = 16 →
      (let raw := (List.range 8).map fun i => oct2 b (2 * i)
       let d := raw.map fun x => max 20 (min 1000 x)
       s.performs .setDuty 9 b (if d = raw then 0 else 1) [] fun t =>
        t = { s with config.records.duties := d, lamps.strings := t.lamps.strings, host := t.host } ∧ s.KeepsPort t ∧
        ∀ key, t.string key =
          if d ≠ s.config.records.duties ∧ s.stringKeyIn key = true then { s.string key with acc := Acc.empty }
          else s.string key)) ∧
    ∀ z v : Octet,
      (4 ≤ z.toNat → s.answers .setDim 11 [z, v] 18 [0, 0]) ∧
      (z.toNat < 4 →
        s.performs .setDim 11 [z, v] (if v.toNat ≤ 7 then 0 else 1) [] fun t =>
          t = { s with config.dims := s.config.dims.set z.toNat (min 7 v.toNat), lamps.strings := t.lamps.strings
                       host := t.host } ∧ s.KeepsPort t ∧
          ∀ key, t.string key =
            if s.config.dims.getD z.toNat 0 ≠ min 7 v.toNat ∧ s.stringKeyIn key = true ∧
                (s.stationCfg (key / 120)).map (·.zone) = some z.toNat then
              { s.string key with acc := Acc.empty }
            else s.string key)

/-! ### Modes and the store -/

/-- START in STANDBY: where every check of R12 passes, the part enters RUN with every lane SHUT and its emergency flag
clear, last outcomes kept, the queue empty, a lamp test ended with cause START and no raising, the START refusal absent;
otherwise CONFIG_INVALID names the first record that fails, which alone is kept (R12, R21, R100). Where the event also
raises a kind and the transmitter is IDLE, that the reply goes before the notice is the model's choice, log entry 27. -/
def Obligations.Start : Prop :=
  ∀ s : State, s.config.mode = .standby →
    (let refused (f : ConfigFault) (kind index : Nat) : Prop :=
      ∀ tag, s.takes (commandFrame 13 tag []) →
        exec (.start tag []) s =
          ({ s with config.startRefusal := some f } : State).replies (commandFrame 13 tag []) 31 [octet kind, octet index]
     let wrongWay (id l : Nat) : Prop := ∃ c, s.laneCfg l = some c ∧
      ((c.kind = .fixedA ∧ s.target id l = .dir .b) ∨ (c.kind = .fixedB ∧ s.target id l = .dir .a))
     let written : Prop := s.config.records.tunnel.written = true
     let lanes : Prop := ∀ l, l < s.l → s.laneCfg l ≠ none
     let stations : Prop := ∀ k, k < s.n → s.stationCfg k ≠ none
     (¬written → refused .tunnel 1 0) ∧
     (written → ∀ l, l < s.l → s.laneCfg l = none → (∀ m, m < l → s.laneCfg m ≠ none) → refused (.lane l) 2 l) ∧
     (written → lanes → ∀ k, k < s.n → s.stationCfg k = none → (∀ j, j < k → s.stationCfg j ≠ none) →
      refused (.station k) 3 k) ∧
     (written → lanes → stations → ∀ id, 1 ≤ id → id ≤ 8 → (∃ l, l < s.l ∧ wrongWay id l) →
      (∀ j, 1 ≤ j → j < id → ∀ l, l < s.l → ¬wrongWay j l) → refused (.plan id) 4 id) ∧
     (written → lanes → stations → (∀ id, 1 ≤ id → id ≤ 8 → ∀ l, l < s.l → ¬wrongWay id l) →
      s.performs .start 13 [] 0 [] fun t =>
        t.config = { s.config with mode := .run, startRefusal := none } ∧
        (∀ l, t.lane l = { phase := .shut, timer := none, emergency := false, last := (s.lane l).last }) ∧
        t.engine.queue = [] ∧ t.engine.plans = s.engine.plans ∧ t.activeTask = none ∧
        t.resolver.lampTest = none ∧ t.resolver.overrides = [] ∧ t.resolver.displayed = s.resolver.displayed ∧
        t.resolver.lampLast = (match s.resolver.lampTest with
          | some x => some ⟨x.station, x.face, x.aspect, .start⟩
          | none => s.resolver.lampLast) ∧
        hasFlag t.attn.latched .lampTestEnded = hasFlag s.attn.latched .lampTestEnded ∧
        t.sigs = s.sigs ∧ t.time = s.time ∧ s.KeepsLamps t ∧ t.link = s.link ∧ s.KeepsPort t ∧ s.KeepsFlags t []))

/-- STOP in RUN: with every lane SHUT, the queued tasks end CANCELLED in queue order, the override table is emptied without
a raising, and the part enters STANDBY, where every head is asked for SHUT; emergency flags and other last outcomes are
kept. With some lane not SHUT it is refused with WRONG_STATE (R13, R58). Where the event also raises a kind and the
transmitter is IDLE, that the reply goes before the notice is the model's choice, log entry 27. -/
def Obligations.Stop : Prop :=
  ∀ s : State, s.config.mode = .run →
    ((∃ l, l < s.l ∧ (s.lane l).phase ≠ .shut) → s.answers .stop 14 [] 20 [0, 0]) ∧
    ((∀ l, l < s.l → (s.lane l).phase = .shut) →
      s.performs .stop 14 [] 0 [] fun t =>
        t.config = { s.config with mode := .standby } ∧ t.engine.queue = [] ∧ t.engine.plans = s.engine.plans ∧
        t.resolver.overrides = [] ∧ t.resolver.displayed = s.resolver.displayed ∧
        hasFlag t.attn.latched .overrideExpired = hasFlag s.attn.latched .overrideExpired ∧
        s.RaisedAtLeast t .taskUnsuccessful s.engine.queue.length ∧
        (∀ l, t.lane l =
          { s.lane l with
            last := match (s.engine.queue.filter fun u => u.lane == l).getLast? with
              | some u => some (s.outcomeOf u .cancelled none)
              | none => (s.lane l).last }) ∧
        (∀ h r, t.headRec h = some r → r.effective = .shut) ∧
        t.sigs = s.sigs ∧ t.time = s.time ∧ s.KeepsLamps t ∧ t.link = s.link ∧ s.KeepsPort t ∧
        s.KeepsFlags t [.taskUnsuccessful])

/-- COMMIT and SAVE-SIGNATURES begin to write their regions with the contents held now, and the processor takes no further
command: its slot stays occupied and nothing is replied yet; SAVE-SIGNATURES clears the unsaved flag. At the end of a write
the region is VALID and holds those contents and the reply is OK, or it is INVALID, STORE_FAILED is raised and replied, and
the processor is READY again; a failed signature write sets the unsaved flag. RESTART queues its OK reply and closes the
processor (R18, R19, R140). That an IDLE transmitter sends the reply of a failed write before the STORE_FAILED notice is the
model's choice, log entry 27. -/
def Obligations.StoreWritesAndRestart : Prop :=
  ∀ s : State,
    (∀ tag, s.takes (commandFrame 16 tag []) →
      exec (.commit tag []) s =
        .next { s with host.processor := .writing, config.writing := some (.config s.configImage) }) ∧
    (∀ tag, s.takes (commandFrame 17 tag []) →
      exec (.saveSignatures tag []) s =
        .next { s with
          host.processor := .writing, config.writing := some (.signature s.sigImage), sigs.unsaved := false }) ∧
    (∀ f rest i, s.Good → s.live = true → s.host.processor = .writing → s.host.slots = f :: rest →
      s.config.writing = some (.config i) →
      (let after : State := { s with host.processor := .ready, config.writing := none }
       exec (.storeWriteComplete true) s =
          ({ after with config.nvConfig := some i, config.configValid := true } : State).replies f 0 [] ∧
        exec (.storeWriteComplete false) s =
          (({ after with config.nvConfig := none, config.configValid := false } : State).raise .storeFailed).replies f 32
            [1, 0])) ∧
    (∀ f rest i, s.Good → s.live = true → s.host.processor = .writing → s.host.slots = f :: rest →
      s.config.writing = some (.signature i) →
      (let after : State := { s with host.processor := .ready, config.writing := none }
       exec (.storeWriteComplete true) s =
          ({ after with config.nvSig := some i, config.sigValid := true } : State).replies f 0 [] ∧
        exec (.storeWriteComplete false) s =
          (({ after with config.nvSig := none, config.sigValid := false, sigs.unsaved := true } : State).raise
            .storeFailed).replies f 32 [2, 0])) ∧
    ∀ tag, s.takes (commandFrame 18 tag []) →
      exec (.restart tag []) s =
        ({ s with host.processor := .closed } : State).replies (commandFrame 18 tag []) 0 []

/-! ### Lane commands -/

/-- CLOSE-LANE, OPEN-LANE and REVERSE-LANE, whether the sweep is free or held: the tasks join the newest end of the queue
with origin HOST and one entry stamp, ACCEPTED reports how many were added and how many are queued, and the scan runs; while
another sweep holds the bore nothing else changes. A task that the queue holds already is DUPLICATE, tasks that do not fit
are QUEUE_FULL (R48, R49, R51, R52, R53, R54, R56). Where the event also raises a kind and the transmitter is IDLE, that the
reply goes before the notice is the model's choice, log entry 27. -/
def Obligations.LaneTasksQueued : Prop :=
  ∀ (s : State) (lane dir : Octet), s.config.mode = .run → lane.toNat < s.l →
    (let d : Face := if dir.toNat = 0 then .a else .b
     let task (k : TaskKind) : Task := ⟨lane.toNat, k, .host, none, s.time.clock⟩
     let queues (row : Octet → List Octet → Instr) (kind : Nat) (b : List Octet) (ts : List Task) : Prop :=
      ((∀ t ∈ ts, ∀ u ∈ s.engine.queue, ¬(u.lane = t.lane ∧ u.kind.same t.kind = true)) →
        s.engine.queue.length + ts.length ≤ 8 →
        (let reply := [octet ts.length, octet (s.engine.queue.length + ts.length)]
         (s.sweepFree = false → ∀ tag, s.takes (commandFrame kind tag b) →
          exec (row tag b) s =
            ({ s with engine.queue := s.engine.queue ++ ts } : State).replies (commandFrame kind tag b) 2 reply) ∧
         s.performs row kind b 2 reply fun t =>
          s.EngineEvent t [.taskUnsuccessful] ∧
            t.engine = (({ s with engine.queue := s.engine.queue ++ ts } : State).scan).engine)) ∧
      ((∃ t ∈ ts, ∃ u ∈ s.engine.queue, u.lane = t.lane ∧ u.kind.same t.kind = true) →
        s.answers row kind b 24 [lane, 0]) ∧
      ((∀ t ∈ ts, ∀ u ∈ s.engine.queue, ¬(u.lane = t.lane ∧ u.kind.same t.kind = true)) →
        8 < s.engine.queue.length + ts.length →
        s.answers row kind b 25 [octet s.engine.queue.length, octet ts.length])
     (∀ e, s.project s.engine.queue lane.toNat = some e → queues .closeLane 20 [lane] [task .close]) ∧
     (s.project s.engine.queue lane.toNat = none → dir.toNat < 2 → s.barredDirection lane.toNat ≠ some d →
      queues .openLane 21 [lane, dir] [task (.opn d)]) ∧
     (∀ e, s.project s.engine.queue lane.toNat = some e → s.barredDirection lane.toNat = none →
      queues .reverseLane 22 [lane] [task .close, task (.opn e.other)]))

/-- The three lane commands with an empty queue and the sweep free start at once: a CLOSE takes its lane into CLOSING at
front 0 with the merge aspect of R26, leaving an OPEN of a REVERSE-LANE queued; an OPEN takes its lane into OPENING at front
N-1 and clears the emergency flag where the start check passes, else it ends FAILED with the check's reason (R25, R34, R51,
R57). Where the event also raises a kind and the transmitter is IDLE, that the reply goes before the notice is the model's
choice, log entry 27. -/
def Obligations.LaneTasksStart : Prop :=
  ∀ (s : State) (lane dir : Octet), s.config.mode = .run → lane.toNat < s.l → s.sweepFree = true →
    s.engine.queue = [] →
    (let l := lane.toNat
     let task (k : TaskKind) : Task := ⟨l, k, .host, none, s.time.clock⟩
     let closing (d : Face) : LaneRec :=
      { s.lane l with phase := .closing d 0 (s.mergeAspect l d) (task .close), timer := some s.stepMs }
     (∀ d, (s.lane l).phase = .run d →
      (s.performs .closeLane 20 [lane] 2 [1, 1] fun t => s.EngineEvent t [] ∧ s.WritesLane t l (closing d)) ∧
      (s.barredDirection l = none →
        s.performs .reverseLane 22 [lane] 2 [2, 2] fun t =>
          s.EngineEvent t [] ∧ t.lane l = closing d ∧ (∀ m, m ≠ l → t.lane m = s.lane m) ∧
            t.engine.queue = [task (.opn d.other)] ∧ t.engine.plans = s.engine.plans)) ∧
     (∀ d, (d = if dir.toNat = 0 then Face.a else Face.b) → dir.toNat < 2 → (s.lane l).phase = .shut →
      s.barredDirection l ≠ some d →
      (s.startCheck l = none →
        s.performs .openLane 21 [lane, dir] 2 [1, 1] fun t =>
          s.EngineEvent t [] ∧
          s.WritesLane t l
            { phase := .opening d (s.n - 1) false (some (task (.opn d))), timer := some s.stepMs, emergency := false
              last := (s.lane l).last }) ∧
      (∀ why, s.startCheck l = some why →
        s.performs .openLane 21 [lane, dir] 2 [1, 1] fun t =>
          s.EngineEvent t [.taskUnsuccessful] ∧ s.RaisedAtLeast t .taskUnsuccessful 1 ∧
          s.WritesLane t l { s.lane l with last := some (s.outcomeOf (task (.opn d)) .failed (some why)) })))

/-- The refusals of the three lane commands that the lane decides: on a lane that projects to SHUT, CLOSE-LANE is
NOTHING_TO_DO and REVERSE-LANE is WRONG_STATE; on one that projects to RUN, OPEN-LANE in that direction is NOTHING_TO_DO
and in the other WRONG_STATE; a direction that a FIXED lane bars is BAD_DIRECTION, and so is every REVERSE-LANE of a FIXED
lane (R43, R51, R52, R53, R54; the state WRONG_STATE names by log entry 8). -/
def Obligations.LaneTasksRefused : Prop :=
  ∀ (s : State) (lane dir : Octet), s.config.mode = .run → lane.toNat < s.l →
    (let l := lane.toNat
     let d : Face := if dir.toNat = 0 then .a else .b
     let fixed (f : Face) : Prop := ∃ c, s.laneCfg l = some c ∧ c.kind = match f with
      | .a => .fixedA
      | .b => .fixedB
     (∀ f, s.barredDirection l = some f ↔ fixed f.other) ∧
     (s.project s.engine.queue l = none → s.answers .closeLane 20 [lane] 23 [lane, 0]) ∧
     (2 ≤ dir.toNat → s.answers .openLane 21 [lane, dir] 18 [1, 0]) ∧
     (dir.toNat < 2 → fixed d.other → s.answers .openLane 21 [lane, dir] 26 [lane, 0]) ∧
     (dir.toNat < 2 → ¬fixed d.other → s.project s.engine.queue l = some d →
      s.answers .openLane 21 [lane, dir] 23 [lane, 0]) ∧
     (dir.toNat < 2 → ¬fixed d.other → s.project s.engine.queue l = some d.other →
      s.answers .openLane 21 [lane, dir] 20 [octet (s.lane l).phase.code, 0]) ∧
     ((fixed .a ∨ fixed .b) → s.answers .reverseLane 22 [lane] 26 [lane, 0]) ∧
     (¬fixed .a → ¬fixed .b → s.project s.engine.queue l = none →
      s.answers .reverseLane 22 [lane] 20 [octet (s.lane l).phase.code, 0]))

/-- What a sweep start reads. The merge aspect points toward the adjacent lane on the preferred side if that lane is in RUN
in the same direction, else to the other side if that one is, by the drivers' left and right, else it is SLOW (R26). The
opening start check gives STATION_UNAVAILABLE where a station is LOST or CUT, else SHUT_NOT_PROVEN where a head of the lane
is not resolved SHUT, does not show SHUT, or has neither string of SHUT in OK, else it passes, whatever state the other
string of a head is in (R33, R85). So it passes only where some SHUT string of every head of the lane has passed a proving
since it last became UNPROVEN, by the reset, a return from LOST or a clearing among others (R33; the history of log entry 33;
that R124, R126 and R141 ask for no more than this is log entry 28). -/
def Obligations.SweepStartRules : Prop :=
  (∀ (s : State) (lane : Nat) (d : Face) (c : LaneCfg), s.LanesLegal → s.laneCfg lane = some c →
    (let below : Prop := 0 < lane ∧ lane - 1 < s.l ∧ (s.lane (lane - 1)).phase = .run d
     let above : Prop := lane + 1 < s.l ∧ (s.lane (lane + 1)).phase = .run d
     (below → (c.merge = .lower ∨ ¬above) → s.mergeAspect lane d = if d = .a then .divertL else .divertR) ∧
     (above → (c.merge = .higher ∨ ¬below) → s.mergeAspect lane d = if d = .a then .divertR else .divertL) ∧
     (¬below → ¬above → s.mergeAspect lane d = .slow))) ∧
  ∀ (s : State) (lane : Nat), s.Settled → lane < s.l →
    (let down : Prop := ∃ k, k < s.n ∧ ((s.station k).state = .lost ∨ (s.station k).state = .cut)
     let proven (h : HeadRef) : Prop := s.resolved h = .shut ∧ s.displayed h = some .shut ∧
      ((s.string (stringKey h (stringIndex .shut 1))).state = .ok ∨
        (s.string (stringKey h (stringIndex .shut 2))).state = .ok)
     (down → s.startCheck lane = some .stationUnavailable) ∧
     (¬down → (∃ h, s.hasHead h = true ∧ h.lane = lane ∧ ¬proven h) → s.startCheck lane = some .shutNotProven) ∧
     (¬down → (∀ h, s.hasHead h = true → h.lane = lane → proven h) → s.startCheck lane = none) ∧
     (s.StringsLegal → s.startCheck lane = none → ∀ h, s.hasHead h = true → h.lane = lane →
      ∃ i, 1 ≤ i ∧ i ≤ 2 ∧ (s.string (stringKey h (stringIndex .shut i))).state = .ok ∧
        (s.string (stringKey h (stringIndex .shut i))).proved = true))

/-- The scan with the sweep free takes the oldest task whose lane is in RUN or SHUT, the tasks of lanes in CLEARANCE keeping
their places: a CLOSE of a lane in RUN starts (R25), and so does an OPEN of a SHUT lane that neither an emergency hold nor the
start check bars (R34), and the scan ends; a stale task ends CANCELLED and a barred OPEN ends FAILED with its reason,
EMERGENCY_HOLD first, each with its last outcome and TASK_UNSUCCESSFUL, and the scan goes on with the rest. Where every
queued task is of a lane in CLEARANCE, or the sweep is held, nothing changes. So at most one lane starts; the tasks that stay
keep their order; every task that leaves the queue without starting raises TASK_UNSUCCESSFUL once, and no other kind is
raised; and where nothing starts, the oldest task that stays queued for a lane belongs to a lane in CLEARANCE (R23, R25,
R34, R44, R56, R57, R189). -/
def Obligations.ScanRule : Prop :=
  ∀ s : State,
    (s.sweepFree = false → s.scan = s) ∧
    (s.LanesLegal → s.config.mode = .run → s.sweepFree = true →
      (let cleared (t : Task) : Prop := ∃ d c w u, (s.lane t.lane).phase = .clearance d c w u
       ((∀ t ∈ s.engine.queue, cleared t) → s.scan = s) ∧
       ∀ older u newer, s.engine.queue = older ++ u :: newer → (∀ t ∈ older, cleared t) →
        (let rest : State := { s with engine.queue := older ++ newer }
         let starts (r : LaneRec) : Prop := s.scan = rest.setLane u.lane r
         let ends (o : TaskOutcome) (why : Option Reason) : Prop :=
          (s.scan).engine =
              ((rest.setLane u.lane { s.lane u.lane with last := some (s.outcomeOf u o why) }).scan).engine ∧
            s.RaisedAtLeast s.scan .taskUnsuccessful 1
         (∀ d, (s.lane u.lane).phase = .run d →
          (u.kind = .close →
            starts { s.lane u.lane with
              phase := .closing d 0 (s.mergeAspect u.lane d) u, timer := some s.stepMs }) ∧
          (u.kind.isOpen = true → ends .cancelled none)) ∧
         ((s.lane u.lane).phase = .shut →
          (u.kind = .close → ends .cancelled none) ∧
          ∀ d, u.kind = .opn d →
            ((s.lane u.lane).emergency = true → u.origin ≠ .host → ends .failed (some .emergencyHold)) ∧
            (((s.lane u.lane).emergency = false ∨ u.origin = .host) →
              (∀ why, s.startCheck u.lane = some why → ends .failed (some why)) ∧
              (s.startCheck u.lane = none →
                starts { s.lane u.lane with
                  phase := .opening d (s.n - 1) false (some u), timer := some s.stepMs, emergency := false })))))) ∧
    (s.LanesLegal → s.config.mode = .run → s.sweepFree = true →
      (s.scan).engine.queue.Sublist s.engine.queue ∧
      s.RaisedTimes s.scan .taskUnsuccessful
        (s.engine.queue.length - (s.scan).engine.queue.length - if (s.scan).sweepFree = true then 0 else 1) ∧
      (∀ k, k ≠ .taskUnsuccessful → s.RaisedTimes s.scan k 0) ∧
      ((∀ l, ((s.scan).lane l).phase = (s.lane l).phase) ∨
        ∃ t ∈ s.engine.queue,
          (∀ l, l ≠ t.lane → ((s.scan).lane l).phase = (s.lane l).phase) ∧
          ((s.scan).lane t.lane).timer = some s.stepMs ∧
          ((∃ d, (s.lane t.lane).phase = .run d ∧ t.kind = .close ∧
              ((s.scan).lane t.lane).phase = .closing d 0 (s.mergeAspect t.lane d) t) ∨
            ∃ d, (s.lane t.lane).phase = .shut ∧ t.kind = .opn d ∧ s.startCheck t.lane = none ∧
              ((s.lane t.lane).emergency = true → t.origin = .host) ∧ ((s.scan).lane t.lane).emergency = false ∧
              ((s.scan).lane t.lane).phase = .opening d (s.n - 1) false (some t))) ∧
      ((s.scan).sweepFree = true → ∀ l u rest, ((s.scan).engine.queue.filter fun t => t.lane == l) = u :: rest →
        ∃ d c w t, (s.lane l).phase = .clearance d c w t) ∧
      ∀ l, ((s.scan).lane l).last = (s.lane l).last ∨
        ∃ t ∈ s.engine.queue, t.lane = l ∧ (((s.scan).lane l).last = some (s.outcomeOf t .cancelled none) ∨
          ∃ why, ((s.scan).lane l).last = some (s.outcomeOf t .failed (some why))))

/-- CANCEL-TASK in RUN removes the queued task of a lane and kind, whatever its origin; it ends CANCELLED and the scan runs.
Without such a task in the queue, a task that has started being none of it, it is NOT_FOUND; a lane outside the section or a
kind code above 1 is BAD_FIELD, and in STANDBY it is WRONG_MODE (R55). Where the event also raises a kind and the
transmitter is IDLE, that the reply goes before the notice is the model's choice, log entry 27. -/
def Obligations.CancelTask : Prop :=
  ∀ (s : State) (lane kind : Octet),
    (let named (t : Task) : Prop := t.lane = lane.toNat ∧ t.kind.isOpen = (kind.toNat == 1)
     (s.config.mode = .standby → s.answers .cancelTask 23 [lane, kind] 19 [0, 0]) ∧
     (s.config.mode = .run → s.l ≤ lane.toNat → s.answers .cancelTask 23 [lane, kind] 18 [0, 0]) ∧
     (s.config.mode = .run → lane.toNat < s.l →
      (2 ≤ kind.toNat → s.answers .cancelTask 23 [lane, kind] 18 [1, 0]) ∧
      (kind.toNat < 2 → (∀ t ∈ s.engine.queue, ¬named t) → s.answers .cancelTask 23 [lane, kind] 22 [0, 0]) ∧
      (kind.toNat < 2 → ∀ t older newer, s.engine.queue = older ++ t :: newer → named t →
       s.performs .cancelTask 23 [lane, kind] 0 [] fun u =>
        s.EngineEvent u [.taskUnsuccessful] ∧ s.RaisedAtLeast u .taskUnsuccessful 1 ∧
        u.engine =
          ((({ s with engine.queue := older ++ newer } : State).setLane t.lane
            { s.lane t.lane with last := some (s.outcomeOf t .cancelled none) }).scan).engine)))

/-- The projected state of a lane: from RUN (d) and OPENING (d) it is RUN (d), from SHUT, CLOSING and CLEARANCE it is SHUT, and
the newest queued task of the lane, if there is one, then decides it: SHUT for a CLOSE, RUN (d) for an OPEN (d) (R50). The
tasks a plan's expansion makes: with the queued PLAN and SCHEDULE tasks out of the projection, each lane whose target is not
KEEP and differs from its projected state gets a CLOSE where it projects to RUN, and an OPEN where its target is a direction;
every CLOSE comes before every OPEN, each kind in lane order (R60, R62). -/
def Obligations.PlanExpansion : Prop :=
  (∀ (s : State) (queue : List Task) (l : Nat),
    ((∀ t ∈ queue, t.lane ≠ l) →
      s.project queue l = match (s.lane l).phase with
        | .run d => some d
        | .opening d _ _ _ => some d
        | .closing _ _ _ _ => none
        | .clearance _ _ _ _ => none
        | .shut => none) ∧
    ∀ older t newer, queue = older ++ t :: newer → t.lane = l → (∀ u ∈ newer, u.lane ≠ l) →
      s.project queue l = match t.kind with
        | .close => none
        | .opn d => some d) ∧
  ∀ (s : State) (o : Origin) (id : Nat),
    (let new := s.expandPlan o id
     let proj (l : Nat) : Option Face := s.project (s.engine.queue.filter fun t => t.origin == .host) l
     (∀ t, t ∈ new ↔ t.lane < s.l ∧ t.origin = o ∧ t.plan = some id ∧ t.stamp = s.time.clock ∧
        ((t.kind = .close ∧ ∃ e, proj t.lane = some e ∧
            (s.target id t.lane = .shut ∨ ∃ d, s.target id t.lane = .dir d ∧ d ≠ e)) ∨
          ∃ d, t.kind = .opn d ∧ s.target id t.lane = .dir d ∧ proj t.lane ≠ some d)) ∧
     new.Pairwise fun t u => (t.kind.isOpen = u.kind.isOpen ∧ t.lane < u.lane) ∨ (t.kind.isOpen = false ∧ u.kind.isOpen = true))

/-- SELECT-PLAN applies the expansion whole or not at all: where a new task shares lane and kind with a queued HOST task it
is DUPLICATE, naming the lowest such lane; where the HOST tasks and the new ones are more than 8 it is QUEUE_FULL; otherwise
the queued PLAN and SCHEDULE tasks end SUPERSEDED in queue order, each raising TASK_UNSUCCESSFUL, the new tasks are
appended, the scan runs, and ACCEPTED reports both numbers. SET-PLAN writes one plan whole in either mode; an identifier
outside 1..8 or a target code above 3 is BAD_FIELD, and a target that a lane's kind bars is BAD_DIRECTION naming the first
such lane (R44, R58, R60, R61, R62, R63). Where the event also raises a kind and the transmitter is IDLE, that the reply
goes before the notice is the model's choice, log entry 27. -/
def Obligations.SelectAndSetPlan : Prop :=
  ∀ (s : State) (id : Octet),
    (let new := s.expandPlan .plan id.toNat
     let stays := s.hostTasks.length
     s.config.mode = .run →
      ((id.toNat = 0 ∨ 8 < id.toNat) → s.answers .selectPlan 30 [id] 18 [0, 0]) ∧
      (1 ≤ id.toNat → id.toNat ≤ 8 →
        (∀ l, s.PlanClashes new l → (∀ m, m < l → ¬s.PlanClashes new m) →
          s.answers .selectPlan 30 [id] 24 [octet l, 0]) ∧
        ((∀ l, ¬s.PlanClashes new l) → 8 < stays + new.length →
          s.answers .selectPlan 30 [id] 25 [octet stays, octet new.length]) ∧
        ((∀ l, ¬s.PlanClashes new l) → stays + new.length ≤ 8 →
          s.performs .selectPlan 30 [id] 2 [octet s.markedTasks.length, octet new.length] fun t =>
            s.EngineEvent t [.taskUnsuccessful] ∧ s.PlanApplied t new))) ∧
    (∀ (s : State) (b : List Octet), b.length = 7 → (oct b 0 = 0 ∨ 8 < oct b 0) → s.answers .setPlan 28 b 18 [0, 0]) ∧
    ∀ (s : State) (b : List Octet), b.length = 7 → 1 ≤ oct b 0 → oct b 0 ≤ 8 →
      (let target (i : Nat) : Target :=
        if oct b (i + 1) = 0 then .dir .a else if oct b (i + 1) = 1 then .dir .b else if oct b (i + 1) = 2 then .shut
        else .keep
       let barred (l : Nat) : Prop := l < s.l ∧ ∃ c, s.laneCfg l = some c ∧
        ((c.kind = .fixedA ∧ target l = .dir .b) ∨ (c.kind = .fixedB ∧ target l = .dir .a))
       (∀ i, 1 ≤ i → i ≤ 6 → 4 ≤ oct b i → (∀ j, 1 ≤ j → j < i → oct b j < 4) →
        s.answers .setPlan 28 b 18 [octet i, 0]) ∧
       ((∀ i, 1 ≤ i → i ≤ 6 → oct b i < 4) →
        (∀ l, barred l → (∀ m, m < l → ¬barred m) → s.answers .setPlan 28 b 26 [octet l, 0]) ∧
        ((∀ l, ¬barred l) →
          s.performs .setPlan 28 b 0 [] fun t =>
            t = { s with engine.plans := t.engine.plans, host := t.host } ∧ s.KeepsPort t ∧
            ∀ p, 1 ≤ p → p ≤ 8 → ∀ l, l < 6 → t.target p l = if p = oct b 0 then target l else s.target p l)))

/-- CONFIRM-CLEAR: in CLEARANCE with the window not open it sets the confirmed flag and nothing else; with the window open
the lane becomes SHUT, its CLOSE task ends DONE and the scan runs; in every other lane state it is WRONG_STATE (R32; the
state it names by log entry 8). Where the event also raises a kind and the transmitter is IDLE, that the reply goes before
the notice is the model's choice, log entry 27. -/
def Obligations.ConfirmClear : Prop :=
  ∀ (s : State) (lane : Octet), s.config.mode = .run → lane.toNat < s.l →
    (let l := lane.toNat
     (∀ d c task, (s.lane l).phase = .clearance d c false task →
      ∀ tag, s.takes (commandFrame 24 tag [lane]) →
        exec (.confirmClear tag [lane]) s =
          (s.setLane l { s.lane l with phase := .clearance d true false task }).replies (commandFrame 24 tag [lane]) 0 []) ∧
     (∀ d c task, (s.lane l).phase = .clearance d c true task →
      s.performs .confirmClear 24 [lane] 0 [] fun t =>
        s.EngineEvent t [.taskDone, .taskUnsuccessful] ∧ s.RaisedTimes t .taskDone 1 ∧
        t.engine =
          ((s.setLane l
            { s.lane l with phase := .shut, timer := none, last := some (s.outcomeOf task .done none) }).scan).engine) ∧
     ((∀ d c w task, (s.lane l).phase ≠ .clearance d c w task) →
      s.answers .confirmClear 24 [lane] 20 [octet (s.lane l).phase.code, 0]))

/-- ABORT-LANE: a closing at front 0 returns to RUN, further on it turns into a restore opening from its front that keeps
the sweep; a clearance reopens from the exit, fresh and untasked, where the sweep is free and the start check passes, else
it becomes SHUT; a fresh opening becomes SHUT. The task ends ABORTED, an untasked opening leaves that outcome too, and from
CLOSING and CLEARANCE the lane's queued OPEN tasks end CANCELLED. RUN and SHUT are NO_CHANGE_ACTIVE, a restore opening is
NOT_ABORTABLE (R37, R38, R39, R40). Where the event also raises a kind and the transmitter is IDLE, that the reply goes
before the notice is the model's choice, log entry 27. -/
def Obligations.AbortLane : Prop :=
  ∀ (s : State) (lane : Octet), s.config.mode = .run → lane.toNat < s.l →
    (let l := lane.toNat
     let r := s.lane l
     let with_ (p : LanePhase) (timer : Option Nat) (o : LastOutcome) : State :=
      s.setLane l { r with phase := p, timer := timer, last := some o }
     let cancelled (p : LanePhase) (timer : Option Nat) (o : LastOutcome) : State :=
      let after : State := { s with engine.queue := s.engine.queue.filter fun u => !(u.lane == l && u.kind != .close) }
      after.setLane l
        { r with
          phase := p, timer := timer
          last := match (s.engine.queue.filter fun u => u.lane == l && u.kind != .close).getLast? with
            | some u => some (s.outcomeOf u .cancelled none)
            | none => some o }
     let ended := (s.engine.queue.filter fun u => u.lane == l && u.kind != .close).length
     (∀ d, r.phase = .run d → s.answers .abortLane 25 [lane] 27 [0, 0]) ∧
     (r.phase = .shut → s.answers .abortLane 25 [lane] 27 [3, 0]) ∧
     (∀ d f task, r.phase = .opening d f true task → s.answers .abortLane 25 [lane] 28 [0, 0]) ∧
     (∀ d m task, r.phase = .closing d 0 m task →
      s.performs .abortLane 25 [lane] 0 [0] fun t =>
        s.EngineEvent t [.taskUnsuccessful] ∧ s.RaisedAtLeast t .taskUnsuccessful (1 + ended) ∧
        t.engine = ((cancelled (.run d) none (s.outcomeOf task .aborted none)).scan).engine) ∧
     (∀ d f m task, r.phase = .closing d f m task → 0 < f →
      s.performs .abortLane 25 [lane] 0 [4] fun t =>
        s.EngineEvent t [.taskUnsuccessful] ∧ s.RaisedAtLeast t .taskUnsuccessful (1 + ended) ∧
        t.engine =
          (cancelled (.opening d f true none) (some s.stepMs) (s.outcomeOf task .aborted none)).engine) ∧
     (∀ d c w task, r.phase = .clearance d c w task →
      (let shut := cancelled .shut none (s.outcomeOf task .aborted none)
       (s.sweepFree = true → shut.startCheck l = none →
        s.performs .abortLane 25 [lane] 0 [4] fun t =>
          s.EngineEvent t [.taskUnsuccessful] ∧ s.RaisedAtLeast t .taskUnsuccessful (1 + ended) ∧
          t.engine =
            (shut.setLane l { shut.lane l with phase := .opening d (s.n - 1) false none, timer := some s.stepMs }).engine) ∧
       ((s.sweepFree = false ∨ shut.startCheck l ≠ none) →
        s.performs .abortLane 25 [lane] 0 [3] fun t =>
          s.EngineEvent t [.taskUnsuccessful] ∧ s.RaisedAtLeast t .taskUnsuccessful (1 + ended) ∧
            t.engine = (shut.scan).engine))) ∧
     ∀ d f task, r.phase = .opening d f false task →
      s.performs .abortLane 25 [lane] 0 [3] fun t =>
        s.EngineEvent t [.taskUnsuccessful] ∧ s.RaisedAtLeast t .taskUnsuccessful 1 ∧
        t.engine =
          ((with_ .shut none (s.outcomeOf (task.getD ⟨l, .opn d, .host, none, none⟩) .aborted none)).scan).engine)

/-- CLOSE-NOW in RUN, whatever the lane's state: the lane is SHUT with its emergency flag set and no timer, its task ends
PRE_EMPTED, then its queued tasks CANCELLED in queue order, and none of its tasks stays queued; a closing sweep that merges
toward the lane takes the merge aspect SLOW: for face A DIVERT_L points to the lane below and DIVERT_R to the lane above,
for face B the other way round (R26). While another lane holds the sweep nothing else changes; else the scan runs (R27, R41,
R42). Where the event also raises a kind and the transmitter is IDLE, that the reply goes before the notice is the model's
choice, log entry 27. -/
def Obligations.CloseNow : Prop :=
  ∀ (s : State) (lane : Octet), s.config.mode = .run → lane.toNat < s.l →
    (let l := lane.toNat
     let toward (m : Nat) (d : Face) (a : Aspect) : Bool := match d, a with
      | .a, .divertL => m == l + 1
      | .a, .divertR => l == m + 1
      | .b, .divertL => l == m + 1
      | .b, .divertR => m == l + 1
      | _, _ => false
     s.performs .closeNow 26 [lane] 0 [] fun t =>
      s.EngineEvent t [.taskUnsuccessful] ∧
      s.RaisedAtLeast t .taskUnsuccessful
        ((s.lane l).phase.task.toList.length + (s.engine.queue.filter fun u => u.lane == l).length) ∧
      t.engine.plans = s.engine.plans ∧
      (t.lane l).phase = .shut ∧ (t.lane l).timer = none ∧ (t.lane l).emergency = true ∧
      (t.lane l).last =
        (match (s.engine.queue.filter fun u => u.lane == l).getLast? with
        | some u => some (s.outcomeOf u .cancelled none)
        | none => match (s.lane l).phase.task with
          | some u => some (s.outcomeOf u .preEmpted none)
          | none => (s.lane l).last) ∧
      (∀ u ∈ t.engine.queue, u.lane ≠ l) ∧
      (∀ m d f a task, m ≠ l → (s.lane m).phase = .closing d f a task →
        t.engine.queue = (s.engine.queue.filter fun u => u.lane != l) ∧
        (∀ j, j ≠ l → j ≠ m → t.lane j = s.lane j) ∧
        t.lane m = { s.lane m with
          phase := .closing d f (if toward m d a then .slow else a) task }) ∧
      (∀ m d f r task, m ≠ l → (s.lane m).phase = .opening d f r task →
        t.engine.queue = (s.engine.queue.filter fun u => u.lane != l) ∧ ∀ j, j ≠ l → t.lane j = s.lane j) ∧
      ((∀ m, m ≠ l → (s.lane m).phase.sweeping = false) →
        t.engine =
          ((({ s with engine.queue := s.engine.queue.filter fun u => u.lane != l } : State).setLane l
            { s.lane l with phase := .shut, timer := none, emergency := true, last := (t.lane l).last }).scan).engine))

/-! ### Sweeps and clearances -/

/-- A step expiry of a closing lane below position N-1 advances the front by one with a full step time; at N-1 the lane enters
CLEARANCE with its confirmed flag clear and its window not open, keeps its task, and the scan runs. A step expiry of an
opening lane brings the front one position toward the entry; at front 0 the lane enters RUN, its task ends DONE and raises
TASK_DONE once, and the scan runs; an untasked opening ends without an outcome and without a raising (R24, R28, R29, R35,
R44). -/
def Obligations.SweepSteps : Prop :=
  ∀ (s : State) (l : Nat), s.Good → s.live = true → l < s.l →
    s.stepMs = s.config.records.tunnel.stepTime * 1000 ∧
    (∀ d f m task, (s.lane l).phase = .closing d f m task →
      (f < s.n - 1 → ∃ t, exec (.closingStepExpiry l) s = .next t ∧ s.EngineEvent t [] ∧ s.Unreplied t ∧
        s.WritesLane t l { s.lane l with phase := .closing d (f + 1) m task, timer := some s.stepMs }) ∧
      (s.n - 1 ≤ f → ∃ t, exec (.closingStepExpiry l) s = .next t ∧ s.EngineEvent t [.taskUnsuccessful] ∧
        s.Unreplied t ∧
        t.engine =
          ((s.setLane l
            { s.lane l with
              phase := .clearance d false false task
              timer := some (s.config.records.tunnel.clearance * 1000) }).scan).engine)) ∧
    ∀ d f r task, (s.lane l).phase = .opening d f r task →
      (1 < f → ∃ t, exec (.openingStepExpiry l) s = .next t ∧ s.EngineEvent t [] ∧ s.Unreplied t ∧
        s.WritesLane t l { s.lane l with phase := .opening d (f - 1) r task, timer := some s.stepMs }) ∧
      (f ≤ 1 → ∃ t, exec (.openingStepExpiry l) s = .next t ∧
        s.EngineEvent t [.taskDone, .taskUnsuccessful] ∧ s.Unreplied t ∧
        s.RaisedTimes t .taskDone task.toList.length ∧
        t.engine =
          ((s.setLane l
            { s.lane l with
              phase := .run d, timer := none
              last := match task with
                | some u => some (s.outcomeOf u .done none)
                | none => (s.lane l).last }).scan).engine)

/-- The clearance timer of a TIMED lane, or of a CONFIRMED one whose confirmed flag is set, makes the lane SHUT with its task
DONE, TASK_DONE raised once, and the scan runs; on a CONFIRMED lane with the flag clear the confirm window opens and
CLEARANCE_CONFIRM_DUE is raised once, repeat set where it was latched, and active. The confirm window's expiry makes the lane
SHUT with its task STALLED, cancels the lane's queued OPEN tasks, each ending raising TASK_UNSUCCESSFUL, and the scan runs;
CLEARANCE_CONFIRM_DUE stays active only while another lane has its window open (R30, R31, R44, R46, R189). -/
def Obligations.ClearanceExpiries : Prop :=
  ∀ (s : State) (l : Nat) (d : Face) (c : Bool) (task : Task), s.Good → s.live = true → l < s.l →
    ((s.lane l).phase = .clearance d c false task →
      (let confirmed : Prop := ∃ k, s.laneCfg l = some k ∧ k.clearance = .confirmed
       (confirmed → c = false →
        ∃ t, exec (.clearanceTimerExpiry l) s = .next t ∧ s.EngineEvent t [.clearanceConfirmDue] ∧
          s.Unreplied t ∧ s.RaisedTimes t .clearanceConfirmDue 1 ∧
          hasFlag t.attn.active .clearanceConfirmDue = true ∧
          s.WritesLane t l
            { s.lane l with
              phase := .clearance d false true task, timer := some (s.config.records.tunnel.confirm * 1000) }) ∧
       ((¬confirmed ∨ c = true) →
        ∃ t, exec (.clearanceTimerExpiry l) s = .next t ∧
          s.EngineEvent t [.taskDone, .taskUnsuccessful] ∧ s.Unreplied t ∧ s.RaisedTimes t .taskDone 1 ∧
          t.engine =
            ((s.setLane l
              { s.lane l with phase := .shut, timer := none, last := some (s.outcomeOf task .done none) }).scan).engine))) ∧
    ((s.lane l).phase = .clearance d c true task →
      ∃ t, exec (.confirmWindowExpiry l) s = .next t ∧ s.EngineEvent t [.taskUnsuccessful] ∧ s.Unreplied t ∧
        s.RaisedAtLeast t .taskUnsuccessful
          (1 + (s.engine.queue.filter fun u => u.lane == l && u.kind != .close).length) ∧
        (hasFlag t.attn.active .clearanceConfirmDue = true ↔
          ∃ m, m ≠ l ∧ ∃ d' c' task', (s.lane m).phase = .clearance d' c' true task') ∧
        t.engine =
          ((({ s with engine.queue := s.engine.queue.filter fun u => !(u.lane == l && u.kind != .close) } : State).setLane l
            { s.lane l with
              phase := .shut, timer := none
              last := match (s.engine.queue.filter fun u => u.lane == l && u.kind != .close).getLast? with
                | some u => some (s.outcomeOf u .cancelled none)
                | none => some (s.outcomeOf task .stalled none) }).scan).engine)

/-- A fresh opening fails in the event in which a head of its lane becomes closure-lost, as the event leaves the demands and the
availabilities, or a station of the section becomes LOST or CUT: the lane is SHUT, its front, direction and timer gone and its
emergency flag as it was; its task ends FAILED with reason CLOSURE_LOST, and an untasked opening leaves that outcome with kind
OPEN (d) and origin HOST; TASK_UNSUCCESSFUL is raised, repeat set where it was latched, queued tasks stay, and the scan runs.
In every other case these events leave the engine and the flags of TASK_UNSUCCESSFUL as they were, sweeps of every other kind
among them (R36, R44, R76, R189). -/
def Obligations.FreshOpeningFails : Prop :=
  ∀ (s t : State) (c : Instr), s.Good → s.live = true →
    ((∃ e os, c = .gantryAnswer e os ∨ c = .gantryBadAnswer e os true ∨ c = .gantryBadAnswer e os false ∨
        c = .gantryGapTimeout e os ∨ c = .pollTimeout e) ∨
      (∃ tag b, c = .override tag b ∨ c = .release tag b ∨ c = .clearFault tag b ∨ c = .restoreStation tag b) ∨
      ∃ hs, c = .overrideHoldExpiry hs) →
    exec c s = .next t →
    (let after : State := { t with engine := s.engine }
     let seen : State := { after with resolver.heads := after.resolveTable }
     let fell : Prop := ∃ k, k < s.n ∧ (((t.station k).state = .lost ∧ (s.station k).state ≠ .lost) ∨
      ((t.station k).state = .cut ∧ (s.station k).state ≠ .cut))
     let lostIn (l : Nat) : Prop := ∃ h q r, s.hasHead h = true ∧ h.lane = l ∧ s.headRec h = some q ∧
      seen.headRec h = some r ∧ q.closureLost = false ∧ r.closureLost = true
     (∀ l d f task, (s.lane l).phase = .opening d f false task → (fell ∨ lostIn l) →
      t.engine =
          ((after.setLane l
            { s.lane l with
              phase := .shut, timer := none
              last := some
                (s.outcomeOf (task.getD ⟨l, .opn d, .host, none, none⟩) .failed (some .closureLost)) }).scan).engine ∧
        s.RaisedAtLeast t .taskUnsuccessful 1) ∧
     ((∀ l d f task, (s.lane l).phase = .opening d f false task → ¬(fell ∨ lostIn l)) →
      t.engine = s.engine ∧ s.RaisedTimes t .taskUnsuccessful 0))

/-! ### Overrides and the lamp test -/

/-- OVERRIDE in RUN places an entry at the newest end of the table with a hold of the clamped minutes, replacing the head's
entry, and reports whether one was replaced and how many entries there are; OPEN, DARK and codes above 5 are BAD_FIELD, and
a full table without the head's entry is TABLE_FULL. RELEASE removes a head's entry without a raising, or is NOT_FOUND. At
the expiry of holds their entries leave the table, the others keep their order, and each raises OVERRIDE_EXPIRED. No event
of these changes the engine unless a fresh opening fails (R36, R88 to R92). Where the event also raises a kind and the
transmitter is IDLE, that the reply goes before the notice is the model's choice, log entry 27. -/
def Obligations.Overrides : Prop :=
  ∀ s : State,
    (let untouched (kinds : List AttnKind) (t : State) : Prop := s.ResolverEvent t kinds ∧
      t.resolver.lampTest = s.resolver.lampTest ∧
      t.resolver.lampLast = s.resolver.lampLast ∧
      ((∀ l, (s.lane l).phase.freshOpening = false) → t.engine = s.engine)
     (∀ k l f a m : Octet, k.toNat < s.n → l.toNat < s.l → f.toNat < 2 →
      (let h : HeadRef := ⟨k.toNat, l.toNat, if f.toNat = 0 then .a else .b⟩
       let others := s.resolver.overrides.filter fun o => o.head != h
       let minutes := max 1 (min 240 m.toNat)
       s.config.mode = .run →
        ((a.toNat = 0 ∨ 5 ≤ a.toNat) → s.answers .override 34 [k, l, f, a, m] 18 [3, 0]) ∧
        (∀ asp, 1 ≤ a.toNat → a.toNat ≤ 4 → Aspect.ofCode a.toNat = some asp →
          (s.resolver.overrides.length = 32 → (∀ o ∈ s.resolver.overrides, o.head ≠ h) →
            s.answers .override 34 [k, l, f, a, m] 29 [32, 0]) ∧
          ((s.resolver.overrides.length < 32 ∨ ∃ o ∈ s.resolver.overrides, o.head = h) →
            s.performs .override 34 [k, l, f, a, m] (if m.toNat = minutes then 0 else 1)
              [if others.length < s.resolver.overrides.length then 1 else 0, octet (others.length + 1)] fun t =>
              untouched [.taskUnsuccessful] t ∧ t.attn.latched.getLsbD 13 = s.attn.latched.getLsbD 13 ∧
              t.resolver.overrides = others ++ [⟨h, asp, minutes * 60000, s.time.clock⟩])))) ∧
     (∀ k l f : Octet, k.toNat < s.n → l.toNat < s.l → f.toNat < 2 →
      (let h : HeadRef := ⟨k.toNat, l.toNat, if f.toNat = 0 then .a else .b⟩
       ((∀ o ∈ s.resolver.overrides, o.head ≠ h) → s.answers .release 35 [k, l, f] 22 [0, 0]) ∧
       ((∃ o ∈ s.resolver.overrides, o.head = h) →
        s.performs .release 35 [k, l, f] 0 [] fun t =>
          untouched [.taskUnsuccessful] t ∧ t.attn.latched.getLsbD 13 = s.attn.latched.getLsbD 13 ∧
          t.resolver.overrides = s.resolver.overrides.filter fun o => o.head != h))) ∧
     ∀ heads : List HeadRef, s.Good → s.live = true → heads ≠ [] → heads.Nodup →
      (∀ h ∈ heads, ∃ o ∈ s.resolver.overrides, o.head = h) →
      ∃ t, exec (.overrideHoldExpiry heads) s = .next t ∧ untouched [.overrideExpired, .taskUnsuccessful] t ∧
        s.Unreplied t ∧
        (t.resolver.overrides = s.resolver.overrides.filter fun o => decide (o.head ∉ heads)) ∧
        s.RaisedAtLeast t .overrideExpired heads.length)

/-- LAMP-TEST in STANDBY starts a test with the lamp-test window of the TUNNEL record; while a test is active it is BUSY, on
a LOST or CUT station STATION_UNAVAILABLE, with an aspect code above 4 BAD_FIELD. END-LAMP-TEST ends the test with cause
HOST and no raising, or is NOT_FOUND; the window's expiry ends it with cause WINDOW and raises LAMP_TEST_ENDED (R96, R97,
R99). Where the event also raises a kind and the transmitter is IDLE, that the reply goes before the notice is the model's
choice, log entry 27. -/
def Obligations.LampTestRuns : Prop :=
  ∀ s : State,
    (let untouched (kinds : List AttnKind) (t : State) : Prop := s.ResolverEvent t kinds ∧
      t.resolver.overrides = s.resolver.overrides
     (∀ k f a : Octet, s.config.mode = .standby → k.toNat < s.n →
      (let x : LampTest :=
        ⟨k.toNat, if f.toNat = 0 then .a else .b, aspectOf a.toNat, s.config.records.tunnel.lampWindow * 1000⟩
       let down : Prop := (s.station k.toNat).state = .lost ∨ (s.station k.toNat).state = .cut
       (2 ≤ f.toNat → s.answers .lampTest 37 [k, f, a] 18 [1, 0]) ∧
       (f.toNat < 2 → 5 ≤ a.toNat → s.answers .lampTest 37 [k, f, a] 18 [2, 0]) ∧
       (f.toNat < 2 → a.toNat < 5 → s.resolver.lampTest.isSome = true → s.answers .lampTest 37 [k, f, a] 21 [0, 0]) ∧
       (f.toNat < 2 → a.toNat < 5 → s.resolver.lampTest = none → down →
        s.answers .lampTest 37 [k, f, a] 30 [k, octet (s.station k.toNat).state.code]) ∧
       (f.toNat < 2 → a.toNat < 5 → s.resolver.lampTest = none → ¬down →
        s.performs .lampTest 37 [k, f, a] 0 [] fun t =>
          untouched [] t ∧ t.engine = s.engine ∧ t.resolver.lampTest = some x ∧ t.resolver.lampLast = s.resolver.lampLast ∧
          ∀ l, l < s.l → ∀ r, t.headRec ⟨k.toNat, l, x.face⟩ = some r → r.effective = x.aspect))) ∧
     (s.config.mode = .standby → s.resolver.lampTest = none → s.answers .endLampTest 38 [] 22 [0, 0]) ∧
     ∀ x, s.resolver.lampTest = some x →
      (s.config.mode = .standby →
        s.performs .endLampTest 38 [] 0 [] fun t =>
          untouched [] t ∧ t.engine = s.engine ∧ t.resolver.lampTest = none ∧
          t.resolver.lampLast = some ⟨x.station, x.face, x.aspect, .host⟩ ∧
          hasFlag t.attn.latched .lampTestEnded = hasFlag s.attn.latched .lampTestEnded) ∧
      (s.Good → s.live = true →
        ∃ t, exec .lampTestWindowExpiry s = .next t ∧ untouched [.lampTestEnded] t ∧ s.Unreplied t ∧
          t.engine = s.engine ∧ t.resolver.lampTest = none ∧
          t.resolver.lampLast = some ⟨x.station, x.face, x.aspect, .window⟩ ∧
          s.RaisedAtLeast t .lampTestEnded 1))

/-! ### Lamp proving and signatures -/

/-- The proving arithmetic: the average is the sum over the number of samples, rounded to the nearest with halves up (R111); the
band is the expected current with its margin, or, of an UNLEARNED entry, the learning window at the duty, high never above
1,023 (R112); the verdict is the first of INCONCLUSIVE, FAIL_LOW, FAIL_HIGH, FAIL_SPREAD and PASS whose test holds of the
band (R113); a FAULT string does not move, PASS makes OK with fail count 0, a failure raises the count and makes SUSPECT or,
at the threshold, FAULT (R115); the normalized current is the average scaled to full duty, rounded, and clamped to 1..1023
(R131); and a refresh moves a LEARNED value an eighth of the way toward the normalized current, never past it, and within
1..1023 (R133). -/
def Obligations.ProvingArithmetic : Prop :=
  (∀ (s : State) (dim : Nat), s.duty dim = s.config.records.duties.getD dim 0) ∧
  (∀ a : Acc, 0 < a.count → a.avg = (2 * a.sum + a.count) / (2 * a.count)) ∧
  (∀ (s : State) (r : StringRef) (acc : Acc) (dim : Nat),
    (let p := s.config.records.proving
     let duty := s.duty dim
     let res := s.proofOf r acc dim
     (∀ v, (s.entry r.key).value = some v →
      (let expected : Int := ((v * duty + 500) / 1000 : Nat)
       let margin : Int := max (p.floor : Int) ((expected * p.tolerance + 50) / 100)
       res.low = expected - margin ∧ res.high = min 1023 (expected + margin) ∧
        res.low + 2 * p.floor ≤ expected + margin)) ∧
     (s.entry r.key = .unlearned →
      res.low = ((p.learnMin * duty + 500) / 1000 : Nat) ∧
        res.high = (min 1023 ((p.learnMax * duty + 500) / 1000) : Nat)) ∧
     res.avg = acc.avg ∧ res.least = acc.least ∧ res.greatest = acc.greatest ∧ res.dim = dim ∧
     (res.verdict = .inconclusive ↔ res.low < p.floor) ∧
     (res.verdict = .failLow ↔ (p.floor : Int) ≤ res.low ∧ (acc.avg : Int) < res.low) ∧
     (res.verdict = .failHigh ↔ (p.floor : Int) ≤ res.low ∧ res.low ≤ acc.avg ∧ res.high < acc.avg) ∧
     (res.verdict = .failSpread ↔ (p.floor : Int) ≤ res.low ∧ res.low ≤ acc.avg ∧ (acc.avg : Int) ≤ res.high ∧
      acc.least + p.spread < acc.greatest) ∧
     (res.verdict = .pass ↔ (p.floor : Int) ≤ res.low ∧ res.low ≤ acc.avg ∧ (acc.avg : Int) ≤ res.high ∧
      acc.greatest ≤ acc.least + p.spread))) ∧
  (∀ (n : Nat) (v : Verdict) (st : StringState) (fails : Nat),
    moveString n v .fault fails = (.fault, fails) ∧
    (st ≠ .fault → moveString n .pass st fails = (.ok, 0)) ∧
    (st ≠ .fault → moveString n .inconclusive st fails = (st, fails)) ∧
    (st ≠ .fault → (v = .failLow ∨ v = .failHigh ∨ v = .failSpread) → fails + 1 < n →
      moveString n v st fails = (.suspect, fails + 1)) ∧
    (st ≠ .fault → (v = .failLow ∨ v = .failHigh ∨ v = .failSpread) → n ≤ fails + 1 →
      moveString n v st fails = (.fault, fails + 1))) ∧
  (∀ avg duty, 0 < duty →
    normalized avg duty = max 1 (min 1023 ((avg * 1000 + duty / 2) / duty)) ∧
    normalized avg duty = max 1 (min 1023 ((2000 * avg + duty) / (2 * duty)))) ∧
  ∀ value norm, 1 ≤ value → value ≤ 1023 → 1 ≤ norm → norm ≤ 1023 →
    (1 ≤ refreshed value norm ∧ refreshed value norm ≤ 1023) ∧
    (value ≤ norm → value ≤ refreshed value norm ∧ refreshed value norm ≤ norm ∧
      (refreshed value norm - value = (norm - value + 4) / 8)) ∧
    (norm ≤ value → norm ≤ refreshed value norm ∧ refreshed value norm ≤ value ∧
      (value - refreshed value norm = (value - norm + 4) / 8))

/-- A sample of a string joins its accumulator, which holds their number, sum, least and greatest; the sample that completes
depth + 1 of them proves the string: its last result is written, its accumulator is emptied, its state moves, a PASS enters
its history (log entry 33), and entering FAULT raises STRING_FAULT, once. No other string changes, nor any other
block but the Signature Table, which takes the results of strings out of FAULT at a duty of 500 or more: a PASS is learned
by an UNLEARNED entry and refreshes a LEARNED one, and a FAIL_LOW or FAIL_HIGH of an UNLEARNED entry is rejected, the
last-rejection record naming string, verdict, avg, duty and time and LEARN_REJECTED being raised; learning and rejection
need the freeze flag clear and learning enabled. The unsaved flag is set where the entry changes. In every other case the
table is left as it is (R108, R109, R114 to R117, R129 to R133, R140). -/
def Obligations.SampleTaken : Prop :=
  ∀ (s : State) (r : StringRef) (x dim : Nat), s.TablesCanonical →
    (let old := s.string r.key
     let acc : Acc := old.acc.add x
     let t := s.addSample r x dim
     acc.count = old.acc.count + 1 ∧
     (0 < old.acc.count → acc.sum = old.acc.sum + x ∧ acc.least = min old.acc.least x ∧
      acc.greatest = max old.acc.greatest x) ∧
     (old.acc.count = 0 → acc.sum = x ∧ acc.least = x ∧ acc.greatest = x) ∧
     (∀ key, key ≠ r.key → t.string key = s.string key) ∧ (∀ key, key ≠ r.key → t.entry key = s.entry key) ∧
     t = { s with lamps.strings := t.lamps.strings, sigs.entries := t.sigs.entries, sigs.rejection := t.sigs.rejection
                  sigs.unsaved := t.sigs.unsaved, attn.latched := t.attn.latched, attn.rep := t.attn.rep
                  host.noticePending := t.host.noticePending } ∧
     (∀ k, k ≠ .stringFault → k ≠ .learnRejected → s.RaisedTimes t k 0) ∧
     (acc.count ≠ s.config.records.proving.depth + 1 →
      t.string r.key = { old with acc := acc } ∧ t.sigs = s.sigs ∧ t.attn = s.attn ∧ t.host = s.host) ∧
     (acc.count = s.config.records.proving.depth + 1 →
      (let res := s.proofOf r acc dim
       let moved := moveString s.config.records.proving.threshold res.verdict old.state old.fails
       let mayLearn : Prop := s.config.records.tunnel.freeze = false ∧
        ∃ c, s.stationCfg r.head.station = some c ∧ c.learn = true
       let taken : Prop := moved.1 ≠ .fault ∧ 500 ≤ s.duty dim
       let learns : Prop := taken ∧ res.verdict = .pass ∧ s.entry r.key = .unlearned ∧ mayLearn
       let rejects : Prop := taken ∧ (res.verdict = .failLow ∨ res.verdict = .failHigh) ∧
        s.entry r.key = .unlearned ∧ mayLearn
       t.string r.key =
        { state := moved.1, fails := moved.2, acc := Acc.empty, last := some res
          proved := if res.verdict = .pass then true else old.proved } ∧
       s.RaisedTimes t .stringFault (if old.state ≠ .fault ∧ moved.1 = .fault then 1 else 0) ∧
       (learns → t.entry r.key = .learned (normalized res.avg (s.duty dim))) ∧
       (∀ v, taken → res.verdict = .pass → s.entry r.key = .learned v →
        t.entry r.key = .learned (refreshed v (normalized res.avg (s.duty dim)))) ∧
       (¬learns → ¬(taken ∧ res.verdict = .pass ∧ (s.entry r.key).isLearned = true) →
        t.sigs.entries = s.sigs.entries) ∧
       (rejects → t.sigs.rejection = some ⟨r, res.verdict, res.avg, s.duty dim, s.time.clock⟩ ∧
        s.RaisedTimes t .learnRejected 1) ∧
       (¬rejects → t.sigs.rejection = s.sigs.rejection ∧ s.RaisedTimes t .learnRejected 0) ∧
       (t.sigs.unsaved = true ↔ s.sigs.unsaved = true ∨ t.entry r.key ≠ s.entry r.key))))

/-- A sample record of a head is accepted. A shown aspect that is not the resolved one raises the mismatch count and empties the
head's accumulators; at the third in a row the count returns to 0, and a record that shows OPEN is a false-open with cause
SHOWN_OPEN, another one makes a NORMAL head MISMATCH (R106). An agreeing record sets the count to 0; at another dim level than
the zone's, or with a phase outside the two, it empties the accumulators; else its currents are the samples of the strings of
the resolved aspect, those of SLOW by the phase seen, and without a STATION record nothing accumulates (R107, R108). A CUT
station's record serves the leak checks alone. A leak check that finds a current above the dark limit on two records in a row
acts and starts again: the open leak, looked for where OPEN is neither resolved nor shown, is a false-open with cause
OPEN_LEAK, the other leak makes a NORMAL head MISWIRED (R118 to R120). A false-open raises FALSE_OPEN, asks for a cut, and is
recorded unless the station has a record (R121); leaving NORMAL raises HEAD_FAULT (R122); each is raised once, the samples
raise what they raise (STRING_FAULT and LEARN_REJECTED), and no other kind is raised. -/
def Obligations.HeadRecordTaken : Prop :=
  ∀ (s : State) (h : HeadRef) (resolved : Aspect) (cut : Bool) (dim : Option Nat) (r : Sample), s.TablesCanonical →
    (let p := s.proving h
     let out := s.acceptSample h resolved cut dim r
     let t := out.1
     let dark := s.config.records.proving.dark
     let agrees : Prop := Aspect.ofCode r.shown = some resolved
     let third : Prop := cut = false ∧ ¬agrees ∧ 2 ≤ p.mismatches
     let showsOpen : Prop := Aspect.ofCode r.shown = some .opn
     let openLeak : Prop := resolved ≠ .opn ∧ ¬showsOpen ∧ dark < r.leakOpen
     let otherLeak : Prop := dark < r.leakOther
     let found (c : FalseOpenCause) : Prop := (c = .shownOpen ∧ third ∧ showsOpen) ∨
      (c = .openLeak ∧ openLeak ∧ 1 ≤ p.openLeaks)
     let unproved (u : State) : Prop := u.RaisedTimes t .stringFault 0 ∧ u.RaisedTimes t .learnRejected 0
     ((cut = true → (t.proving h).mismatches = p.mismatches) ∧
      (cut = false → agrees → (t.proving h).mismatches = 0) ∧
      (cut = false → ¬agrees → p.mismatches < 2 → (t.proving h).mismatches = p.mismatches + 1) ∧
      (third → (t.proving h).mismatches = 0)) ∧
     ((¬openLeak → (t.proving h).openLeaks = 0) ∧
      (openLeak → p.openLeaks = 0 → (t.proving h).openLeaks = 1) ∧
      (openLeak → 1 ≤ p.openLeaks → (t.proving h).openLeaks = 0)) ∧
     ((¬otherLeak → (t.proving h).otherLeaks = 0) ∧
      (otherLeak → p.otherLeaks = 0 → (t.proving h).otherLeaks = 1) ∧
      (otherLeak → 1 ≤ p.otherLeaks → (t.proving h).otherLeaks = 0)) ∧
     ((p.condition ≠ .normal → (t.proving h).condition = p.condition) ∧
      (p.condition = .normal →
        (third → ¬showsOpen → (t.proving h).condition = .mismatch) ∧
        (¬(third ∧ ¬showsOpen) → otherLeak → 1 ≤ p.otherLeaks → (t.proving h).condition = .miswired) ∧
        (¬(third ∧ ¬showsOpen) → ¬(otherLeak ∧ 1 ≤ p.otherLeaks) → (t.proving h).condition = .normal) ∧
        ((t.proving h).condition ≠ .normal → s.RaisedTimes t .headFault 1))) ∧
     ((t.proving h).condition = p.condition → s.RaisedTimes t .headFault 0) ∧
     (out.2 = true ↔ ∃ c, found c) ∧
     (∀ k, k ≠ .stringFault → k ≠ .headFault → k ≠ .falseOpen → k ≠ .learnRejected → s.RaisedTimes t k 0) ∧
     (∀ c, found c → s.RaisedTimes t .falseOpen 1 ∧
      (s.falseOpen h.station = none → t.falseOpen h.station = some ⟨h, c, s.time.clock⟩) ∧
      (s.falseOpen h.station ≠ none → t.falseOpen h.station = s.falseOpen h.station)) ∧
     ((∀ c, ¬found c) → t.falseOpen h.station = s.falseOpen h.station ∧ s.RaisedTimes t .falseOpen 0) ∧
     (∀ k, k ≠ h.station → t.falseOpen k = s.falseOpen k) ∧
     (∀ j : HeadRef, j.key ≠ h.key → t.proving j = s.proving j) ∧
     (cut = true → t.lamps.strings = s.lamps.strings ∧ t.sigs = s.sigs ∧ unproved s) ∧
     (cut = false → (¬agrees ∨ ∃ d, dim = some d ∧ (r.dim ≠ d ∨ 2 ≤ r.phase)) → t.sigs = s.sigs ∧ unproved s ∧
      ∀ key, t.string key = if key / 10 = h.key then { s.string key with acc := Acc.empty } else s.string key) ∧
     (cut = false → agrees → dim = none → t.lamps.strings = s.lamps.strings ∧ t.sigs = s.sigs ∧ unproved s) ∧
     (cut = false → agrees → ∀ d, dim = some d → r.dim = d → r.phase ≤ 1 →
      (let sampled (u : State) : Prop := t.lamps.strings = u.lamps.strings ∧ t.sigs = u.sigs ∧ unproved u
       (resolved = .dark → sampled s) ∧
       (resolved = .slow → r.phase = 1 → sampled (s.addSample ⟨h, .slow, 1⟩ r.lit1 d)) ∧
       (resolved = .slow → r.phase = 0 → sampled (s.addSample ⟨h, .slow, 2⟩ r.lit2 d)) ∧
       (resolved ≠ .dark → resolved ≠ .slow →
        sampled ((s.addSample ⟨h, resolved, 1⟩ r.lit1 d).addSample ⟨h, resolved, 2⟩ r.lit2 d)))) ∧
     t = { s with
      lamps := t.lamps, sigs := t.sigs, attn.latched := t.attn.latched, attn.rep := t.attn.rep
      host.noticePending := t.host.noticePending })

/-- CLEAR-FAULT returns every string of a head (scope 0) or of a station's heads in the section (scope 1) to UNPROVEN with
fail count 0, an empty accumulator and its history begun anew (log entry 33), last results kept, makes the heads NORMAL with
their counts at 0, and reports how many strings were in FAULT and how many heads were out of NORMAL, in either mode. Other
strings, the stations, false-open records and displayed aspects stay. A scope code above 1 and an address outside the
section are BAD_FIELD (R126), named by the octets of scope, station, lane and face in turn (log entry 7). Where the event
also raises a kind and the transmitter is IDLE, that the reply goes before the notice is the model's choice, log entry 27.
-/
def Obligations.ClearFault : Prop :=
  ∀ (s : State) (scope k l f : Octet),
    (2 ≤ scope.toNat → s.answers .clearFault 40 [scope, k, l, f] 18 [0, 0]) ∧
    (scope.toNat < 2 → s.n ≤ k.toNat → s.answers .clearFault 40 [scope, k, l, f] 18 [1, 0]) ∧
    (scope.toNat = 0 → k.toNat < s.n → s.l ≤ l.toNat → s.answers .clearFault 40 [scope, k, l, f] 18 [2, 0]) ∧
    (scope.toNat = 0 → k.toNat < s.n → l.toNat < s.l → 2 ≤ f.toNat → s.answers .clearFault 40 [scope, k, l, f] 18 [3, 0]) ∧
    (k.toNat < s.n → (scope.toNat = 1 ∨ (scope.toNat = 0 ∧ l.toNat < s.l ∧ f.toNat < 2)) →
      (let cleared : List HeadRef :=
        if scope.toNat = 0 then [⟨k.toNat, l.toNat, if f.toNat = 0 then .a else .b⟩] else stationHeads s.l k.toNat
       let faults := cleared.flatMap fun h => (List.range 10).filter fun i => (s.string (stringKey h i)).state == .fault
       let ill := cleared.filter fun h => (s.proving h).condition != .normal
       s.performs .clearFault 40 [scope, k, l, f] 0 [octet faults.length, octet ill.length] fun t =>
        t.config = s.config ∧ t.sigs = s.sigs ∧ t.time = s.time ∧ t.falseOpen = s.falseOpen ∧
        s.KeepsResolver t ∧ s.KeepsPort t ∧ s.KeepsFlags t [.taskUnsuccessful] ∧ t.link = s.link ∧
        ((∀ m, (s.lane m).phase.freshOpening = false) → t.engine = s.engine) ∧
        (∀ h ∈ cleared, t.proving h = HeadProving.reset ∧
          ∀ i, i < 10 →
            (t.string (stringKey h i)).state = .unproven ∧ (t.string (stringKey h i)).fails = 0 ∧
            (t.string (stringKey h i)).proved = false ∧ (t.string (stringKey h i)).acc = Acc.empty ∧
            (t.string (stringKey h i)).last = (s.string (stringKey h i)).last) ∧
        (∀ h, s.hasHead h = true → h ∉ cleared → t.proving h = s.proving h ∧ s.KeepsStringsOf t h) ∧
        ∀ key, s.stringKeyIn key = false → t.string key = s.string key))

/-- FREEZE writes the freeze flag; FIX-SIGNATURE makes an entry FIXED with the clamped value and replies what it held; UNFIX
makes a FIXED entry LEARNED with its value and is WRONG_STATE on another; UNLEARN makes the LEARNED entries of a station's
heads UNLEARNED and replies their number. An entry that changes class, and one that is fixed, empties its accumulator, and
the unsaved flag is set where an entry was written; nothing else changes (R110, R129, R134 to R137, R140). That the entry
FIX-SIGNATURE replies has a presence octet before its value, 0 where it is UNLEARNED, is the model's choice where R199 leaves
one, log entry 31. -/
def Obligations.SignatureCommands : Prop :=
  ∀ s : State,
    (let only (t : State) : Prop :=
      t = { s with sigs.entries := t.sigs.entries, sigs.unsaved := t.sigs.unsaved, lamps.strings := t.lamps.strings
                   host := t.host } ∧ s.KeepsPort t
     (∀ v : Octet,
      (2 ≤ v.toNat → s.answers .freeze 44 [v] 18 [0, 0]) ∧
      (v.toNat < 2 → ∀ tag, s.takes (commandFrame 44 tag [v]) →
        exec (.freeze tag [v]) s =
          ({ s with config.records.tunnel.freeze := v.toNat == 1 } : State).replies (commandFrame 44 tag [v]) 0 [])) ∧
     (∀ k l f a i hi lo : Octet, k.toNat < s.n → l.toNat < s.l → f.toNat < 2 → a.toNat < 5 → 1 ≤ i.toNat →
      i.toNat ≤ 2 →
      (let key := stringKey ⟨k.toNat, l.toNat, if f.toNat = 0 then .a else .b⟩ (2 * a.toNat + (i.toNat - 1))
       let given := hi.toNat * 256 + lo.toNat
       let v := max 1 (min 1023 given)
       let writes (e : SigEntry) (t : State) : Prop := only t ∧ t.sigs.unsaved = true ∧
        (∀ j, t.entry j = if j = key then e else s.entry j) ∧
        ∀ j, t.string j = if j = key then { s.string j with acc := Acc.empty } else s.string j
       s.performs .fixSignature 45 [k, l, f, a, i, hi, lo] (if v = given then 0 else 1)
          (match s.entry key with
          | .unlearned => [0, 0]
          | .learned x => [1, 1] ++ be16 x
          | .fixed x => [2, 1] ++ be16 x)
          (writes (.fixed v)) ∧
       (∀ x, s.entry key = .fixed x → s.performs .unfix 46 [k, l, f, a, i] 0 [] (writes (.learned x))) ∧
       (∀ x, s.entry key = .learned x → s.answers .unfix 46 [k, l, f, a, i] 20 [1, 0]) ∧
       (s.entry key = .unlearned → s.answers .unfix 46 [k, l, f, a, i] 20 [0, 0]))) ∧
     ∀ k : Octet, k.toNat < s.n →
      (let learned := (stationHeads s.l k.toNat).flatMap fun h =>
        ((List.range 10).map (stringKey h)).filter fun j => (s.entry j).isLearned
       s.performs .unlearn 47 [k] 0 [octet learned.length] fun t =>
        only t ∧ (t.sigs.unsaved = true ↔ s.sigs.unsaved = true ∨ learned ≠ []) ∧
        (∀ j, t.entry j = if j ∈ learned then .unlearned else s.entry j) ∧
        ∀ j, t.string j = if j ∈ learned then { s.string j with acc := Acc.empty } else s.string j))

/-! ### The gantry link -/

/-- A good SAMPLE answer of the station polled on an end: its miss count there is 0, its cause none, answered yes, its supply
status recorded; a LOST station is ONLINE again on its home end, or REROUTED on the other with its reprobe timer at 30 s, and
a REROUTED one that answers at home is ONLINE; the identity is recorded, and a change of identity raises DRIVER_CHANGED; the
displayed aspects are those the records show, unless the station is CUT; a cut raises FALSE_OPEN and STATION_CUT, and ends an
active lamp test of the station with cause STATION and no raising. A return on the other end raises RING_DEGRADED, a cut
STATION_CUT and a change of identity DRIVER_CHANGED, each once, and nothing else in the event does. The last-change record of a change of identity counts the
entries made UNLEARNED. A supply
reported OPEN by a station that is not CUT sets RESTORE pending, and nothing else does; a station that leaves REROUTED has no
reprobe left to send. The unsaved flag is set by a new identity, and else only where an entry changes (R140). Other stations
and their heads' conditions stay, and so does the engine unless a fresh opening fails (R36, R69, R138, R139, R155, R157, R159,
R160, R161, R100). What the records do is said by the next statement. -/
def Obligations.GantryAnswer : Prop :=
  ∀ (s : State) (e : LinkEnd) (x : Exchange) (sf : SampleFrame), s.Good → s.live = true →
    (s.poller e).exchange = some x → (s.poller e).rx = .hunting → x.station < s.n → sf.records.length = 2 * s.l →
    (∀ r ∈ sf.records, r.shown < 256 ∧ r.dim < 256 ∧ r.phase < 256 ∧ r.lit1 ≤ 1023 ∧ r.lit2 ≤ 1023 ∧
      r.leakOpen ≤ 1023 ∧ r.leakOther ≤ 1023) →
    (let k := x.station
     let old := s.station k
     let home := homeEnd s.n k
     ∃ t, exec (.gantryAnswer e (sampleFrame k sf).octets) s = .next t ∧
      t.config = s.config ∧ t.time = s.time ∧ s.KeepsPort t ∧ s.Unreplied t ∧
      s.KeepsFlags t [.stringFault, .headFault, .falseOpen, .stationCut, .ringDegraded, .driverChanged, .learnRejected,
        .taskUnsuccessful] ∧
      ((∀ m, (s.lane m).phase.freshOpening = false) → t.engine = s.engine) ∧
      (t.poller e).rx = .hunting ∧ (t.poller e).answerTimer = none ∧
      (∀ j, j ≠ k → s.KeepsStation t j) ∧
      (t.station k).miss e = 0 ∧ (match e with
        | .west => (t.station k).causeWest
        | .east => (t.station k).causeEast) = .none ∧
      (t.station k).answered = true ∧ (t.station k).supplyOpen = some sf.supplyOpen ∧
      (old.state = .cut → (t.station k).state = .cut ∧ (t.station k).current = old.current) ∧
      (old.state = .online → ((t.station k).state = .online ∨ (t.station k).state = .cut) ∧
        (t.station k).current = old.current) ∧
      (old.state = .rerouted → e = home → ((t.station k).state = .online ∨ (t.station k).state = .cut) ∧
        (t.station k).current = home ∧ (t.station k).reprobe = none) ∧
      (old.state = .rerouted → e ≠ home → ((t.station k).state = .rerouted ∨ (t.station k).state = .cut) ∧
        (t.station k).current = old.current) ∧
      (old.state = .lost → (t.station k).current = e ∧
        ((t.station k).state = .cut ∨
          (e = home ∧ (t.station k).state = .online) ∨
          (e ≠ home ∧ (t.station k).state = .rerouted ∧ (t.station k).reprobe = some 30000))) ∧
      (old.state = .lost → e ≠ home → s.RaisedTimes t .ringDegraded 1) ∧
      (¬(old.state = .lost ∧ e ≠ home) → s.RaisedTimes t .ringDegraded 0) ∧
      (old.state ≠ .cut → (t.station k).state = .cut →
        s.RaisedAtLeast t .falseOpen 1 ∧ s.RaisedTimes t .stationCut 1 ∧ t.attn.alert = true ∧
        (t.falseOpen k).isSome = true ∧ (t.station k).restorePending = false) ∧
      (¬(old.state ≠ .cut ∧ (t.station k).state = .cut) → s.RaisedTimes t .stationCut 0) ∧
      ((t.station k).state ≠ .cut → (sf.supplyOpen = true ∨ old.restorePending = true) →
        (t.station k).restorePending = true ∨ ∃ f, (t.poller f).sending = some ⟨octet k, 3#8, []⟩) ∧
      ((t.station k).restorePending = true → old.restorePending = true ∨ (sf.supplyOpen = true ∧ old.state ≠ .cut)) ∧
      (old.state = .rerouted → (t.station k).state ≠ .rerouted →
        ∀ f, k ∉ (t.poller f).due ∧ (t.poller f).committed ≠ some ⟨k, true⟩) ∧
      ((t.sigs.unsaved = true ↔ s.sigs.unsaved = true ∨ s.ident k ≠ some sf.ident ∨ t.sigs.entries ≠ s.sigs.entries)) ∧
      (t.ident k = some sf.ident ∧ ∀ j, j ≠ k → t.ident j = s.ident j) ∧
      (∀ i, s.ident k = some i → i ≠ sf.ident → s.RaisedTimes t .driverChanged 1 ∧
        ∃ c, t.lastChange k = some c ∧ c.previous = i ∧ c.current = sf.ident ∧ c.time = s.time.clock ∧
          (c.action = if s.config.records.tunnel.freeze = true then .kept else .unlearned) ∧
          c.count = if s.config.records.tunnel.freeze = true then 0
            else ((stationHeads s.l k).flatMap fun h =>
              ((List.range 10).map (stringKey h)).filter fun j => (s.entry j).isLearned).length) ∧
      ((s.ident k = none ∨ s.ident k = some sf.ident) →
        t.lastChange k = s.lastChange k ∧ s.RaisedTimes t .driverChanged 0) ∧
      (∀ j, j ≠ k → t.lastChange j = s.lastChange j) ∧ t.resolver.overrides = s.resolver.overrides ∧
      (let ends (y : LampTest) : Prop := y.station = k ∧ old.state ≠ .cut ∧ (t.station k).state = .cut
       (∀ y, s.resolver.lampTest = some y → ends y →
        t.resolver.lampTest = none ∧ t.resolver.lampLast = some ⟨y.station, y.face, y.aspect, .station⟩) ∧
       ((∀ y, s.resolver.lampTest = some y → ¬ends y) →
        t.resolver.lampTest = s.resolver.lampTest ∧ t.resolver.lampLast = s.resolver.lampLast)) ∧
      (∀ h, s.hasHead h = true → h.station ≠ k → t.displayed h = s.displayed h ∧ t.proving h = s.proving h) ∧
      ∀ h, s.hasHead h = true → h.station = k →
        (old.state = .cut → t.displayed h = s.displayed h) ∧
        (old.state ≠ .cut → (t.station k).state = .cut → t.displayed h = some .dark ∧ t.resolved h = .dark) ∧
        ((t.station k).state ≠ .cut → ∀ r, sf.records[2 * h.lane + h.face.code]? = some r →
          t.displayed h = Aspect.ofCode r.shown))

/-- The head records of a good answer are accepted one by one, in head order, after a driver change has made the LEARNED
entries of the station UNLEARNED (frozen ones are kept) and a return from LOST has made its OK and SUSPECT strings UNPROVEN
and begun the history of all its strings anew, of those in FAULT too (log entry 33); each is compared with the aspect its head
held when the frame arrived. What a record does to its head, its strings and its entries is what HeadRecordTaken says of it.
A station that was not CUT is cut exactly when some record finds a false-open, and the counts of its heads are then 0; the
first false-open of the frame is recorded where no record stood. Every record that finds a false-open raises FALSE_OPEN, every
head that leaves NORMAL HEAD_FAULT, and every string that enters FAULT STRING_FAULT, each once and in turn. The string
records are those the accepted record leaves, its sample among them; the accumulators of a head are emptied besides exactly
where its resolved aspect changes or the station is newly cut. The strings and entries of other stations stay, but for the
accumulators of heads whose resolved aspect changes (R83, R104, R105, R110, R121 to R124, R139, R155, R160). -/
def Obligations.GantryAnswerRecords : Prop :=
  ∀ (s : State) (e : LinkEnd) (x : Exchange) (sf : SampleFrame), s.Good → s.live = true →
    (s.poller e).exchange = some x → (s.poller e).rx = .hunting → x.station < s.n → sf.records.length = 2 * s.l →
    (∀ r ∈ sf.records, r.shown < 256 ∧ r.dim < 256 ∧ r.phase < 256 ∧ r.lit1 ≤ 1023 ∧ r.lit2 ≤ 1023 ∧
      r.leakOpen ≤ 1023 ∧ r.leakOther ≤ 1023) →
    (let k := x.station
     let old := s.station k
     let named : State := s.takeIdent k sf.ident
     let taken (h : HeadRef) (r : Sample) : State × Bool :=
      named.acceptSample h (s.resolved h) (old.state == .cut) (s.stationDim k) r
     let record (h : HeadRef) (r : Sample) : Prop := s.hasHead h = true ∧ h.station = k ∧
      sf.records[2 * h.lane + h.face.code]? = some r
     let records := (stationHeads s.l k).zip sf.records
     let changed : Prop := (∃ i, s.ident k = some i ∧ i ≠ sf.ident) ∧ s.config.records.tunnel.freeze = false
     let returned (r : StringRec) : StringRec :=
      if old.state = .lost ∧ (r.state = .ok ∨ r.state = .suspect) then
        { r with state := .unproven, fails := 0, proved := false }
      else if old.state = .lost then { r with proved := false }
      else r
     (∀ key, (changed → s.stringOfStation k key = true → (s.entry key).isLearned = true →
        named.entry key = .unlearned) ∧
      (¬(changed ∧ s.stringOfStation k key = true ∧ (s.entry key).isLearned = true) →
        named.entry key = s.entry key ∧ named.string key = s.string key)) ∧
     ∃ t, exec (.gantryAnswer e (sampleFrame k sf).octets) s = .next t ∧
      (old.state ≠ .cut → ((t.station k).state = .cut ↔ ∃ h r, record h r ∧ (taken h r).2 = true)) ∧
      ((∀ h r, record h r → (taken h r).2 = false) → t.falseOpen k = s.falseOpen k) ∧
      (∀ h r, record h r → (taken h r).2 = true →
        (∀ j q, record j q → (taken j q).2 = true → headIndex s.l h ≤ headIndex s.l j) →
        (s.falseOpen k ≠ none → t.falseOpen k = s.falseOpen k) ∧
        (s.falseOpen k = none →
          t.falseOpen k = some ⟨h, if r.shown = 0 then .shownOpen else .openLeak, s.time.clock⟩)) ∧
      (∀ j, j ≠ k → t.falseOpen j = s.falseOpen j) ∧
      s.RaisedTimes t .falseOpen (records.filter fun q => (taken q.1 q.2).2).length ∧
      s.RaisedTimes t .headFault
        (records.filter fun q =>
          (s.proving q.1).condition == .normal && ((taken q.1 q.2).1.proving q.1).condition != .normal).length ∧
      s.RaisedTimes t .stringFault
        (records.flatMap fun q => (List.range 10).filter fun i =>
          (s.string (stringKey q.1 i)).state != .fault &&
            ((taken q.1 q.2).1.string (stringKey q.1 i)).state == .fault).length ∧
      (∀ h r, record h r →
        (let p := (taken h r).1.proving h
         (¬(old.state ≠ .cut ∧ (t.station k).state = .cut) → t.proving h = p) ∧
         (old.state ≠ .cut → (t.station k).state = .cut →
          t.proving h = { condition := p.condition, mismatches := 0, openLeaks := 0, otherLeaks := 0 })) ∧
        ∀ i, i < 10 →
          t.entry (stringKey h i) = (taken h r).1.entry (stringKey h i) ∧
          (t.resolved h = s.resolved h → ¬(old.state ≠ .cut ∧ (t.station k).state = .cut) →
            t.string (stringKey h i) = returned ((taken h r).1.string (stringKey h i))) ∧
          ((t.resolved h ≠ s.resolved h ∨ (old.state ≠ .cut ∧ (t.station k).state = .cut)) →
            t.string (stringKey h i) = { returned ((taken h r).1.string (stringKey h i)) with acc := Acc.empty })) ∧
      (∀ h, s.hasHead h = true → h.station ≠ k →
        s.KeepsStringsOf t h ∧ ∀ i, i < 10 → t.entry (stringKey h i) = s.entry (stringKey h i)) ∧
      ∀ key, s.stringKeyIn key = false → t.string key = s.string key ∧ t.entry key = s.entry key)

/-- A miss of the exchange in flight on an end, by its answer timeout (TIMEOUT), a frame that fails a test (CRC, ADDRESS or
FORM) or one cut short by a break or a gap (CRC): the end's count rises, up to 3, with its cause. Where it brings the count
of the current end to 3, an ONLINE station becomes REROUTED on the other end with its reprobe timer at 30 s, RING_DEGRADED
raised once, a REROUTED one LOST at home, STATION_LOST raised once (repeat set where the kind was latched), a due reprobe dropped, its displayed aspects UNKNOWN, its counts 0, its accumulators empty, every head DARK,
and a lamp test of it ended, and a CUT one moves to the other end; a LOST station changes its end at every missed probe; a
missed reprobe restarts the reprobe timer. Other stations stay, but for the accumulators of heads whose resolved aspect
changes (R83, R100, R145, R149, R153, R154, R156, R157, R158, R161, R189). -/
def Obligations.GantryMiss : Prop :=
  ∀ (s : State) (e : LinkEnd) (x : Exchange), s.Good → s.live = true → (s.poller e).exchange = some x →
    x.station < s.n →
    (let k := x.station
     let old := s.station k
     let third : Prop := e = old.current ∧ old.miss e = 2
     let missed (c : MissCause) (t : State) : Prop :=
      t.config = s.config ∧ t.sigs = s.sigs ∧ t.time = s.time ∧ t.falseOpen = s.falseOpen ∧ s.KeepsPort t ∧
      s.Unreplied t ∧ s.KeepsFlags t [.ringDegraded, .stationLost, .taskUnsuccessful] ∧ (t.poller e).answerTimer = none ∧
      ((∀ m, (s.lane m).phase.freshOpening = false) → t.engine = s.engine) ∧
      (∀ j, j ≠ k → s.KeepsStation t j) ∧
      (t.station k).miss e = min 3 (old.miss e + 1) ∧ (match e with
        | .west => (t.station k).causeWest
        | .east => (t.station k).causeEast) = c ∧
      (t.station k).answered = old.answered ∧ (t.station k).supplyOpen = old.supplyOpen ∧
      t.resolver.overrides = s.resolver.overrides ∧
      ((¬(old.state = .rerouted ∧ third) ∨ ∀ y, s.resolver.lampTest = some y → y.station ≠ k) →
        t.resolver.lampTest = s.resolver.lampTest ∧ t.resolver.lampLast = s.resolver.lampLast) ∧
      (¬(old.state = .rerouted ∧ third) → t.resolver.displayed = s.resolver.displayed ∧ s.KeepsLamps t) ∧
      (¬(old.state = .online ∧ third) → s.RaisedTimes t .ringDegraded 0) ∧
      (¬(old.state = .rerouted ∧ third) → s.RaisedTimes t .stationLost 0) ∧
      match old.state with
      | .online =>
        (third → (t.station k).state = .rerouted ∧ (t.station k).current = e.other ∧ (t.station k).miss e.other = 0 ∧
          (t.station k).reprobe = some 30000 ∧ s.RaisedTimes t .ringDegraded 1 ∧
          hasFlag t.attn.active .ringDegraded = true) ∧
        (¬third → (t.station k).state = .online ∧ (t.station k).current = old.current)
      | .rerouted =>
        (third → (t.station k).state = .lost ∧ (t.station k).current = e.other ∧ (t.station k).miss e.other = 0 ∧
          (t.station k).reprobe = none ∧ s.RaisedTimes t .stationLost 1 ∧
          (∀ f, k ∉ (t.poller f).due ∧ (t.poller f).committed ≠ some ⟨k, true⟩) ∧
          hasFlag t.attn.active .stationLost = true ∧ t.attn.alert = true ∧
          (∀ y, s.resolver.lampTest = some y → y.station = k →
            t.resolver.lampTest = none ∧ t.resolver.lampLast = some ⟨y.station, y.face, y.aspect, .station⟩) ∧
          (∀ h, s.hasHead h = true → h.station = k → t.displayed h = none ∧ t.resolved h = .dark ∧
            t.proving h = { s.proving h with mismatches := 0, openLeaks := 0, otherLeaks := 0 } ∧
            ∀ i, i < 10 → t.string (stringKey h i) = { s.string (stringKey h i) with acc := Acc.empty }) ∧
          ∀ h, s.hasHead h = true → h.station ≠ k →
            t.displayed h = s.displayed h ∧ t.proving h = s.proving h ∧ s.KeepsStringsOf t h) ∧
        (¬third → (t.station k).state = .rerouted ∧ (t.station k).current = old.current ∧
          (t.station k).reprobe =
            if x.reprobe = true ∧ e = homeEnd s.n k then some 30000 else old.reprobe)
      | .lost => (t.station k).state = .lost ∧
        (e = old.current → (t.station k).current = e.other ∧ (t.station k).miss e.other = 0) ∧
        (e ≠ old.current → (t.station k).current = old.current)
      | .cut => (t.station k).state = .cut ∧
        (third → (t.station k).current = e.other ∧ (t.station k).miss e.other = 0) ∧
        (¬third → (t.station k).current = old.current)
     ((s.poller e).answerTimer.isSome = true → ∃ t, exec (.pollTimeout e) s = .next t ∧ missed .timeout t) ∧
     ∀ os got, (s.poller e).rx = .hunting →
      (∀ c, gantryReads .hunting os = (.hunting, [.whole true got]) → answerFault k s.l got = some c →
        ∃ t, exec (.gantryBadAnswer e os false) s = .next t ∧ missed c t) ∧
      (gantryReads .hunting os = (.hunting, [.broken true]) →
        ∃ t, exec (.gantryBadAnswer e os false) s = .next t ∧ missed .crc t) ∧
      (gantryReads .hunting os = (.inFrame true got, []) →
        (∃ t, exec (.gantryBadAnswer e os true) s = .next t ∧ missed .crc t) ∧
        ∃ t, exec (.gantryGapTimeout e os) s = .next t ∧ missed .crc t))

/-- A frame that arrives on an end without an exchange in flight changes nothing. The end of a poll's sending starts its 10 ms
answer timeout; the end of an answerless frame lets the poller choose: a pending PHASE frame first, else the next exchange,
a RESTORE frame going before the poll of a station whose RESTORE is pending (R145, R147, R148, R153). The next exchange is the
reprobe that became due earliest, if one is due, and does not move the walk; else the poll of the next station of the walk,
which visits the stations whose current end is this one, the west end in ascending order and the east end in descending
order, and after the last begins again with the first; stations of the other end are passed over. A poller whose list is
empty sends nothing but PHASE frames until a station joins it (R152, R153); that a reprobe due on it stays due is log entry
26. That the poll a RESTORE frame went ahead of comes next, while it is still to be made, is log entry 15. -/
def Obligations.GantryFrames : Prop :=
  (∀ n k, homeEnd n k = if k < n / 2 then .west else .east) ∧
  (∀ (s : State) (k : Nat), s.stationDim k = (s.stationCfg k).map fun c => s.config.dims.getD c.zone 0) ∧
  ∀ (s : State) (e : LinkEnd), s.Good → s.live = true →
    (let p := s.poller e
     let mine (k : Nat) : Prop := k < s.n ∧ (s.station k).current = e
     let before (j k : Nat) : Prop := match e with
      | .west => j < k
      | .east => k < j
     let reprobable (k : Nat) : Prop := k < s.n ∧ (s.station k).state = .rerouted ∧ homeEnd s.n k = e
     let made (x : Exchange) : Prop := (x.reprobe = true ∧ reprobable x.station) ∨ (x.reprobe = false ∧ mine x.station)
     let free : Prop := ∀ x, p.committed = some x → ¬made x
     let first (q : Nat → Prop) (k : Nat) : Prop := mine k ∧ q k ∧ ∀ j, mine j → q j → ¬before j k
     let serves : Prop := ∃ k, mine k
     (¬serves → s.nextExchange e = none) ∧
     (serves → ∀ x, p.committed = some x → made x → s.nextExchange e = some x) ∧
     (serves → free → ∀ k rest, p.due = k :: rest → s.nextExchange e = some ⟨k, true⟩) ∧
     (free → p.due = [] →
      (∀ k, p.last = none → first (fun _ => True) k → s.nextExchange e = some ⟨k, false⟩) ∧
      ∀ last k, p.last = some last →
        (first (before last) k → s.nextExchange e = some ⟨k, false⟩) ∧
        ((∀ j, mine j → ¬before last j) → first (fun _ => True) k → s.nextExchange e = some ⟨k, false⟩))) ∧
    (∀ os ev, (s.poller e).exchange = none → (s.poller e).rx = .hunting →
      gantryReads .hunting os = (.hunting, [ev]) → exec (.gantryStrayFrame e os) s = .next s) ∧
    ((s.poller e).sending.isSome = true → 2 ≤ s.n →
      ((s.poller e).exchange.isSome = true → (s.poller e).answering = false →
        exec (.gantryTransmitEnd e) s =
          .next (s.setPoller e { s.poller e with sending := none, answerTimer := some 10 })) ∧
      ((s.poller e).exchange = none →
        ∃ t, exec (.gantryTransmitEnd e) s = .next t ∧ t = { s with link := t.link } ∧
          (∀ j, s.KeepsStation t j) ∧
          ((s.poller e).phasePending = true →
            (t.poller e).sending = some ⟨31#8, 4#8, [if s.time.phase = true then 1#8 else 0#8]⟩ ∧
            (t.poller e).phasePending = false ∧ (t.poller e).exchange = none) ∧
          ((s.poller e).phasePending = false →
            (s.nextExchange e = none → (t.poller e).sending = none ∧ (t.poller e).exchange = none) ∧
            ∀ x, s.nextExchange e = some x →
              ((s.station x.station).restorePending = true →
                (t.poller e).sending = some ⟨octet x.station, 3#8, []⟩ ∧ (t.poller e).exchange = none ∧
                (t.poller e).committed = some x ∧ (t.station x.station).restorePending = false) ∧
              ((s.station x.station).restorePending = false →
                (t.poller e).exchange = some x ∧ (t.poller e).committed = none ∧
                ((t.poller e).last = if x.reprobe = true then (s.poller e).last else some x.station) ∧
                ((t.poller e).due =
                  if x.reprobe = true then (s.poller e).due.filter (· != x.station) else (s.poller e).due) ∧
                ((s.station x.station).state = .cut →
                  (t.poller e).sending = some ⟨octet x.station, 2#8, []⟩) ∧
                ((s.station x.station).state ≠ .cut →
                  (t.poller e).sending =
                    some ⟨octet x.station, 1#8,
                      octet (2 * s.l) :: ((stationHeads s.l x.station).map fun h => octet (s.resolved h).code) ++
                        [octet ((s.stationDim x.station).getD 0), if s.time.phase = true then 1#8 else 0#8]⟩)))))

/-- The reprobe timer of a REROUTED station runs out: a reprobe is due, the newest of those due while its home poller is
busy or has an empty list (log entry 26), or made at once; its timer reads 0 (log entry 14). RESTORE-STATION on a CUT
station makes it ONLINE on its home end, else REROUTED with its reprobe timer at 30 s and RING_DEGRADED raised once, repeat
set where it was latched; RESTORE is
pending or being sent, the displayed aspects are UNKNOWN, strings, conditions, counts and the false-open record are cleared,
and the history of its strings begins anew (log entry 33); on any other station it is WRONG_STATE (R125, R147, R157, R162,
R189).
Where the event also raises a kind and the transmitter is IDLE, that the reply goes before the notice is the model's choice,
log entry 27. -/
def Obligations.ReprobeAndRestore : Prop :=
  ∀ s : State,
    (∀ k, s.Good → s.live = true → k < s.n → (s.station k).state = .rerouted → s.reprobing k = false →
      ∃ t, exec (.reprobeTimerExpiry k) s = .next t ∧ t = { s with link := t.link } ∧ t.reprobing k = true ∧
        (t.station k).reprobe = some 0 ∧ (t.station k).state = .rerouted ∧
        (((s.poller (homeEnd s.n k)).sending.isSome = true ∨ (s.poller (homeEnd s.n k)).exchange.isSome = true ∨
            ∀ j, j < s.n → (s.station j).current ≠ homeEnd s.n k) →
          (t.poller (homeEnd s.n k)).due = (s.poller (homeEnd s.n k)).due ++ [k]) ∧
        ∀ j, j ≠ k → s.KeepsStation t j) ∧
    ∀ k : Octet, k.toNat < s.n →
      ((s.station k.toNat).state ≠ .cut →
        s.answers .restoreStation 52 [k] 20 [octet (s.station k.toNat).state.code, 0]) ∧
      ((s.station k.toNat).state = .cut →
        s.performs .restoreStation 52 [k] 0 [] fun t =>
          t.config = s.config ∧ t.sigs = s.sigs ∧ t.time = s.time ∧ s.KeepsPort t ∧
          s.KeepsFlags t [.ringDegraded, .taskUnsuccessful] ∧
          ((∀ m, (s.lane m).phase.freshOpening = false) → t.engine = s.engine) ∧
          (∀ j, j ≠ k.toNat → t.falseOpen j = s.falseOpen j ∧
            s.KeepsStation t j) ∧
          t.falseOpen k.toNat = none ∧
          (t.station k.toNat).current = (s.station k.toNat).current ∧
          ((t.station k.toNat).restorePending = true ∨
            ∃ e, (t.poller e).sending = some ⟨k, 3#8, []⟩) ∧
          ((s.station k.toNat).current = homeEnd s.n k.toNat →
            (t.station k.toNat).state = .online ∧ (t.station k.toNat).reprobe = none ∧
            s.RaisedTimes t .ringDegraded 0) ∧
          ((s.station k.toNat).current ≠ homeEnd s.n k.toNat →
            (t.station k.toNat).state = .rerouted ∧ (t.station k.toNat).reprobe = some 30000 ∧
            s.RaisedTimes t .ringDegraded 1) ∧
          (∀ h, s.hasHead h = true → h.station ≠ k.toNat →
            t.displayed h = s.displayed h ∧ t.proving h = s.proving h ∧ s.KeepsStringsOf t h) ∧
          ∀ h, s.hasHead h = true → h.station = k.toNat → t.displayed h = none ∧ t.proving h = HeadProving.reset ∧
            ∀ i, i < 10 →
              (t.string (stringKey h i)).state = .unproven ∧ (t.string (stringKey h i)).fails = 0 ∧
              (t.string (stringKey h i)).proved = false ∧ (t.string (stringKey h i)).acc = Acc.empty ∧
              (t.string (stringKey h i)).last = (s.string (stringKey h i)).last)

/-! ### The Time Base -/

/-- FLASH_SYNC is driven high while the phase is ON and low while it is OFF in DRIVING, and not driven in any other line
state (R169; derived state, log entry 25). The half-period timer's expiry toggles the phase and restarts the timer, and a
PHASE frame is pending or being sent at each end while the pollers run. An edge in FOLLOWING or FREE_RUNNING sets the phase
to the line level, restarts both timers, makes the line FOLLOWING and ends FLASH_SYNC_LOST; otherwise it is no event. The
loss timer's expiry makes FOLLOWING FREE_RUNNING and FLASH_SYNC_LOST raised and active, the phase staying (R148, R167 to
R171). -/
def Obligations.FlashPhase : Prop :=
  (∀ s : State, s.flashSyncOut = if s.time.line = .driving then some s.time.phase else none) ∧
  ∀ s : State, s.Good → s.live = true →
    (let half := s.config.records.tunnel.halfPeriod
     let toggled (t : State) : Prop := t.link.stations = s.link.stations ∧ (s.n < 2 → t.link = s.link) ∧
      (2 ≤ s.n → ∀ e, (t.poller e).phasePending = true ∨
        (t.poller e).sending = some ⟨31#8, 4#8, [if t.time.phase = true then 1#8 else 0#8]⟩)
     (s.time.halfTimer.isSome = true →
      ∃ t, exec .halfPeriodExpiry s = .next t ∧
        t = { s with time.phase := !s.time.phase, time.halfTimer := some half, link := t.link } ∧ toggled t ∧
        (s.time.line = .driving → t.flashSyncOut = some (!s.time.phase)) ∧
        (s.time.line ≠ .driving → t.flashSyncOut = none)) ∧
     (∀ high, (s.time.line = .following ∨ s.time.line = .freeRunning) →
      ∃ t, exec (.flashSyncEdge high) s = .next t ∧
        t = { s with
          time.phase := high, time.halfTimer := some half, time.lossTimer := some (3 * half), time.line := .following
          attn.active := putFlag s.attn.active .flashSyncLost false, link := t.link } ∧
        (s.time.phase = high → t.link = s.link) ∧ (s.time.phase ≠ high → toggled t)) ∧
     (∀ high, (s.time.line = .driving ∨ s.time.line = .notDriven) → exec (.flashSyncEdge high) s = .next s) ∧
     (s.time.line = .following →
      ∃ t, exec .lossTimerExpiry s = .next t ∧
        t = { s with time.line := .freeRunning, time.lossTimer := none, attn := t.attn, host := t.host } ∧
        s.KeepsPort t ∧ s.Raised t .flashSyncLost ∧ hasFlag t.attn.active .flashSyncLost = true))

/-- The second timer's expiry brings the clock to the next second of the week and restarts. Where the second becomes 0 in RUN
and entries of the schedule name the minute, the entry with the highest index is the candidate and the others are shadowed,
each raising SCHEDULE_NOT_APPLIED. The candidate is held back while HOST_SILENT is active and the autonomous-schedule flag
is off; else its plan's expansion with origin SCHEDULE is applied, whole or not at all, by the two tests of R63, each task
it supersedes raising TASK_UNSUCCESSFUL. A candidate that is held back or refused raises SCHEDULE_NOT_APPLIED once more and
leaves the engine, SCHEDULE_FIRED and TASK_UNSUCCESSFUL as they were; one that is applied raises SCHEDULE_FIRED once, and
SCHEDULE_NOT_APPLIED no more than its shadowed entries did. Every raising after the first, and every one of a kind that was
latched already, sets repeat. The last-firing record says what became of it. In every other case nothing but the clock
changes (R44, R58, R63, R64, R174, R178, R179, R180, R189). -/
def Obligations.SecondTimer : Prop :=
  ∀ (s : State) (u : Time), s.Good → s.live = true → s.time.clock = some u →
    (let now := u.next
     let ticked : State := { s with time.clock := some now, time.secondTimer := some 1000 }
     let named (i : Nat) (plan : Nat) : Prop := ∃ e, s.time.schedule[i]? = some (some e) ∧ e.plan = plan ∧
      e.weekdays.getLsbD (now.weekday - 1) = true ∧ e.hour = now.hour ∧ e.minute = now.minute
     let silenced : Prop := hasFlag s.attn.active .hostSilent = true ∧ s.config.records.tunnel.autoSchedule = false
     now.weekSecond = (u.weekSecond + 1) % 604800 ∧
     ((now.second ≠ 0 ∨ s.config.mode = .standby ∨ ∀ i plan, ¬named i plan) →
      exec .secondTimerExpiry s = .next ticked) ∧
     (now.second = 0 → s.config.mode = .run → ∀ i plan, named i plan → (∀ j p, named j p → j ≤ i) →
      ∃ t f, exec .secondTimerExpiry s = .next t ∧
        t.time = { ticked.time with lastFiring := some f } ∧ f.time = now ∧ f.candidate = i ∧ f.plan = plan ∧
        (∀ j, j ∈ f.indices ↔ ∃ p, named j p) ∧ f.indices.Pairwise (· < ·) ∧
        t.config = s.config ∧ t.sigs = s.sigs ∧ s.KeepsResolver t ∧ s.KeepsLamps t ∧ t.link = s.link ∧
        s.KeepsPort t ∧ s.Unreplied t ∧
        s.KeepsFlags t [.scheduleFired, .scheduleNotApplied, .taskUnsuccessful] ∧
        (let shadowed := f.indices.length - 1
         let unapplied (r : FiringResult) : Prop := f.result = r ∧ t.engine = s.engine ∧
          s.RaisedTimes t .scheduleNotApplied (shadowed + 1) ∧ s.RaisedTimes t .scheduleFired 0 ∧
          s.RaisedTimes t .taskUnsuccessful 0
         (silenced → unapplied .hostSilent) ∧
         (¬silenced →
          (let new := ticked.expandPlan .schedule plan
           let stays := ticked.hostTasks.length
           ((∃ l, ticked.PlanClashes new l) → unapplied .duplicate) ∧
           ((∀ l, ¬ticked.PlanClashes new l) → 8 < stays + new.length → unapplied .queueFull) ∧
           ((∀ l, ¬ticked.PlanClashes new l) → stays + new.length ≤ 8 →
            f.result = .fired ticked.markedTasks.length new.length ∧ ticked.PlanApplied t new ∧
              s.RaisedTimes t .scheduleNotApplied shadowed ∧ s.RaisedTimes t .scheduleFired 1))))))

/-! ### The clock, the schedule and the attention flags -/

/-- SET-CLOCK sets the clock RUNNING with a full second to go and no minute event; SET-SCHEDULE writes or empties one entry;
ACK-ATTENTION clears the latched and repeat flags of the named kinds, replies what they were, and ALERT follows;
SET-NOTICE-MASK makes exactly the named kinds enabled. Each is accepted in either mode, names the first field out of range,
and changes nothing else (R175, R177, R191, R192, R193). That the reply of ACK-ATTENTION is a counted list of flag pairs is
the model's choice where R199 leaves one, log entry 9. -/
def Obligations.ClockScheduleAndFlags : Prop :=
  ∀ s : State,
    (let bad (row : Octet → List Octet → Instr) (kind : Nat) (b : List Octet) (tests : List (Bool × Nat)) : Prop :=
      ∀ offset, firstBad tests = some offset → s.answers row kind b 18 [octet offset, 0]
     (∀ w h m x : Octet,
      (let tests := [(decide (1 ≤ w.toNat ∧ w.toNat ≤ 7), 0), (decide (h.toNat ≤ 23), 1), (decide (m.toNat ≤ 59), 2),
        (decide (x.toNat ≤ 59), 3)]
       bad .setClock 57 [w, h, m, x] tests ∧
       (firstBad tests = none → ∀ tag, s.takes (commandFrame 57 tag [w, h, m, x]) →
        exec (.setClock tag [w, h, m, x]) s =
          ({ s with time.clock := some ⟨w.toNat, h.toNat, m.toNat, x.toNat⟩, time.secondTimer := some 1000 } : State).replies
            (commandFrame 57 tag [w, h, m, x]) 0 []))) ∧
     (∀ i e w h m p : Octet,
      (let skip := e.toNat == 1
       let tests := [(decide (i.toNat ≤ 23), 0), (decide (e.toNat ≤ 1), 1),
        (skip || decide (1 ≤ w.toNat ∧ w.toNat ≤ 127), 2), (skip || decide (h.toNat ≤ 23), 3),
        (skip || decide (m.toNat ≤ 59), 4), (skip || decide (1 ≤ p.toNat ∧ p.toNat ≤ 8), 5)]
       bad .setSchedule 59 [i, e, w, h, m, p] tests ∧
       (firstBad tests = none →
        s.performs .setSchedule 59 [i, e, w, h, m, p] 0 [] fun t =>
          t = { s with time.schedule := t.time.schedule, host := t.host } ∧ s.KeepsPort t ∧
          ∀ j, t.time.schedule[j]? =
            if j = i.toNat then some (if e.toNat = 1 then none else some ⟨w, h.toNat, m.toNat, p.toNat⟩)
            else s.time.schedule[j]?))) ∧
     ∀ a b c : Octet,
      (let named (i : Nat) : Bool := ([a, b, c].getD (i / 8) 0).getLsbD (i % 8)
       (64 ≤ c.toNat → s.answers .ackAttention 64 [a, b, c] 18 [0, 0] ∧ s.answers .setNoticeMask 65 [a, b, c] 18 [0, 0]) ∧
       (c.toNat < 64 →
        (s.performs .ackAttention 64 [a, b, c] 0
          (counted (fun i => flagOctets (s.attn.latched.getLsbD i) ++ flagOctets (s.attn.rep.getLsbD i))
            ((List.range 22).filter named)) fun t =>
          t = { s with
            attn.latched := t.attn.latched, attn.rep := t.attn.rep, attn.alert := t.attn.alert, host := t.host } ∧
          s.KeepsPort t ∧ t.AlertFollows ∧
          ∀ i, i < 22 → t.attn.latched.getLsbD i = (s.attn.latched.getLsbD i && !named i) ∧
            t.attn.rep.getLsbD i = (s.attn.rep.getLsbD i && !named i)) ∧
        s.performs .setNoticeMask 65 [a, b, c] 0 [] fun t =>
          t = { s with attn.enabled := t.attn.enabled, host := t.host } ∧ s.KeepsPort t ∧
          ∀ i, i < 22 → t.attn.enabled.getLsbD i = named i)))
end

