-- ==== Sys2Proof/Laws/Tables.lean ====
section
/-! SUPPORT. The sparse tables: what a read gives after a write, and that every operation keeps the canonical form. -/

namespace Sys2Proof.Machine

variable {α : Type} [DecidableEq α] {d : α}

/-- The numbers of a canonical table lie above its bound. -/
def Tab.above (b : Option Nat) (i : Nat) : Prop := ∀ j, b = some j → j < i

theorem Tab.wfAbove_cons {b : Option Nat} {k : Nat} {v : α} {t : Tab α} :
    Tab.wfAbove d b ((k, v) :: t) = true ↔ Tab.above b k ∧ v ≠ d ∧ Tab.wfAbove d (some k) t = true := by
  cases b <;> simp [Tab.wfAbove, Tab.above, and_assoc]

theorem Tab.wfAbove_mono {b c : Option Nat} {t : Tab α} (h : ∀ i, Tab.above c i → Tab.above b i)
    (hw : Tab.wfAbove d c t = true) : Tab.wfAbove d b t = true := by
  cases t with
  | nil => rfl
  | cons e t => obtain ⟨h1, h2, h3⟩ := Tab.wfAbove_cons.1 hw; exact Tab.wfAbove_cons.2 ⟨h _ h1, h2, h3⟩

/-- A number at or below a canonical table's bound is not listed. -/
theorem Tab.get_of_le {t : Tab α} {k i : Nat} (hw : Tab.wfAbove d (some k) t = true) (hi : i ≤ k) :
    Tab.get d t i = d := by
  induction t generalizing k with
  | nil => rfl
  | cons e t ih =>
    obtain ⟨h1, -, h3⟩ := Tab.wfAbove_cons.1 hw
    have hlt := h1 k rfl
    rw [Tab.get, if_neg (by omega)]
    exact ih h3 (by omega)

/-- A write keeps the canonical form. -/
theorem Tab.wfAbove_set {b : Option Nat} {t : Tab α} {i : Nat} {v : α} (hb : Tab.above b i)
    (hw : Tab.wfAbove d b t = true) : Tab.wfAbove d b (Tab.set d t i v) = true := by
  induction t generalizing b with
  | nil =>
    unfold Tab.set; split
    · rfl
    · exact Tab.wfAbove_cons.2 ⟨hb, ‹_›, rfl⟩
  | cons e t ih =>
    obtain ⟨k, w⟩ := e
    obtain ⟨h1, h2, h3⟩ := Tab.wfAbove_cons.1 hw
    unfold Tab.set
    split
    · split
      · exact hw
      · exact Tab.wfAbove_cons.2 ⟨hb, ‹_›, Tab.wfAbove_cons.2 ⟨by rintro j ⟨⟩; assumption, h2, h3⟩⟩
    · split
      · subst i; split
        · exact Tab.wfAbove_mono (fun j hj m hm => lt_trans (h1 m hm) (hj _ rfl)) h3
        · exact Tab.wfAbove_cons.2 ⟨hb, ‹_›, h3⟩
      · exact Tab.wfAbove_cons.2 ⟨h1, h2, ih (by rintro j ⟨⟩; omega) h3⟩

/-- A write keeps the canonical form. -/
theorem Tab.wf_set {t : Tab α} {i : Nat} {v : α} (hw : Tab.wf d t = true) : Tab.wf d (Tab.set d t i v) = true :=
  Tab.wfAbove_set (by rintro j ⟨⟩) hw

/-- A read after a write: the value written at its number, what was there before at every other. -/
theorem Tab.get_set (t : Tab α) (i j : Nat) (v : α) (hw : Tab.wf d t = true) :
    Tab.get d (Tab.set d t i v) j = if j = i then v else Tab.get d t j := by
  suffices h : ∀ (b : Option Nat), Tab.wfAbove d b t = true →
      Tab.get d (Tab.set d t i v) j = if j = i then v else Tab.get d t j from h none hw
  induction t with
  | nil =>
    intro b _
    unfold Tab.set
    by_cases hv : v = d <;> by_cases hj : j = i <;> simp [Tab.get, *]
  | cons e t ih =>
    intro b hwb
    obtain ⟨k, w⟩ := e
    obtain ⟨h1, h2, h3⟩ := Tab.wfAbove_cons.1 hwb
    have hnot : ∀ m, m ≤ k → Tab.get d t m = d := fun m hm => Tab.get_of_le h3 hm
    have hrec := ih (hwb |> fun _ => Tab.wfAbove_mono (fun _ _ _ h => by cases h) h3) (some k) h3
    unfold Tab.set
    split
    · rename_i hik
      by_cases hv : v = d
      · rw [if_pos hv]
        by_cases hj : j = i
        · subst hj; rw [if_pos rfl, Tab.get, if_neg (by omega), hnot j (by omega), hv]
        · rw [if_neg hj]
      · rw [if_neg hv]
        by_cases hj : j = i
        · subst hj; rw [if_pos rfl, Tab.get, if_pos rfl]
        · rw [if_neg hj, Tab.get, if_neg hj]
    · split
      · rename_i hik
        subst hik
        by_cases hv : v = d
        · rw [if_pos hv]
          by_cases hj : j = i
          · subst hj; rw [if_pos rfl, hnot j (le_refl j), hv]
          · rw [if_neg hj, Tab.get, if_neg hj]
        · rw [if_neg hv]
          by_cases hj : j = i
          · subst hj; rw [if_pos rfl, Tab.get, if_pos rfl]
          · rw [if_neg hj, Tab.get, if_neg hj, Tab.get, if_neg hj]
      · rename_i hlt hne
        by_cases hjk : j = k
        · subst hjk
          rw [Tab.get, if_pos rfl, if_neg (by omega), Tab.get, if_pos rfl]
        · rw [Tab.get, if_neg hjk, hrec, Tab.get, if_neg hjk]

/-- A write leaves every other number's record as it was, in any table. -/
theorem Tab.get_set_ne (t : Tab α) {i j : Nat} (v : α) (h : j ≠ i) : Tab.get d (Tab.set d t i v) j = Tab.get d t j := by
  induction t with
  | nil => unfold Tab.set; split <;> simp [Tab.get, h]
  | cons e t ih =>
    obtain ⟨k, w⟩ := e
    unfold Tab.set
    split
    · split <;> simp [Tab.get, h]
    · split
      · subst i; split <;> simp [Tab.get, h]
      · simp only [Tab.get, ih]

/-- A record written that is not the unlisted one is read back, in any table. -/
theorem Tab.get_set_self (t : Tab α) (i : Nat) {v : α} (h : v ≠ d) : Tab.get d (Tab.set d t i v) i = v := by
  induction t with
  | nil => simp [Tab.set, h, Tab.get]
  | cons e t ih =>
    obtain ⟨k, w⟩ := e
    unfold Tab.set
    split
    · simp [Tab.get]
    · split
      · simp [Tab.get]
      · rename_i hne
        simp [Tab.get, hne, ih]

omit [DecidableEq α] in
/-- A table that lists nothing reads as the unlisted record everywhere. -/
@[simp] theorem Tab.get_nil (i : Nat) : Tab.get d ([] : Tab α) i = d := rfl

/-- Changing the records that pass a test keeps the canonical form. -/
theorem Tab.wfAbove_mapWhere {b : Option Nat} {t : Tab α} (p : Nat → Bool) (f : α → α) (hw : Tab.wfAbove d b t = true) :
    Tab.wfAbove d b (Tab.mapWhere d p f t) = true := by
  induction t generalizing b with
  | nil => rfl
  | cons e t ih =>
    obtain ⟨k, v⟩ := e
    obtain ⟨h1, h2, h3⟩ := Tab.wfAbove_cons.1 hw
    unfold Tab.mapWhere
    split
    · split
      · exact Tab.wfAbove_mono (fun j hj m hm => lt_trans (h1 m hm) (hj _ rfl)) (ih h3)
      · exact Tab.wfAbove_cons.2 ⟨h1, ‹_›, ih h3⟩
    · exact Tab.wfAbove_cons.2 ⟨h1, h2, ih h3⟩

/-- Changing the records that pass a test keeps the canonical form. -/
theorem Tab.wf_mapWhere {t : Tab α} (p : Nat → Bool) (f : α → α) (hw : Tab.wf d t = true) :
    Tab.wf d (Tab.mapWhere d p f t) = true := Tab.wfAbove_mapWhere p f hw

/-- A read after a change of the records that pass a test, by a function that leaves the unlisted record alone. -/
theorem Tab.get_mapWhere (t : Tab α) (p : Nat → Bool) (f : α → α) (hf : f d = d) (hw : Tab.wf d t = true) (j : Nat) :
    Tab.get d (Tab.mapWhere d p f t) j = if p j then f (Tab.get d t j) else Tab.get d t j := by
  suffices h : ∀ (b : Option Nat), Tab.wfAbove d b t = true →
      Tab.get d (Tab.mapWhere d p f t) j = if p j then f (Tab.get d t j) else Tab.get d t j from h none hw
  induction t with
  | nil => intro b _; simp [Tab.mapWhere, Tab.get, hf]
  | cons e t ih =>
    intro b hwb
    obtain ⟨k, v⟩ := e
    obtain ⟨h1, h2, h3⟩ := Tab.wfAbove_cons.1 hwb
    have hrec := ih (Tab.wfAbove_mono (fun _ _ _ h => by cases h) h3) (some k) h3
    by_cases hjk : j = k
    · subst hjk
      have hd : Tab.get d (Tab.mapWhere d p f t) j = d := Tab.get_of_le (Tab.wfAbove_mapWhere p f h3) (le_refl j)
      unfold Tab.mapWhere
      by_cases hp : p j = true
      · by_cases hv : f v = d <;> simp [Tab.get, hp, hv, hd]
      · simp [Tab.get, hp]
    · unfold Tab.mapWhere
      by_cases hp : p k = true
      · by_cases hv : f v = d <;> simp [Tab.get, hp, hv, hjk, hrec]
      · simp [Tab.get, hp, hjk, hrec]

omit [DecidableEq α] in
/-- A change that passes over every number changes nothing. -/
@[simp] theorem Tab.mapWhere_none [DecidableEq α] (t : Tab α) (f : α → α) : Tab.mapWhere d (fun _ => false) f t = t := by
  induction t with
  | nil => rfl
  | cons e t ih => obtain ⟨k, v⟩ := e; simp [Tab.mapWhere, ih]

/-- Forgetting the records that pass a test keeps the canonical form. -/
theorem Tab.wfAbove_eraseWhere {b : Option Nat} {t : Tab α} (p : Nat → Bool) (hw : Tab.wfAbove d b t = true) :
    Tab.wfAbove d b (Tab.eraseWhere p t) = true := by
  induction t generalizing b with
  | nil => rfl
  | cons e t ih =>
    obtain ⟨k, v⟩ := e
    obtain ⟨h1, h2, h3⟩ := Tab.wfAbove_cons.1 hw
    simp only [Tab.eraseWhere, List.filter_cons]
    split
    · exact Tab.wfAbove_cons.2 ⟨h1, h2, ih h3⟩
    · exact Tab.wfAbove_mono (fun j hj m hm => lt_trans (h1 m hm) (hj _ rfl)) (ih h3)

/-- Forgetting the records that pass a test keeps the canonical form. -/
theorem Tab.wf_eraseWhere {t : Tab α} (p : Nat → Bool) (hw : Tab.wf d t = true) :
    Tab.wf d (Tab.eraseWhere p t) = true := Tab.wfAbove_eraseWhere p hw

omit [DecidableEq α] in
/-- A read after forgetting: the unlisted record where the test passes, what was there before elsewhere. -/
theorem Tab.get_eraseWhere (t : Tab α) (p : Nat → Bool) (j : Nat) :
    Tab.get d (Tab.eraseWhere p t) j = if p j then d else Tab.get d t j := by
  induction t with
  | nil => simp [Tab.eraseWhere, Tab.get]
  | cons e t ih =>
    obtain ⟨k, v⟩ := e
    simp only [Tab.eraseWhere, List.filter_cons] at ih ⊢
    by_cases hp : p k = true <;> by_cases hjk : j = k <;> simp_all [Tab.get]

/-- Writing one record of many numbers keeps the canonical form. -/
theorem Tab.wf_setAll {t : Tab α} {v : α} (is : List Nat) (hw : Tab.wf d t = true) :
    Tab.wf d (Tab.setAll d v t is) = true := by
  induction is generalizing t with
  | nil => exact hw
  | cons i is ih => exact ih (Tab.wf_set hw)

/-- A read after writing one record of many numbers. -/
theorem Tab.get_setAll (t : Tab α) (v : α) (is : List Nat) (j : Nat) (hw : Tab.wf d t = true) :
    Tab.get d (Tab.setAll d v t is) j = if j ∈ is then v else Tab.get d t j := by
  induction is generalizing t with
  | nil => simp [Tab.setAll]
  | cons i is ih =>
    have := ih (Tab.set d t i v) (Tab.wf_set hw)
    simp only [Tab.setAll, List.foldl_cons] at this ⊢
    rw [this, Tab.get_set _ _ _ _ hw]
    by_cases h1 : j ∈ is <;> by_cases h2 : j = i <;> simp [h1, h2]

end Sys2Proof.Machine
end

