-- ==== Sys2Proof/Laws/State.lean ====
section
/-! SUPPORT. The small lemmas of the named updates: for each update, what every block of the state is after it, and what
the accessors read after it. -/

namespace Sys2Proof.Machine

variable (s : State)

@[simp] theorem State.setLane_power (l : Nat) (r : LaneRec) : (s.setLane l r).power = s.power := rfl
@[simp] theorem State.setLane_config (l : Nat) (r : LaneRec) : (s.setLane l r).config = s.config := rfl
@[simp] theorem State.setLane_resolver (l : Nat) (r : LaneRec) : (s.setLane l r).resolver = s.resolver := rfl
@[simp] theorem State.setLane_lamps (l : Nat) (r : LaneRec) : (s.setLane l r).lamps = s.lamps := rfl
@[simp] theorem State.setLane_sigs (l : Nat) (r : LaneRec) : (s.setLane l r).sigs = s.sigs := rfl
@[simp] theorem State.setLane_link (l : Nat) (r : LaneRec) : (s.setLane l r).link = s.link := rfl
@[simp] theorem State.setLane_time (l : Nat) (r : LaneRec) : (s.setLane l r).time = s.time := rfl
@[simp] theorem State.setLane_host (l : Nat) (r : LaneRec) : (s.setLane l r).host = s.host := rfl
@[simp] theorem State.setLane_attn (l : Nat) (r : LaneRec) : (s.setLane l r).attn = s.attn := rfl
@[simp] theorem State.setLane_pending (l : Nat) (r : LaneRec) : (s.setLane l r).pending = s.pending := rfl

@[simp] theorem State.setQueue_power (q : List Task) : (s.setQueue q).power = s.power := rfl
@[simp] theorem State.setQueue_config (q : List Task) : (s.setQueue q).config = s.config := rfl
@[simp] theorem State.setQueue_resolver (q : List Task) : (s.setQueue q).resolver = s.resolver := rfl
@[simp] theorem State.setQueue_lamps (q : List Task) : (s.setQueue q).lamps = s.lamps := rfl
@[simp] theorem State.setQueue_sigs (q : List Task) : (s.setQueue q).sigs = s.sigs := rfl
@[simp] theorem State.setQueue_link (q : List Task) : (s.setQueue q).link = s.link := rfl
@[simp] theorem State.setQueue_time (q : List Task) : (s.setQueue q).time = s.time := rfl
@[simp] theorem State.setQueue_host (q : List Task) : (s.setQueue q).host = s.host := rfl
@[simp] theorem State.setQueue_attn (q : List Task) : (s.setQueue q).attn = s.attn := rfl
@[simp] theorem State.setQueue_pending (q : List Task) : (s.setQueue q).pending = s.pending := rfl

@[simp] theorem State.putPhase_power (l : Nat) (p : LanePhase) (t : Option Nat) : (s.putPhase l p t).power = s.power := rfl
@[simp] theorem State.putPhase_config (l : Nat) (p : LanePhase) (t : Option Nat) : (s.putPhase l p t).config = s.config := rfl
@[simp] theorem State.putPhase_resolver (l : Nat) (p : LanePhase) (t : Option Nat) : (s.putPhase l p t).resolver = s.resolver := rfl
@[simp] theorem State.putPhase_lamps (l : Nat) (p : LanePhase) (t : Option Nat) : (s.putPhase l p t).lamps = s.lamps := rfl
@[simp] theorem State.putPhase_sigs (l : Nat) (p : LanePhase) (t : Option Nat) : (s.putPhase l p t).sigs = s.sigs := rfl
@[simp] theorem State.putPhase_link (l : Nat) (p : LanePhase) (t : Option Nat) : (s.putPhase l p t).link = s.link := rfl
@[simp] theorem State.putPhase_time (l : Nat) (p : LanePhase) (t : Option Nat) : (s.putPhase l p t).time = s.time := rfl
@[simp] theorem State.putPhase_host (l : Nat) (p : LanePhase) (t : Option Nat) : (s.putPhase l p t).host = s.host := rfl
@[simp] theorem State.putPhase_attn (l : Nat) (p : LanePhase) (t : Option Nat) : (s.putPhase l p t).attn = s.attn := rfl
@[simp] theorem State.putPhase_pending (l : Nat) (p : LanePhase) (t : Option Nat) : (s.putPhase l p t).pending = s.pending := rfl

@[simp] theorem State.writeOutcome_power (l : Nat) (o : LastOutcome) : (s.writeOutcome l o).power = s.power := rfl
@[simp] theorem State.writeOutcome_config (l : Nat) (o : LastOutcome) : (s.writeOutcome l o).config = s.config := rfl
@[simp] theorem State.writeOutcome_resolver (l : Nat) (o : LastOutcome) : (s.writeOutcome l o).resolver = s.resolver := rfl
@[simp] theorem State.writeOutcome_lamps (l : Nat) (o : LastOutcome) : (s.writeOutcome l o).lamps = s.lamps := rfl
@[simp] theorem State.writeOutcome_sigs (l : Nat) (o : LastOutcome) : (s.writeOutcome l o).sigs = s.sigs := rfl
@[simp] theorem State.writeOutcome_link (l : Nat) (o : LastOutcome) : (s.writeOutcome l o).link = s.link := rfl
@[simp] theorem State.writeOutcome_time (l : Nat) (o : LastOutcome) : (s.writeOutcome l o).time = s.time := rfl
@[simp] theorem State.writeOutcome_host (l : Nat) (o : LastOutcome) : (s.writeOutcome l o).host = s.host := rfl
@[simp] theorem State.writeOutcome_attn (l : Nat) (o : LastOutcome) : (s.writeOutcome l o).attn = s.attn := rfl
@[simp] theorem State.writeOutcome_pending (l : Nat) (o : LastOutcome) : (s.writeOutcome l o).pending = s.pending := rfl

@[simp] theorem State.enqueue_power (ts : List Task) : (s.enqueue ts).power = s.power := rfl
@[simp] theorem State.enqueue_config (ts : List Task) : (s.enqueue ts).config = s.config := rfl
@[simp] theorem State.enqueue_resolver (ts : List Task) : (s.enqueue ts).resolver = s.resolver := rfl
@[simp] theorem State.enqueue_lamps (ts : List Task) : (s.enqueue ts).lamps = s.lamps := rfl
@[simp] theorem State.enqueue_sigs (ts : List Task) : (s.enqueue ts).sigs = s.sigs := rfl
@[simp] theorem State.enqueue_link (ts : List Task) : (s.enqueue ts).link = s.link := rfl
@[simp] theorem State.enqueue_time (ts : List Task) : (s.enqueue ts).time = s.time := rfl
@[simp] theorem State.enqueue_host (ts : List Task) : (s.enqueue ts).host = s.host := rfl
@[simp] theorem State.enqueue_attn (ts : List Task) : (s.enqueue ts).attn = s.attn := rfl
@[simp] theorem State.enqueue_pending (ts : List Task) : (s.enqueue ts).pending = s.pending := rfl

@[simp] theorem State.setString_power (i : Nat) (r : StringRec) : (s.setString i r).power = s.power := rfl
@[simp] theorem State.setString_config (i : Nat) (r : StringRec) : (s.setString i r).config = s.config := rfl
@[simp] theorem State.setString_engine (i : Nat) (r : StringRec) : (s.setString i r).engine = s.engine := rfl
@[simp] theorem State.setString_resolver (i : Nat) (r : StringRec) : (s.setString i r).resolver = s.resolver := rfl
@[simp] theorem State.setString_sigs (i : Nat) (r : StringRec) : (s.setString i r).sigs = s.sigs := rfl
@[simp] theorem State.setString_link (i : Nat) (r : StringRec) : (s.setString i r).link = s.link := rfl
@[simp] theorem State.setString_time (i : Nat) (r : StringRec) : (s.setString i r).time = s.time := rfl
@[simp] theorem State.setString_host (i : Nat) (r : StringRec) : (s.setString i r).host = s.host := rfl
@[simp] theorem State.setString_attn (i : Nat) (r : StringRec) : (s.setString i r).attn = s.attn := rfl
@[simp] theorem State.setString_pending (i : Nat) (r : StringRec) : (s.setString i r).pending = s.pending := rfl

@[simp] theorem State.mapStrings_power (p : Nat → Bool) (f : StringRec → StringRec) : (s.mapStrings p f).power = s.power := rfl
@[simp] theorem State.mapStrings_config (p : Nat → Bool) (f : StringRec → StringRec) : (s.mapStrings p f).config = s.config := rfl
@[simp] theorem State.mapStrings_engine (p : Nat → Bool) (f : StringRec → StringRec) : (s.mapStrings p f).engine = s.engine := rfl
@[simp] theorem State.mapStrings_resolver (p : Nat → Bool) (f : StringRec → StringRec) : (s.mapStrings p f).resolver = s.resolver := rfl
@[simp] theorem State.mapStrings_sigs (p : Nat → Bool) (f : StringRec → StringRec) : (s.mapStrings p f).sigs = s.sigs := rfl
@[simp] theorem State.mapStrings_link (p : Nat → Bool) (f : StringRec → StringRec) : (s.mapStrings p f).link = s.link := rfl
@[simp] theorem State.mapStrings_time (p : Nat → Bool) (f : StringRec → StringRec) : (s.mapStrings p f).time = s.time := rfl
@[simp] theorem State.mapStrings_host (p : Nat → Bool) (f : StringRec → StringRec) : (s.mapStrings p f).host = s.host := rfl
@[simp] theorem State.mapStrings_attn (p : Nat → Bool) (f : StringRec → StringRec) : (s.mapStrings p f).attn = s.attn := rfl
@[simp] theorem State.mapStrings_pending (p : Nat → Bool) (f : StringRec → StringRec) : (s.mapStrings p f).pending = s.pending := rfl

@[simp] theorem State.emptyAccs_power (p : Nat → Bool) : (s.emptyAccs p).power = s.power := rfl
@[simp] theorem State.emptyAccs_config (p : Nat → Bool) : (s.emptyAccs p).config = s.config := rfl
@[simp] theorem State.emptyAccs_engine (p : Nat → Bool) : (s.emptyAccs p).engine = s.engine := rfl
@[simp] theorem State.emptyAccs_resolver (p : Nat → Bool) : (s.emptyAccs p).resolver = s.resolver := rfl
@[simp] theorem State.emptyAccs_sigs (p : Nat → Bool) : (s.emptyAccs p).sigs = s.sigs := rfl
@[simp] theorem State.emptyAccs_link (p : Nat → Bool) : (s.emptyAccs p).link = s.link := rfl
@[simp] theorem State.emptyAccs_time (p : Nat → Bool) : (s.emptyAccs p).time = s.time := rfl
@[simp] theorem State.emptyAccs_host (p : Nat → Bool) : (s.emptyAccs p).host = s.host := rfl
@[simp] theorem State.emptyAccs_attn (p : Nat → Bool) : (s.emptyAccs p).attn = s.attn := rfl
@[simp] theorem State.emptyAccs_pending (p : Nat → Bool) : (s.emptyAccs p).pending = s.pending := rfl

@[simp] theorem State.setProving_power (h : HeadRef) (r : HeadProving) : (s.setProving h r).power = s.power := rfl
@[simp] theorem State.setProving_config (h : HeadRef) (r : HeadProving) : (s.setProving h r).config = s.config := rfl
@[simp] theorem State.setProving_engine (h : HeadRef) (r : HeadProving) : (s.setProving h r).engine = s.engine := rfl
@[simp] theorem State.setProving_resolver (h : HeadRef) (r : HeadProving) : (s.setProving h r).resolver = s.resolver := rfl
@[simp] theorem State.setProving_sigs (h : HeadRef) (r : HeadProving) : (s.setProving h r).sigs = s.sigs := rfl
@[simp] theorem State.setProving_link (h : HeadRef) (r : HeadProving) : (s.setProving h r).link = s.link := rfl
@[simp] theorem State.setProving_time (h : HeadRef) (r : HeadProving) : (s.setProving h r).time = s.time := rfl
@[simp] theorem State.setProving_host (h : HeadRef) (r : HeadProving) : (s.setProving h r).host = s.host := rfl
@[simp] theorem State.setProving_attn (h : HeadRef) (r : HeadProving) : (s.setProving h r).attn = s.attn := rfl
@[simp] theorem State.setProving_pending (h : HeadRef) (r : HeadProving) : (s.setProving h r).pending = s.pending := rfl

@[simp] theorem State.mapProving_power (p : Nat → Bool) (f : HeadProving → HeadProving) : (s.mapProving p f).power = s.power := rfl
@[simp] theorem State.mapProving_config (p : Nat → Bool) (f : HeadProving → HeadProving) : (s.mapProving p f).config = s.config := rfl
@[simp] theorem State.mapProving_engine (p : Nat → Bool) (f : HeadProving → HeadProving) : (s.mapProving p f).engine = s.engine := rfl
@[simp] theorem State.mapProving_resolver (p : Nat → Bool) (f : HeadProving → HeadProving) : (s.mapProving p f).resolver = s.resolver := rfl
@[simp] theorem State.mapProving_sigs (p : Nat → Bool) (f : HeadProving → HeadProving) : (s.mapProving p f).sigs = s.sigs := rfl
@[simp] theorem State.mapProving_link (p : Nat → Bool) (f : HeadProving → HeadProving) : (s.mapProving p f).link = s.link := rfl
@[simp] theorem State.mapProving_time (p : Nat → Bool) (f : HeadProving → HeadProving) : (s.mapProving p f).time = s.time := rfl
@[simp] theorem State.mapProving_host (p : Nat → Bool) (f : HeadProving → HeadProving) : (s.mapProving p f).host = s.host := rfl
@[simp] theorem State.mapProving_attn (p : Nat → Bool) (f : HeadProving → HeadProving) : (s.mapProving p f).attn = s.attn := rfl
@[simp] theorem State.mapProving_pending (p : Nat → Bool) (f : HeadProving → HeadProving) : (s.mapProving p f).pending = s.pending := rfl

@[simp] theorem State.setDisplayed_power (h : HeadRef) (a : Option Aspect) : (s.setDisplayed h a).power = s.power := rfl
@[simp] theorem State.setDisplayed_config (h : HeadRef) (a : Option Aspect) : (s.setDisplayed h a).config = s.config := rfl
@[simp] theorem State.setDisplayed_engine (h : HeadRef) (a : Option Aspect) : (s.setDisplayed h a).engine = s.engine := rfl
@[simp] theorem State.setDisplayed_lamps (h : HeadRef) (a : Option Aspect) : (s.setDisplayed h a).lamps = s.lamps := rfl
@[simp] theorem State.setDisplayed_sigs (h : HeadRef) (a : Option Aspect) : (s.setDisplayed h a).sigs = s.sigs := rfl
@[simp] theorem State.setDisplayed_link (h : HeadRef) (a : Option Aspect) : (s.setDisplayed h a).link = s.link := rfl
@[simp] theorem State.setDisplayed_time (h : HeadRef) (a : Option Aspect) : (s.setDisplayed h a).time = s.time := rfl
@[simp] theorem State.setDisplayed_host (h : HeadRef) (a : Option Aspect) : (s.setDisplayed h a).host = s.host := rfl
@[simp] theorem State.setDisplayed_attn (h : HeadRef) (a : Option Aspect) : (s.setDisplayed h a).attn = s.attn := rfl
@[simp] theorem State.setDisplayed_pending (h : HeadRef) (a : Option Aspect) : (s.setDisplayed h a).pending = s.pending := rfl

@[simp] theorem State.setEntry_power (i : Nat) (e : SigEntry) : (s.setEntry i e).power = s.power := rfl
@[simp] theorem State.setEntry_config (i : Nat) (e : SigEntry) : (s.setEntry i e).config = s.config := rfl
@[simp] theorem State.setEntry_engine (i : Nat) (e : SigEntry) : (s.setEntry i e).engine = s.engine := rfl
@[simp] theorem State.setEntry_resolver (i : Nat) (e : SigEntry) : (s.setEntry i e).resolver = s.resolver := rfl
@[simp] theorem State.setEntry_lamps (i : Nat) (e : SigEntry) : (s.setEntry i e).lamps = s.lamps := rfl
@[simp] theorem State.setEntry_link (i : Nat) (e : SigEntry) : (s.setEntry i e).link = s.link := rfl
@[simp] theorem State.setEntry_time (i : Nat) (e : SigEntry) : (s.setEntry i e).time = s.time := rfl
@[simp] theorem State.setEntry_host (i : Nat) (e : SigEntry) : (s.setEntry i e).host = s.host := rfl
@[simp] theorem State.setEntry_attn (i : Nat) (e : SigEntry) : (s.setEntry i e).attn = s.attn := rfl
@[simp] theorem State.setEntry_pending (i : Nat) (e : SigEntry) : (s.setEntry i e).pending = s.pending := rfl

@[simp] theorem State.setIdent_power (k : Nat) (i : Option (BitVec 32)) : (s.setIdent k i).power = s.power := rfl
@[simp] theorem State.setIdent_config (k : Nat) (i : Option (BitVec 32)) : (s.setIdent k i).config = s.config := rfl
@[simp] theorem State.setIdent_engine (k : Nat) (i : Option (BitVec 32)) : (s.setIdent k i).engine = s.engine := rfl
@[simp] theorem State.setIdent_resolver (k : Nat) (i : Option (BitVec 32)) : (s.setIdent k i).resolver = s.resolver := rfl
@[simp] theorem State.setIdent_lamps (k : Nat) (i : Option (BitVec 32)) : (s.setIdent k i).lamps = s.lamps := rfl
@[simp] theorem State.setIdent_link (k : Nat) (i : Option (BitVec 32)) : (s.setIdent k i).link = s.link := rfl
@[simp] theorem State.setIdent_time (k : Nat) (i : Option (BitVec 32)) : (s.setIdent k i).time = s.time := rfl
@[simp] theorem State.setIdent_host (k : Nat) (i : Option (BitVec 32)) : (s.setIdent k i).host = s.host := rfl
@[simp] theorem State.setIdent_attn (k : Nat) (i : Option (BitVec 32)) : (s.setIdent k i).attn = s.attn := rfl
@[simp] theorem State.setIdent_pending (k : Nat) (i : Option (BitVec 32)) : (s.setIdent k i).pending = s.pending := rfl

@[simp] theorem State.setUnsaved_power : (s.setUnsaved).power = s.power := rfl
@[simp] theorem State.setUnsaved_config : (s.setUnsaved).config = s.config := rfl
@[simp] theorem State.setUnsaved_engine : (s.setUnsaved).engine = s.engine := rfl
@[simp] theorem State.setUnsaved_resolver : (s.setUnsaved).resolver = s.resolver := rfl
@[simp] theorem State.setUnsaved_lamps : (s.setUnsaved).lamps = s.lamps := rfl
@[simp] theorem State.setUnsaved_link : (s.setUnsaved).link = s.link := rfl
@[simp] theorem State.setUnsaved_time : (s.setUnsaved).time = s.time := rfl
@[simp] theorem State.setUnsaved_host : (s.setUnsaved).host = s.host := rfl
@[simp] theorem State.setUnsaved_attn : (s.setUnsaved).attn = s.attn := rfl
@[simp] theorem State.setUnsaved_pending : (s.setUnsaved).pending = s.pending := rfl

@[simp] theorem State.setStation_power (k : Nat) (r : StationRec) : (s.setStation k r).power = s.power := rfl
@[simp] theorem State.setStation_config (k : Nat) (r : StationRec) : (s.setStation k r).config = s.config := rfl
@[simp] theorem State.setStation_engine (k : Nat) (r : StationRec) : (s.setStation k r).engine = s.engine := rfl
@[simp] theorem State.setStation_resolver (k : Nat) (r : StationRec) : (s.setStation k r).resolver = s.resolver := rfl
@[simp] theorem State.setStation_lamps (k : Nat) (r : StationRec) : (s.setStation k r).lamps = s.lamps := rfl
@[simp] theorem State.setStation_sigs (k : Nat) (r : StationRec) : (s.setStation k r).sigs = s.sigs := rfl
@[simp] theorem State.setStation_time (k : Nat) (r : StationRec) : (s.setStation k r).time = s.time := rfl
@[simp] theorem State.setStation_host (k : Nat) (r : StationRec) : (s.setStation k r).host = s.host := rfl
@[simp] theorem State.setStation_attn (k : Nat) (r : StationRec) : (s.setStation k r).attn = s.attn := rfl
@[simp] theorem State.setStation_pending (k : Nat) (r : StationRec) : (s.setStation k r).pending = s.pending := rfl

@[simp] theorem State.dropReprobe_power (k : Nat) : (s.dropReprobe k).power = s.power := rfl
@[simp] theorem State.dropReprobe_config (k : Nat) : (s.dropReprobe k).config = s.config := rfl
@[simp] theorem State.dropReprobe_engine (k : Nat) : (s.dropReprobe k).engine = s.engine := rfl
@[simp] theorem State.dropReprobe_resolver (k : Nat) : (s.dropReprobe k).resolver = s.resolver := rfl
@[simp] theorem State.dropReprobe_lamps (k : Nat) : (s.dropReprobe k).lamps = s.lamps := rfl
@[simp] theorem State.dropReprobe_sigs (k : Nat) : (s.dropReprobe k).sigs = s.sigs := rfl
@[simp] theorem State.dropReprobe_time (k : Nat) : (s.dropReprobe k).time = s.time := rfl
@[simp] theorem State.dropReprobe_host (k : Nat) : (s.dropReprobe k).host = s.host := rfl
@[simp] theorem State.dropReprobe_attn (k : Nat) : (s.dropReprobe k).attn = s.attn := rfl
@[simp] theorem State.dropReprobe_pending (k : Nat) : (s.dropReprobe k).pending = s.pending := rfl
@[simp] theorem State.dropReprobe_stations (k : Nat) : (s.dropReprobe k).link.stations = s.link.stations := rfl
@[simp] theorem State.dropReprobe_station (k j : Nat) : (s.dropReprobe k).station j = s.station j := rfl
@[simp] theorem State.dropReprobe_poller (k : Nat) (e : LinkEnd) :
    (s.dropReprobe k).poller e = (s.poller e).withoutReprobe k := by cases e <;> rfl
@[simp] theorem State.dropPoll_power (k : Nat) : (s.dropPoll k).power = s.power := rfl
@[simp] theorem State.dropPoll_config (k : Nat) : (s.dropPoll k).config = s.config := rfl
@[simp] theorem State.dropPoll_engine (k : Nat) : (s.dropPoll k).engine = s.engine := rfl
@[simp] theorem State.dropPoll_resolver (k : Nat) : (s.dropPoll k).resolver = s.resolver := rfl
@[simp] theorem State.dropPoll_lamps (k : Nat) : (s.dropPoll k).lamps = s.lamps := rfl
@[simp] theorem State.dropPoll_sigs (k : Nat) : (s.dropPoll k).sigs = s.sigs := rfl
@[simp] theorem State.dropPoll_time (k : Nat) : (s.dropPoll k).time = s.time := rfl
@[simp] theorem State.dropPoll_host (k : Nat) : (s.dropPoll k).host = s.host := rfl
@[simp] theorem State.dropPoll_attn (k : Nat) : (s.dropPoll k).attn = s.attn := rfl
@[simp] theorem State.dropPoll_pending (k : Nat) : (s.dropPoll k).pending = s.pending := rfl
@[simp] theorem State.dropPoll_stations (k : Nat) : (s.dropPoll k).link.stations = s.link.stations := rfl
@[simp] theorem State.dropPoll_station (k j : Nat) : (s.dropPoll k).station j = s.station j := rfl
@[simp] theorem State.dropPoll_poller (k : Nat) (e : LinkEnd) : (s.dropPoll k).poller e = (s.poller e).withoutPoll k := by
  cases e <;> rfl

@[simp] theorem State.abandonExchanges_power : (s.abandonExchanges).power = s.power := rfl
@[simp] theorem State.abandonExchanges_config : (s.abandonExchanges).config = s.config := rfl
@[simp] theorem State.abandonExchanges_engine : (s.abandonExchanges).engine = s.engine := rfl
@[simp] theorem State.abandonExchanges_resolver : (s.abandonExchanges).resolver = s.resolver := rfl
@[simp] theorem State.abandonExchanges_lamps : (s.abandonExchanges).lamps = s.lamps := rfl
@[simp] theorem State.abandonExchanges_sigs : (s.abandonExchanges).sigs = s.sigs := rfl
@[simp] theorem State.abandonExchanges_time : (s.abandonExchanges).time = s.time := rfl
@[simp] theorem State.abandonExchanges_host : (s.abandonExchanges).host = s.host := rfl
@[simp] theorem State.abandonExchanges_attn : (s.abandonExchanges).attn = s.attn := rfl
@[simp] theorem State.abandonExchanges_pending : (s.abandonExchanges).pending = s.pending := rfl

@[simp] theorem State.report_power (k : AttnKind) (v : Bool) : (s.report k v).power = s.power := rfl
@[simp] theorem State.report_config (k : AttnKind) (v : Bool) : (s.report k v).config = s.config := rfl
@[simp] theorem State.report_engine (k : AttnKind) (v : Bool) : (s.report k v).engine = s.engine := rfl
@[simp] theorem State.report_resolver (k : AttnKind) (v : Bool) : (s.report k v).resolver = s.resolver := rfl
@[simp] theorem State.report_lamps (k : AttnKind) (v : Bool) : (s.report k v).lamps = s.lamps := rfl
@[simp] theorem State.report_sigs (k : AttnKind) (v : Bool) : (s.report k v).sigs = s.sigs := rfl
@[simp] theorem State.report_link (k : AttnKind) (v : Bool) : (s.report k v).link = s.link := rfl
@[simp] theorem State.report_time (k : AttnKind) (v : Bool) : (s.report k v).time = s.time := rfl
@[simp] theorem State.report_host (k : AttnKind) (v : Bool) : (s.report k v).host = s.host := rfl
@[simp] theorem State.report_pending (k : AttnKind) (v : Bool) : (s.report k v).pending = s.pending := rfl

@[simp] theorem State.driveAlert_power : (s.driveAlert).power = s.power := rfl
@[simp] theorem State.driveAlert_config : (s.driveAlert).config = s.config := rfl
@[simp] theorem State.driveAlert_engine : (s.driveAlert).engine = s.engine := rfl
@[simp] theorem State.driveAlert_resolver : (s.driveAlert).resolver = s.resolver := rfl
@[simp] theorem State.driveAlert_lamps : (s.driveAlert).lamps = s.lamps := rfl
@[simp] theorem State.driveAlert_sigs : (s.driveAlert).sigs = s.sigs := rfl
@[simp] theorem State.driveAlert_link : (s.driveAlert).link = s.link := rfl
@[simp] theorem State.driveAlert_time : (s.driveAlert).time = s.time := rfl
@[simp] theorem State.driveAlert_host : (s.driveAlert).host = s.host := rfl
@[simp] theorem State.driveAlert_pending : (s.driveAlert).pending = s.pending := rfl

@[simp] theorem State.raise_power (k : AttnKind) : (s.raise k).power = s.power := rfl
@[simp] theorem State.raise_config (k : AttnKind) : (s.raise k).config = s.config := rfl
@[simp] theorem State.raise_engine (k : AttnKind) : (s.raise k).engine = s.engine := rfl
@[simp] theorem State.raise_resolver (k : AttnKind) : (s.raise k).resolver = s.resolver := rfl
@[simp] theorem State.raise_lamps (k : AttnKind) : (s.raise k).lamps = s.lamps := rfl
@[simp] theorem State.raise_sigs (k : AttnKind) : (s.raise k).sigs = s.sigs := rfl
@[simp] theorem State.raise_link (k : AttnKind) : (s.raise k).link = s.link := rfl
@[simp] theorem State.raise_time (k : AttnKind) : (s.raise k).time = s.time := rfl
@[simp] theorem State.raise_pending (k : AttnKind) : (s.raise k).pending = s.pending := rfl

@[simp] theorem State.releaseSlot_power : (s.releaseSlot).power = s.power := rfl
@[simp] theorem State.releaseSlot_config : (s.releaseSlot).config = s.config := rfl
@[simp] theorem State.releaseSlot_engine : (s.releaseSlot).engine = s.engine := rfl
@[simp] theorem State.releaseSlot_resolver : (s.releaseSlot).resolver = s.resolver := rfl
@[simp] theorem State.releaseSlot_lamps : (s.releaseSlot).lamps = s.lamps := rfl
@[simp] theorem State.releaseSlot_sigs : (s.releaseSlot).sigs = s.sigs := rfl
@[simp] theorem State.releaseSlot_link : (s.releaseSlot).link = s.link := rfl
@[simp] theorem State.releaseSlot_time : (s.releaseSlot).time = s.time := rfl
@[simp] theorem State.releaseSlot_attn : (s.releaseSlot).attn = s.attn := rfl
@[simp] theorem State.releaseSlot_pending : (s.releaseSlot).pending = s.pending := rfl

@[simp] theorem State.complete_power (f : HostFrame) (r : Reply) : (s.complete f r).power = s.power := rfl
@[simp] theorem State.complete_config (f : HostFrame) (r : Reply) : (s.complete f r).config = s.config := rfl
@[simp] theorem State.complete_engine (f : HostFrame) (r : Reply) : (s.complete f r).engine = s.engine := rfl
@[simp] theorem State.complete_resolver (f : HostFrame) (r : Reply) : (s.complete f r).resolver = s.resolver := rfl
@[simp] theorem State.complete_lamps (f : HostFrame) (r : Reply) : (s.complete f r).lamps = s.lamps := rfl
@[simp] theorem State.complete_sigs (f : HostFrame) (r : Reply) : (s.complete f r).sigs = s.sigs := rfl
@[simp] theorem State.complete_link (f : HostFrame) (r : Reply) : (s.complete f r).link = s.link := rfl
@[simp] theorem State.complete_time (f : HostFrame) (r : Reply) : (s.complete f r).time = s.time := rfl
@[simp] theorem State.complete_attn (f : HostFrame) (r : Reply) : (s.complete f r).attn = s.attn := rfl
@[simp] theorem State.complete_pending (f : HostFrame) (r : Reply) : (s.complete f r).pending = s.pending := rfl

@[simp] theorem State.zeroCounters_power : (s.zeroCounters).power = s.power := rfl
@[simp] theorem State.zeroCounters_config : (s.zeroCounters).config = s.config := rfl
@[simp] theorem State.zeroCounters_engine : (s.zeroCounters).engine = s.engine := rfl
@[simp] theorem State.zeroCounters_resolver : (s.zeroCounters).resolver = s.resolver := rfl
@[simp] theorem State.zeroCounters_lamps : (s.zeroCounters).lamps = s.lamps := rfl
@[simp] theorem State.zeroCounters_sigs : (s.zeroCounters).sigs = s.sigs := rfl
@[simp] theorem State.zeroCounters_link : (s.zeroCounters).link = s.link := rfl
@[simp] theorem State.zeroCounters_time : (s.zeroCounters).time = s.time := rfl
@[simp] theorem State.zeroCounters_attn : (s.zeroCounters).attn = s.attn := rfl
@[simp] theorem State.zeroCounters_pending : (s.zeroCounters).pending = s.pending := rfl

@[simp] theorem State.startHalf_power : (s.startHalf).power = s.power := rfl
@[simp] theorem State.startHalf_config : (s.startHalf).config = s.config := rfl
@[simp] theorem State.startHalf_engine : (s.startHalf).engine = s.engine := rfl
@[simp] theorem State.startHalf_resolver : (s.startHalf).resolver = s.resolver := rfl
@[simp] theorem State.startHalf_lamps : (s.startHalf).lamps = s.lamps := rfl
@[simp] theorem State.startHalf_sigs : (s.startHalf).sigs = s.sigs := rfl
@[simp] theorem State.startHalf_link : (s.startHalf).link = s.link := rfl
@[simp] theorem State.startHalf_host : (s.startHalf).host = s.host := rfl
@[simp] theorem State.startHalf_attn : (s.startHalf).attn = s.attn := rfl
@[simp] theorem State.startHalf_pending : (s.startHalf).pending = s.pending := rfl

@[simp] theorem State.startLampTest_power (k : Nat) (f : Face) (a : Aspect) : (s.startLampTest k f a).power = s.power := rfl
@[simp] theorem State.startLampTest_config (k : Nat) (f : Face) (a : Aspect) : (s.startLampTest k f a).config = s.config := rfl
@[simp] theorem State.startLampTest_engine (k : Nat) (f : Face) (a : Aspect) : (s.startLampTest k f a).engine = s.engine := rfl
@[simp] theorem State.startLampTest_lamps (k : Nat) (f : Face) (a : Aspect) : (s.startLampTest k f a).lamps = s.lamps := rfl
@[simp] theorem State.startLampTest_sigs (k : Nat) (f : Face) (a : Aspect) : (s.startLampTest k f a).sigs = s.sigs := rfl
@[simp] theorem State.startLampTest_link (k : Nat) (f : Face) (a : Aspect) : (s.startLampTest k f a).link = s.link := rfl
@[simp] theorem State.startLampTest_time (k : Nat) (f : Face) (a : Aspect) : (s.startLampTest k f a).time = s.time := rfl
@[simp] theorem State.startLampTest_host (k : Nat) (f : Face) (a : Aspect) : (s.startLampTest k f a).host = s.host := rfl
@[simp] theorem State.startLampTest_attn (k : Nat) (f : Face) (a : Aspect) : (s.startLampTest k f a).attn = s.attn := rfl
@[simp] theorem State.startLampTest_pending (k : Nat) (f : Face) (a : Aspect) : (s.startLampTest k f a).pending = s.pending := rfl

@[simp] theorem State.dropOverride_power (h : HeadRef) : (s.dropOverride h).power = s.power := rfl
@[simp] theorem State.dropOverride_config (h : HeadRef) : (s.dropOverride h).config = s.config := rfl
@[simp] theorem State.dropOverride_engine (h : HeadRef) : (s.dropOverride h).engine = s.engine := rfl
@[simp] theorem State.dropOverride_lamps (h : HeadRef) : (s.dropOverride h).lamps = s.lamps := rfl
@[simp] theorem State.dropOverride_sigs (h : HeadRef) : (s.dropOverride h).sigs = s.sigs := rfl
@[simp] theorem State.dropOverride_link (h : HeadRef) : (s.dropOverride h).link = s.link := rfl
@[simp] theorem State.dropOverride_time (h : HeadRef) : (s.dropOverride h).time = s.time := rfl
@[simp] theorem State.dropOverride_host (h : HeadRef) : (s.dropOverride h).host = s.host := rfl
@[simp] theorem State.dropOverride_attn (h : HeadRef) : (s.dropOverride h).attn = s.attn := rfl
@[simp] theorem State.dropOverride_pending (h : HeadRef) : (s.dropOverride h).pending = s.pending := rfl

@[simp] theorem State.placeOverride_power (h : HeadRef) (a : Aspect) (m : Nat) : (s.placeOverride h a m).power = s.power := rfl
@[simp] theorem State.placeOverride_config (h : HeadRef) (a : Aspect) (m : Nat) : (s.placeOverride h a m).config = s.config := rfl
@[simp] theorem State.placeOverride_engine (h : HeadRef) (a : Aspect) (m : Nat) : (s.placeOverride h a m).engine = s.engine := rfl
@[simp] theorem State.placeOverride_lamps (h : HeadRef) (a : Aspect) (m : Nat) : (s.placeOverride h a m).lamps = s.lamps := rfl
@[simp] theorem State.placeOverride_sigs (h : HeadRef) (a : Aspect) (m : Nat) : (s.placeOverride h a m).sigs = s.sigs := rfl
@[simp] theorem State.placeOverride_link (h : HeadRef) (a : Aspect) (m : Nat) : (s.placeOverride h a m).link = s.link := rfl
@[simp] theorem State.placeOverride_time (h : HeadRef) (a : Aspect) (m : Nat) : (s.placeOverride h a m).time = s.time := rfl
@[simp] theorem State.placeOverride_host (h : HeadRef) (a : Aspect) (m : Nat) : (s.placeOverride h a m).host = s.host := rfl
@[simp] theorem State.placeOverride_attn (h : HeadRef) (a : Aspect) (m : Nat) : (s.placeOverride h a m).attn = s.attn := rfl
@[simp] theorem State.placeOverride_pending (h : HeadRef) (a : Aspect) (m : Nat) : (s.placeOverride h a m).pending = s.pending := rfl

@[simp] theorem State.setPoller_power (e : LinkEnd) (p : Poller) : (s.setPoller e p).power = s.power := by cases e <;> rfl
@[simp] theorem State.setPoller_config (e : LinkEnd) (p : Poller) : (s.setPoller e p).config = s.config := by cases e <;> rfl
@[simp] theorem State.setPoller_engine (e : LinkEnd) (p : Poller) : (s.setPoller e p).engine = s.engine := by cases e <;> rfl
@[simp] theorem State.setPoller_resolver (e : LinkEnd) (p : Poller) : (s.setPoller e p).resolver = s.resolver := by cases e <;> rfl
@[simp] theorem State.setPoller_lamps (e : LinkEnd) (p : Poller) : (s.setPoller e p).lamps = s.lamps := by cases e <;> rfl
@[simp] theorem State.setPoller_sigs (e : LinkEnd) (p : Poller) : (s.setPoller e p).sigs = s.sigs := by cases e <;> rfl
@[simp] theorem State.setPoller_time (e : LinkEnd) (p : Poller) : (s.setPoller e p).time = s.time := by cases e <;> rfl
@[simp] theorem State.setPoller_host (e : LinkEnd) (p : Poller) : (s.setPoller e p).host = s.host := by cases e <;> rfl
@[simp] theorem State.setPoller_attn (e : LinkEnd) (p : Poller) : (s.setPoller e p).attn = s.attn := by cases e <;> rfl
@[simp] theorem State.setPoller_pending (e : LinkEnd) (p : Poller) : (s.setPoller e p).pending = s.pending := by cases e <;> rfl

/-! ### What the accessors read after an update -/

@[simp] theorem State.setQueue_queue (q : List Task) : (s.setQueue q).engine.queue = q := rfl
@[simp] theorem State.setQueue_lane (q : List Task) (l : Nat) : (s.setQueue q).lane l = s.lane l := rfl
@[simp] theorem State.setQueue_plans (q : List Task) : (s.setQueue q).engine.plans = s.engine.plans := rfl
@[simp] theorem State.setLane_queue (l : Nat) (r : LaneRec) : (s.setLane l r).engine.queue = s.engine.queue := rfl
@[simp] theorem State.setLane_plans (l : Nat) (r : LaneRec) : (s.setLane l r).engine.plans = s.engine.plans := rfl
@[simp] theorem State.putPhase_queue (l : Nat) (p : LanePhase) (t : Option Nat) :
    (s.putPhase l p t).engine.queue = s.engine.queue := rfl
@[simp] theorem State.writeOutcome_queue (l : Nat) (o : LastOutcome) :
    (s.writeOutcome l o).engine.queue = s.engine.queue := rfl
@[simp] theorem State.enqueue_queue (ts : List Task) : (s.enqueue ts).engine.queue = s.engine.queue ++ ts := rfl
@[simp] theorem State.enqueue_lane (ts : List Task) (l : Nat) : (s.enqueue ts).lane l = s.lane l := rfl

/-- A lane's record after a write to another lane. -/
theorem State.setLane_lane_ne {l m : Nat} (r : LaneRec) (h : m ≠ l) : (s.setLane l r).lane m = s.lane m :=
  Tab.get_set_ne _ _ h

/-- A lane's record after it was written, in a canonical table. -/
theorem State.setLane_lane (l m : Nat) (r : LaneRec) (hw : Tab.wf LaneRec.reset s.engine.lanes = true) :
    (s.setLane l r).lane m = if m = l then r else s.lane m := Tab.get_set _ _ _ _ hw

/-- A station's record after a write, in a canonical table. -/
theorem State.setStation_station (k m : Nat) (r : StationRec)
    (hw : Tab.wf (StationRec.reset .west) s.link.stations = true) :
    (s.setStation k r).station m = if m = k then r else s.station m := Tab.get_set _ _ _ _ hw

/-- A string's record after a write, in a canonical table. -/
theorem State.setString_string (i j : Nat) (r : StringRec) (hw : Tab.wf StringRec.reset s.lamps.strings = true) :
    (s.setString i r).string j = if j = i then r else s.string j := Tab.get_set _ _ _ _ hw

/-- A signature entry after a write, in a canonical table. -/
theorem State.setEntry_entry (i j : Nat) (e : SigEntry) (hw : Tab.wf .unlearned s.sigs.entries = true) :
    (s.setEntry i e).entry j = if j = i then e else s.entry j := Tab.get_set _ _ _ _ hw

/-- A string's record after the accumulators of some strings were emptied. -/
theorem State.emptyAccs_string (p : Nat → Bool) (j : Nat) (hw : Tab.wf StringRec.reset s.lamps.strings = true) :
    (s.emptyAccs p).string j = if p j then (s.string j).emptied else s.string j :=
  Tab.get_mapWhere _ _ _ rfl hw j

/-- A string's record after a function was mapped over some strings, one that keeps the record an unlisted string has. -/
theorem State.mapStrings_string (p : Nat → Bool) (f : StringRec → StringRec) (hf : f StringRec.reset = StringRec.reset)
    (j : Nat) (hw : Tab.wf StringRec.reset s.lamps.strings = true) :
    (s.mapStrings p f).string j = if p j then f (s.string j) else s.string j :=
  Tab.get_mapWhere _ _ _ hf hw j

/-! A string record made UNPROVEN, cleared, or left by a return from LOST (R124 to R126). -/

@[simp] theorem StringRec.unprove_state (r : StringRec) : r.unprove.state = .unproven := rfl
@[simp] theorem StringRec.unprove_fails (r : StringRec) : r.unprove.fails = 0 := rfl
@[simp] theorem StringRec.unprove_acc (r : StringRec) : r.unprove.acc = r.acc := rfl
@[simp] theorem StringRec.unprove_last (r : StringRec) : r.unprove.last = r.last := rfl
@[simp] theorem StringRec.unprove_proved (r : StringRec) : r.unprove.proved = false := rfl
@[simp] theorem StringRec.cleared_state (r : StringRec) : r.cleared.state = .unproven := rfl
@[simp] theorem StringRec.cleared_fails (r : StringRec) : r.cleared.fails = 0 := rfl
@[simp] theorem StringRec.cleared_acc (r : StringRec) : r.cleared.acc = Acc.empty := rfl
@[simp] theorem StringRec.cleared_last (r : StringRec) : r.cleared.last = r.last := rfl
@[simp] theorem StringRec.cleared_proved (r : StringRec) : r.cleared.proved = false := rfl
@[simp] theorem StringRec.emptied_proved (r : StringRec) : r.emptied.proved = r.proved := rfl
@[simp] theorem StringRec.returned_proved (r : StringRec) : r.returned.proved = false := by
  unfold StringRec.returned; split <;> rfl
@[simp] theorem StringRec.returned_acc (r : StringRec) : r.returned.acc = r.acc := by
  unfold StringRec.returned; split <;> rfl
@[simp] theorem StringRec.returned_last (r : StringRec) : r.returned.last = r.last := by
  unfold StringRec.returned; split <;> rfl

/-- What the proven closure of a head asks of the two strings of its SHUT aspect (R33). -/
theorem State.shutProven_iff (h : HeadRef) :
    s.shutProven h = true ↔
      (s.string (stringKey h (stringIndex .shut 1))).state = .ok ∨
        (s.string (stringKey h (stringIndex .shut 2))).state = .ok := by
  simp [State.shutProven]

@[simp] theorem State.setPoller_west (p : Poller) : (s.setPoller .west p).link.west = p := rfl
@[simp] theorem State.setPoller_east (p : Poller) : (s.setPoller .east p).link.east = p := rfl
@[simp] theorem State.setPoller_poller (e : LinkEnd) (p : Poller) : (s.setPoller e p).poller e = p := by cases e <;> rfl
@[simp] theorem State.setPoller_stations (e : LinkEnd) (p : Poller) :
    (s.setPoller e p).link.stations = s.link.stations := by cases e <;> rfl
@[simp] theorem State.setPoller_station (e : LinkEnd) (p : Poller) (k : Nat) :
    (s.setPoller e p).station k = s.station k := by cases e <;> rfl
@[simp] theorem State.setPoller_other (e : LinkEnd) (p : Poller) :
    (s.setPoller e p).poller e.other = s.poller e.other := by cases e <;> rfl
@[simp] theorem State.setStation_poller (k : Nat) (r : StationRec) (e : LinkEnd) :
    (s.setStation k r).poller e = s.poller e := by cases e <;> rfl

@[simp] theorem State.report_latched (k : AttnKind) (v : Bool) : (s.report k v).attn.latched = s.attn.latched := rfl
@[simp] theorem State.report_rep (k : AttnKind) (v : Bool) : (s.report k v).attn.rep = s.attn.rep := rfl
@[simp] theorem State.report_enabled (k : AttnKind) (v : Bool) : (s.report k v).attn.enabled = s.attn.enabled := rfl
@[simp] theorem State.report_active (k : AttnKind) (v : Bool) :
    (s.report k v).attn.active = putFlag s.attn.active k v := rfl
@[simp] theorem State.raise_active (k : AttnKind) : (s.raise k).attn.active = s.attn.active := by
  unfold State.raise; split <;> rfl
@[simp] theorem State.raise_enabled (k : AttnKind) : (s.raise k).attn.enabled = s.attn.enabled := by
  unfold State.raise; split <;> rfl
@[simp] theorem State.raise_slots (k : AttnKind) : (s.raise k).host.slots = s.host.slots := rfl
@[simp] theorem State.raise_replies (k : AttnKind) : (s.raise k).host.replies = s.host.replies := rfl
@[simp] theorem State.raise_tx (k : AttnKind) : (s.raise k).host.tx = s.host.tx := rfl
@[simp] theorem State.raise_processor (k : AttnKind) : (s.raise k).host.processor = s.host.processor := rfl

@[simp] theorem State.complete_slots (f : HostFrame) (r : Reply) : (s.complete f r).host.slots = s.host.slots.tail := rfl
@[simp] theorem State.complete_replies (f : HostFrame) (r : Reply) :
    (s.complete f r).host.replies = s.host.replies ++ [s.releaseSlot.replyTo f r] := rfl
@[simp] theorem State.complete_tx (f : HostFrame) (r : Reply) : (s.complete f r).host.tx = s.host.tx := rfl

end Sys2Proof.Machine
end

