-- ==== Sys2Proof/Laws/Attention.lean ====
section
/-! SUPPORT. The attention flags: what a flag word reads after a write, and that raisings count (R189): how often a kind has
been raised says what its latched and repeat flags are. -/

namespace Sys2Proof.Machine

theorem AttnKind.index_lt (k : AttnKind) : k.index < 22 := by cases k <;> decide

/-- One flag of a flag word after a write (R189). -/
theorem getLsbD_putFlag (w : BitVec 22) (k : AttnKind) (v : Bool) (i : Nat) :
    (putFlag w k v).getLsbD i = if i = k.index then v else w.getLsbD i := by
  have hk := k.index_lt
  unfold putFlag AttnKind.bit
  by_cases hi : i = k.index
  · subst hi; cases v <;> simp [hk]
  · cases v
    · by_cases h22 : i < 22
      · simp [hi, h22]
      · simp [hi, h22, BitVec.getLsbD_of_ge w i (by omega)]
    · simp [hi, BitVec.getLsbD_twoPow, Ne.symm hi]

theorem AttnKind.index_inj {j k : AttnKind} (h : j.index = k.index) : j = k := by
  cases j <;> cases k <;> first | rfl | exact absurd h (by decide)

/-- The flag of a kind after the flag of a kind was written. -/
theorem hasFlag_putFlag (w : BitVec 22) (j k : AttnKind) (v : Bool) :
    hasFlag (putFlag w k v) j = if j = k then v else hasFlag w j := by
  unfold hasFlag
  rw [getLsbD_putFlag]
  by_cases h : j = k
  · rw [if_pos h, if_pos (by rw [h])]
  · rw [if_neg h, if_neg fun e => h (AttnKind.index_inj e)]

variable {s t u : State} {j k : AttnKind} {m n : Nat}

namespace State.RaisedTimes

/-- Flags that stay have been raised no time. -/
theorem of_attn (h : t.attn = s.attn) : s.RaisedTimes t k 0 := by simp [State.RaisedTimes, h]

theorem refl (s : State) (k : AttnKind) : s.RaisedTimes s k 0 := of_attn rfl

/-- Raisings of two events add up. -/
theorem trans (h : s.RaisedTimes t k m) (g : t.RaisedTimes u k n) : s.RaisedTimes u k (m + n) := by
  obtain ⟨h1, h2⟩ := h
  obtain ⟨g1, g2⟩ := g
  rw [h1] at g1 g2
  rw [h2] at g2
  cases hl : hasFlag s.attn.latched k <;> simp only [hl] at g1 g2 <;>
    refine ⟨g1.trans (Bool.eq_iff_iff.mpr ?_), g2.trans (Bool.eq_iff_iff.mpr ?_)⟩ <;>
    simp only [hl, Bool.or_eq_true, Bool.and_eq_true, decide_eq_true_eq, reduceCtorEq] <;>
    cases hasFlag s.attn.rep k <;> simp <;> omega

/-- Raised so often means raised so often or more. -/
theorem atLeast (h : s.RaisedTimes t k n) (hm : m ≤ n) : s.RaisedAtLeast t k m := by
  obtain ⟨h1, h2⟩ := h
  refine ⟨fun hp => ?_, fun hp hr => ?_⟩
  · rw [h1]; simp; omega
  · rw [h2]
    simp only [Bool.or_eq_true, Bool.and_eq_true, decide_eq_true_eq]
    rcases hr with hr | hr
    · exact .inr (.inl (by omega))
    · exact .inr (.inr ⟨by omega, hr⟩)

end State.RaisedTimes

/-- A raising raises its kind once (R189). -/
theorem raise_raisedTimes (s : State) (k : AttnKind) : s.RaisedTimes (s.raise k) k 1 := by
  unfold State.RaisedTimes State.raise
  cases h : hasFlag s.attn.latched k <;> simp [hasFlag_putFlag, h]

/-- A raising raises no other kind (R189). -/
theorem raise_raisedTimes_ne (s : State) (h : j ≠ k) : s.RaisedTimes (s.raise k) j 0 := by
  unfold State.RaisedTimes State.raise
  cases hasFlag s.attn.latched k <;> simp [hasFlag_putFlag, h]

/-- A kind raised `n` times in one event is raised `n` times (R189). -/
theorem raiseTimes_raisedTimes (s : State) (k : AttnKind) (n : Nat) : s.RaisedTimes (s.raiseTimes k n) k n := by
  induction n generalizing s with
  | zero => exact .refl s k
  | succ n ih =>
    have h := (raise_raisedTimes s k).trans (ih (s.raise k))
    rwa [Nat.add_comm] at h

/-- And no other kind is raised by it. -/
theorem raiseTimes_raisedTimes_ne (s : State) (h : j ≠ k) (n : Nat) : s.RaisedTimes (s.raiseTimes k n) j 0 := by
  induction n generalizing s with
  | zero => exact .refl s j
  | succ n ih => exact (raise_raisedTimes_ne s h).trans (ih _)

/-- A task's ending raises TASK_DONE or TASK_UNSUCCESSFUL once, by its outcome (R44). -/
theorem endTask_raisedTimes (s : State) (v : Task) (o : TaskOutcome) (r : Option Reason) :
    s.RaisedTimes (s.endTask v o r) (if o = .done then .taskDone else .taskUnsuccessful) 1 :=
  (State.RaisedTimes.of_attn (t := s.writeOutcome v.lane _) rfl).trans (raise_raisedTimes _ _)

end Sys2Proof.Machine
end

