-- ==== Sys2Proof/Laws/Engine.lean ====
section
/-! SUPPORT. What the Changeover Engine's shared operations can do: they touch the engine, the latched and repeat flags and
the pending-notice marker, and nothing else; and what each does to lanes, queue and plans. -/

namespace Sys2Proof.Machine

/-- `t` differs from `s` at most in the engine, the latched and repeat flags and the pending-notice marker. -/
def EngineStep (s t : State) : Prop :=
  t = { s with
    engine := t.engine
    attn := { s.attn with latched := t.attn.latched, rep := t.attn.rep }
    host := { s.host with noticePending := t.host.noticePending } }

namespace EngineStep

variable {s t u : State}

theorem refl (s : State) : EngineStep s s := rfl

theorem trans (h : EngineStep s t) (k : EngineStep t u) : EngineStep s u := by
  unfold EngineStep at *
  rw [h] at k
  exact k

theorem power (h : EngineStep s t) : t.power = s.power := by rw [h]
theorem config (h : EngineStep s t) : t.config = s.config := by rw [h]
theorem resolver (h : EngineStep s t) : t.resolver = s.resolver := by rw [h]
theorem lamps (h : EngineStep s t) : t.lamps = s.lamps := by rw [h]
theorem sigs (h : EngineStep s t) : t.sigs = s.sigs := by rw [h]
theorem link (h : EngineStep s t) : t.link = s.link := by rw [h]
theorem time (h : EngineStep s t) : t.time = s.time := by rw [h]
theorem pending (h : EngineStep s t) : t.pending = s.pending := by rw [h]
theorem active (h : EngineStep s t) : t.attn.active = s.attn.active := by rw [h]
theorem alert (h : EngineStep s t) : t.attn.alert = s.attn.alert := by rw [h]
theorem enabled (h : EngineStep s t) : t.attn.enabled = s.attn.enabled := by rw [h]
theorem slots (h : EngineStep s t) : t.host.slots = s.host.slots := by rw [h]
theorem replies (h : EngineStep s t) : t.host.replies = s.host.replies := by rw [h]
theorem tx (h : EngineStep s t) : t.host.tx = s.host.tx := by rw [h]
theorem n (h : EngineStep s t) : t.n = s.n := by unfold State.n; rw [h.config]
theorem l (h : EngineStep s t) : t.l = s.l := by unfold State.l; rw [h.config]
theorem stepMs (h : EngineStep s t) : t.stepMs = s.stepMs := by unfold State.stepMs; rw [h.config]
theorem stamp (h : EngineStep s t) : t.stamp = s.stamp := by unfold State.stamp; rw [h.time]
theorem live (h : EngineStep s t) : t.live = s.live := by unfold State.live; rw [h.power]

end EngineStep

variable (s : State)

/-! ### Single updates -/

theorem raise_step (k : AttnKind) : EngineStep s (s.raise k) := by
  unfold EngineStep State.raise; split <;> rfl

@[simp] theorem State.raise_lane (k : AttnKind) (l : Nat) : (s.raise k).lane l = s.lane l := rfl
@[simp] theorem State.raise_queue (k : AttnKind) : (s.raise k).engine.queue = s.engine.queue := rfl

theorem setLane_step (l : Nat) (r : LaneRec) : EngineStep s (s.setLane l r) := rfl
theorem setQueue_step (q : List Task) : EngineStep s (s.setQueue q) := rfl
theorem putPhase_step (l : Nat) (p : LanePhase) (t : Option Nat) : EngineStep s (s.putPhase l p t) := rfl
theorem writeOutcome_step (l : Nat) (o : LastOutcome) : EngineStep s (s.writeOutcome l o) := rfl
theorem enqueue_step (ts : List Task) : EngineStep s (s.enqueue ts) := rfl

/-! ### Task endings -/

theorem endTask_step (t : Task) (o : TaskOutcome) (r : Option Reason) : EngineStep s (s.endTask t o r) :=
  (writeOutcome_step s t.lane _).trans (raise_step _ _)

theorem endUntasked_step (l : Nat) (d : Face) (o : TaskOutcome) (r : Option Reason) :
    EngineStep s (s.endUntasked l d o r) := (writeOutcome_step s l _).trans (raise_step _ _)

theorem endOpening_step (l : Nat) (d : Face) (t : Option Task) (o : TaskOutcome) (r : Option Reason) :
    EngineStep s (s.endOpening l d t o r) := by
  cases t
  · exact endUntasked_step s l d o r
  · exact endTask_step s _ o r

/-- A lane's record is read back after it was written with a last outcome. -/
theorem State.setLane_lane_last {l : Nat} {r : LaneRec} {o : LastOutcome} (h : r.last = some o) :
    (s.setLane l r).lane l = r :=
  Tab.get_set_self _ _ (by rintro rfl; cases h)

/-- Writing a last outcome changes that of its lane, and no other lane record. -/
theorem State.writeOutcome_lane (l m : Nat) (o : LastOutcome) :
    (s.writeOutcome l o).lane m = if m = l then { s.lane l with last := some o } else s.lane m := by
  by_cases h : m = l
  · subst h; rw [if_pos rfl]; exact s.setLane_lane_last rfl
  · rw [if_neg h]; exact s.setLane_lane_ne _ h

/-- A task's ending writes its lane's last outcome (R44) and leaves every other part of the lane records. -/
theorem State.endTask_lane (t : Task) (o : TaskOutcome) (r : Option Reason) (m : Nat) :
    (s.endTask t o r).lane m =
      if m = t.lane then
        { s.lane t.lane with last := some ⟨t.kind, t.origin, t.plan, o, r, s.stamp⟩ }
      else s.lane m := s.writeOutcome_lane _ _ _

@[simp] theorem State.endTask_phase (t : Task) (o : TaskOutcome) (r : Option Reason) (m : Nat) :
    ((s.endTask t o r).lane m).phase = (s.lane m).phase := by
  rw [State.endTask_lane]; split
  · rename_i h; rw [h]
  · rfl

@[simp] theorem State.endTask_queue (t : Task) (o : TaskOutcome) (r : Option Reason) :
    (s.endTask t o r).engine.queue = s.engine.queue := rfl

@[simp] theorem State.endTask_plans (t : Task) (o : TaskOutcome) (r : Option Reason) :
    (s.endTask t o r).engine.plans = s.engine.plans := rfl

/-! ### Endings of several tasks -/

theorem endTasks_step (ts : List Task) (o : TaskOutcome) :
    EngineStep s (ts.foldl (fun s t => s.endTask t o none) s) := by
  induction ts generalizing s with
  | nil => exact .refl s
  | cons t ts ih => exact (endTask_step s t o none).trans (ih _)

theorem State.endTasks_queue (ts : List Task) (o : TaskOutcome) :
    (ts.foldl (fun s t => s.endTask t o none) s).engine.queue = s.engine.queue := by
  induction ts generalizing s with
  | nil => rfl
  | cons t ts ih => exact (ih _).trans rfl

theorem State.endTasks_phase (ts : List Task) (o : TaskOutcome) (m : Nat) :
    ((ts.foldl (fun s t => s.endTask t o none) s).lane m).phase = (s.lane m).phase := by
  induction ts generalizing s with
  | nil => rfl
  | cons t ts ih => rw [List.foldl_cons, ih, State.endTask_phase]

theorem removeQueued_step (p : Task → Bool) (o : TaskOutcome) : EngineStep s (s.removeQueued p o) :=
  (setQueue_step s _).trans (endTasks_step _ _ o)

/-- The tasks that pass the test leave the queue; the rest keep their order (R46, R49). -/
@[simp] theorem State.removeQueued_queue (p : Task → Bool) (o : TaskOutcome) :
    (s.removeQueued p o).engine.queue = s.engine.queue.filter fun t => !p t := State.endTasks_queue _ _ o

/-- A removal from the queue changes no lane state (R58). -/
@[simp] theorem State.removeQueued_phase (p : Task → Bool) (o : TaskOutcome) (m : Nat) :
    ((s.removeQueued p o).lane m).phase = (s.lane m).phase := State.endTasks_phase _ _ o m

theorem cancelOpens_step (l : Nat) : EngineStep s (s.cancelOpens l) := removeQueued_step s _ _

/-! ### The scan -/

theorem startClose_step (t : Task) (d : Face) : EngineStep s (s.startClose t d) := putPhase_step s _ _ _

theorem startOpen_step (t : Task) (d : Face) : EngineStep s (s.startOpen t d) := setLane_step s _ _

theorem scanQueue_step (kept rest : List Task) : EngineStep s (s.scanQueue kept rest) := by
  induction rest generalizing s kept with
  | nil => exact setQueue_step s kept
  | cons t rest ih =>
    unfold State.scanQueue
    split
    · exact ih s _
    · split
      · exact (setQueue_step s _).trans (startClose_step _ t _)
      · exact (endTask_step s t _ _).trans (ih _ _)
      · exact (endTask_step s t _ _).trans (ih _ _)
      · split
        · exact (endTask_step s t _ _).trans (ih _ _)
        · exact (setQueue_step s _).trans (startOpen_step _ t _)
      · exact ih s _
      · exact ih s _
      · exact ih s _

/-- The scan touches the engine and raises attention kinds; nothing else (R56, R57). -/
theorem scan_step : EngineStep s s.scan := by
  unfold State.scan; split
  · exact scanQueue_step s _ _
  · exact .refl s

/-- While the sweep is held the scan changes nothing (R56). -/
theorem State.scan_held (h : s.sweepFree = false) : s.scan = s := by unfold State.scan; rw [h]; rfl

/-- The scan of an empty queue changes nothing. -/
theorem State.scan_empty (h : s.engine.queue = []) : s.scan = s := by
  unfold State.scan
  split
  · rw [h]; unfold State.scanQueue State.setQueue; rw [← h]
  · rfl

/-! ### Openings that fail -/

theorem failOpening_step (l : Nat) : EngineStep s (s.failOpening l) := by
  unfold State.failOpening; split
  · exact (putPhase_step s _ _ _).trans (endOpening_step _ _ _ _ _ _)
  · exact .refl s

theorem failOpenings_step (ls : List Nat) : EngineStep s (s.failOpenings ls) := by
  have h : ∀ (ms : List Nat) (u : State), EngineStep u (ms.foldl State.failOpening u) := by
    intro ms
    induction ms with
    | nil => exact EngineStep.refl
    | cons m ms ih => exact fun u => (failOpening_step u m).trans (ih _)
  cases ls with
  | nil => exact .refl s
  | cons m ms => exact (h _ s).trans (scan_step _)

@[simp] theorem State.failOpenings_nil : s.failOpenings [] = s := rfl

end Sys2Proof.Machine
end

