-- ==== Sys2Proof/Laws/Good.lean ====
section
/-! SUPPORT. A test of `State.Good` that evaluates, and that it is right: the witnesses of the statements use it. -/

namespace Sys2Proof.Machine

/-- A read of a table gives the unlisted record or a listed one. -/
theorem Tab.get_cases {α : Type} (d : α) (t : Tab α) (i : Nat) : Tab.get d t i = d ∨ (i, Tab.get d t i) ∈ t := by
  induction t with
  | nil => exact .inl rfl
  | cons e t ih =>
    obtain ⟨k, v⟩ := e
    by_cases h : i = k
    · subst h; right; simp [Tab.get]
    · rcases ih with h' | h'
      · left; simp [Tab.get, h, h']
      · right; simp only [Tab.get, if_neg h]; exact List.mem_cons_of_mem _ h'

/-- What holds of the unlisted record and of every listed one holds of every read. -/
theorem Tab.get_all {α : Type} {d : α} {t : Tab α} {p : Nat → α → Prop} (hd : ∀ i, p i d) (ht : ∀ e ∈ t, p e.1 e.2)
    (i : Nat) : p i (Tab.get d t i) := by
  rcases Tab.get_cases d t i with h | h
  · rw [h]; exact hd i
  · exact ht _ h

/-- The test of `State.Settled`. -/
def State.settledCheck (s : State) : Bool :=
  decide (s.resolver.heads = s.resolveTable) && decide (s.reportConditions.attn.active = s.attn.active) &&
    decide (s.drivePoller .west = s) && decide (s.drivePoller .east = s) && decide (s.driveTransmitter = s) &&
    s.attn.alert == alertLevel s.attn

/-- The test of `State.LanesLegal`. -/
def State.lanesCheck (s : State) : Bool :=
  decide ((s.engine.lanes.filter fun e => e.2.phase.sweeping).length ≤ 1) &&
    s.engine.lanes.all (fun e => decide (e.1 < s.l) && (e.2.phase.task.all (fun t => t.lane == e.1) &&
      (e.2.phase.front.all (fun f => decide (f < s.n)) && e.2.timer.isSome == e.2.phase.timed))) &&
    s.engine.queue.all (fun t => decide (t.lane < s.l)) &&
    (s.config.mode == .standby || s.resolver.lampTest.isNone) &&
    (s.config.mode == .run ||
      (s.engine.lanes.all (fun e => e.2.phase == .shut) && s.engine.queue.isEmpty && s.resolver.overrides.isEmpty))

/-- The test of `State.WithinCapacity`. -/
def State.capacityCheck (s : State) : Bool :=
  decide (s.host.slots.length ≤ 4) && decide (s.host.replies.length ≤ 4) &&
    (s.host.processor != .writing || decide (s.host.replies.length < 4)) && decide (s.engine.queue.length ≤ 8) &&
    decide (s.engine.queue.Pairwise fun t u => ¬(t.lane = u.lane ∧ t.kind.same u.kind = true)) &&
    decide (s.resolver.overrides.length ≤ 32) && decide (s.resolver.overrides.Pairwise fun o p => o.head ≠ p.head) &&
    decide (s.host.crcErrors ≤ 65535 ∧ s.host.lengthErrors ≤ 65535 ∧ s.host.gapErrors ≤ 65535 ∧
      s.host.breakErrors ≤ 65535 ∧ s.host.overruns ≤ 65535)

/-- The test of `State.ConfigLegal`. -/
def State.configCheck (s : State) : Bool :=
  s.configImage.legal && s.config.nvConfig.all ConfigImage.legal &&
    (match s.config.writing with
      | some (.config i) => i.legal
      | _ => true) &&
    decide (s.config.dims.length = 4) && s.config.dims.all (within 0 7)

/-- The test of `State.ClockLegal`. -/
def State.clockCheck (s : State) : Bool :=
  s.time.clock.all fun t => within 1 7 t.weekday && decide (t.hour ≤ 23) && decide (t.minute ≤ 59) && decide (t.second ≤ 59)

/-- The test of `State.StringsLegal`. -/
def State.stringsCheck (s : State) : Bool :=
  s.lamps.strings.all fun e =>
    e.2.fits s.config.records.proving.threshold &&
      (!s.stringKeyIn e.1 || decide (e.2.acc.count ≤ s.config.records.proving.depth))

/-- A station record passes `State.StationsLegal` at its number. -/
def StationRec.check (n : Nat) (k : Nat) (r : StationRec) : Bool :=
  decide (r.missWest ≤ 3 ∧ r.missEast ≤ 3) && (r.reprobe.isSome == (r.state == .rerouted)) &&
    (!decide (k < n) || r.state != .online || r.current == homeEnd n k) &&
    (!decide (k < n) || r.state != .rerouted || r.current == (homeEnd n k).other)

/-- The test of `State.StationsLegal`. -/
def State.stationsCheck (s : State) : Bool :=
  s.link.stations.all (fun e => e.2.check s.n e.1) && s.stationNumbers.all fun k => (s.station k).check s.n k

/-- The test of `State.TablesCanonical`. -/
def State.tablesCheck (s : State) : Bool :=
  (Tab.wf LaneRec.reset s.engine.lanes && Tab.wf none s.resolver.displayed && Tab.wf StringRec.reset s.lamps.strings &&
      Tab.wf HeadProving.reset s.lamps.heads && Tab.wf none s.lamps.falseOpen) &&
    (Tab.wf .unlearned s.sigs.entries && Tab.wf none s.sigs.idents && Tab.wf none s.sigs.changes &&
      Tab.wf (StationRec.reset .west) s.link.stations) &&
    s.config.records.canonical && s.config.nvConfig.all (·.records.canonical) && s.config.nvSig.all SigImage.canonical &&
    s.config.writing.all StoreWrite.canonical

/-- The test of `State.Good`, for a part that is powered and not held in reset. -/
def State.goodCheck (s : State) : Bool :=
  s.settledCheck && s.configCheck && s.clockCheck && s.lanesCheck && s.capacityCheck &&
    s.sigs.entries.all (fun e => e.2.inRange) && s.stringsCheck && s.stationsCheck && s.tablesCheck

/-- A timer stands in a range, and runs only while it may. -/
def timerIn (hi : Nat) (runs : Bool) (t : Option Nat) : Bool := t.all fun v => decide (1 ≤ v) && decide (v ≤ hi) && runs

/-- The test of `State.TimersLegal`. -/
def State.timersCheck (s : State) : Bool :=
  s.resolver.overrides.all (fun o => decide (1 ≤ o.hold ∧ o.hold ≤ 14400000)) &&
    s.resolver.lampTest.all (fun x => decide (1 ≤ x.window ∧ x.window ≤ 300000)) &&
    s.engine.lanes.all (fun e => timerIn 3600000 true e.2.timer) && timerIn 1000 true s.time.halfTimer &&
    timerIn 3000 (s.time.line == .following) s.time.lossTimer && timerIn 1000 s.time.clock.isSome s.time.secondTimer &&
    timerIn 60000 true s.host.silence && timerIn 10 s.link.west.exchange.isSome s.link.west.answerTimer &&
    timerIn 10 s.link.east.exchange.isSome s.link.east.answerTimer &&
    s.link.stations.all (fun e => e.2.reprobe.all fun v => decide (v ≤ 30000))

variable {s : State}

theorem settled_of (h : s.settledCheck = true) : s.Settled := by
  simp only [State.settledCheck, Bool.and_eq_true, decide_eq_true_eq, beq_iff_eq] at h
  obtain ⟨⟨⟨⟨⟨h1, h2⟩, h3⟩, h4⟩, h5⟩, h6⟩ := h
  refine ⟨h1, ?_, h3, h4, h5, h6⟩
  have : s.reportConditions = { s with attn := { s.attn with active := s.reportConditions.attn.active } } := by
    unfold State.reportConditions State.report
    rfl
  rw [this, h2]

theorem lanesLegal_of (h : s.lanesCheck = true) : s.LanesLegal := by
  simp only [State.lanesCheck, Bool.and_eq_true, decide_eq_true_eq, List.all_eq_true, Bool.or_eq_true, beq_iff_eq,
    List.isEmpty_iff, Option.all_eq_true] at h
  obtain ⟨⟨⟨⟨h1, h2⟩, h3⟩, h5⟩, h4⟩ := h
  have hmem : ∀ l, s.sweeps l → (l, s.lane l) ∈ s.engine.lanes.filter fun e => e.2.phase.sweeping := by
    intro l hl
    rcases Tab.get_cases LaneRec.reset s.engine.lanes l with h | h
    · unfold State.sweeps State.lane at hl; rw [h] at hl; cases hl
    · exact List.mem_filter.2 ⟨h, hl⟩
  refine ⟨?_, ?_, ?_, ?_, ?_, fun t ht => h3 t ht, ?_, ?_⟩
  · intro l m hl hm
    have a := hmem l hl
    have b := hmem m hm
    generalize s.engine.lanes.filter (fun e => e.2.phase.sweeping) = xs at a b h1
    match xs, a, b, h1 with
    | [x], a, b, _ =>
      simp only [List.mem_singleton] at a b
      exact congrArg Prod.fst (a.trans b.symm)
    | _ :: _ :: _, _, _, h1 => simp at h1
  · intro l hl
    rcases Tab.get_cases LaneRec.reset s.engine.lanes l with h | h
    · exact h
    · exact absurd (h2 _ h).1 (by simpa using hl)
  · intro l t ht
    rcases Tab.get_cases LaneRec.reset s.engine.lanes l with h | h
    · unfold State.lane at ht; rw [h] at ht; cases ht
    · exact (h2 _ h).2.1 t ht
  · intro l f hf
    rcases Tab.get_cases LaneRec.reset s.engine.lanes l with h | h
    · unfold State.lane at hf; rw [h] at hf; cases hf
    · exact (h2 _ h).2.2.1 f hf
  · intro l
    rcases Tab.get_cases LaneRec.reset s.engine.lanes l with h | h
    · unfold State.lane; rw [h]; rfl
    · exact (h2 _ h).2.2.2
  · intro hm
    rw [hm] at h4
    rcases h4 with h4 | ⟨⟨h4, h5⟩, h6⟩
    · cases h4
    · exact ⟨Tab.get_all (p := fun _ (r : LaneRec) => r.phase = .shut) (fun _ => rfl) h4, h5, h6⟩
  · intro hm
    rw [hm] at h5
    exact Option.isNone_iff_eq_none.1 (h5.resolve_left (by decide))

theorem withinCapacity_of (h : s.capacityCheck = true) : s.WithinCapacity := by
  simp only [State.capacityCheck, Bool.and_eq_true, decide_eq_true_eq, Bool.or_eq_true, bne_iff_ne] at h
  obtain ⟨⟨⟨⟨⟨⟨⟨h1, h2⟩, h3⟩, h4⟩, h5⟩, h6⟩, h7⟩, h8⟩ := h
  exact ⟨h1, h2, fun hp => h3.resolve_left fun hn => hn hp, h4, h5, h6, h7, h8⟩

theorem configLegal_of (h : s.configCheck = true) : s.ConfigLegal := by
  simp only [State.configCheck, Bool.and_eq_true, decide_eq_true_eq, Option.all_eq_true] at h
  obtain ⟨⟨⟨⟨h1, h2⟩, h3⟩, h4⟩, h5⟩ := h
  exact ⟨h1, h2, fun i hi => by rw [hi] at h3; exact h3, h4, h5⟩

theorem clockLegal_of (h : s.clockCheck = true) : s.ClockLegal := by
  intro t ht
  simp only [State.clockCheck, ht, Option.all_some, within, Bool.and_eq_true, decide_eq_true_eq] at h
  obtain ⟨⟨⟨h1, h2⟩, h3⟩, h4⟩ := h
  exact ⟨h1, h2, h3, h4⟩

theorem signaturesInRange_of (h : s.sigs.entries.all (fun e => e.2.inRange) = true) : s.SignaturesInRange := by
  rw [List.all_eq_true] at h
  intro key v hv
  have : (s.entry key).inRange = true := Tab.get_all (p := fun _ (e : SigEntry) => e.inRange = true) (fun _ => rfl) h key
  simpa [SigEntry.inRange, hv] using this

theorem stringsLegal_of (h : s.stringsCheck = true) : s.StringsLegal := by
  simp only [State.stringsCheck, List.all_eq_true, Bool.and_eq_true, Bool.or_eq_true, decide_eq_true_eq] at h
  constructor
  · exact Tab.get_all (p := fun _ (r : StringRec) => r.fits s.config.records.proving.threshold = true) (fun _ => rfl) fun e he => (h e he).1
  · exact Tab.get_all (p := fun i (r : StringRec) => s.stringKeyIn i = true → r.acc.count ≤ s.config.records.proving.depth)
      (fun _ _ => Nat.zero_le _) fun e he hin => (h e he).2.resolve_left (by simp [hin])

theorem stationsLegal_of (h : s.stationsCheck = true) : s.StationsLegal := by
  simp only [State.stationsCheck, List.all_eq_true, Bool.and_eq_true] at h
  obtain ⟨h1, h2⟩ := h
  have hall : ∀ k, (s.station k).missWest ≤ 3 ∧ (s.station k).missEast ≤ 3 ∧
      ((s.station k).reprobe.isSome = true ↔ (s.station k).state = .rerouted) := by
    refine Tab.get_all (p := fun _ (r : StationRec) => r.missWest ≤ 3 ∧ r.missEast ≤ 3 ∧
      (r.reprobe.isSome = true ↔ r.state = .rerouted)) ?_ ?_
    · intro _; simp [StationRec.reset]
    · intro e he
      have := h1 e he
      simp only [StationRec.check, Bool.and_eq_true, decide_eq_true_eq, beq_iff_eq] at this
      obtain ⟨⟨⟨⟨a, b⟩, c⟩, -⟩, -⟩ := this
      exact ⟨a, b, by rw [c, beq_iff_eq]⟩
  refine ⟨fun k => ⟨(hall k).1, (hall k).2.1⟩, fun k => (hall k).2.2, ?_, ?_⟩
  · intro k hk ho
    have := h2 k (List.mem_range.2 hk)
    simp only [StationRec.check, Bool.and_eq_true, Bool.or_eq_true, beq_iff_eq] at this
    simpa [hk, ho] using this.1.2
  · intro k hk ho
    have := h2 k (List.mem_range.2 hk)
    simp only [StationRec.check, Bool.and_eq_true, Bool.or_eq_true, beq_iff_eq] at this
    simpa [hk, ho] using this.2

theorem tablesCanonical_of (h : s.tablesCheck = true) : s.TablesCanonical := by
  simp only [State.tablesCheck, Bool.and_eq_true, Option.all_eq_true] at h
  obtain ⟨⟨⟨⟨⟨⟨⟨⟨⟨a, b⟩, c⟩, d⟩, e⟩, ⟨⟨f, g⟩, i⟩, j⟩, k⟩, l⟩, m⟩, n⟩ := h
  exact ⟨⟨a, b, c, d, e⟩, ⟨f, g, i, j⟩, k, l, m, n⟩

theorem timerIn_of {hi v : Nat} {runs : Bool} {t : Option Nat} (h : timerIn hi runs t = true) (ht : t = some v) :
    1 ≤ v ∧ v ≤ hi ∧ runs = true := by
  subst ht
  simpa [timerIn, and_assoc] using h

theorem timersLegal_of (h : s.timersCheck = true) : s.TimersLegal := by
  simp only [State.timersCheck, Bool.and_eq_true] at h
  obtain ⟨⟨⟨⟨⟨⟨⟨⟨⟨a, b⟩, c⟩, d⟩, e⟩, f⟩, g⟩, w⟩, x⟩, r⟩ := h
  simp only [List.all_eq_true, decide_eq_true_eq, Option.all_eq_true] at a b c r
  refine ⟨a, b, ?_, fun v h => ?_, fun v h => ?_, fun v h => timerIn_of f h, fun v h => ?_, ?_, ?_⟩
  · intro l v hv
    rcases Tab.get_cases LaneRec.reset s.engine.lanes l with h | h
    · unfold State.lane at hv; rw [h] at hv; cases hv
    · exact ⟨(timerIn_of (c _ h) hv).1, (timerIn_of (c _ h) hv).2.1⟩
  · exact ⟨(timerIn_of d h).1, (timerIn_of d h).2.1⟩
  · exact ⟨(timerIn_of e h).1, (timerIn_of e h).2.1, eq_of_beq (timerIn_of e h).2.2⟩
  · exact ⟨(timerIn_of g h).1, (timerIn_of g h).2.1⟩
  · intro e v hv
    cases e
    · exact timerIn_of w hv
    · exact timerIn_of x hv
  · intro k v hv
    rcases Tab.get_cases (StationRec.reset .west) s.link.stations k with h | h
    · unfold State.station at hv; rw [h] at hv; cases hv
    · exact r _ h v hv

/-- The test is right. -/
theorem good_of (h : s.goodCheck = true) : s.Good := by
  simp only [State.goodCheck, Bool.and_eq_true] at h
  obtain ⟨⟨⟨⟨⟨⟨⟨⟨a, b⟩, c⟩, d⟩, e⟩, f⟩, g⟩, i⟩, j⟩ := h
  exact ⟨fun _ => settled_of a, configLegal_of b, clockLegal_of c, lanesLegal_of d, withinCapacity_of e,
    signaturesInRange_of f, stringsLegal_of g, stationsLegal_of i, tablesCanonical_of j⟩

end Sys2Proof.Machine
end

