-- ==== Sys2Proof/Laws/Idle.lean ====
section
/-! SUPPORT. What the passing of a millisecond can do: what a tick leaves alone, and that what a tick and every row keep, a
step on an empty queue keeps. -/

namespace Sys2Proof.Machine

variable (s : State)

/-! ### A tick -/

@[simp] theorem State.tick_power : s.tick.power = s.power := rfl
@[simp] theorem State.tick_config : s.tick.config = s.config := rfl
@[simp] theorem State.tick_lamps : s.tick.lamps = s.lamps := rfl
@[simp] theorem State.tick_sigs : s.tick.sigs = s.sigs := rfl
@[simp] theorem State.tick_attn : s.tick.attn = s.attn := rfl
@[simp] theorem State.tick_pending : s.tick.pending = s.pending := rfl
@[simp] theorem State.tick_queue : s.tick.engine.queue = s.engine.queue := rfl
@[simp] theorem State.tick_plans : s.tick.engine.plans = s.engine.plans := rfl
@[simp] theorem State.tick_heads : s.tick.resolver.heads = s.resolver.heads := rfl
@[simp] theorem State.tick_displayed : s.tick.resolver.displayed = s.resolver.displayed := rfl
@[simp] theorem State.tick_lampLast : s.tick.resolver.lampLast = s.resolver.lampLast := rfl
@[simp] theorem State.tick_phase : s.tick.time.phase = s.time.phase := rfl
@[simp] theorem State.tick_line : s.tick.time.line = s.time.line := rfl
@[simp] theorem State.tick_clock : s.tick.time.clock = s.time.clock := rfl
@[simp] theorem State.tick_slots : s.tick.host.slots = s.host.slots := rfl
@[simp] theorem State.tick_replies : s.tick.host.replies = s.host.replies := rfl
@[simp] theorem State.tick_tx : s.tick.host.tx = s.host.tx := rfl
@[simp] theorem State.tick_live : s.tick.live = s.live := rfl

/-! ### The expiries that fall due -/

variable {s} {t : State}

/-- What every row keeps, the expiries of a list keep. -/
theorem runDue_keeps {p : State → Prop} (h : ∀ c a b, p a → exec c a = .next b → p b) :
    ∀ (ds : List (State → Option Instr)) (a b : State), p a → runDue ds a = .next b → p b
  | [], a, b, ha, hb => by simp only [runDue, Host.Outcome.next.injEq] at hb; exact hb ▸ ha
  | d :: ds, a, b, ha, hb => by
    simp only [runDue] at hb
    split at hb
    · exact runDue_keeps h ds a b ha hb
    · split at hb
      · rename_i c _ _ u hu
        exact runDue_keeps h ds u b (h c a u ha hu) hb
      · cases hb
      · cases hb

/-- If every row answers a next state, so do the expiries of a list. -/
theorem runDue_next (h : ∀ c a, ∃ b, exec c a = .next b) :
    ∀ (ds : List (State → Option Instr)) (a : State), ∃ b, runDue ds a = .next b
  | [], a => ⟨a, rfl⟩
  | d :: ds, a => by
    simp only [runDue]
    split
    · exact runDue_next h ds a
    · rename_i c _
      obtain ⟨u, hu⟩ := h c a
      rw [hu]
      exact runDue_next h ds u

/-- Everything a step on an empty queue can be: nothing, the waiting command, or a millisecond with its expiries. -/
theorem idle_cases (h : idle s = .next t) :
    (s.live = false ∧ t = s) ∨ (∃ c, s.live = true ∧ s.waitingCommand = some c ∧ exec c s = .next t) ∨
      (s.live = true ∧ s.waitingCommand = none ∧ runDue dueRows s.tick = .next t) := by
  unfold idle at h
  split at h
  · rename_i hl
    split at h
    · rename_i c hc
      exact .inr (.inl ⟨c, hl, hc, h⟩)
    · rename_i hc
      exact .inr (.inr ⟨hl, hc, h⟩)
  · rename_i hl
    simp only [Host.Outcome.next.injEq] at h
    exact .inl ⟨by simpa using hl, h.symm⟩

/-- What a tick and every row keep, every step keeps. -/
theorem step_keeps {p : State → Prop} (queue : ∀ a q, p a → p { a with pending := q }) (tick : ∀ a, p a → p a.tick)
    (row : ∀ c a b, p a → exec c a = .next b → p b) (hs : p s) (h : step s = .next t) : p t := by
  unfold step at h
  split at h
  · rename_i c rest _
    exact row c _ t (queue s rest hs) h
  · rcases idle_cases h with ⟨-, rfl⟩ | ⟨c, -, -, hc⟩ | ⟨-, -, hd⟩
    · exact hs
    · exact row c s t hs hc
    · exact runDue_keeps row _ _ _ (tick s hs) hd

end Sys2Proof.Machine
end

