-- ==== Sys2Proof/Laws/Kinds.lean ====
section
/-! SUPPORT. The KINDs of host frames and the rows they name (R198). -/

namespace Sys2Proof.Machine

/-- A frame of a KIND the part does not know is the command of the row UNKNOWN_KIND (R185). -/
theorem rowOf_unknown {f : HostFrame} (h : unknownKind f.kind = true) :
    rowOf f = .unknownKind f.kind f.tag f.body := by
  have hk : f.kind.toNat ∉ knownKinds := by simpa [unknownKind] using h
  unfold rowOf
  split <;> first | rfl | (rename_i e; exact absurd (by rw [e]; decide) hk)

end Sys2Proof.Machine
end

