-- ==== Sys2Proof/Laws/PerInstr.lean ====
section
/-! SUPPORT. The families of statements made once for each command: family F says that the host frame of a well-formed
command names exactly that command (R198). -/

namespace Sys2Proof.Laws.F

open Sys2Proof Sys2Proof.Machine

/-- The frame of a well-formed command names that command. -/
def Statement (i : Instr) : Prop := i.wf = true → ∀ f, frameOf i = some f → rowOf f = i

theorem powerUp : Statement (.powerUp) := by
  rintro - f ⟨⟩

theorem resetNFall : Statement (.resetNFall) := by
  rintro - f ⟨⟩

theorem resetNRise : Statement (.resetNRise) := by
  rintro - f ⟨⟩

theorem hostFrameReceived (octets : List Octet) : Statement (.hostFrameReceived octets) := by
  rintro - f ⟨⟩

theorem hostFrameDropped (octets : List Octet) (brk : Bool) : Statement (.hostFrameDropped octets brk) := by
  rintro - f ⟨⟩

theorem hostGapTimeout (octets : List Octet) : Statement (.hostGapTimeout octets) := by
  rintro - f ⟨⟩

theorem hostTransmitEnd : Statement (.hostTransmitEnd) := by
  rintro - f ⟨⟩

theorem silenceTimeout : Statement (.silenceTimeout) := by
  rintro - f ⟨⟩

theorem unknownKind (kind tag : Octet) (body : List Octet) : Statement (.unknownKind kind tag body) := by
  rintro h f ⟨⟩
  exact rowOf_unknown (f := ⟨kind, tag, body⟩) (Bool.and_eq_true_iff.1 h).1

theorem setTunnel (tag : Octet) (body : List Octet) : Statement (.setTunnel tag body) := by
  rintro - f ⟨⟩; rfl

theorem getTunnel (tag : Octet) (body : List Octet) : Statement (.getTunnel tag body) := by
  rintro - f ⟨⟩; rfl

theorem setLane (tag : Octet) (body : List Octet) : Statement (.setLane tag body) := by
  rintro - f ⟨⟩; rfl

theorem getLane (tag : Octet) (body : List Octet) : Statement (.getLane tag body) := by
  rintro - f ⟨⟩; rfl

theorem setStation (tag : Octet) (body : List Octet) : Statement (.setStation tag body) := by
  rintro - f ⟨⟩; rfl

theorem getStation (tag : Octet) (body : List Octet) : Statement (.getStation tag body) := by
  rintro - f ⟨⟩; rfl

theorem setProving (tag : Octet) (body : List Octet) : Statement (.setProving tag body) := by
  rintro - f ⟨⟩; rfl

theorem getProving (tag : Octet) (body : List Octet) : Statement (.getProving tag body) := by
  rintro - f ⟨⟩; rfl

theorem setDuty (tag : Octet) (body : List Octet) : Statement (.setDuty tag body) := by
  rintro - f ⟨⟩; rfl

theorem getDuty (tag : Octet) (body : List Octet) : Statement (.getDuty tag body) := by
  rintro - f ⟨⟩; rfl

theorem setDim (tag : Octet) (body : List Octet) : Statement (.setDim tag body) := by
  rintro - f ⟨⟩; rfl

theorem getDim (tag : Octet) (body : List Octet) : Statement (.getDim tag body) := by
  rintro - f ⟨⟩; rfl

theorem start (tag : Octet) (body : List Octet) : Statement (.start tag body) := by
  rintro - f ⟨⟩; rfl

theorem stop (tag : Octet) (body : List Octet) : Statement (.stop tag body) := by
  rintro - f ⟨⟩; rfl

theorem getMode (tag : Octet) (body : List Octet) : Statement (.getMode tag body) := by
  rintro - f ⟨⟩; rfl

theorem commit (tag : Octet) (body : List Octet) : Statement (.commit tag body) := by
  rintro - f ⟨⟩; rfl

theorem saveSignatures (tag : Octet) (body : List Octet) : Statement (.saveSignatures tag body) := by
  rintro - f ⟨⟩; rfl

theorem storeWriteComplete (ok : Bool) : Statement (.storeWriteComplete ok) := by
  rintro - f ⟨⟩

theorem restart (tag : Octet) (body : List Octet) : Statement (.restart tag body) := by
  rintro - f ⟨⟩; rfl

theorem closeLane (tag : Octet) (body : List Octet) : Statement (.closeLane tag body) := by
  rintro - f ⟨⟩; rfl

theorem openLane (tag : Octet) (body : List Octet) : Statement (.openLane tag body) := by
  rintro - f ⟨⟩; rfl

theorem reverseLane (tag : Octet) (body : List Octet) : Statement (.reverseLane tag body) := by
  rintro - f ⟨⟩; rfl

theorem cancelTask (tag : Octet) (body : List Octet) : Statement (.cancelTask tag body) := by
  rintro - f ⟨⟩; rfl

theorem confirmClear (tag : Octet) (body : List Octet) : Statement (.confirmClear tag body) := by
  rintro - f ⟨⟩; rfl

theorem abortLane (tag : Octet) (body : List Octet) : Statement (.abortLane tag body) := by
  rintro - f ⟨⟩; rfl

theorem closeNow (tag : Octet) (body : List Octet) : Statement (.closeNow tag body) := by
  rintro - f ⟨⟩; rfl

theorem getQueue (tag : Octet) (body : List Octet) : Statement (.getQueue tag body) := by
  rintro - f ⟨⟩; rfl

theorem setPlan (tag : Octet) (body : List Octet) : Statement (.setPlan tag body) := by
  rintro - f ⟨⟩; rfl

theorem getPlan (tag : Octet) (body : List Octet) : Statement (.getPlan tag body) := by
  rintro - f ⟨⟩; rfl

theorem selectPlan (tag : Octet) (body : List Octet) : Statement (.selectPlan tag body) := by
  rintro - f ⟨⟩; rfl

theorem closingStepExpiry (lane : Nat) : Statement (.closingStepExpiry lane) := by
  rintro - f ⟨⟩

theorem openingStepExpiry (lane : Nat) : Statement (.openingStepExpiry lane) := by
  rintro - f ⟨⟩

theorem clearanceTimerExpiry (lane : Nat) : Statement (.clearanceTimerExpiry lane) := by
  rintro - f ⟨⟩

theorem confirmWindowExpiry (lane : Nat) : Statement (.confirmWindowExpiry lane) := by
  rintro - f ⟨⟩

theorem getHeads (tag : Octet) (body : List Octet) : Statement (.getHeads tag body) := by
  rintro - f ⟨⟩; rfl

theorem getClosures (tag : Octet) (body : List Octet) : Statement (.getClosures tag body) := by
  rintro - f ⟨⟩; rfl

theorem override (tag : Octet) (body : List Octet) : Statement (.override tag body) := by
  rintro - f ⟨⟩; rfl

theorem release (tag : Octet) (body : List Octet) : Statement (.release tag body) := by
  rintro - f ⟨⟩; rfl

theorem getOverrides (tag : Octet) (body : List Octet) : Statement (.getOverrides tag body) := by
  rintro - f ⟨⟩; rfl

theorem overrideHoldExpiry (heads : List HeadRef) : Statement (.overrideHoldExpiry heads) := by
  rintro - f ⟨⟩

theorem lampTest (tag : Octet) (body : List Octet) : Statement (.lampTest tag body) := by
  rintro - f ⟨⟩; rfl

theorem endLampTest (tag : Octet) (body : List Octet) : Statement (.endLampTest tag body) := by
  rintro - f ⟨⟩; rfl

theorem getLampTest (tag : Octet) (body : List Octet) : Statement (.getLampTest tag body) := by
  rintro - f ⟨⟩; rfl

theorem lampTestWindowExpiry : Statement (.lampTestWindowExpiry) := by
  rintro - f ⟨⟩

theorem clearFault (tag : Octet) (body : List Octet) : Statement (.clearFault tag body) := by
  rintro - f ⟨⟩; rfl

theorem getLamps (tag : Octet) (body : List Octet) : Statement (.getLamps tag body) := by
  rintro - f ⟨⟩; rfl

theorem getFaults (tag : Octet) (body : List Octet) : Statement (.getFaults tag body) := by
  rintro - f ⟨⟩; rfl

theorem freeze (tag : Octet) (body : List Octet) : Statement (.freeze tag body) := by
  rintro - f ⟨⟩; rfl

theorem fixSignature (tag : Octet) (body : List Octet) : Statement (.fixSignature tag body) := by
  rintro - f ⟨⟩; rfl

theorem unfix (tag : Octet) (body : List Octet) : Statement (.unfix tag body) := by
  rintro - f ⟨⟩; rfl

theorem unlearn (tag : Octet) (body : List Octet) : Statement (.unlearn tag body) := by
  rintro - f ⟨⟩; rfl

theorem getSignatures (tag : Octet) (body : List Octet) : Statement (.getSignatures tag body) := by
  rintro - f ⟨⟩; rfl

theorem getLearning (tag : Octet) (body : List Octet) : Statement (.getLearning tag body) := by
  rintro - f ⟨⟩; rfl

theorem gantryAnswer (link : LinkEnd) (octets : List Octet) : Statement (.gantryAnswer link octets) := by
  rintro - f ⟨⟩

theorem gantryBadAnswer (link : LinkEnd) (octets : List Octet) (brk : Bool) : Statement (.gantryBadAnswer link octets brk) := by
  rintro - f ⟨⟩

theorem gantryStrayFrame (link : LinkEnd) (octets : List Octet) : Statement (.gantryStrayFrame link octets) := by
  rintro - f ⟨⟩

theorem gantryGapTimeout (link : LinkEnd) (octets : List Octet) : Statement (.gantryGapTimeout link octets) := by
  rintro - f ⟨⟩

theorem pollTimeout (link : LinkEnd) : Statement (.pollTimeout link) := by
  rintro - f ⟨⟩

theorem gantryTransmitEnd (link : LinkEnd) : Statement (.gantryTransmitEnd link) := by
  rintro - f ⟨⟩

theorem reprobeTimerExpiry (station : Nat) : Statement (.reprobeTimerExpiry station) := by
  rintro - f ⟨⟩

theorem restoreStation (tag : Octet) (body : List Octet) : Statement (.restoreStation tag body) := by
  rintro - f ⟨⟩; rfl

theorem getRing (tag : Octet) (body : List Octet) : Statement (.getRing tag body) := by
  rintro - f ⟨⟩; rfl

theorem halfPeriodExpiry : Statement (.halfPeriodExpiry) := by
  rintro - f ⟨⟩

theorem flashSyncEdge (high : Bool) : Statement (.flashSyncEdge high) := by
  rintro - f ⟨⟩

theorem lossTimerExpiry : Statement (.lossTimerExpiry) := by
  rintro - f ⟨⟩

theorem getFlash (tag : Octet) (body : List Octet) : Statement (.getFlash tag body) := by
  rintro - f ⟨⟩; rfl

theorem secondTimerExpiry : Statement (.secondTimerExpiry) := by
  rintro - f ⟨⟩

theorem setClock (tag : Octet) (body : List Octet) : Statement (.setClock tag body) := by
  rintro - f ⟨⟩; rfl

theorem getClock (tag : Octet) (body : List Octet) : Statement (.getClock tag body) := by
  rintro - f ⟨⟩; rfl

theorem setSchedule (tag : Octet) (body : List Octet) : Statement (.setSchedule tag body) := by
  rintro - f ⟨⟩; rfl

theorem getSchedule (tag : Octet) (body : List Octet) : Statement (.getSchedule tag body) := by
  rintro - f ⟨⟩; rfl

theorem ackAttention (tag : Octet) (body : List Octet) : Statement (.ackAttention tag body) := by
  rintro - f ⟨⟩; rfl

theorem setNoticeMask (tag : Octet) (body : List Octet) : Statement (.setNoticeMask tag body) := by
  rintro - f ⟨⟩; rfl

theorem getAttention (tag : Octet) (body : List Octet) : Statement (.getAttention tag body) := by
  rintro - f ⟨⟩; rfl

theorem getLink (tag : Octet) (body : List Octet) : Statement (.getLink tag body) := by
  rintro - f ⟨⟩; rfl

theorem powerFailure : Statement (.powerFailure) := by
  rintro - f ⟨⟩

end Sys2Proof.Laws.F
end

