-- ==== Sys2Proof/Laws/Settle.lean ====
section
/-! SUPPORT. What the end of an event can do: an event that changes nothing the resolver, the pollers or the Attention Unit
read settles to itself, and what settling leaves is a settled state. -/

namespace Sys2Proof.Machine

/-! ### Comparing a head table with itself -/

theorem pairChain_self (c : List HeadRec) : ∀ p ∈ pairChain c c, p.1 = some p.2 := by
  induction c with
  | nil => simp [pairChain]
  | cons r c ih =>
    intro p hp
    rcases List.mem_cons.1 (by simpa [pairChain] using hp) with rfl | h
    · rfl
    · exact ih p h

theorem pairsAt_self (t : List (List HeadRec)) (i : Nat) : ∀ p ∈ pairsAt t t i, p.1 = some p.2 := pairChain_self _

theorem becameLost_self (t : List (List HeadRec)) (i : Nat) : ∀ p ∈ pairsAt t t i, becameLost p = false := by
  intro p hp; simp [becameLost, recHas, pairsAt_self t i p hp]

theorem laneBecameLost_self (t : List (List HeadRec)) (lane : Nat) : laneBecameLost t t lane = false := by
  unfold laneBecameLost
  rw [Bool.or_eq_false_iff, List.any_eq_false, List.any_eq_false]
  exact ⟨fun p hp => by rw [becameLost_self t _ p hp]; decide, fun p hp => by rw [becameLost_self t _ p hp]; decide⟩

theorem changedHeads_self (n l : Nat) (t : List (List HeadRec)) : changedHeads n l t t = [] := by
  unfold changedHeads
  rw [List.flatMap_eq_nil_iff]
  intro i _
  rw [List.map_eq_nil_iff, List.filter_eq_nil_iff]
  rintro ⟨p, j⟩ hp
  have hm : p ∈ pairsAt t t i := List.fst_mem_of_mem_zipIdx hp
  simp [changedResolved, recHas, pairsAt_self t i p hm]

theorem joiningEntries_self (l : Nat) (t : List (List HeadRec)) : joiningEntries l t t = 0 := by
  unfold joiningEntries countWhere
  rw [List.length_eq_zero_iff, List.filter_eq_nil_iff]
  intro i _
  cases h : pairsAt t t i with
  | nil => simp
  | cons p ps => simp [becameLost_self t i p (by rw [h]; exact List.mem_cons_self)]

theorem someBecameFailed_self (l : Nat) (t : List (List HeadRec)) : someBecameFailed l t t = false := by
  unfold someBecameFailed
  rw [List.any_eq_false]
  intro i _
  rw [Bool.not_eq_true, List.any_eq_false]
  intro p hp
  simp [becameFailed, recHas, pairsAt_self t i p hp]

/-- A head table that the records of the present one make changes nothing else (R81). -/
theorem State.takeTable_self (s : State) (t : List (List HeadRec)) :
    s.takeTable t t = { s with resolver.heads := t } := by
  unfold State.takeTable
  rw [changedHeads_self, joiningEntries_self, someBecameFailed_self]
  simp [State.raiseTimes, State.raiseIf, State.emptyAccs, State.mapStrings]

/-! ### Events that leave the heads as they are -/

/-- Two states call for the same head table: the inputs of resolution are the same (R81). -/
structure SameDemands (s u : State) : Prop where
  n : u.n = s.n
  l : u.l = s.l
  mode : u.config.mode = s.config.mode
  lane : ∀ l f pos, laneDemand (u.lane l).phase f pos = laneDemand (s.lane l).phase f pos
  override : ∀ h, (u.overrideOf h).map (·.aspect) = (s.overrideOf h).map (·.aspect)
  lampTest : ∀ h, u.lampTestDemand h = s.lampTestDemand h
  station : ∀ k, (u.station k).state = (s.station k).state
  condition : ∀ h, (u.proving h).condition = (s.proving h).condition
  fault : ∀ h i, u.faulty h i = s.faulty h i

namespace SameDemands

variable {s u : State}

theorem refl (s : State) : SameDemands s s := ⟨rfl, rfl, rfl, fun _ _ _ => rfl, fun _ => rfl, fun _ => rfl, fun _ => rfl,
  fun _ => rfl, fun _ _ => rfl⟩

theorem stationDown (h : SameDemands s u) (k : Nat) : u.stationDown k = s.stationDown k := by
  unfold State.stationDown; rw [h.station]

theorem availability (h : SameDemands s u) (r : HeadRef) (a : Aspect) : u.availability r a = s.availability r a := by
  unfold State.availability State.headUnavailable
  simp only [h.stationDown, h.condition, h.fault]

theorem resolveHead (h : SameDemands s u) (r : HeadRef) (c : Bool) : u.resolveHead r c = s.resolveHead r c := by
  have ha : u.availability r = s.availability r := funext (h.availability r)
  unfold State.resolveHead
  simp only [h.n, h.mode, h.lane, h.override, h.lampTest, ha]

theorem resolveChain (h : SameDemands s u) (lane : Nat) (f : Face) (j : Nat) :
    u.resolveChain lane f j = s.resolveChain lane f j := by
  induction j with
  | zero => rfl
  | succ j ih =>
    unfold State.resolveChain
    rw [ih, h.n]
    exact congrArg₂ _ (h.resolveHead _ _) rfl

/-- States with the same inputs of resolution call for the same head table. -/
theorem resolveTable (h : SameDemands s u) : u.resolveTable = s.resolveTable := by
  unfold State.resolveTable
  simp only [h.l, h.n, h.resolveChain]

end SameDemands

/-- An event that leaves the inputs of resolution as they were settles its heads to themselves. -/
theorem settleHeads_same {s u : State} (hs : s.resolver.heads = s.resolveTable) (h : SameDemands s u)
    (hh : u.resolver.heads = s.resolver.heads) : settleHeads s u = u := by
  have hold : comparedTable s u = s.resolver.heads := by
    unfold comparedTable; rw [if_pos ⟨h.n.symm, h.l.symm⟩]
  have hnew : u.resolveTable = s.resolver.heads := by rw [hs]; exact h.resolveTable
  have hfell : stationFell s u = false := by
    unfold stationFell
    rw [List.any_eq_false]
    intro k _
    rw [h.station]; cases (s.station k).state <;> decide
  have hfail : failingLanes s u s.resolver.heads s.resolver.heads = [] := by
    unfold failingLanes
    rw [List.filter_eq_nil_iff]
    intro l _
    simp [hfell, laneBecameLost_self]
  unfold settleHeads
  simp only [hold, hnew, hfail, State.failOpenings_nil, State.takeTable_self]
  rw [← hh]

/-! ### The host link's part of the state -/

/-- The pollers read nothing of the Host Link Port. -/
theorem drivePoller_host (u : State) (p : HostPort) (e : LinkEnd) :
    ({ u with host := p } : State).drivePoller e = { u.drivePoller e with host := p } := by
  have hp : ({ u with host := p } : State).poller e = u.poller e := by cases e <;> rfl
  have hset : ∀ (v : State) q, ({ v with host := p } : State).setPoller e q = { v.setPoller e q with host := p } := by
    intro v q; cases e <;> rfl
  have hn : ({ u with host := p } : State).nextExchange e = u.nextExchange e := by cases e <;> rfl
  unfold State.drivePoller
  rw [hp, hn]
  simp only [show ({ u with host := p } : State).polling = u.polling from rfl,
    show ({ u with host := p } : State).phaseFrame = u.phaseFrame from rfl]
  split
  · rfl
  · split
    · exact hset u _
    · cases h : u.nextExchange e with
      | none => rfl
      | some x =>
        simp only [State.beginExchange, hp, show ({ u with host := p } : State).station x.station = u.station x.station from rfl]
        split
        · exact hset (u.setStation _ _) _
        · exact hset u _

/-- The conditions read nothing of the Host Link Port. -/
theorem reportConditions_host (u : State) (p : HostPort) :
    ({ u with host := p } : State).reportConditions = { u.reportConditions with host := p } := rfl

/-- A command completes on the Host Link Port alone. -/
theorem State.complete_host (u : State) (f : HostFrame) (r : Reply) :
    u.complete f r = { u with host := (u.complete f r).host } := rfl

/-- The transmitter changes the Host Link Port alone. -/
theorem State.driveTransmitter_host (u : State) : u.driveTransmitter = { u with host := u.driveTransmitter.host } := by
  unfold State.driveTransmitter
  split
  · rfl
  · rfl
  · split
    · split <;> rfl
    · rfl

theorem State.driveAlert_of {u : State} (h : u.attn.alert = alertLevel u.attn) : u.driveAlert = u := by
  unfold State.driveAlert; rw [← h]

/-- An event that leaves the inputs of resolution as they were, and after which the owners of conditions and the pollers
have nothing new, ends with the transmitter's choice and the level of ALERT. -/
theorem settle_same {s u : State} (hs : s.Settled) (h : SameDemands s u) (hh : u.resolver.heads = s.resolver.heads)
    (hc : u.reportConditions = u) (hw : u.drivePoller .west = u) (he : u.drivePoller .east = u) :
    settle s u = u.driveTransmitter.driveAlert := by
  unfold settle
  rw [settleHeads_same hs.heads h hh, hc, hw, he]

/-- A command that has completed and changed nothing the resolver, the conditions, the pollers or ALERT depend on. -/
theorem settle_complete {s u : State} (f : HostFrame) (r : Reply) (hs : s.Settled) (h : SameDemands s u)
    (hh : u.resolver.heads = s.resolver.heads) (hc : u.reportConditions = u) (hw : u.drivePoller .west = u)
    (he : u.drivePoller .east = u) (ha : u.attn.alert = alertLevel u.attn) :
    settle s (u.complete f r) = u.sent f r := by
  have hw' : (u.complete f r).drivePoller .west = u.complete f r := by
    rw [State.complete_host, drivePoller_host, hw]
  have he' : (u.complete f r).drivePoller .east = u.complete f r := by
    rw [State.complete_host, drivePoller_host, he]
  have hc' : (u.complete f r).reportConditions = u.complete f r := by
    rw [State.complete_host, reportConditions_host, hc]
  have hd : SameDemands s (u.complete f r) :=
    ⟨h.n, h.l, h.mode, h.lane, h.override, h.lampTest, h.station, h.condition, h.fault⟩
  rw [settle_same hs hd hh hc' hw' he']
  apply State.driveAlert_of
  rw [State.driveTransmitter_host]
  exact ha

/-! ### Running a command -/

/-- What a command that completes at once can do: when it is taken and passes its length and mode, its own act answers, and
its reply is queued. -/
theorem runCommand_taken {kind len : Nat} {modes : Modes} {act : State → List Octet → CmdResult} {tag : Octet}
    {body : List Octet} {s : State} (hl : s.live = true) (ht : s.canTake (commandFrame kind tag body) = true)
    (hlen : body.length = len) (hm : modes.accept s.config.mode = true) :
    runCommand kind len modes act tag body s =
      .next (settle s ((act s body).state.complete (commandFrame kind tag body) (act s body).reply)) := by
  unfold runCommand eventIf answer
  simp [hl, ht, checked, hlen, hm]

/-- A command that its own act leaves the state unchanged by. -/
theorem runCommand_quiet {kind len : Nat} {modes : Modes} {act : State → List Octet → CmdResult} {tag : Octet}
    {body : List Octet} {s : State} (hs : s.Settled) (hl : s.live = true)
    (ht : s.canTake (commandFrame kind tag body) = true) (hlen : body.length = len)
    (hm : modes.accept s.config.mode = true) (ha : (act s body).state = s) :
    runCommand kind len modes act tag body s = .next (s.sent (commandFrame kind tag body) (act s body).reply) := by
  rw [runCommand_taken hl ht hlen hm, ha,
    settle_complete _ _ hs (.refl s) rfl hs.conditions hs.west hs.east hs.alert]

/-- What a command that completes at once can do, every case: nothing; a refusal for its length; a refusal for the mode; its
own act. -/
theorem runCommand_cases {kind len : Nat} {modes : Modes} {act : State → List Octet → CmdResult} {tag : Octet}
    {body : List Octet} {s t : State} (h : runCommand kind len modes act tag body s = .next t) :
    t = s ∨ ∃ r : CmdResult, t = settle s (r.state.complete (commandFrame kind tag body) r.reply) ∧
      (r = refuse s 17 len 0 ∨ r = refuse s 19 s.config.mode.code 0 ∨ r = act s body) := by
  unfold runCommand eventIf answer at h
  dsimp only at h
  split at h
  · right
    refine ⟨checked len modes act s body, (Host.Outcome.next.inj h).symm, ?_⟩
    unfold checked
    split
    · exact .inl rfl
    · split
      · exact .inr (.inl rfl)
      · exact .inr (.inr rfl)
  · exact .inl (Host.Outcome.next.inj h).symm

/-- What an event that the state must allow can do. -/
theorem eventIf_cases {s t : State} {a : Bool} {f : State → State} (h : eventIf s a f = .next t) :
    t = s ∨ (s.live = true ∧ a = true ∧ t = settle s (f s)) := by
  unfold eventIf answer at h
  split at h
  · rename_i hc
    rw [Bool.and_eq_true] at hc
    exact .inr ⟨hc.1, hc.2, (Host.Outcome.next.inj h).symm⟩
  · exact .inl (Host.Outcome.next.inj h).symm

/-- What an event of a live part can do. -/
theorem event_cases {s t : State} {f : State → State} (h : event s f = .next t) :
    t = s ∨ (s.live = true ∧ t = settle s (f s)) := by
  unfold event answer at h
  split at h
  · exact .inr ⟨‹_›, (Host.Outcome.next.inj h).symm⟩
  · exact .inl (Host.Outcome.next.inj h).symm

/-! ### What settling touches -/

theorem State.raiseTimes_frame (s : State) (k : AttnKind) (n : Nat) :
    s.raiseTimes k n =
      { s with
        attn := { s.attn with latched := (s.raiseTimes k n).attn.latched, rep := (s.raiseTimes k n).attn.rep }
        host := { s.host with noticePending := (s.raiseTimes k n).host.noticePending } } := by
  induction n generalizing s with
  | zero => rfl
  | succ n ih =>
    unfold State.raiseTimes
    rw [ih (s.raise k)]
    unfold State.raise; split <;> rfl

theorem State.raiseIf_frame (s : State) (c : Bool) (k : AttnKind) :
    s.raiseIf c k =
      { s with
        attn := { s.attn with latched := (s.raiseIf c k).attn.latched, rep := (s.raiseIf c k).attn.rep }
        host := { s.host with noticePending := (s.raiseIf c k).host.noticePending } } := by
  cases c
  · rfl
  · unfold State.raiseIf State.raise; simp only [if_true]; split <;> rfl

/-- A new head table: accumulators of heads whose R changed are emptied and kinds are raised; nothing else changes
(R79, R80, R83). -/
theorem State.takeTable_frame (s : State) (old new : List (List HeadRec)) :
    s.takeTable old new =
      { s with
        resolver.heads := new
        lamps.strings := Tab.mapWhere StringRec.reset (fun i => (changedHeads s.n s.l old new).contains (i / 10))
          StringRec.emptied s.lamps.strings
        attn := { s.attn with latched := (s.takeTable old new).attn.latched, rep := (s.takeTable old new).attn.rep }
        host := { s.host with noticePending := (s.takeTable old new).host.noticePending } } := by
  unfold State.takeTable
  rw [State.raiseIf_frame, State.raiseTimes_frame]
  rfl

/-- `t` differs from `s` at most in the active flags. -/
def ActiveStep (s t : State) : Prop := t = { s with attn := { s.attn with active := t.attn.active } }

theorem ActiveStep.then {s t u : State} (h : ActiveStep s t) (k : ActiveStep t u) : ActiveStep s u := by
  unfold ActiveStep at *
  rw [h] at k
  exact k

theorem report_step (s : State) (k : AttnKind) (v : Bool) : ActiveStep s (s.report k v) := rfl

/-- The condition reports write the active flags alone (R190). -/
theorem State.reportConditions_frame (s : State) :
    s.reportConditions = { s with attn := { s.attn with active := s.reportConditions.attn.active } } := by
  show ActiveStep s s.reportConditions
  unfold State.reportConditions
  exact (((((((((report_step s _ _).then (report_step _ _ _)).then (report_step _ _ _)).then (report_step _ _ _)).then
    (report_step _ _ _)).then (report_step _ _ _)).then (report_step _ _ _)).then (report_step _ _ _)).then
    (report_step _ _ _)).then (report_step _ _ _)

/-- A poller's choice changes the Gantry Link Controller alone (R153). -/
theorem State.drivePoller_frame (s : State) (e : LinkEnd) : s.drivePoller e = { s with link := (s.drivePoller e).link } := by
  have hset : ∀ (v : State) q, v.setPoller e q = { v with link := (v.setPoller e q).link } := by
    intro v q; cases e <;> rfl
  unfold State.drivePoller
  dsimp only
  split
  · rfl
  · split
    · exact hset s _
    · cases s.nextExchange e with
      | none => rfl
      | some x =>
        simp only [State.beginExchange]
        split
        · cases e <;> rfl
        · exact hset s _

section Frame

variable (b a : State)

/-- The lanes whose fresh opening the settling of an event fails (R36). -/
abbrev settledFailures : List Nat := failingLanes b a (comparedTable b a) a.resolveTable

/-- The engine once the event's reports have been acted on (R36, R76). -/
abbrev settledEngine : State := a.failOpenings (settledFailures b a)

@[simp] theorem driveTransmitter_power (s : State) : s.driveTransmitter.power = s.power := by
  rw [State.driveTransmitter_host]
@[simp] theorem driveTransmitter_config (s : State) : s.driveTransmitter.config = s.config := by
  rw [State.driveTransmitter_host]
@[simp] theorem driveTransmitter_engine (s : State) : s.driveTransmitter.engine = s.engine := by
  rw [State.driveTransmitter_host]
@[simp] theorem driveTransmitter_resolver (s : State) : s.driveTransmitter.resolver = s.resolver := by
  rw [State.driveTransmitter_host]
@[simp] theorem driveTransmitter_lamps (s : State) : s.driveTransmitter.lamps = s.lamps := by
  rw [State.driveTransmitter_host]
@[simp] theorem driveTransmitter_sigs (s : State) : s.driveTransmitter.sigs = s.sigs := by
  rw [State.driveTransmitter_host]
@[simp] theorem driveTransmitter_link (s : State) : s.driveTransmitter.link = s.link := by
  rw [State.driveTransmitter_host]
@[simp] theorem driveTransmitter_time (s : State) : s.driveTransmitter.time = s.time := by
  rw [State.driveTransmitter_host]
@[simp] theorem driveTransmitter_attn (s : State) : s.driveTransmitter.attn = s.attn := by
  rw [State.driveTransmitter_host]
@[simp] theorem driveTransmitter_pending (s : State) : s.driveTransmitter.pending = s.pending := by
  rw [State.driveTransmitter_host]

@[simp] theorem drivePoller_power (s : State) (e : LinkEnd) : (s.drivePoller e).power = s.power := by
  rw [State.drivePoller_frame]
@[simp] theorem drivePoller_config (s : State) (e : LinkEnd) : (s.drivePoller e).config = s.config := by
  rw [State.drivePoller_frame]
@[simp] theorem drivePoller_engine (s : State) (e : LinkEnd) : (s.drivePoller e).engine = s.engine := by
  rw [State.drivePoller_frame]
@[simp] theorem drivePoller_resolver (s : State) (e : LinkEnd) : (s.drivePoller e).resolver = s.resolver := by
  rw [State.drivePoller_frame]
@[simp] theorem drivePoller_lamps (s : State) (e : LinkEnd) : (s.drivePoller e).lamps = s.lamps := by
  rw [State.drivePoller_frame]
@[simp] theorem drivePoller_sigs (s : State) (e : LinkEnd) : (s.drivePoller e).sigs = s.sigs := by
  rw [State.drivePoller_frame]
@[simp] theorem drivePoller_time (s : State) (e : LinkEnd) : (s.drivePoller e).time = s.time := by
  rw [State.drivePoller_frame]
@[simp] theorem drivePoller_hostPort (s : State) (e : LinkEnd) : (s.drivePoller e).host = s.host := by
  rw [State.drivePoller_frame]
@[simp] theorem drivePoller_attn (s : State) (e : LinkEnd) : (s.drivePoller e).attn = s.attn := by
  rw [State.drivePoller_frame]
@[simp] theorem drivePoller_pending (s : State) (e : LinkEnd) : (s.drivePoller e).pending = s.pending := by
  rw [State.drivePoller_frame]

/-- The state after the resolver and the engine have settled (R81). -/
theorem settleHeads_frame :
    settleHeads b a = (settledEngine b a).takeTable (comparedTable b a) (settledEngine b a).resolveTable := rfl

@[simp] theorem settle_power : (settle b a).power = a.power := by
  simp only [settle, State.driveAlert_power, driveTransmitter_power, drivePoller_power]
  rw [State.reportConditions_frame, settleHeads_frame, State.takeTable_frame]
  exact (failOpenings_step a _).power
@[simp] theorem settle_config : (settle b a).config = a.config := by
  simp only [settle, State.driveAlert_config, driveTransmitter_config, drivePoller_config]
  rw [State.reportConditions_frame, settleHeads_frame, State.takeTable_frame]
  exact (failOpenings_step a _).config
@[simp] theorem settle_sigs : (settle b a).sigs = a.sigs := by
  simp only [settle, State.driveAlert_sigs, driveTransmitter_sigs, drivePoller_sigs]
  rw [State.reportConditions_frame, settleHeads_frame, State.takeTable_frame]
  exact (failOpenings_step a _).sigs
@[simp] theorem settle_time : (settle b a).time = a.time := by
  simp only [settle, State.driveAlert_time, driveTransmitter_time, drivePoller_time]
  rw [State.reportConditions_frame, settleHeads_frame, State.takeTable_frame]
  exact (failOpenings_step a _).time
@[simp] theorem settle_pending : (settle b a).pending = a.pending := by
  simp only [settle, State.driveAlert_pending, driveTransmitter_pending, drivePoller_pending]
  rw [State.reportConditions_frame, settleHeads_frame, State.takeTable_frame]
  exact (failOpenings_step a _).pending
@[simp] theorem settle_engine : (settle b a).engine = (settledEngine b a).engine := by
  simp only [settle, State.driveAlert_engine, driveTransmitter_engine, drivePoller_engine]
  rw [State.reportConditions_frame, settleHeads_frame, State.takeTable_frame]
/-- Settling leaves the override table, the lamp-test records and the displayed aspects, and makes the head table that the
settled state calls for (R81). -/
theorem settle_resolver : (settle b a).resolver = { a.resolver with heads := (settledEngine b a).resolveTable } := by
  simp only [settle, State.driveAlert_resolver, driveTransmitter_resolver, drivePoller_resolver]
  rw [State.reportConditions_frame, settleHeads_frame, State.takeTable_frame]
  simp only [(failOpenings_step a _).resolver]
/-- Settling empties accumulators, and changes nothing else of the Lamp Proving Unit (R83). -/
theorem settle_lamps :
    (settle b a).lamps =
      { a.lamps with
        strings := Tab.mapWhere StringRec.reset
          (fun i => (changedHeads a.n a.l (comparedTable b a) (settledEngine b a).resolveTable).contains (i / 10))
          StringRec.emptied a.lamps.strings } := by
  simp only [settle, State.driveAlert_lamps, driveTransmitter_lamps, drivePoller_lamps]
  rw [State.reportConditions_frame, settleHeads_frame, State.takeTable_frame]
  simp only [(failOpenings_step a _).lamps, (failOpenings_step a _).n, (failOpenings_step a _).l]

@[simp] theorem settle_n : (settle b a).n = a.n := by unfold State.n; rw [settle_config]
@[simp] theorem settle_l : (settle b a).l = a.l := by unfold State.l; rw [settle_config]
@[simp] theorem settle_live : (settle b a).live = a.live := by unfold State.live; rw [settle_power]
@[simp] theorem settle_lane (l : Nat) : (settle b a).lane l = (settledEngine b a).lane l := by
  unfold State.lane; rw [settle_engine]
@[simp] theorem settle_heads (h : HeadRef) : (settle b a).proving h = a.proving h := by
  unfold State.proving; rw [settle_lamps]

/-- ALERT has its level at the end of every event (R193). -/
theorem settle_alert : (settle b a).attn.alert = alertLevel (settle b a).attn := by
  have h : ∀ u : State, u.driveAlert.attn.alert = alertLevel u.driveAlert.attn := fun _ => rfl
  exact h _

end Frame

end Sys2Proof.Machine
end

