-- ==== Sys2Proof/Laws/Settled.lean ====
section
/-! SUPPORT. What an event leaves is a settled state (`settle_settled`), with the frames of the pollers' choice and of the
condition reports that it rests on. -/

namespace Sys2Proof.Machine

/-! ### The pollers' choice -/

/-- An end has nothing to choose: its poller is idle, or busy, or has neither a PHASE frame nor an exchange (R153). -/
def State.Rests (s : State) (e : LinkEnd) : Prop :=
  s.polling = false ∨ (s.poller e).sending.isSome = true ∨ (s.poller e).exchange.isSome = true ∨
    ((s.poller e).phasePending = false ∧ s.nextExchange e = none)

theorem State.Rests.drive {s : State} {e : LinkEnd} (h : s.Rests e) : s.drivePoller e = s := by
  unfold State.drivePoller
  dsimp only
  rcases h with h | h | h | ⟨h1, h2⟩
  · simp [h]
  · simp [h]
  · simp [h]
  · split
    · rfl
    · simp [h1, h2]

@[simp] theorem State.poller_setPoller (s : State) (e : LinkEnd) (p : Poller) : (s.setPoller e p).poller e = p := by
  cases e <;> rfl

theorem State.poller_setPoller_other (s : State) (e : LinkEnd) (p : Poller) :
    (s.setPoller e p).poller e.other = s.poller e.other := by cases e <;> rfl

theorem State.drivePoller_rests (s : State) (e : LinkEnd) : (s.drivePoller e).Rests e := by
  unfold State.drivePoller
  dsimp only
  split
  · rename_i h
    simp only [Bool.or_eq_true, Bool.not_eq_true'] at h
    rcases h with (h | h) | h
    · exact .inl h
    · exact .inr (.inl h)
    · exact .inr (.inr (.inl h))
  · rename_i h0
    split
    · exact .inr (.inl (by simp))
    · rename_i h1
      cases h : s.nextExchange e with
      | none => exact .inr (.inr (.inr ⟨by simpa using h1, h⟩))
      | some x =>
        unfold State.beginExchange
        dsimp only
        split <;> exact .inr (.inl (by simp))

/-- An end's choice touches the other end only through the RESTORE-pending mark of a station. -/
theorem State.drivePoller_other (s : State) (e : LinkEnd) :
    (s.drivePoller e).poller e.other = s.poller e.other := by
  unfold State.drivePoller
  dsimp only
  split
  · rfl
  · split
    · exact s.poller_setPoller_other e _
    · cases h : s.nextExchange e with
      | none => rfl
      | some x =>
        unfold State.beginExchange
        dsimp only
        split
        · cases e <;> rfl
        · exact s.poller_setPoller_other e _

/-- Choosing what to send changes of a station record at most its RESTORE-pending mark (R147). -/
theorem State.drivePoller_station (s : State) (e : LinkEnd) (k : Nat)
    (hw : Tab.wf (StationRec.reset .west) s.link.stations = true) :
    (s.drivePoller e).station k = { s.station k with restorePending := ((s.drivePoller e).station k).restorePending } := by
  unfold State.drivePoller
  dsimp only
  split
  · rfl
  · split
    · rw [State.setPoller_station]
    · cases h : s.nextExchange e with
      | none => rfl
      | some x =>
        unfold State.beginExchange
        dsimp only
        split
        · rw [State.setPoller_station]
          have : (s.setStation x.station { s.station x.station with restorePending := false }).station k =
              if k = x.station then { s.station x.station with restorePending := false } else s.station k :=
            Tab.get_set _ _ _ _ hw
          rw [this]
          split
          · rename_i hk; rw [hk]
          · rfl
        · rw [State.setPoller_station]

theorem State.drivePoller_wf (s : State) (e : LinkEnd) (hw : Tab.wf (StationRec.reset .west) s.link.stations = true) :
    Tab.wf (StationRec.reset .west) (s.drivePoller e).link.stations = true := by
  have hset : ∀ (v : State) q, (v.setPoller e q).link.stations = v.link.stations := by intro v q; cases e <;> rfl
  unfold State.drivePoller
  dsimp only
  split
  · exact hw
  · split
    · rw [hset]; exact hw
    · cases h : s.nextExchange e with
      | none => exact hw
      | some x =>
        unfold State.beginExchange
        dsimp only
        split
        · rw [hset]; exact Tab.wf_set hw
        · rw [hset]; exact hw

/-- What an end chooses depends on its poller, the section and the stations' states and ends. -/
theorem State.nextExchange_congr {s u : State} {e : LinkEnd} (hn : u.n = s.n) (hp : u.poller e = s.poller e)
    (hst : ∀ k, (u.station k).state = (s.station k).state) (hcu : ∀ k, (u.station k).current = (s.station k).current) :
    u.nextExchange e = s.nextExchange e := by
  have hs : u.servedBy e = s.servedBy e := by
    unfold State.servedBy State.stationNumbers; simp only [hn, hcu]
  have hw : u.nextOfWalk e = s.nextOfWalk e := by unfold State.nextOfWalk; rw [hs, hp]
  have hd : ∀ x, u.stillDue e x = s.stillDue e x := by intro x; unfold State.stillDue; simp only [hn, hst, hs]
  unfold State.nextExchange
  simp only [hp, hw, hd]

theorem State.Rests.congr {s u : State} {e : LinkEnd} (h : s.Rests e) (hn : u.n = s.n) (hp : u.poller e = s.poller e)
    (hst : ∀ k, (u.station k).state = (s.station k).state) (hcu : ∀ k, (u.station k).current = (s.station k).current) :
    u.Rests e := by
  unfold State.Rests at *
  rw [State.nextExchange_congr hn hp hst hcu, hp]
  have : u.polling = s.polling := by unfold State.polling; rw [hn]
  rw [this]; exact h

/-! ### The active flags -/

/-- The active flags after the condition reports: the ten owned ones hold their conditions, the others stay (R190). -/
theorem State.reportConditions_active (s : State) (i : Nat) :
    s.reportConditions.attn.active.getLsbD i =
      if i = 17 then s.time.line == .freeRunning else if i = 10 then s.anyStation .rerouted
      else if i = 9 then s.anyStation .lost else if i = 8 then s.anyStation .cut else if i = 7 then s.anyStation .cut
      else if i = 6 then anyEntryLost s.resolver.heads else if i = 5 then s.anyHeadFault
      else if i = 4 then anyFailed s.resolver.heads else if i = 3 then s.anyStringFault
      else if i = 2 then s.anyWindow else s.attn.active.getLsbD i := by
  have hr : ∀ (u : State) k v, (u.report k v).attn.active = putFlag u.attn.active k v := fun _ _ _ => rfl
  unfold State.reportConditions
  simp only [hr, getLsbD_putFlag, AttnKind.index]
  split_ifs <;> first | rfl | simp [*]

/-- The reports are the same in states with the same conditions. -/
theorem State.reportConditions_again {s u : State} (hw : u.anyWindow = s.anyWindow)
    (hf : u.anyStringFault = s.anyStringFault) (hh : u.anyHeadFault = s.anyHeadFault)
    (ht : u.resolver.heads = s.resolver.heads) (hs : ∀ st, u.anyStation st = s.anyStation st)
    (hl : u.time.line = s.time.line) (ha : u.attn.active = s.reportConditions.attn.active) :
    u.reportConditions = u := by
  rw [State.reportConditions_frame]
  have : u.reportConditions.attn.active = u.attn.active := by
    apply BitVec.eq_of_getLsbD_eq
    intro i _
    rw [u.reportConditions_active, ha, s.reportConditions_active, hw, hf, hh, ht, hl, hs .rerouted, hs .lost, hs .cut]
    generalize (s.time.line == .freeRunning) = a, s.anyStation .rerouted = b, s.anyStation .lost = c,
      s.anyStation .cut = d, anyEntryLost s.resolver.heads = e, s.anyHeadFault = f, anyFailed s.resolver.heads = g,
      s.anyStringFault = h, s.anyWindow = j, s.attn.active.getLsbD i = k
    clear * -
    split_ifs <;> rfl
  rw [this]

/-! ### Settling -/

theorem State.faulty_emptied (s : State) (p : Nat → Bool) (h : HeadRef) (i : Nat)
    (hw : Tab.wf StringRec.reset s.lamps.strings = true) :
    (Tab.get StringRec.reset (Tab.mapWhere StringRec.reset p StringRec.emptied s.lamps.strings) (stringKey h i)).state =
      (s.string (stringKey h i)).state := by
  rw [Tab.get_mapWhere _ _ _ rfl hw]
  split <;> rfl

variable (b a : State)

theorem settle_link :
    (settle b a).link = ((((settleHeads b a).reportConditions.drivePoller .west).drivePoller .east)).link := by
  unfold settle
  rw [State.driveAlert_link, driveTransmitter_link]

theorem settleHeads_link : (settleHeads b a).link = a.link := by
  rw [settleHeads_frame, State.takeTable_frame]
  exact (failOpenings_step a _).link

theorem settle_wf (hw : Tab.wf (StationRec.reset .west) a.link.stations = true) :
    Tab.wf (StationRec.reset .west) (settle b a).link.stations = true := by
  rw [settle_link]
  refine State.drivePoller_wf _ _ (State.drivePoller_wf _ _ ?_)
  rw [State.reportConditions_frame]
  show Tab.wf _ (settleHeads b a).link.stations = true
  rw [settleHeads_link]; exact hw

/-- Settling changes of a station record at most its RESTORE-pending mark (R147). -/
theorem settle_station (hw : Tab.wf (StationRec.reset .west) a.link.stations = true) (k : Nat) :
    (settle b a).station k = { a.station k with restorePending := ((settle b a).station k).restorePending } := by
  have hR : ∀ j, (settleHeads b a).reportConditions.station j = a.station j := by
    intro j
    rw [State.reportConditions_frame]
    show (settleHeads b a).station j = a.station j
    unfold State.station; rw [settleHeads_link]
  have hwR : Tab.wf (StationRec.reset .west) (settleHeads b a).reportConditions.link.stations = true := by
    rw [State.reportConditions_frame]
    show Tab.wf _ (settleHeads b a).link.stations = true
    rw [settleHeads_link]; exact hw
  have h1 := State.drivePoller_station (settleHeads b a).reportConditions .west k hwR
  have h2 := State.drivePoller_station ((settleHeads b a).reportConditions.drivePoller .west) .east k
    (State.drivePoller_wf _ _ hwR)
  have h3 : (settle b a).station k =
      (((settleHeads b a).reportConditions.drivePoller .west).drivePoller .east).station k := by
    unfold State.station; rw [settle_link]
  rw [h3, h2, h1, hR]

theorem settle_station_state (hw : Tab.wf (StationRec.reset .west) a.link.stations = true) (k : Nat) :
    ((settle b a).station k).state = (a.station k).state := by rw [settle_station b a hw]

theorem settle_station_current (hw : Tab.wf (StationRec.reset .west) a.link.stations = true) (k : Nat) :
    ((settle b a).station k).current = (a.station k).current := by rw [settle_station b a hw]

/-- The settled state and the settled engine call for the same head table. -/
theorem settle_demands (hs : Tab.wf StringRec.reset a.lamps.strings = true)
    (hw : Tab.wf (StationRec.reset .west) a.link.stations = true) : SameDemands (settledEngine b a) (settle b a) := by
  have he := failOpenings_step a (settledFailures b a)
  refine ⟨?_, ?_, ?_, ?_, ?_, ?_, ?_, ?_, ?_⟩
  · rw [settle_n, he.n]
  · rw [settle_l, he.l]
  · rw [settle_config, he.config]
  · intro l f pos; rw [settle_lane]
  · intro h; unfold State.overrideOf; rw [settle_resolver, he.resolver]
  · intro h; unfold State.lampTestDemand; rw [settle_resolver, settle_config, he.resolver, he.config]
  · intro k
    rw [settle_station_state b a hw]
    unfold State.station; rw [he.link]
  · intro h
    rw [settle_heads]
    unfold State.proving; rw [he.lamps]
  · intro h i
    unfold State.faulty State.string
    rw [settle_lamps, State.faulty_emptied _ _ _ _ hs, he.lamps]
    rfl

theorem settle_eq_config : (settle b a).config = (settleHeads b a).config := by
  simp only [settle, State.driveAlert_config, driveTransmitter_config, drivePoller_config]
  rw [State.reportConditions_frame]
theorem settle_eq_engine : (settle b a).engine = (settleHeads b a).engine := by
  simp only [settle, State.driveAlert_engine, driveTransmitter_engine, drivePoller_engine]
  rw [State.reportConditions_frame]
theorem settle_eq_resolver : (settle b a).resolver = (settleHeads b a).resolver := by
  simp only [settle, State.driveAlert_resolver, driveTransmitter_resolver, drivePoller_resolver]
  rw [State.reportConditions_frame]
theorem settle_eq_lamps : (settle b a).lamps = (settleHeads b a).lamps := by
  simp only [settle, State.driveAlert_lamps, driveTransmitter_lamps, drivePoller_lamps]
  rw [State.reportConditions_frame]
theorem settle_eq_time : (settle b a).time = (settleHeads b a).time := by
  simp only [settle, State.driveAlert_time, driveTransmitter_time, drivePoller_time]
  rw [State.reportConditions_frame]
theorem settle_eq_n : (settle b a).n = (settleHeads b a).n := by unfold State.n; rw [settle_eq_config]
theorem settle_eq_l : (settle b a).l = (settleHeads b a).l := by unfold State.l; rw [settle_eq_config]

/-- The owners of conditions have nothing new to report once an event has ended (R190). -/
theorem settle_conditions (hw : Tab.wf (StationRec.reset .west) a.link.stations = true) :
    (settle b a).reportConditions = settle b a := by
  apply State.reportConditions_again (s := settleHeads b a)
  · unfold State.anyWindow State.laneNumbers State.lane; rw [settle_eq_l, settle_eq_engine]
  · unfold State.anyStringFault State.stringKeyIn State.headKeyIn; rw [settle_eq_lamps, settle_eq_n, settle_eq_l]
  · unfold State.anyHeadFault State.headKeyIn; rw [settle_eq_lamps, settle_eq_n, settle_eq_l]
  · rw [settle_eq_resolver]
  · intro st
    have hst : ∀ k, ((settle b a).station k).state = ((settleHeads b a).station k).state := by
      intro k
      rw [settle_station_state b a hw]
      unfold State.station; rw [settleHeads_link]
    unfold State.anyStation State.stationNumbers
    rw [settle_eq_n]
    simp only [hst]
  · rw [settle_eq_time]
  · unfold settle
    have : ∀ u : State, u.driveAlert.attn.active = u.attn.active := fun _ => rfl
    rw [this, driveTransmitter_attn, drivePoller_attn, drivePoller_attn]

/-- An event ends with nothing for the pollers to choose (R153). -/
theorem settle_rests (hw : Tab.wf (StationRec.reset .west) a.link.stations = true) (e : LinkEnd) :
    (settle b a).Rests e := by
  have hwR : Tab.wf (StationRec.reset .west) (settleHeads b a).reportConditions.link.stations = true := by
    rw [State.reportConditions_frame]
    show Tab.wf _ (settleHeads b a).link.stations = true
    rw [settleHeads_link]; exact hw
  have hwW := State.drivePoller_wf _ .west hwR
  have hn : ∀ e f : LinkEnd, (settle b a).n = (((settleHeads b a).reportConditions.drivePoller e).drivePoller f).n := by
    intro e f
    rw [settle_eq_n]; unfold State.n; rw [drivePoller_config, drivePoller_config]; rw [State.reportConditions_frame]
  have hst : ∀ k, (settle b a).station k =
      (((settleHeads b a).reportConditions.drivePoller .west).drivePoller .east).station k := by
    intro k; unfold State.station; rw [settle_link]
  have hpol : ∀ e, (settle b a).poller e =
      (((settleHeads b a).reportConditions.drivePoller .west).drivePoller .east).poller e := by
    intro e; unfold State.poller; rw [settle_link]
  cases e with
  | west =>
    have h1 := State.drivePoller_rests (settleHeads b a).reportConditions .west
    refine h1.congr ?_ ?_ ?_ ?_
    · rw [settle_eq_n]; unfold State.n; rw [drivePoller_config]; rw [State.reportConditions_frame]
    · rw [hpol]; exact State.drivePoller_other _ .east
    · intro k; rw [hst, State.drivePoller_station _ _ _ hwW]
    · intro k; rw [hst, State.drivePoller_station _ _ _ hwW]
  | east =>
    have h1 := State.drivePoller_rests ((settleHeads b a).reportConditions.drivePoller .west) .east
    exact h1.congr (hn _ _) (hpol _) (fun k => by rw [hst]) (fun k => by rw [hst])

theorem State.driveTransmitter_again (s : State) : s.driveTransmitter.driveTransmitter = s.driveTransmitter := by
  obtain ⟨_, _, _, _, _, _, _, _, h, _, _⟩ := s
  obtain ⟨_, _, replies, tx, pending, _, _, _, _, _, _, _, _⟩ := h
  rcases tx with _ | f
  · rcases replies with _ | ⟨r, rs⟩
    · rcases pending with _ | _
      · rfl
      · unfold State.driveTransmitter
        dsimp only
        simp only [if_true]
        split_ifs <;> rfl
    · rfl
  · rfl

/-- The level of ALERT and the transmitter's choice do not touch each other: a notice reads the flags (R187). -/
theorem State.driveTransmitter_driveAlert (s : State) :
    s.driveAlert.driveTransmitter = s.driveTransmitter.driveAlert := by
  obtain ⟨_, _, _, _, _, _, _, _, h, _, _⟩ := s
  obtain ⟨_, _, replies, tx, pending, _, _, _, _, _, _, _, _⟩ := h
  rcases tx with _ | f
  · rcases replies with _ | ⟨r, rs⟩
    · rcases pending with _ | _
      · rfl
      · unfold State.driveTransmitter State.driveAlert
        dsimp only
        simp only [if_true]
        split_ifs <;> rfl
    · rfl
  · rfl

/-- What an event leaves is settled (R81, R153, R186, R190, R193). -/
theorem settle_settled (hs : Tab.wf StringRec.reset a.lamps.strings = true)
    (hw : Tab.wf (StationRec.reset .west) a.link.stations = true) : (settle b a).Settled where
  heads := by rw [(settle_demands b a hs hw).resolveTable, settle_resolver]
  conditions := settle_conditions b a hw
  west := (settle_rests b a hw .west).drive
  east := (settle_rests b a hw .east).drive
  line := by unfold settle; rw [State.driveTransmitter_driveAlert, State.driveTransmitter_again]
  alert := settle_alert b a

end Sys2Proof.Machine
end

