-- ==== Sys2Proof/Tests/Slice0.lean ====
section
/-! SUPPORT. Tests on fixed values, with expected results taken from spec/, and for every statement with hypotheses a witness
that meets them. -/

open Sys2Proof Sys2Proof.Machine

namespace Sys2Proof.Tests

set_option Elab.async false

/-! ### Small parts to test with -/

/-- A part of N stations and L lanes in a mode, every record written, each end's poller polling its first station. -/
def part (n l : Nat) (mode : Mode) : State :=
  { State.reset with
    config.records.tunnel := { Tunnel.default with written := true, n := n, l := l }
    config.records.lanes := (List.range l).map fun i => (i, some ⟨.tidal, .lower, .timed⟩)
    config.records.stations := (List.range n).map fun k => (k, some ⟨k % 4, true⟩)
    config.mode := mode
    link.stations := ((List.range n).filter fun k => homeEnd n k == .east).map fun k => (k, StationRec.reset .east)
    link.west := { Poller.reset with sending := some (cutFrame 0), exchange := some ⟨0, false⟩, last := some 0 }
    link.east := { Poller.reset with sending := some (cutFrame (n - 1)), exchange := some ⟨n - 1, false⟩, last := some (n - 1) }
    time.line := .driving }

/-- A state with the head table, the active flags and the ALERT level it calls for. -/
def settled (s : State) : State :=
  let t : State := { s with resolver.heads := s.resolveTable }
  let u : State := { t with attn.active := t.reportConditions.attn.active }
  { u with attn.alert := alertLevel u.attn }

/-- A frame waits in the oldest slot. -/
def slotted (s : State) (f : HostFrame) : State := { s with host.slots := [f] }

/-- A good state of a powered part whose processor is READY, with no reply queued and no notice pending. -/
def rests (s : State) : Bool :=
  s.goodCheck && s.live && decide (s.host.processor = .ready ∧ s.host.replies = [] ∧ s.host.noticePending = false)

theorem good_slotted {s : State} (f : HostFrame) (h : s.Good) (hl : s.live = true)
    (hr : s.host.replies = []) (hn : s.host.noticePending = false) : (slotted s f).Good := by
  have hs := h.settled hl
  refine ⟨fun _ => ⟨?_, ?_, ?_, ?_, ?_, hs.alert⟩, h.config, h.clock, ⟨h.lanes.1, h.lanes.2, h.lanes.3, h.lanes.4, h.lanes.5, h.lanes.6, h.lanes.7, h.lanes.8⟩,
    ⟨by simp [slotted], h.capacity.replies, h.capacity.writing, h.capacity.queue, h.capacity.tasks, h.capacity.overrides,
      h.capacity.oneEach, h.capacity.counters⟩, h.signatures, h.strings, ⟨h.stations.1, h.stations.2, h.stations.3, h.stations.4⟩, h.tables⟩
  · have hd : SameDemands s (slotted s f) := ⟨rfl, rfl, rfl, fun _ _ _ => rfl, fun _ => rfl, fun _ => rfl, fun _ => rfl, fun _ => rfl, fun _ _ => rfl⟩
    rw [hd.resolveTable, ← hs.heads]; rfl
  · exact (reportConditions_host s _).trans (by rw [hs.conditions]; rfl)
  · exact (drivePoller_host s _ _).trans (by rw [hs.west]; rfl)
  · exact (drivePoller_host s _ _).trans (by rw [hs.east]; rfl)
  · unfold State.driveTransmitter
    simp only [slotted, hr, hn]
    cases s.host.tx <;> simp

/-- The part takes the command of this KIND and body while the state passes a test. -/
def Meets (s : State) (kind : Nat) (b : List Octet) (p : State → Prop) : Prop :=
  (slotted s (commandFrame kind 7 b)).takes (commandFrame kind 7 b) ∧ p (slotted s (commandFrame kind 7 b))

theorem meets {s : State} {kind : Nat} {b : List Octet} {p : State → Prop} (h : rests s = true)
    (hp : p (slotted s (commandFrame kind 7 b))) : Meets s kind b p := by
  simp only [rests, Bool.and_eq_true, decide_eq_true_eq] at h
  obtain ⟨⟨h1, h2⟩, h4, h5, h6⟩ := h
  refine ⟨⟨good_slotted _ (good_of h1) h2 h5 h6, h2, ?_⟩, hp⟩
  simp [State.canTake, slotted, h4, Config.replyPlaces, h5]

/-! ### Well-formedness refuses what is ill-formed -/

theorem test_wf_refuses_bad_crc : (Instr.hostFrameReceived [0xA5, 0, 2, 7, 0, 0]).wf = false := by decide +kernel
theorem test_wf_refuses_good_as_dropped :
    (Instr.hostFrameDropped (commandFrame 2 7 []).octets false).wf = false := by decide +kernel
theorem test_wf_refuses_break_outside_frame : (Instr.hostFrameDropped [] true).wf = false := by decide +kernel
theorem test_wf_refuses_gap_outside_frame : (Instr.hostGapTimeout (commandFrame 2 7 []).octets).wf = false := by decide +kernel
theorem test_wf_refuses_known_kind : (Instr.unknownKind 2 7 []).wf = false := by decide
theorem test_wf_refuses_long_body : (Instr.setTunnel 7 (List.replicate 241 0)).wf = false := by decide +kernel
theorem test_wf_refuses_lane_6 : (Instr.closingStepExpiry 6).wf = false := by decide
theorem test_wf_refuses_station_16 : (Instr.reprobeTimerExpiry 16).wf = false := by decide
theorem test_wf_refuses_no_head : (Instr.overrideHoldExpiry []).wf = false := by decide
theorem test_wf_refuses_head_16 : (Instr.overrideHoldExpiry [⟨16, 0, .a⟩]).wf = false := by decide
theorem test_wf_refuses_head_twice : (Instr.overrideHoldExpiry [⟨1, 0, .a⟩, ⟨1, 0, .a⟩]).wf = false := by decide
theorem test_wf_refuses_bad_answer : (Instr.gantryAnswer .west [0xC3, 0, 9, 0, 0, 0, 0, 0, 0, 0, 0]).wf = false := by decide +kernel
theorem test_wf_refuses_frame_unended_as_bad_answer : (Instr.gantryBadAnswer .west [0xC3, 0, 9] false).wf = false := by
  decide +kernel
theorem test_wf_refuses_break_outside_answer : (Instr.gantryBadAnswer .west [] true).wf = false := by decide +kernel
theorem test_wf_refuses_no_stray_frame : (Instr.gantryStrayFrame .west []).wf = false := by decide +kernel
theorem test_wf_refuses_gantry_gap_outside_frame : (Instr.gantryGapTimeout .west []).wf = false := by decide +kernel

/-! ### Figures of the manual -/

/-- R181: the CRC of the nine octets. -/
theorem test_crc : crc16 [0x31, 0x32, 0x33, 0x34, 0x35, 0x36, 0x37, 0x38, 0x39] = 0x29B1 := by decide +kernel

/-- No row of the table has bits. -/
theorem test_no_word_spells_a_command : decodeTableWord 16 0x1234 = none := by decide

/-- Worked figures: three provings (spec/06). -/
theorem test_band_312_at_350 : band .default (.learned 312) 350 = (93, 125) := by decide
theorem test_band_312_at_1000 : band .default (.learned 312) 1000 = (265, 359) := by decide
theorem test_band_100_at_40 : band .default (.learned 100) 40 = (-1, 9) := by decide
theorem test_avg_104_99_111_107 : ((((Acc.empty.add 104).add 99).add 111).add 107).avg = 105 := by decide
theorem test_avg_318_322_317_321 : ((((Acc.empty.add 318).add 322).add 317).add 321).avg = 320 := by decide
theorem test_judge_pass : judge .default 93 125 105 99 111 = .pass := by decide
theorem test_judge_inconclusive : judge .default (-1) 9 4 4 4 = .inconclusive := by decide
theorem test_judge_low : judge .default 266 360 257 250 262 = .failLow := by decide
theorem test_judge_spread : judge .default 266 360 338 300 420 = .failSpread := by decide

/-- Worked figures: the band of an UNLEARNED string (spec/06), levels 0 to 7. -/
theorem test_unlearned_bands : (defaultDuties.map fun d => band .default .unlearned d) =
    [(40, 900), (28, 630), (20, 450), (14, 315), (10, 225), (6, 135), (3, 72), (2, 36)] := by decide

/-- Worked sequence: a string through SUSPECT to FAULT (spec/06), its third failure in a row. -/
theorem test_third_failure : moveString 3 .failLow .suspect 2 = (.fault, 3) := by decide

/-- Worked figures: learning and refresh (spec/07). -/
theorem test_normalized_160_at_500 : normalized 160 500 = 320 := by decide
theorem test_normalized_512_at_500 : normalized 512 500 = 1023 := by decide
theorem test_normalized_226_at_700 : normalized 226 700 = 323 := by decide
theorem test_refresh_313_to_323 : refreshed 313 323 = 314 := by decide
theorem test_refresh_313_to_296 : refreshed 313 296 = 311 := by decide
theorem test_refresh_up : ([3, 4, 11, 12, 20].map fun d => refreshed 500 (500 + d)) = [500, 501, 501, 502, 503] := by decide
theorem test_refresh_down_4 : refreshed 500 496 = 499 := by decide

/-! ### States to witness with -/

def standby : State := settled (part 3 2 .standby)
def running : State := settled (part 3 2 .run)

/-- A task of the host. -/
def task (lane : Nat) (k : TaskKind) : Task := ⟨lane, k, .host, none, none⟩

/-- A part in RUN with one lane in a state. -/
def lanePart (s : State) (lane : Nat) (p : LanePhase) (timer : Option Nat) : State :=
  settled (s.setLane lane { phase := p, timer := timer, emergency := false, last := none })

def runA : State := lanePart running 0 (.run .a) none
def runBoth : State := lanePart runA 1 (.run .a) none
def closing (front : Nat) : State := lanePart running 0 (.closing .a front .slow (task 0 .close)) (some 8000)
def clearing (confirmed window : Bool) : State :=
  lanePart running 0 (.clearance .a confirmed window (task 0 .close)) (some 120000)
def opening (front : Nat) (restore : Bool) (t : Option Task) : State :=
  lanePart running 0 (.opening .a front restore t) (some 8000)

/-- The record of a string that has passed its proving. -/
def okString : StringRec := { StringRec.reset with state := .ok, proved := true }

/-- Every head of the section shows SHUT, and the two strings of its SHUT aspect have these records. -/
def shutShown (s : State) (first second : StringRec) : State :=
  settled
    { s with
      resolver.displayed := s.sectionHeads.map fun h => (h.key, some Aspect.shut)
      lamps.strings := s.sectionHeads.flatMap fun h =>
        ([(stringKey h 2, first), (stringKey h 3, second)] : List (Nat × StringRec)).filter fun e => e.2 != .reset }

/-- A string that has passed a proving and failed one since. -/
def suspectString : StringRec := ⟨.suspect, 1, .empty, none, true⟩

/-- Every head of the section shows SHUT, string 1 of it OK; string 2 is SUSPECT. -/
def provenShut (s : State) : State := shutShown s okString suspectString

def openable : State := provenShut running

/-- Every head of the section shows SHUT, string 1 of it OK; string 2 has not passed a proving since the reset. -/
def halfProven : State := shutShown running okString .reset

/-- Every head of the section shows SHUT; string 1 of it is SUSPECT, and string 2 has not passed a proving since the reset. -/
def noneProven : State := shutShown running suspectString .reset

/-- Six lanes, lane 5 closing, lane 4 in a state, and tasks queued. -/
def held (p : LanePhase) (q : List Task) : State :=
  settled
    { (lanePart (lanePart (part 2 6 .run) 4 p none) 5 (.closing .a 0 .slow (task 5 .close)) (some 8000)) with
      engine.queue := q }

def eight : List Task :=
  [task 0 .close, task 0 (.opn .a), task 1 .close, task 1 (.opn .a), task 2 .close, task 2 (.opn .a), task 3 .close,
    task 3 (.opn .a)]

def withQueue (s : State) (q : List Task) : State := { s with engine.queue := q }

theorem standby_rests : rests standby = true := by decide +kernel
theorem running_rests : rests running = true := by decide +kernel
theorem runA_rests : rests runA = true := by decide +kernel
theorem runBoth_rests : rests runBoth = true := by decide +kernel
theorem openable_rests : rests openable = true := by decide +kernel
theorem reset_rests : rests State.reset = true := by decide +kernel

theorem good_rests {s : State} (h : rests s = true) : s.Good ∧ s.live = true := by
  simp only [rests, Bool.and_eq_true] at h
  exact ⟨good_of h.1.1, h.1.2⟩

/-- An outcome is a next state. -/
def isNext (o : Host.Outcome State Fault Refusal) : Bool :=
  match o with
  | .next _ => true
  | .fault _ => false
  | .refused _ => false

/-- The next state an outcome answers. -/
def nextState (o : Host.Outcome State Fault Refusal) : State :=
  match o with
  | .next t => t
  | .fault _ => State.reset
  | .refused _ => State.reset

theorem next_of {o : Host.Outcome State Fault Refusal} (h : isNext o = true) : ∃ t, o = .next t := by
  cases o with
  | next t => exact ⟨t, rfl⟩
  | fault _ => cases h
  | refused _ => cases h

/-! ### Witnesses: steps, reset and the laws every step keeps -/

theorem witness_stepRunsFront :
    ({ State.reset with pending := [.halfPeriodExpiry] } : State).pending = .halfPeriodExpiry :: [] := rfl

def unpowered : State := { State.reset with power.on := false }
/-- A part whose half-period timer runs out with the next millisecond. -/
def nearEnd : State := { State.reset with time.halfTimer := some 1 }
def closedPort : State := { slotted State.reset (commandFrame 15 7 []) with host.processor := .closed }
def fullReplies : State :=
  { slotted State.reset (commandFrame 15 7 []) with host.replies := List.replicate 4 ⟨143, 7, [0, 4]⟩ }

theorem witness_emptyQueueSteps :
    (unpowered.pending = [] ∧ unpowered.live = false) ∧
    (let s := slotted State.reset (commandFrame 15 7 [])
     s.pending = [] ∧ s.live = true ∧ s.host.slots = commandFrame 15 7 [] :: [] ∧ s.host.processor = .ready ∧
       s.host.replies.length < 4) ∧
    (nearEnd.pending = [] ∧ nearEnd.live = true ∧ nearEnd.host.slots = []) ∧
    (closedPort.live = true ∧ closedPort.host.processor ≠ .ready) ∧
    (fullReplies.live = true ∧ 4 ≤ fullReplies.host.replies.length) ∧ nearEnd.TablesCanonical ∧
    (dueAt nearEnd.time.halfTimer true .halfPeriodExpiry = none ∧
      dueAt nearEnd.tick.time.halfTimer true .halfPeriodExpiry = some .halfPeriodExpiry ∧
      isNext (exec .halfPeriodExpiry nearEnd.tick) = true) :=
  ⟨by decide +kernel, by decide +kernel, by decide +kernel, by decide +kernel, by decide +kernel,
    tablesCanonical_of (by decide +kernel), by decide +kernel⟩

def heldLow : State := { unpowered with power := ⟨true, false, .resetPin⟩ }

theorem witness_startUpSequence :
    (State.reset.power.resetN = true ∧ State.reset.config.nvConfig = none ∧ State.reset.config.nvSig = none) ∧
    (heldLow.power.on = true ∧ heldLow.power.resetN = false) := by decide

theorem witness_heldInReset : State.reset.live = true ∧ heldLow.power.resetN = false := by decide

/-- A step expiry is at the front of the queue of a part with a closing lane. -/
def sweeping : State := { closing 1 with pending := [.closingStepExpiry 0] }

theorem sweeping_good : sweeping.Good := by
  have h : (closing 1).goodCheck = true := by decide +kernel
  have g : sweeping.goodCheck = true := by decide +kernel
  exact good_of g

theorem witness_kept : sweeping.Good ∧ ∃ t, step sweeping = .next t := ⟨sweeping_good, next_of (by decide +kernel)⟩

/-- Overrides with 1 ms and with the longest hold to go, and every timer of a sweep, the link and the clock running. -/
def timed : State :=
  settled
    { closing 1 with
      resolver.overrides := [⟨⟨0, 1, .a⟩, .slow, 1, none⟩, ⟨⟨1, 1, .b⟩, .slow, 14400000, none⟩]
      time.clock := some ⟨1, 0, 0, 0⟩, time.secondTimer := some 1000 }

theorem witness_timersLegalKept :
    (timed.Good ∧ timed.TimersLegal ∧ ∃ t, step timed = .next t) ∧
    (State.reset.TimersLegal ∧ sweeping.Good ∧ sweeping.TimersLegal ∧ ∃ t, step sweeping = .next t) :=
  ⟨⟨good_of (by decide +kernel), timersLegal_of (by decide +kernel), next_of (by decide +kernel)⟩,
    timersLegal_of (by decide +kernel), sweeping_good, timersLegal_of (by decide +kernel), next_of (by decide +kernel)⟩

theorem witness_alertKept : State.reset.AlertFollows ∧ ∃ t, step State.reset = .next t :=
  ⟨by unfold State.AlertFollows; decide, next_of (by decide +kernel)⟩

/-! ### Witnesses: resolution -/

/-- In STANDBY, a lamp test of OPEN on face B of station 2. -/
def testing : State := settled { standby with resolver.lampTest := some ⟨2, .b, .opn, 60000⟩ }

theorem witness_neverBothOpen :
    (runA.Settled ∧ runA.hasHead ⟨2, 0, .a⟩ = true ∧ runA.resolved ⟨2, 0, .a⟩ = .opn ∧ runA.config.mode = .run) ∧
    ((closing 1).Settled ∧ (closing 1).resolved ⟨2, 0, .a⟩ = .opn) ∧
    ((opening 1 false none).Settled ∧ (opening 1 false none).resolved ⟨1, 0, .a⟩ = .opn) ∧
    (testing.Settled ∧ testing.hasHead ⟨2, 1, .b⟩ = true ∧ testing.resolved ⟨2, 1, .b⟩ = .opn ∧
      testing.config.mode = .standby) ∧
    ∃ r, runA.headRec ⟨2, 0, .a⟩ = some r ∧ r.resolved = .opn :=
  ⟨⟨settled_of (by decide +kernel), by decide +kernel⟩, ⟨settled_of (by decide +kernel), by decide +kernel⟩,
    ⟨settled_of (by decide +kernel), by decide +kernel⟩, ⟨settled_of (by decide +kernel), by decide +kernel⟩,
    (runA.headRec ⟨2, 0, .a⟩).get (by decide +kernel), by decide +kernel, by decide +kernel⟩

/-- In RUN, lane 0 in RUN, station 1 LOST: its heads are DARK, and face B of lane 0 is closure-lost there. -/
def darkened : State :=
  settled (runA.setStation 1 { StationRec.reset .east with state := .lost })

/-- In RUN, station 0 LOST: the entry heads of face A are closure-lost. -/
def entryDark : State := settled (running.setStation 0 { StationRec.reset .west with state := .lost })

theorem witness_cascadeLaw :
    (darkened.Settled ∧ darkened.hasHead ⟨1, 0, .b⟩ = true ∧ darkened.hasHead ⟨2, 0, .b⟩ = true ∧
      positionOf darkened.n .b 2 + 1 = positionOf darkened.n .b 1 ∧
      (darkened.headRec ⟨1, 0, .b⟩).any (·.closureLost) = true ∧ (darkened.headRec ⟨2, 0, .b⟩).any (·.cascade) = true) ∧
    (entryDark.Settled ∧ entryDark.hasHead ⟨0, 0, .a⟩ = true ∧ positionOf entryDark.n .a 0 = 0 ∧
      (entryDark.headRec ⟨0, 0, .a⟩).any (·.closureLost) = true) ∧
    (darkened.hasHead ⟨2, 0, .a⟩ = true ∧ positionOf darkened.n .a 2 + 1 = darkened.n) :=
  ⟨⟨settled_of (by decide +kernel), by decide +kernel⟩, ⟨settled_of (by decide +kernel), by decide +kernel⟩,
    by decide +kernel⟩

/-- Lane 0 closing at position 1 with a diagonal there, overridden there by the other one and at position 2 by SLOW. -/
def overridden : State :=
  settled
    { (lanePart running 0 (.closing .a 1 .divertL (task 0 .close)) (some 8000)) with
      resolver.overrides := [⟨⟨1, 0, .a⟩, .divertR, 60000, none⟩, ⟨⟨2, 0, .a⟩, .slow, 60000, none⟩] }

/-- Both strings of SLOW at station 2 and one of SHUT are in FAULT. -/
def slowFailed : State :=
  settled
    { overridden with
      lamps.strings :=
        [(stringKey ⟨2, 0, .a⟩ (stringIndex .shut 1), { StringRec.reset with state := .fault, fails := 3 }),
          (stringKey ⟨2, 0, .a⟩ (stringIndex .slow 1), { StringRec.reset with state := .fault, fails := 3 }),
          (stringKey ⟨2, 0, .a⟩ (stringIndex .slow 2), { StringRec.reset with state := .fault, fails := 3 })] }

/-- The record of a head of the section in a settled state passes a test. -/
def Holds (s : State) (h : HeadRef) (p : HeadRec → Bool) : Prop :=
  s.Settled ∧ s.hasHead h = true ∧ ∃ r, s.headRec h = some r ∧ p r = true

theorem holds {s : State} {h : HeadRef} {p : HeadRec → Bool} (hs : s.settledCheck = true) (hh : s.hasHead h = true)
    (hp : (s.headRec h).any p = true) : Holds s h p := by
  refine ⟨settled_of hs, hh, ?_⟩
  cases hr : s.headRec h with
  | none => rw [hr] at hp; cases hp
  | some r => exact ⟨r, rfl, by rw [hr] at hp; exact hp⟩

theorem witness_resolvedAspects :
    Holds overridden ⟨0, 0, .a⟩ (fun r => r.override == none && r.effective == .shut && r.resolved == .shut) ∧
    Holds overridden ⟨1, 0, .a⟩
      (fun r => r.laneDemand == .divertL && r.override == some .divertR && r.effective == .shut) ∧
    Holds overridden ⟨2, 0, .a⟩ (fun r => r.laneDemand == .opn && r.override == some .slow && r.effective == .slow) ∧
    Holds overridden ⟨2, 0, .b⟩ (fun r => r.laneDemand == .shut && r.availOf .slow == .available) ∧
    Holds (closing 0) ⟨1, 0, .a⟩ (fun r => r.effective == .opn && r.resolved == .opn) ∧
    Holds (lanePart running 0 (.closing .a 1 .divertL (task 0 .close)) (some 8000)) ⟨1, 0, .a⟩
      (fun r => r.effective == .divertL) ∧
    Holds slowFailed ⟨2, 0, .a⟩
      (fun r => r.availOf .slow == .failed && r.availOf .shut == .degraded && r.resolved == .shut) ∧
    Holds darkened ⟨1, 0, .a⟩ (fun r => r.effective == .opn && r.availOf .opn == .failed && r.resolved == .dark) ∧
    Holds darkened ⟨1, 0, .b⟩ (fun r => r.effective == .shut && r.availOf .shut == .failed && r.resolved == .dark) ∧
    Holds testing ⟨2, 0, .b⟩ (fun r => r.effective == .opn) ∧ Holds testing ⟨2, 0, .a⟩ (fun r => r.effective == .shut) :=
  ⟨holds (by decide +kernel) (by decide +kernel) (by decide +kernel),
    holds (by decide +kernel) (by decide +kernel) (by decide +kernel),
    holds (by decide +kernel) (by decide +kernel) (by decide +kernel),
    holds (by decide +kernel) (by decide +kernel) (by decide +kernel),
    holds (by decide +kernel) (by decide +kernel) (by decide +kernel),
    holds (by decide +kernel) (by decide +kernel) (by decide +kernel),
    holds (by decide +kernel) (by decide +kernel) (by decide +kernel),
    holds (by decide +kernel) (by decide +kernel) (by decide +kernel),
    holds (by decide +kernel) (by decide +kernel) (by decide +kernel),
    holds (by decide +kernel) (by decide +kernel) (by decide +kernel),
    holds (by decide +kernel) (by decide +kernel) (by decide +kernel)⟩

/-! ### Witnesses: frames -/

/-- A SAMPLE frame's contents with records at the ends of their ranges. -/
def sampleOf (records : Nat) (shown : Nat) : SampleFrame :=
  ⟨0x5A31C007#32, false, List.replicate records ⟨shown, 7, 255, 1023, 0, 1023, 0⟩⟩

theorem witness_framesReadBack :
    ((Instr.getMode 7 []).wf = true ∧ frameOf (.getMode 7 []) = some (commandFrame 15 7 [])) ∧
    ((Instr.unknownKind 255 7 (List.replicate 240 0)).wf = true ∧
      frameOf (.unknownKind 255 7 (List.replicate 240 0)) = some ⟨255, 7, List.replicate 240 0⟩) ∧
    ((15 < 16 ∧ 1 ≤ 6 ∧ 6 ≤ 6) ∧ (sampleOf 12 255).records.length = 2 * 6 ∧
      ∀ r ∈ (sampleOf 12 255).records, r.shown < 256 ∧ r.dim < 256 ∧ r.phase < 256 ∧ r.lit1 ≤ 1023 ∧ r.lit2 ≤ 1023 ∧
        r.leakOpen ≤ 1023 ∧ r.leakOther ≤ 1023) ∧
    ((sampleOf 2 0).records.length = 2 * 1 ∧
      ∀ r ∈ (sampleOf 2 0).records, r.shown < 256 ∧ r.dim < 256 ∧ r.phase < 256 ∧ r.lit1 ≤ 1023 ∧ r.lit2 ≤ 1023 ∧
        r.leakOpen ≤ 1023 ∧ r.leakOther ≤ 1023) := by decide +kernel

/-! ### Witnesses: the host link -/

def fullSlots : State := { running with host.slots := List.replicate 4 (commandFrame 15 7 []), host.processor := .closed }

theorem witness_hostFrameReceived :
    (running.Good ∧ running.live = true ∧ running.host.rx = .hunting ∧ running.host.slots.length < 4) ∧
    (fullSlots.Good ∧ fullSlots.live = true ∧ fullSlots.host.rx = .hunting ∧ fullSlots.host.slots.length = 4) ∧
    (commandFrame 15 7 (List.replicate 240 0)).body.length ≤ 240 ∧ running.host.silence.isSome = true :=
  ⟨⟨(good_rests running_rests).1, by decide +kernel⟩, ⟨good_of (by decide +kernel), by decide +kernel⟩, by decide +kernel⟩

def sends (f : HostFrame) : State := { running with host.tx := some f }

/-- Every kind but LINK_ERROR, LINK_OVERRUN and HOST_SILENT is enabled; LINK_ERROR is latched already. -/
def masked : State :=
  { running with attn.enabled := 0x27FFFF#22, attn.latched := putFlag 0 .linkError true }

/-- R189: a raising of an enabled kind has an IDLE transmitter begin a notice, and a busy one a notice pending; one of a kind
that is not enabled changes the flags alone. -/
theorem witness_raised :
    (running.Good ∧ running.host.tx = none ∧ hasFlag running.attn.enabled .linkError = true ∧
      (nextState (exec (.hostFrameDropped [0xA5, 0, 15, 7, 0, 0] false) running)).host.tx.isSome = true) ∧
    ((sends ⟨143, 7, [0, 4]⟩).Good ∧ (sends ⟨143, 7, [0, 4]⟩).host.tx.isSome = true ∧
      (nextState (exec (.hostFrameDropped [0xA5, 0, 15, 7, 0, 0] false) (sends ⟨143, 7, [0, 4]⟩))).host.noticePending = true) ∧
    (masked.Good ∧ hasFlag masked.attn.enabled .linkError = false ∧
      (let t := nextState (exec (.hostFrameDropped [0xA5, 0, 15, 7, 0, 0] false) masked)
       t.host.tx = none ∧ t.host.noticePending = false ∧ hasFlag t.attn.rep .linkError = true)) :=
  ⟨⟨(good_rests running_rests).1, by decide +kernel⟩, ⟨good_of (by decide +kernel), by decide +kernel⟩,
    good_of (by decide +kernel), by decide +kernel⟩

theorem witness_hostFrameDropped :
    (running.Good ∧ running.live = true ∧ running.host.rx = .hunting) ∧
    isOpenFrame [0xA5, 0, 15] = true ∧
    hostReads [0xA5, 0, 15, 7, 0, 0] = (.hunting, [.dropped .crc]) ∧
    hostReads [0xA5, 241] = (.hunting, [.dropped .length]) :=
  ⟨⟨(good_rests running_rests).1, by decide +kernel⟩, by decide +kernel⟩

def restarting : State := { sends ⟨146, 7, [0, 4]⟩ with host.processor := .closed }
def replying : State := { sends ⟨143, 7, [0, 4]⟩ with host.replies := [⟨144, 8, [0, 4]⟩] }
def noticing : State := { sends ⟨0, 0, []⟩ with host.noticePending := true, attn.latched := 1 }

theorem witness_hostTransmitEnd :
    (restarting.Good ∧ restarting.live = true ∧ restarting.sendsRestartReply ⟨146, 7, [0, 4]⟩ = true) ∧
    (replying.Good ∧ replying.sendsRestartReply ⟨143, 7, [0, 4]⟩ = false ∧ replying.host.replies = [⟨144, 8, [0, 4]⟩]) ∧
    (noticing.Good ∧ noticing.sendsRestartReply ⟨0, 0, []⟩ = false ∧ noticing.host.replies = [] ∧
      noticing.host.noticePending = true ∧ noticing.attn.latched ≠ 0) ∧
    ((sends ⟨143, 7, [0, 4]⟩).Good ∧ (sends ⟨143, 7, [0, 4]⟩).host.replies = [] ∧
      (sends ⟨143, 7, [0, 4]⟩).host.noticePending = false) :=
  ⟨⟨good_of (by decide +kernel), by decide +kernel⟩, ⟨good_of (by decide +kernel), by decide +kernel⟩,
    ⟨good_of (by decide +kernel), by decide +kernel⟩, ⟨good_of (by decide +kernel), by decide +kernel⟩⟩

/-! ### Witnesses: the shared checks -/

theorem witness_kindLengthAndModeChecked :
    (Meets running 19 [] fun _ => ∀ row ∈ kindTable, (octet 19).toNat ≠ row.1) ∧
    (Meets running 255 [] fun _ => ∀ row ∈ kindTable, (octet 255).toNat ≠ row.1) ∧
    (Meets running 15 [0] fun _ => (15, 0, Modes.both) ∈ kindTable ∧ (Instr.getMode 7 [0]).wf = true ∧
      frameOf (.getMode 7 [0]) = some (commandFrame 15 7 [0])) ∧
    (Meets running 13 [] fun s => (13, 0, Modes.standbyOnly) ∈ kindTable ∧ (Instr.start 7 []).wf = true ∧
      frameOf (.start 7 []) = some (commandFrame 13 7 []) ∧ Modes.standbyOnly.accept s.config.mode = false) ∧
    (Meets standby 14 [] fun s => (14, 0, Modes.runOnly) ∈ kindTable ∧ (Instr.stop 7 []).wf = true ∧
      frameOf (.stop 7 []) = some (commandFrame 14 7 []) ∧ Modes.runOnly.accept s.config.mode = false) :=
  ⟨meets running_rests (by decide +kernel), meets running_rests (by decide +kernel), meets running_rests (by decide +kernel),
    meets running_rests (by decide +kernel), meets standby_rests (by decide +kernel)⟩

theorem witness_addressesChecked :
    (Meets running 20 [2] fun s => 20 ∈ laneKinds ∧ s.l ≤ 2 ∧ frameOf (.closeLane 7 [2]) = some (commandFrame 20 7 [2])) ∧
    (Meets State.reset 4 [0] fun s => 4 ∈ laneKinds ∧ s.l ≤ 0) ∧
    (Meets standby 5 [3, 0, 0] fun s => 5 ∈ stationKinds ∧ s.n ≤ 3 ∧
      frameOf (.setStation 7 [3, 0, 0]) = some (commandFrame 5 7 [3, 0, 0])) ∧
    (Meets running 35 [0, 2, 0] fun s => s.l ≤ 2) ∧ (Meets running 41 [0, 0, 2] fun s => 0 < s.n) ∧
    (Meets running 46 [2, 2, 0, 0, 1] fun s => 2 < s.n ∧ s.l ≤ 2) ∧ (Meets running 46 [2, 1, 2, 0, 1] fun s => 1 < s.l) ∧
    (Meets running 46 [2, 1, 1, 5, 1] fun s => 1 < s.l) ∧ (Meets running 46 [2, 1, 1, 4, 0] fun s => 1 < s.l) ∧
    (Meets running 46 [2, 1, 1, 4, 3] fun s => 1 < s.l) :=
  ⟨meets running_rests (by decide +kernel), meets reset_rests (by decide +kernel), meets standby_rests (by decide +kernel),
    meets running_rests (by decide +kernel), meets running_rests (by decide +kernel), meets running_rests (by decide +kernel),
    meets running_rests (by decide +kernel), meets running_rests (by decide +kernel), meets running_rests (by decide +kernel),
    meets running_rests (by decide +kernel)⟩

/-! ### Witnesses: the reads -/

def clocked : State := { running with time.clock := some ⟨7, 23, 59, 58⟩, time.secondTimer := some 1000 }
theorem clocked_rests : rests clocked = true := by decide +kernel

/-- STANDBY with N and L set and no record of a lane or a station. -/
def bare : State := { standby with config.records.lanes := [], config.records.stations := [] }
theorem bare_rests : rests bare = true := by decide +kernel

theorem witness_reads :
    (∀ kind ∈ [2, 8, 10, 12, 15, 27, 33, 36, 39, 42, 49, 53, 56, 58, 60, 66, 67], Meets running kind [] fun _ => True) ∧
    (Meets running 4 [1] fun s => 1 < s.l ∧ (s.laneCfg 1).isSome = true) ∧ (Meets bare 4 [1] fun s => 1 < s.l ∧ s.laneCfg 1 = none) ∧
    (Meets running 6 [2] fun s => 2 < s.n ∧ (s.stationCfg 2).isSome = true) ∧
    (Meets bare 6 [2] fun s => 2 < s.n ∧ s.stationCfg 2 = none) ∧
    (∀ id ∈ [1, 8, 0, 9], Meets running 29 [id] fun _ => True) ∧ (Meets running 32 [2] fun s => 2 < s.n) ∧
    (∀ kind ∈ [41, 48], Meets running kind [2, 1, 1] fun s => 2 < s.n ∧ 1 < s.l) ∧
    (Meets clocked 58 [] fun s => s.time.clock = some ⟨7, 23, 59, 58⟩) ∧ (Meets running 58 [] fun s => s.time.clock = none) := by
  refine ⟨fun _ _ => meets running_rests trivial, meets running_rests (by decide +kernel), meets bare_rests (by decide +kernel),
    meets running_rests (by decide +kernel), meets bare_rests (by decide +kernel), fun _ _ => meets running_rests trivial,
    meets running_rests (by decide +kernel), ?_, meets clocked_rests (by decide +kernel), meets running_rests (by decide +kernel)⟩
  intro kind _
  refine meets running_rests ?_
  exact (by decide +kernel : 2 < running.n ∧ 1 < running.l)

/-! ### Witnesses: configuration -/

/-- A SET-TUNNEL body: N, L, the numeric fields in range, MASTER or FOLLOWER, and the freeze flag. -/
def tunnelBody (n l role freeze : Octet) : List Octet :=
  [n, l, 0, 8, 0, 120, 2, 88, 0, 60, 0, 10, 0, 0, 1, 244, role, 0, 0, 0, 0, freeze]

def followed : State := { standby with config.records.tunnel.role := .follower, time.line := .following, time.lossTimer := some 1500 }
theorem followed_rests : rests followed = true := by decide +kernel
theorem testing_rests : rests testing = true := by decide +kernel

/-- Zones 0 and 2 are at dim level 3, zone 1 is at the default level, and a string of each holds a sample. -/
def dimmed : State :=
  settled
    { standby with
      config.dims := [3, 0, 3, 0]
      lamps.strings := [(stringKey ⟨0, 1, .a⟩ 3, ⟨.ok, 0, ⟨1, 200, 200, 200⟩, none, true⟩),
        (stringKey ⟨1, 0, .b⟩ 2, ⟨.ok, 0, ⟨2, 400, 200, 200⟩, none, true⟩)] }
theorem dimmed_rests : rests dimmed = true := by decide +kernel

theorem witness_setTunnel :
    (Meets standby 1 (tunnelBody 1 2 0 0) fun s => s.config.mode = .standby) ∧
    (Meets standby 1 (tunnelBody 17 2 0 0) fun s => s.config.mode = .standby) ∧
    (Meets standby 1 (tunnelBody 3 2 0 2) fun s => s.config.mode = .standby) ∧
    (Meets testing 1 (tunnelBody 2 2 0 0) fun s => s.config.mode = .standby ∧ s.resolver.lampTest.isSome = true ∧
      ¬(oct (tunnelBody 2 2 0 0) 0 = s.n ∧ oct (tunnelBody 2 2 0 0) 1 = s.l)) ∧
    (Meets testing 1 (tunnelBody 3 2 0 0) fun s => oct (tunnelBody 3 2 0 0) 0 = s.n ∧ oct (tunnelBody 3 2 0 0) 1 = s.l) ∧
    (Meets standby 1 (tunnelBody 16 6 1 0) fun s => s.config.mode = .standby ∧ s.resolver.lampTest = none ∧
      s.time.line = .driving) ∧
    (Meets followed 1 (tunnelBody 3 2 1 0) fun s => s.config.mode = .standby ∧ s.time.line = .following) ∧
    (Meets standby 1 ([3, 2] ++ List.replicate 10 255 ++ [1, 1, 255, 255, 0, 8, 8, 8, 8, 1]) fun s => s.config.mode = .standby ∧
      oct ([3, 2] ++ List.replicate 10 255 ++ [1, 1, 255, 255, 0, 8, 8, 8, 8, 1]) 0 = s.n) ∧
    (Meets State.reset 1 (tunnelBody 2 1 0 1) fun s => s.config.mode = .standby ∧ s.resolver.lampTest = none ∧
      s.time.line = .notDriven) ∧
    (Meets dimmed 1 (tunnelBody 3 2 0 0) fun s => oct (tunnelBody 3 2 0 0) 0 = s.n ∧ oct (tunnelBody 3 2 0 0) 1 = s.l ∧
      s.stringKeyIn (stringKey ⟨0, 1, .a⟩ 3) = true ∧ (s.stationCfg 0).any (fun c => s.config.dims.getD c.zone 0 != 0) = true ∧
      s.stringKeyIn (stringKey ⟨1, 0, .b⟩ 2) = true ∧ (s.stationCfg 1).any (fun c => s.config.dims.getD c.zone 0 != 0) = false) :=
  ⟨meets standby_rests (by decide +kernel), meets standby_rests (by decide +kernel), meets standby_rests (by decide +kernel),
    meets testing_rests (by decide +kernel), meets testing_rests (by decide +kernel), meets standby_rests (by decide +kernel),
    meets followed_rests (by decide +kernel), meets standby_rests (by decide +kernel), meets reset_rests (by decide +kernel),
    meets dimmed_rests (by decide +kernel)⟩

/-- In STANDBY, station 2 LOST with a string OK, station 1 CUT on its away end, station 0 ONLINE. -/
def ailing : State :=
  settled
    { ((standby.setStation 2 { StationRec.reset .east with state := .lost }).setStation 1
        { StationRec.reset .west with state := .cut }) with
      lamps.strings := [(stringKey ⟨2, 0, .a⟩ 2, okString)] }
theorem ailing_rests : rests ailing = true := by decide +kernel

theorem witness_setTunnelNewSection :
    (Meets ailing 1 (tunnelBody 4 2 0 0) fun s => s.config.mode = .standby ∧ s.resolver.lampTest = none ∧
      (s.station 2).state = .lost ∧ (s.station 1).state = .cut ∧ (s.string (stringKey ⟨2, 0, .a⟩ 2)).state = .ok ∧
      (s.poller .west).sending.isSome = true ∧
      ¬(oct (tunnelBody 4 2 0 0) 0 = s.n ∧ oct (tunnelBody 4 2 0 0) 1 = s.l) ∧
      isNext (exec (.setTunnel 7 (tunnelBody 4 2 0 0)) s) = true) ∧
    (Meets ailing 1 (tunnelBody 3 1 0 0) fun s => s.config.mode = .standby ∧ oct (tunnelBody 3 1 0 0) 0 = s.n ∧
      isNext (exec (.setTunnel 7 (tunnelBody 3 1 0 0)) s) = true) :=
  ⟨meets ailing_rests (by decide +kernel), meets ailing_rests (by decide +kernel)⟩

theorem witness_setLaneAndStation :
    (∀ b ∈ [[1, 3, 0, 0], [1, 2, 2, 0], [1, 2, 1, 2], [1, 2, 1, 1]],
      Meets standby 3 b fun s => s.config.mode = .standby ∧ 1 < s.l) ∧
    (∀ b ∈ [[2, 4, 0], [2, 3, 2], [2, 3, 1], [2, 2, 0]],
      Meets standby 5 b fun s => s.config.mode = .standby ∧ 2 < s.n ∧ (s.stationCfg 2).map (·.zone) = some 2) :=
  ⟨fun _ _ => meets standby_rests (by exact (by decide +kernel : standby.config.mode = .standby ∧ 1 < standby.l)),
    fun _ _ => meets standby_rests
      (by exact (by decide +kernel : standby.config.mode = .standby ∧ 2 < standby.n ∧ (standby.stationCfg 2).map (·.zone) = some 2))⟩

/-- The default PROVING record as a body, with a depth and a threshold. -/
def provingBody (depth threshold : Octet) : List Octet := [depth, threshold, 15, 0, 5, 0, 60, 0, 15, 0, 40, 3, 132]

/-- A string is SUSPECT with two failures and holds a sample. -/
def suspected : State :=
  settled { running with lamps.strings := [(stringKey ⟨2, 1, .b⟩ 3, ⟨.suspect, 2, ⟨1, 200, 200, 200⟩, none, true⟩)] }
theorem suspected_rests : rests suspected = true := by decide +kernel

theorem witness_setProvingDutyAndDim :
    (∀ b ∈ [provingBody 3 3, provingBody 15 7, provingBody 3 2, provingBody 3 1, provingBody 16 8],
      b.length = 13 ∧ Meets suspected 7 b fun s => (s.string (stringKey ⟨2, 1, .b⟩ 3)).state = .suspect ∧
        s.stringKeyIn (stringKey ⟨2, 1, .b⟩ 3) = true) ∧
    (∀ b ∈ [List.replicate 16 0, defaultDuties.flatMap be16], b.length = 16 ∧ Meets suspected 9 b fun _ => True) ∧
    (Meets suspected 11 [4, 0] fun _ => True) ∧
    (∀ b ∈ [[2, 0], [2, 7], [2, 8]], Meets suspected 11 b fun s => s.config.dims.getD 2 0 = 0 ∧
      (s.stationCfg (stringKey ⟨2, 1, .b⟩ 3 / 120)).map (·.zone) = some 2) := by
  refine ⟨?_, ?_, meets suspected_rests trivial, ?_⟩
  · intro b hb
    exact ⟨(by decide : ∀ b ∈ [provingBody 3 3, provingBody 15 7, provingBody 3 2, provingBody 3 1, provingBody 16 8],
      b.length = 13) b hb, meets suspected_rests
        (by exact (by decide +kernel : (suspected.string (stringKey ⟨2, 1, .b⟩ 3)).state = .suspect ∧
          suspected.stringKeyIn (stringKey ⟨2, 1, .b⟩ 3) = true))⟩
  · intro b hb
    exact ⟨(by decide +kernel : ∀ b ∈ [List.replicate 16 (0 : Octet), defaultDuties.flatMap be16], b.length = 16) b hb,
      meets suspected_rests trivial⟩
  · intro b _
    exact meets suspected_rests (by exact (by decide +kernel : suspected.config.dims.getD 2 0 = 0 ∧
      (suspected.stationCfg (stringKey ⟨2, 1, .b⟩ 3 / 120)).map (·.zone) = some 2))

/-! ### Witnesses: modes and the store -/

/-- In STANDBY, lane 1 is FIXED_A and plan 8 calls for direction B on it. -/
def misplanned : State :=
  { standby with
    config.records.lanes := [(0, some ⟨.tidal, .lower, .timed⟩), (1, some ⟨.fixedA, .higher, .timed⟩)]
    engine.plans := defaultPlans.set 7 [.keep, .dir .b, .keep, .keep, .keep, .keep] }
theorem misplanned_rests : rests misplanned = true := by decide +kernel

def halfLaned : State := { standby with config.records.lanes := [(0, some ⟨.tidal, .lower, .timed⟩)] }
theorem halfLaned_rests : rests halfLaned = true := by decide +kernel
def halfStationed : State := { standby with config.records.stations := [(0, some ⟨0, true⟩), (2, some ⟨0, true⟩)] }
theorem halfStationed_rests : rests halfStationed = true := by decide +kernel

theorem standby_plans (id l : Nat) : standby.target id l = .keep := by
  show (defaultPlans.getD (id - 1) keepPlan).getD l .keep = .keep
  have h : ∀ i, defaultPlans.getD i keepPlan = keepPlan := by
    intro i; rcases i with _ | _ | _ | _ | _ | _ | _ | _ | _ <;> rfl
  rw [h]
  rcases l with _ | _ | _ | _ | _ | _ | _ <;> rfl

theorem witness_start :
    (Meets State.reset 13 [] fun s => s.config.mode = .standby ∧ ¬s.config.records.tunnel.written = true) ∧
    (Meets halfLaned 13 [] fun s => s.config.mode = .standby ∧ s.config.records.tunnel.written = true ∧ 1 < s.l ∧
      s.laneCfg 1 = none ∧ ∀ m, m < 1 → s.laneCfg m ≠ none) ∧
    (Meets halfStationed 13 [] fun s => (∀ l, l < s.l → s.laneCfg l ≠ none) ∧ 1 < s.n ∧ s.stationCfg 1 = none ∧
      ∀ j, j < 1 → s.stationCfg j ≠ none) ∧
    (Meets misplanned 13 [] fun s => (∀ l, l < s.l → s.laneCfg l ≠ none) ∧ (∀ k, k < s.n → s.stationCfg k ≠ none) ∧
      1 < s.l ∧ s.laneCfg 1 = some ⟨.fixedA, .higher, .timed⟩ ∧ s.target 8 1 = .dir .b ∧
      ∀ j, j < 8 → ∀ l, l < s.l → s.target j l = .keep) ∧
    (Meets standby 13 [] fun s => s.config.mode = .standby ∧ s.config.records.tunnel.written = true ∧
      (∀ l, l < s.l → s.laneCfg l ≠ none) ∧ (∀ k, k < s.n → s.stationCfg k ≠ none) ∧ s.resolver.lampTest = none ∧
      ∀ id l, s.target id l = .keep) ∧
    (Meets testing 13 [] fun s => s.config.mode = .standby ∧ s.resolver.lampTest.isSome = true) :=
  ⟨meets reset_rests (by decide +kernel), meets halfLaned_rests (by decide +kernel),
    meets halfStationed_rests (by decide +kernel), meets misplanned_rests (by decide +kernel),
    meets standby_rests ⟨by decide +kernel, by decide +kernel, by decide +kernel, by decide +kernel, by decide +kernel,
      standby_plans⟩, meets testing_rests (by decide +kernel)⟩

/-- All lanes SHUT, two tasks queued, one override. -/
def stoppable : State :=
  settled { running with
    engine.queue := [task 0 (.opn .a), task 1 (.opn .b)], resolver.overrides := [⟨⟨0, 0, .a⟩, .slow, 60000, none⟩] }
theorem stoppable_rests : rests stoppable = true := by decide +kernel

theorem witness_stop :
    (Meets runA 14 [] fun s => s.config.mode = .run ∧ 0 < s.l ∧ (s.lane 0).phase ≠ .shut) ∧
    (Meets running 14 [] fun s => s.config.mode = .run ∧ (∀ l, l < s.l → (s.lane l).phase = .shut) ∧ s.engine.queue = []) ∧
    (Meets stoppable 14 [] fun s => s.config.mode = .run ∧ (∀ l, l < s.l → (s.lane l).phase = .shut) ∧
      s.engine.queue ≠ []) :=
  ⟨meets runA_rests (by decide +kernel), meets running_rests (by decide +kernel), meets stoppable_rests (by decide +kernel)⟩

def writingConfig : State :=
  { slotted running (commandFrame 16 7 []) with host.processor := .writing, config.writing := some (.config running.configImage) }
def writingSig : State :=
  { slotted running (commandFrame 17 7 []) with host.processor := .writing, config.writing := some (.signature running.sigImage) }

theorem witness_storeWritesAndRestart :
    (∀ kind ∈ [16, 17, 18], Meets running kind [] fun _ => True) ∧
    (writingConfig.Good ∧ writingConfig.live = true ∧ writingConfig.host.processor = .writing ∧
      writingConfig.host.slots = [commandFrame 16 7 []]) ∧
    (writingSig.Good ∧ writingSig.live = true ∧ writingSig.host.processor = .writing ∧
      writingSig.host.slots = [commandFrame 17 7 []]) :=
  ⟨fun _ _ => meets running_rests trivial, ⟨good_of (by decide +kernel), by decide +kernel⟩,
    ⟨good_of (by decide +kernel), by decide +kernel⟩⟩

/-! ### Witnesses: lanes and plans -/

theorem held_run_7 : rests (held (.run .a) (eight.take 7)) = true := by decide +kernel
theorem held_run_8 : rests (held (.run .a) eight) = true := by decide +kernel
theorem held_run_6 : rests (held (.run .a) (eight.take 6)) = true := by decide +kernel
theorem held_shut_7 : rests (held .shut (eight.take 7)) = true := by decide +kernel
theorem held_shut_8 : rests (held .shut eight) = true := by decide +kernel

/-- Lane 4 in RUN with a CLOSE and an OPEN queued for it: it projects to RUN (A), and its CLOSE is a duplicate. -/
def turning : State := held (.run .a) [task 4 .close, task 4 (.opn .a)]
theorem turning_rests : rests turning = true := by decide +kernel

/-- Lane 4 in RUN with an OPEN and then a CLOSE queued: it projects to SHUT, and an OPEN of it is a duplicate. -/
def returning : State := held (.run .a) [task 4 (.opn .a), task 4 .close]
theorem returning_rests : rests returning = true := by decide +kernel

/-- The sweep is free, lane 4 in a state, lane 5 in CLEARANCE, and tasks queued. -/
def freed (p : LanePhase) (q : List Task) : State :=
  settled
    { (lanePart (lanePart (part 2 6 .run) 4 p none) 5 (.clearance .a false false (task 5 .close)) (some 120000)) with
      engine.queue := q }

def opens5 : Task := task 5 (.opn .b)
def freeOne : State := freed (.run .a) [opens5]
def freeFull : State := freed (.run .a) (opens5 :: eight.take 7)
theorem freeOne_rests : rests freeOne = true := by decide +kernel
theorem freeFull_rests : rests freeFull = true := by decide +kernel

theorem witness_laneTasksQueuedFree :
    (Meets freeOne 20 [4] fun s => s.config.mode = .run ∧ 4 < s.l ∧ s.sweepFree = true ∧
      s.project s.engine.queue 4 = some .a ∧ s.engine.queue = [opens5] ∧
      ∀ u ∈ s.engine.queue, ¬(u.lane = 4 ∧ u.kind.same .close = true)) ∧
    (Meets freeFull 20 [4] fun s => s.sweepFree = true ∧ s.project s.engine.queue 4 = some .a ∧
      s.engine.queue.length + 1 = 9 ∧ ∀ u ∈ s.engine.queue, ¬(u.lane = 4 ∧ u.kind.same .close = true)) ∧
    (Meets freeFull 22 [4] fun s => s.sweepFree = true ∧ s.barredDirection 4 = none ∧ s.engine.queue.length + 2 = 10) ∧
    (Meets (freed .shut [task 5 (.opn .a), task 5 .close]) 21 [5, 1] fun s => s.sweepFree = true ∧
      s.project s.engine.queue 5 = none ∧ s.barredDirection 5 ≠ some .b ∧
      ∃ u ∈ s.engine.queue, u.lane = 5 ∧ u.kind.same (.opn .b) = true) ∧
    (Meets (freed .shut [task 5 (.opn .b)]) 22 [5] fun s => s.sweepFree = true ∧ s.barredDirection 5 = none ∧
      s.project s.engine.queue 5 = some .b ∧ s.engine.queue.length + 2 = 3 ∧
      ∃ u ∈ s.engine.queue, u.lane = 5 ∧ u.kind.same (.opn .a) = true) :=
  ⟨meets freeOne_rests (by decide +kernel), meets freeFull_rests (by decide +kernel), meets freeFull_rests (by decide +kernel),
    meets (by decide +kernel) (by decide +kernel), meets (by decide +kernel) (by decide +kernel)⟩

theorem witness_laneTasksQueued :
    (Meets (held (.run .a) (eight.take 7)) 20 [4] fun s => s.config.mode = .run ∧ 4 < s.l ∧ s.sweepFree = false ∧
      s.project s.engine.queue 4 = some .a ∧ s.engine.queue.length + 1 = 8 ∧
      ∀ u ∈ s.engine.queue, ¬(u.lane = 4 ∧ u.kind.same .close = true)) ∧
    (Meets (held (.run .a) eight) 20 [4] fun s => s.project s.engine.queue 4 = some .a ∧ s.engine.queue.length + 1 = 9 ∧
      ∀ u ∈ s.engine.queue, ¬(u.lane = 4 ∧ u.kind.same .close = true)) ∧
    (Meets turning 20 [4] fun s => s.sweepFree = false ∧ s.project s.engine.queue 4 = some .a ∧
      ∃ u ∈ s.engine.queue, u.lane = 4 ∧ u.kind.same .close = true) ∧
    (Meets (held .shut (eight.take 7)) 21 [4, 1] fun s => s.sweepFree = false ∧ s.project s.engine.queue 4 = none ∧
      s.barredDirection 4 ≠ some .b ∧ s.engine.queue.length + 1 = 8) ∧
    (Meets (held .shut eight) 21 [4, 1] fun s => s.project s.engine.queue 4 = none ∧ s.engine.queue.length + 1 = 9) ∧
    (Meets returning 21 [4, 0] fun s => s.sweepFree = false ∧ s.project s.engine.queue 4 = none ∧
      ∃ u ∈ s.engine.queue, u.lane = 4 ∧ u.kind.same (.opn .a) = true) ∧
    (Meets (held (.run .a) (eight.take 6)) 22 [4] fun s => s.sweepFree = false ∧ s.project s.engine.queue 4 = some .a ∧
      s.barredDirection 4 = none ∧ s.engine.queue.length + 2 = 8) ∧
    (Meets (held (.run .a) (eight.take 7)) 22 [4] fun s => s.engine.queue.length + 2 = 9) ∧
    (Meets turning 22 [4] fun s => s.barredDirection 4 = none ∧ s.project s.engine.queue 4 = some .a) :=
  ⟨meets held_run_7 (by decide +kernel), meets held_run_8 (by decide +kernel), meets turning_rests (by decide +kernel),
    meets held_shut_7 (by decide +kernel), meets held_shut_8 (by decide +kernel), meets returning_rests (by decide +kernel),
    meets held_run_6 (by decide +kernel), meets held_run_7 (by decide +kernel), meets turning_rests (by decide +kernel)⟩

theorem witness_laneTasksStart :
    (Meets runA 20 [0] fun s => s.config.mode = .run ∧ 0 < s.l ∧ s.sweepFree = true ∧ s.engine.queue = [] ∧
      (s.lane 0).phase = .run .a) ∧
    (Meets runA 22 [0] fun s => s.sweepFree = true ∧ s.engine.queue = [] ∧ (s.lane 0).phase = .run .a ∧
      s.barredDirection 0 = none) ∧
    (Meets openable 21 [1, 1] fun s => s.config.mode = .run ∧ 1 < s.l ∧ s.sweepFree = true ∧ s.engine.queue = [] ∧
      (s.lane 1).phase = .shut ∧ s.barredDirection 1 ≠ some .b ∧ s.startCheck 1 = none) ∧
    (Meets running 21 [1, 0] fun s => s.sweepFree = true ∧ s.engine.queue = [] ∧ (s.lane 1).phase = .shut ∧
      s.startCheck 1 = some .shutNotProven) :=
  ⟨meets runA_rests (by decide +kernel), meets runA_rests (by decide +kernel), meets openable_rests (by decide +kernel),
    meets running_rests (by decide +kernel)⟩

/-- Lane 0 is FIXED_A and in RUN. -/
def fixedRun : State := settled { runA with config.records.lanes := [(0, some ⟨.fixedA, .lower, .timed⟩), (1, some ⟨.tidal, .lower, .timed⟩)] }
theorem fixedRun_rests : rests fixedRun = true := by decide +kernel

theorem witness_laneTasksRefused :
    (Meets running 20 [1] fun s => s.config.mode = .run ∧ 1 < s.l ∧ s.project s.engine.queue 1 = none) ∧
    (Meets running 21 [1, 2] fun s => s.config.mode = .run ∧ 1 < s.l) ∧
    (Meets fixedRun 21 [0, 1] fun s => s.laneCfg 0 = some ⟨.fixedA, .lower, .timed⟩) ∧
    (Meets runA 21 [0, 0] fun s => s.laneCfg 0 = some ⟨.tidal, .lower, .timed⟩ ∧ s.project s.engine.queue 0 = some .a) ∧
    (Meets runA 21 [0, 1] fun s => s.project s.engine.queue 0 = some .a) ∧
    (Meets fixedRun 22 [0] fun s => s.laneCfg 0 = some ⟨.fixedA, .lower, .timed⟩) ∧
    (Meets running 22 [1] fun s => s.laneCfg 1 = some ⟨.tidal, .lower, .timed⟩ ∧ s.project s.engine.queue 1 = none) :=
  ⟨meets running_rests (by decide +kernel), meets running_rests (by decide +kernel), meets fixedRun_rests (by decide +kernel),
    meets runA_rests (by decide +kernel), meets runA_rests (by decide +kernel), meets fixedRun_rests (by decide +kernel),
    meets running_rests (by decide +kernel)⟩

/-- Lane 0 in RUN between a running lane 1 and no lane, with a HIGHER preference. -/
def preferring : State :=
  settled { runBoth with config.records.lanes := [(0, some ⟨.tidal, .higher, .timed⟩), (1, some ⟨.tidal, .lower, .timed⟩)] }

theorem witness_sweepStartRules :
    (runBoth.LanesLegal ∧ runBoth.laneCfg 1 = some ⟨.tidal, .lower, .timed⟩ ∧ (runBoth.lane 0).phase = .run .a ∧
      runBoth.mergeAspect 1 .a = .divertL) ∧
    (preferring.LanesLegal ∧ preferring.laneCfg 0 = some ⟨.tidal, .higher, .timed⟩ ∧
      (preferring.lane 1).phase = .run .a ∧ preferring.mergeAspect 0 .a = .divertR) ∧
    (runA.LanesLegal ∧ runA.laneCfg 0 = some ⟨.tidal, .lower, .timed⟩ ∧ (runA.lane 1).phase ≠ .run .a ∧
      runA.mergeAspect 0 .a = .slow) ∧
    (entryDark.Settled ∧ 0 < entryDark.l ∧ 0 < entryDark.n ∧ (entryDark.station 0).state = .lost) ∧
    (running.Settled ∧ 1 < running.l ∧ (∀ k, k < running.n → (running.station k).state = .online) ∧
      running.hasHead ⟨2, 1, .b⟩ = true ∧ running.displayed ⟨2, 1, .b⟩ = none) ∧
    (openable.Settled ∧ 1 < openable.l ∧ (∀ k, k < openable.n → (openable.station k).state = .online) ∧
      openable.startCheck 1 = none) ∧
    (halfProven.Settled ∧ halfProven.StringsLegal ∧ 1 < halfProven.l ∧ (∀ k, k < halfProven.n → (halfProven.station k).state = .online) ∧
      (∀ h ∈ halfProven.sectionHeads, halfProven.resolved h = .shut ∧ halfProven.displayed h = some .shut ∧
        (halfProven.string (stringKey h (stringIndex .shut 1))).state = .ok) ∧
      halfProven.startCheck 1 = none) ∧
    (noneProven.Settled ∧ 1 < noneProven.l ∧ (∀ k, k < noneProven.n → (noneProven.station k).state = .online) ∧
      noneProven.hasHead ⟨2, 1, .b⟩ = true ∧ noneProven.resolved ⟨2, 1, .b⟩ = .shut ∧
      noneProven.displayed ⟨2, 1, .b⟩ = some .shut ∧
      (noneProven.string (stringKey ⟨2, 1, .b⟩ (stringIndex .shut 1))).state ≠ .ok ∧
      (noneProven.string (stringKey ⟨2, 1, .b⟩ (stringIndex .shut 2))).state ≠ .ok) :=
  ⟨⟨lanesLegal_of (by decide +kernel), by decide +kernel⟩, ⟨lanesLegal_of (by decide +kernel), by decide +kernel⟩,
    ⟨lanesLegal_of (by decide +kernel), by decide +kernel⟩, ⟨settled_of (by decide +kernel), by decide +kernel⟩,
    ⟨settled_of (by decide +kernel), by decide +kernel⟩, ⟨settled_of (by decide +kernel), by decide +kernel⟩,
    ⟨settled_of (by decide +kernel), stringsLegal_of (by decide +kernel), by decide +kernel⟩,
    ⟨settled_of (by decide +kernel), by decide +kernel⟩⟩

/-- R33: one OK string of SHUT is enough, whatever the other is; a string that is UNPROVEN, SUSPECT or FAULT does not count. -/
theorem test_startCheck_one_shut_string :
    halfProven.startCheck 1 = none ∧ (shutShown running ⟨.fault, 3, .empty, none, false⟩ okString).startCheck 1 = none ∧
    noneProven.startCheck 1 = some .shutNotProven ∧
    (shutShown running ⟨.fault, 3, .empty, none, true⟩ suspectString).startCheck 1 = some .shutNotProven := by
  decide +kernel

/-- The sweep is free, lane 0 in CLEARANCE with an OPEN queued, lane 1 in RUN with a CLOSE queued. -/
def scanned : State :=
  withQueue (lanePart (clearing false false) 1 (.run .b) none) [task 0 (.opn .b), task 1 .close]

/-- A legal state in RUN with the sweep free whose queue holds a task behind one of lane 0, which is in CLEARANCE. -/
def Scans (s : State) (u : Task) (p : State → Prop) : Prop :=
  s.LanesLegal ∧ s.config.mode = .run ∧ s.sweepFree = true ∧ s.engine.queue = [task 0 (.opn .b)] ++ u :: [] ∧
    (s.lane 0).phase = .clearance .a false false (task 0 .close) ∧ p s

/-- Lane 1 in a state, every SHUT proven, and a task of it queued behind one of lane 0, which is in CLEARANCE. -/
def scanning (p : LanePhase) (emergency : Bool) (u : Task) : State :=
  let s := provenShut (lanePart (clearing false false) 1 p none)
  withQueue (s.setLane 1 { s.lane 1 with emergency := emergency }) [task 0 (.opn .b), u]

/-- The same with lane 1 SHUT and nothing shown. -/
def unproven (u : Task) : State := withQueue (clearing false false) [task 0 (.opn .b), u]

def planTask (k : TaskKind) : Task := ⟨1, k, .plan, some 3, none⟩

theorem witness_scanRule :
    Scans scanned (task 1 .close) (fun s => (s.lane 1).phase = .run .b) ∧
    Scans (scanning (.run .b) false (task 1 (.opn .a))) (task 1 (.opn .a)) (fun s => (s.lane 1).phase = .run .b) ∧
    Scans (scanning .shut false (task 1 .close)) (task 1 .close) (fun s => (s.lane 1).phase = .shut) ∧
    Scans (scanning .shut true (planTask (.opn .a))) (planTask (.opn .a))
      (fun s => (s.lane 1).phase = .shut ∧ (s.lane 1).emergency = true) ∧
    Scans (scanning .shut true (task 1 (.opn .a))) (task 1 (.opn .a))
      (fun s => (s.lane 1).emergency = true ∧ s.startCheck 1 = none) ∧
    Scans (scanning .shut false (planTask (.opn .a))) (planTask (.opn .a))
      (fun s => (s.lane 1).emergency = false ∧ s.startCheck 1 = none) ∧
    Scans (unproven (task 1 (.opn .a))) (task 1 (.opn .a))
      (fun s => (s.lane 1).emergency = false ∧ s.startCheck 1 = some .shutNotProven) ∧
    ((withQueue (clearing false false) [task 0 (.opn .b)]).LanesLegal ∧
      (withQueue (clearing false false) [task 0 (.opn .b)]).sweepFree = true ∧
      ((withQueue (clearing false false) [task 0 (.opn .b)]).scan).sweepFree = true) ∧
    (withQueue (closing 0) [task 1 .close]).sweepFree = false :=
  ⟨⟨lanesLegal_of (by decide +kernel), by decide +kernel⟩, ⟨lanesLegal_of (by decide +kernel), by decide +kernel⟩,
    ⟨lanesLegal_of (by decide +kernel), by decide +kernel⟩, ⟨lanesLegal_of (by decide +kernel), by decide +kernel⟩,
    ⟨lanesLegal_of (by decide +kernel), by decide +kernel⟩, ⟨lanesLegal_of (by decide +kernel), by decide +kernel⟩,
    ⟨lanesLegal_of (by decide +kernel), by decide +kernel⟩, ⟨lanesLegal_of (by decide +kernel), by decide +kernel⟩,
    by decide +kernel⟩

/-- The sweep is held by lane 0, and both kinds of task are queued for lane 1. -/
def queued : State := withQueue (closing 0) [task 1 (.opn .a), task 1 .close]
theorem queued_rests : rests queued = true := by decide +kernel

theorem witness_cancelTask :
    (Meets standby 23 [0, 0] fun s => s.config.mode = .standby) ∧
    (Meets queued 23 [2, 0] fun s => s.config.mode = .run ∧ s.l ≤ 2) ∧
    (Meets queued 23 [1, 2] fun s => s.config.mode = .run ∧ 1 < s.l) ∧
    (Meets queued 23 [0, 0] fun s => s.config.mode = .run ∧ ∀ t ∈ s.engine.queue, ¬(t.lane = 0 ∧ t.kind.isOpen = false)) ∧
    (Meets queued 23 [1, 1] fun s => s.engine.queue = [] ++ task 1 (.opn .a) :: [task 1 .close]) ∧
    (Meets queued 23 [1, 0] fun s => s.engine.queue = [task 1 (.opn .a)] ++ task 1 .close :: []) :=
  ⟨meets standby_rests (by decide +kernel), meets queued_rests (by decide +kernel), meets queued_rests (by decide +kernel),
    meets queued_rests (by decide +kernel), meets queued_rests (by decide +kernel), meets queued_rests (by decide +kernel)⟩

/-- Lanes 0 to 3 are kept and lane 4 opened by plan 1; lane 0 is closed by plan 8. -/
def planned (s : State) : State :=
  { s with engine.plans :=
      (defaultPlans.set 0 [.keep, .keep, .keep, .keep, .dir .b, .keep]).set 7 [.shut, .keep, .keep, .keep, .keep, .keep] }

/-- The sweep is held, a HOST task and a PLAN task are queued. -/
def mixedQueue : State := planned (held .shut [task 4 (.opn .a), ⟨0, .close, .plan, some 3, none⟩])
theorem mixedQueue_rests : rests mixedQueue = true := by decide +kernel
theorem planned_7_rests : rests (planned (held .shut (eight.take 7))) = true := by decide +kernel
theorem planned_8_rests : rests (planned (held .shut eight)) = true := by decide +kernel

theorem witness_planExpansion :
    (planned running).expandPlan .plan 1 = [] ∧
    (planned (held .shut [])).expandPlan .plan 1 = [⟨4, .opn .b, .plan, some 1, none⟩] ∧
    (let q := [task 4 .close, task 4 (.opn .a)]
     q = [task 4 .close] ++ task 4 (.opn .a) :: [] ∧ (∀ t ∈ q, t.lane ≠ 3) ∧ running.project q 4 = some .a) := by
  decide +kernel

theorem witness_selectAndSetPlan :
    (∀ id ∈ [0, 9], Meets running 30 [id] fun s => s.config.mode = .run) ∧
    (∀ id ∈ [0, 9, 255], Meets running 28 [id, 0, 1, 2, 3, 0, 4] fun _ => oct [id, 0, 1, 2, 3, 0, 4] 0 = 0 ∨
      8 < oct [id, 0, 1, 2, 3, 0, 4] 0) ∧
    (Meets mixedQueue 30 [1] fun s => s.config.mode = .run ∧
      s.expandPlan .plan 1 = [⟨4, .close, .plan, some 1, none⟩, ⟨4, .opn .b, .plan, some 1, none⟩] ∧
      ∃ u ∈ s.engine.queue, u.origin = .host ∧ u.lane = 4 ∧ u.kind.same (.opn .b) = true) ∧
    (Meets (planned (held .shut eight)) 30 [1] fun s => (s.engine.queue.filter fun t => t.origin == .host).length = 8 ∧
      (s.expandPlan .plan 1).length = 1) ∧
    (Meets (planned (held .shut (eight.take 7))) 30 [1] fun s => s.sweepFree = false ∧
      (s.engine.queue.filter fun t => t.origin == .host).length = 7 ∧ (s.expandPlan .plan 1).length = 1) ∧
    (Meets mixedQueue 30 [8] fun s => s.sweepFree = false ∧ (s.expandPlan .plan 8).length = 0) ∧
    (Meets runBoth 30 [8] fun s => s.sweepFree = true) ∧
    (Meets running 28 [1, 4, 0, 0, 0, 0, 0] fun _ => True) ∧ (Meets running 28 [8, 0, 1, 2, 3, 0, 4] fun _ => True) ∧
    (Meets fixedRun 28 [1, 1, 3, 3, 3, 3, 3] fun s => 0 < s.l ∧ s.laneCfg 0 = some ⟨.fixedA, .lower, .timed⟩) ∧
    (Meets running 28 [8, 0, 1, 2, 3, 0, 1] fun s => s.laneCfg 0 = some ⟨.tidal, .lower, .timed⟩) :=
  ⟨fun _ _ => meets running_rests (by exact (by decide +kernel : running.config.mode = .run)),
    fun id h => meets running_rests ((by decide +kernel : ∀ id ∈ [(0 : Octet), 9, 255], oct [id, 0, 1, 2, 3, 0, 4] 0 = 0 ∨
      8 < oct [id, 0, 1, 2, 3, 0, 4] 0) id h), meets mixedQueue_rests (by decide +kernel), meets planned_8_rests (by decide +kernel),
    meets planned_7_rests (by decide +kernel), meets mixedQueue_rests (by decide +kernel), meets runBoth_rests (by decide +kernel),
    meets running_rests trivial, meets running_rests trivial, meets fixedRun_rests (by decide +kernel),
    meets running_rests (by decide +kernel)⟩

/-! ### Witnesses: a lane's progress -/

theorem clearing_rests : rests (clearing false false) = true := by decide +kernel
theorem waiting_rests : rests (clearing false true) = true := by decide +kernel
theorem closing_0_rests : rests (closing 0) = true := by decide +kernel
theorem closing_1_rests : rests (closing 1) = true := by decide +kernel
theorem closing_2_rests : rests (closing 2) = true := by decide +kernel
theorem opening_2_rests : rests (opening 2 false (some (task 0 (.opn .a)))) = true := by decide +kernel
theorem opening_1_rests : rests (opening 1 false none) = true := by decide +kernel
theorem restoring_rests : rests (opening 2 true none) = true := by decide +kernel

theorem witness_confirmClear :
    (Meets (clearing false false) 24 [0] fun s => s.config.mode = .run ∧ 0 < s.l ∧
      (s.lane 0).phase = .clearance .a false false (task 0 .close)) ∧
    (Meets (clearing false true) 24 [0] fun s => (s.lane 0).phase = .clearance .a false true (task 0 .close)) ∧
    (Meets running 24 [1] fun s => 1 < s.l ∧ (s.lane 1).phase = .shut) :=
  ⟨meets clearing_rests (by decide +kernel), meets waiting_rests (by decide +kernel), meets running_rests (by decide +kernel)⟩

/-- Lane 0 in CLEARANCE on a section whose SHUT aspects are proven; and the same with the sweep held by lane 1. -/
def reopenable : State := provenShut (clearing false false)
theorem reopenable_rests : rests reopenable = true := by decide +kernel
def blocked : State := lanePart (clearing false false) 1 (.closing .a 0 .slow (task 1 .close)) (some 8000)
theorem blocked_rests : rests blocked = true := by decide +kernel

/-- Lane 0 closing or in CLEARANCE with an OPEN of it queued behind one of lane 1. -/
def withOpens (s : State) : State := withQueue s [task 1 (.opn .b), task 0 (.opn .b)]
theorem withOpens_closing_0 : rests (withOpens (closing 0)) = true := by decide +kernel
theorem withOpens_closing_1 : rests (withOpens (closing 1)) = true := by decide +kernel
theorem withOpens_waiting : rests (withOpens (clearing false true)) = true := by decide +kernel

/-- R31, R38, R46: the queued OPEN of the lane ends CANCELLED, which is the lane's last outcome; the other task stays. -/
theorem witness_cancelledOpens :
    (Meets (withOpens (closing 0)) 25 [0] fun s => (s.lane 0).phase = .closing .a 0 .slow (task 0 .close)) ∧
    (Meets (withOpens (closing 1)) 25 [0] fun s => (s.lane 0).phase = .closing .a 1 .slow (task 0 .close) ∧
      (let t := nextState (exec (.abortLane 7 [0]) s)
       t.engine.queue = [task 1 (.opn .b)] ∧
        (t.lane 0).last = some (s.outcomeOf (task 0 (.opn .b)) .cancelled none))) ∧
    ((withOpens (clearing false true)).Good ∧ (withOpens (clearing false true)).live = true ∧
      ((withOpens (clearing false true)).lane 0).phase = .clearance .a false true (task 0 .close)) :=
  ⟨meets withOpens_closing_0 (by decide +kernel), meets withOpens_closing_1 (by decide +kernel),
    good_rests withOpens_waiting |>.1, by decide +kernel⟩

theorem witness_abortLane :
    (Meets runA 25 [0] fun s => s.config.mode = .run ∧ 0 < s.l ∧ (s.lane 0).phase = .run .a) ∧
    (Meets running 25 [1] fun s => 1 < s.l ∧ (s.lane 1).phase = .shut) ∧
    (Meets (opening 2 true none) 25 [0] fun s => (s.lane 0).phase = .opening .a 2 true none) ∧
    (Meets (closing 0) 25 [0] fun s => (s.lane 0).phase = .closing .a 0 .slow (task 0 .close)) ∧
    (Meets (closing 1) 25 [0] fun s => (s.lane 0).phase = .closing .a 1 .slow (task 0 .close)) ∧
    (Meets reopenable 25 [0] fun s => (s.lane 0).phase = .clearance .a false false (task 0 .close) ∧ s.sweepFree = true ∧
      (s.setLane 0 { s.lane 0 with
          phase := .shut, timer := none, last := some (s.outcomeOf (task 0 .close) .aborted none) }).startCheck 0 = none ∧
      s.engine.queue = []) ∧
    (Meets blocked 25 [0] fun s => (s.lane 0).phase = .clearance .a false false (task 0 .close) ∧ s.sweepFree = false) ∧
    (Meets (clearing false false) 25 [0] fun s => s.sweepFree = true ∧ s.startCheck 0 = some .shutNotProven) ∧
    (Meets (opening 2 false (some (task 0 (.opn .a)))) 25 [0] fun s =>
      (s.lane 0).phase = .opening .a 2 false (some (task 0 (.opn .a)))) ∧
    (Meets (opening 1 false none) 25 [0] fun s => (s.lane 0).phase = .opening .a 1 false none) :=
  ⟨meets runA_rests (by decide +kernel), meets running_rests (by decide +kernel), meets restoring_rests (by decide +kernel),
    meets closing_0_rests (by decide +kernel), meets closing_1_rests (by decide +kernel), meets reopenable_rests (by decide +kernel),
    meets blocked_rests (by decide +kernel), meets clearing_rests (by decide +kernel), meets opening_2_rests (by decide +kernel),
    meets opening_1_rests (by decide +kernel)⟩

/-- Lane 1 is closing and merges toward lane 0, which runs. -/
def merging : State := lanePart runA 1 (.closing .a 0 .divertL (task 1 .close)) (some 8000)
theorem merging_rests : rests merging = true := by decide +kernel
def openingBeside : State := lanePart runA 1 (.opening .a 2 false (some (task 1 (.opn .a)))) (some 8000)
theorem openingBeside_rests : rests openingBeside = true := by decide +kernel

theorem lane_far (s : State) (h : s.LanesLegal) (m : Nat) (hm : s.l ≤ m) : (s.lane m).phase.sweeping = false := by
  rw [h.outside m hm]; rfl

theorem witness_closeNow :
    (Meets runA 26 [1] fun s => s.config.mode = .run ∧ 1 < s.l ∧ (s.lane 1).phase = .shut ∧
      ∀ m, m < s.l → (s.lane m).phase.sweeping = false) ∧
    (Meets (closing 1) 26 [0] fun s => 0 < s.l ∧ (s.lane 0).phase.sweeping = true ∧ ∀ m, m < s.l → m ≠ 0 →
      (s.lane m).phase.sweeping = false) ∧
    (Meets merging 26 [0] fun s => (s.lane 1).phase = .closing .a 0 .divertL (task 1 .close)) ∧
    (Meets openingBeside 26 [0] fun s => (s.lane 1).phase = .opening .a 2 false (some (task 1 (.opn .a)))) ∧
    (Meets queued 26 [1] fun s => (s.lane 0).phase = .closing .a 0 .slow (task 0 .close) ∧
      (s.engine.queue.filter fun u => u.lane == 1) ≠ []) :=
  ⟨meets runA_rests (by decide +kernel), meets closing_1_rests (by decide +kernel), meets merging_rests (by decide +kernel),
    meets openingBeside_rests (by decide +kernel), meets queued_rests (by decide +kernel)⟩

theorem witness_sweepSteps :
    ((closing 1).Good ∧ (closing 1).live = true ∧ 0 < (closing 1).l ∧
      ((closing 1).lane 0).phase = .closing .a 1 .slow (task 0 .close) ∧ 1 < (closing 1).n - 1) ∧
    ((closing 2).Good ∧ ((closing 2).lane 0).phase = .closing .a 2 .slow (task 0 .close) ∧ (closing 2).n - 1 ≤ 2) ∧
    ((opening 2 true none).Good ∧ ((opening 2 true none).lane 0).phase = .opening .a 2 true none) ∧
    ((opening 1 false none).Good ∧ ((opening 1 false none).lane 0).phase = .opening .a 1 false none) ∧
    ((opening 1 false (some (task 0 (.opn .a)))).Good ∧
      ((opening 1 false (some (task 0 (.opn .a)))).lane 0).phase = .opening .a 1 false (some (task 0 (.opn .a)))) :=
  ⟨⟨(good_rests closing_1_rests).1, by decide +kernel⟩, ⟨(good_rests closing_2_rests).1, by decide +kernel⟩,
    ⟨(good_rests restoring_rests).1, by decide +kernel⟩, ⟨(good_rests opening_1_rests).1, by decide +kernel⟩,
    ⟨good_of (by decide +kernel), by decide +kernel⟩⟩

/-- Lane 0 is CONFIRMED and in CLEARANCE. -/
def confirming (c : Bool) : State :=
  settled { (clearing c false) with
    config.records.lanes := [(0, some ⟨.tidal, .lower, .confirmed⟩), (1, some ⟨.tidal, .lower, .timed⟩)] }

theorem witness_clearanceExpiries :
    ((confirming false).Good ∧ (confirming false).live = true ∧ 0 < (confirming false).l ∧
      ((confirming false).lane 0).phase = .clearance .a false false (task 0 .close) ∧
      (confirming false).laneCfg 0 = some ⟨.tidal, .lower, .confirmed⟩) ∧
    ((confirming true).Good ∧ ((confirming true).lane 0).phase = .clearance .a true false (task 0 .close)) ∧
    ((clearing false false).Good ∧ (clearing false false).laneCfg 0 = some ⟨.tidal, .lower, .timed⟩) ∧
    ((clearing false true).Good ∧ ((clearing false true).lane 0).phase = .clearance .a false true (task 0 .close)) :=
  ⟨⟨good_of (by decide +kernel), by decide +kernel⟩, ⟨good_of (by decide +kernel), by decide +kernel⟩,
    ⟨(good_rests clearing_rests).1, by decide +kernel⟩, ⟨(good_rests waiting_rests).1, by decide +kernel⟩⟩

/-- Lane 0 opens afresh and its front stands at position 1. -/
def openingTo (t : Option Task) : State := opening 1 false t

/-- Station 2 is REROUTED and has missed twice on the west end, which waits for its answer, while lane 0 opens afresh. -/
def aboutToFall : State :=
  let s := (openingTo (some (task 0 (.opn .a)))).setStation 2
    { StationRec.reset .east with state := .rerouted, current := .west, missWest := 2, reprobe := some 5 }
  settled (s.setPoller .west
    { s.poller .west with sending := none, exchange := some ⟨2, false⟩, answerTimer := some 10 })

/-- Lane 0 opens afresh; both strings of SLOW and of SHUT at head 1/0/A are in FAULT, so that it cannot show either. -/
def fragile (t : Option Task) : State :=
  settled
    { openingTo t with
      lamps.strings := [2, 3, 8, 9].map fun i => (stringKey ⟨1, 0, .a⟩ i, { StringRec.reset with state := .fault, fails := 3 }) }
theorem fragile_rests : rests (fragile none) = true := by decide +kernel
theorem openingTo_rests : rests (openingTo none) = true := by decide +kernel

/-- A station that falls and an override that a head cannot show fail a fresh opening; an override that it can show does not. -/
theorem witness_freshOpeningFails :
    (aboutToFall.Good ∧ aboutToFall.live = true ∧
      (aboutToFall.lane 0).phase = .opening .a 1 false (some (task 0 (.opn .a))) ∧
      (let t := nextState (exec (.pollTimeout .west) aboutToFall)
       (t.station 2).state = .lost ∧ (t.lane 0).phase = .shut ∧
        (t.lane 0).last = some (aboutToFall.outcomeOf (task 0 (.opn .a)) .failed (some .closureLost)))) ∧
    (Meets (fragile none) 34 [1, 0, 0, 4, 1] fun s => (s.lane 0).phase = .opening .a 1 false none ∧
      (let t := nextState (exec (.override 7 [1, 0, 0, 4, 1]) s)
       (s.headRec ⟨1, 0, .a⟩).any (!·.closureLost) = true ∧ (t.lane 0).phase = .shut ∧
        (t.lane 0).last = some (s.outcomeOf (task 0 (.opn .a)) .failed (some .closureLost)))) ∧
    (Meets (openingTo none) 34 [1, 0, 0, 4, 1] fun s => (s.lane 0).phase = .opening .a 1 false none ∧
      (nextState (exec (.override 7 [1, 0, 0, 4, 1]) s)).engine = s.engine) :=
  ⟨⟨good_of (by decide +kernel), by decide +kernel⟩, meets fragile_rests (by decide +kernel),
    meets openingTo_rests (by decide +kernel)⟩

/-! ### Witnesses: overrides and the lamp test -/

/-- An override of a head of a six-lane section, by its place in the head order. -/
def overrideOf (i : Nat) : Override := ⟨⟨i / 12, i % 12 / 2, if i % 2 = 0 then .a else .b⟩, .slow, 60000, none⟩
def overriding (count : Nat) : State :=
  settled { part 3 6 .run with resolver.overrides := (List.range count).map overrideOf }

theorem overriding_31 : rests (overriding 31) = true := by decide +kernel
theorem overriding_32 : rests (overriding 32) = true := by decide +kernel

theorem witness_overrides :
    (∀ a ∈ [0, 5, 255], Meets running 34 [2, 1, 1, a, 1] fun s => s.config.mode = .run ∧ 2 < s.n ∧ 1 < s.l) ∧
    (Meets (overriding 32) 34 [2, 5, 1, 4, 1] fun s => s.resolver.overrides.length = 32 ∧
      ∀ o ∈ s.resolver.overrides, o.head ≠ ⟨2, 5, .b⟩) ∧
    (Meets (overriding 32) 34 [0, 0, 0, 1, 240] fun s => ∃ o ∈ s.resolver.overrides, o.head = ⟨0, 0, .a⟩) ∧
    (Meets (overriding 31) 34 [2, 5, 1, 1, 0] fun s => s.resolver.overrides.length < 32) ∧
    (Meets running 34 [0, 0, 0, 4, 241] fun s => s.resolver.overrides.length < 32 ∧ Aspect.ofCode 4 = some .slow) ∧
    (Meets running 35 [2, 1, 1] fun s => 2 < s.n ∧ 1 < s.l ∧ ∀ o ∈ s.resolver.overrides, o.head ≠ ⟨2, 1, .b⟩) ∧
    (Meets (overriding 32) 35 [0, 0, 1] fun s => ∃ o ∈ s.resolver.overrides, o.head = ⟨0, 0, .b⟩) ∧
    ((overriding 32).Good ∧ (overriding 32).live = true ∧ [(⟨0, 0, .b⟩ : HeadRef), ⟨2, 3, .b⟩] ≠ [] ∧
      [(⟨0, 0, .b⟩ : HeadRef), ⟨2, 3, .b⟩].Nodup ∧
      ∀ h ∈ [(⟨0, 0, .b⟩ : HeadRef), ⟨2, 3, .b⟩], ∃ o ∈ (overriding 32).resolver.overrides, o.head = h) ∧
    ((overriding 31).Good ∧ ∃ o ∈ (overriding 31).resolver.overrides, o.head = ⟨0, 0, .a⟩) :=
  ⟨fun _ _ => meets running_rests (by exact (by decide +kernel : running.config.mode = .run ∧ 2 < running.n ∧ 1 < running.l)),
    meets overriding_32 (by decide +kernel), meets overriding_32 (by decide +kernel), meets overriding_31 (by decide +kernel),
    meets running_rests (by decide +kernel), meets running_rests (by decide +kernel), meets overriding_32 (by decide +kernel),
    ⟨(good_rests overriding_32).1, by decide +kernel⟩, (good_rests overriding_31).1, by decide +kernel⟩

theorem ailing_lost : (ailing.station 2).state = .lost ∧ (ailing.station 1).state = .cut := by decide +kernel

theorem witness_lampTestRuns :
    (∀ b ∈ [[2, 2, 0], [2, 1, 5], [2, 1, 4], [0, 0, 0]], Meets standby 37 b fun s => s.config.mode = .standby ∧
      2 < s.n ∧ s.resolver.lampTest = none ∧ (s.station 2).state = .online ∧ (s.station 0).state = .online) ∧
    (Meets testing 37 [2, 1, 4] fun s => s.resolver.lampTest.isSome = true) ∧
    (Meets ailing 37 [2, 0, 0] fun s => s.resolver.lampTest = none ∧ (s.station 2).state = .lost) ∧
    (Meets ailing 37 [1, 0, 0] fun s => s.resolver.lampTest = none ∧ (s.station 1).state = .cut) ∧
    (Meets standby 38 [] fun s => s.config.mode = .standby ∧ s.resolver.lampTest = none) ∧
    (Meets testing 38 [] fun s => s.config.mode = .standby ∧ s.resolver.lampTest = some ⟨2, .b, .opn, 60000⟩) ∧
    (testing.Good ∧ testing.live = true) :=
  ⟨fun _ _ => meets standby_rests (by exact (by decide +kernel : standby.config.mode = .standby ∧ 2 < standby.n ∧
      standby.resolver.lampTest = none ∧ (standby.station 2).state = .online ∧ (standby.station 0).state = .online)),
    meets testing_rests (by decide +kernel), meets ailing_rests (by decide +kernel), meets ailing_rests (by decide +kernel),
    meets standby_rests (by decide +kernel), meets testing_rests (by decide +kernel), good_rests testing_rests⟩

/-! ### Witnesses: proving and signatures -/

def shutString : StringRef := ⟨⟨2, 1, .b⟩, .shut, 1⟩

/-- A string of the section with a signature and an accumulator, its station on a dim level. -/
def proved (e : SigEntry) (r : StringRec) : State :=
  settled { running with sigs.entries := Tab.set .unlearned [] shutString.key e, lamps.strings := [(shutString.key, r)] }

theorem witness_provingArithmetic :
    0 < (⟨4, 1278, 317, 322⟩ : Acc).count ∧ ((proved (.learned 312) .reset).entry shutString.key).value = some 312 ∧
    (∀ v ∈ [1, 1023], ((proved (.fixed v) .reset).entry shutString.key).value = some v) ∧
    running.entry shutString.key = .unlearned ∧ 0 < running.duty 0 := by decide +kernel

def accumulating (count : Nat) (st : StringState) : StringRec :=
  ⟨st, 0, ⟨count, 318 * count, 318, 318⟩, none, st == .ok⟩

/-- A proving that passes proves its string, one that fails leaves the proof as it is, and a return from LOST takes it. -/
theorem test_proof_of_string :
    (let t := (proved .unlearned ⟨.unproven, 0, ⟨3, 960, 300, 340⟩, none, false⟩).addSample shutString 320 0
     (t.string shutString.key).state = .ok ∧ (t.string shutString.key).proved = true ∧
      ((t.returnStrings 2).string shutString.key).state = .unproven ∧
      ((t.returnStrings 2).string shutString.key).proved = false) ∧
    (let t := (proved .unlearned ⟨.unproven, 0, ⟨3, 90, 30, 30⟩, none, false⟩).addSample shutString 30 0
     (t.string shutString.key).state = .suspect ∧ (t.string shutString.key).proved = false) := by decide +kernel

/-- A string about to be proved, every station learning, the table frozen or not. -/
def proving (e : SigEntry) (st : StringState) (sum : Nat) (freeze : Bool) : State :=
  let s := proved e ⟨st, 0, ⟨3, sum, 300, 340⟩, none, st == .ok⟩
  { s with config.records.tunnel.freeze := freeze }

/-- The next sample completes an accumulator, and the proving of it passes a test. -/
def Proves (s : State) (x : Nat) (p : State → LastResult → Prop) : Prop :=
  s.TablesCanonical ∧ ((s.string shutString.key).acc.add x).count = s.config.records.proving.depth + 1 ∧
    p s (s.proofOf shutString ((s.string shutString.key).acc.add x) 0)

theorem witness_sampleTaken :
    ((proved (.learned 312) (accumulating 1 .ok)).TablesCanonical ∧
      ((proved (.learned 312) (accumulating 1 .ok)).string shutString.key).acc.count = 1) ∧
    (running.TablesCanonical ∧ (running.string shutString.key).acc.count = 0) ∧
    Proves (proving .unlearned .unproven 960 false) 320 (fun s res => s.entry shutString.key = .unlearned ∧
      res.verdict = .pass ∧ s.config.records.tunnel.freeze = false ∧ s.stationCfg 2 = some ⟨2, true⟩ ∧ 500 ≤ s.duty 0) ∧
    Proves (proving .unlearned .unproven 2910 false) 970 (fun s res => s.entry shutString.key = .unlearned ∧
      res.verdict = .failHigh) ∧
    Proves (proving .unlearned .unproven 90 false) 30 (fun _ res => res.verdict = .failLow) ∧
    Proves (proving .unlearned .unproven 960 true) 320 (fun s res => res.verdict = .pass ∧
      s.config.records.tunnel.freeze = true) ∧
    Proves (proving (.learned 312) .ok 960 false) 320 (fun s res => s.entry shutString.key = .learned 312 ∧
      res.verdict = .pass) ∧
    Proves (proving (.fixed 312) .ok 960 false) 320 (fun _ res => res.verdict = .pass) ∧
    Proves (proving (.fixed 312) .fault 960 false) 320 (fun s _ => (s.string shutString.key).state = .fault) ∧
    Proves (proved (.learned 312) ⟨.suspect, 2, ⟨3, 600, 200, 200⟩, none, true⟩) 200 (fun s res => res.verdict = .failLow ∧
      (moveString s.config.records.proving.threshold res.verdict .suspect 2).1 = .fault) :=
  ⟨⟨tablesCanonical_of (by decide +kernel), by decide +kernel⟩, ⟨tablesCanonical_of (by decide +kernel), by decide +kernel⟩,
    ⟨tablesCanonical_of (by decide +kernel), by decide +kernel⟩, ⟨tablesCanonical_of (by decide +kernel), by decide +kernel⟩,
    ⟨tablesCanonical_of (by decide +kernel), by decide +kernel⟩, ⟨tablesCanonical_of (by decide +kernel), by decide +kernel⟩,
    ⟨tablesCanonical_of (by decide +kernel), by decide +kernel⟩, ⟨tablesCanonical_of (by decide +kernel), by decide +kernel⟩,
    ⟨tablesCanonical_of (by decide +kernel), by decide +kernel⟩, ⟨tablesCanonical_of (by decide +kernel), by decide +kernel⟩⟩

/-- A state whose head 2/1/B has a record. -/
def watched (p : HeadProving) : State := settled { running with lamps.heads := [(HeadRef.key ⟨2, 1, .b⟩, p)] }

/-- A record of a head: what it shows, its dim level and phase, its lit currents and its leaks. -/
def shows (shown phase leakOpen leakOther : Nat) : Sample := ⟨shown, 0, phase, 300, 310, leakOpen, leakOther⟩

/-- What a record of head 2/1/B, resolved SHUT unless told otherwise, leaves passes a test. -/
def Takes (s : State) (resolved : Aspect) (cut : Bool) (dim : Option Nat) (r : Sample) (p : State → Bool → Prop) : Prop :=
  s.TablesCanonical ∧ p (s.acceptSample ⟨2, 1, .b⟩ resolved cut dim r).1 (s.acceptSample ⟨2, 1, .b⟩ resolved cut dim r).2

theorem takes_of {s : State} {a : Aspect} {c : Bool} {d : Option Nat} {r : Sample} {p : State → Bool → Prop}
    (h : s.tablesCheck = true)
    (hp : p (s.acceptSample ⟨2, 1, .b⟩ a c d r).1 (s.acceptSample ⟨2, 1, .b⟩ a c d r).2) : Takes s a c d r p :=
  ⟨tablesCanonical_of h, hp⟩

def sees (s : State) : HeadProving := s.proving ⟨2, 1, .b⟩

theorem witness_headRecordTaken_mismatch :
    Takes (watched ⟨.normal, 1, 0, 0⟩) .shut false (some 0) (shows 4 1 0 0)
      (fun t cut => (sees t).mismatches = 2 ∧ cut = false) ∧
    Takes (watched ⟨.normal, 2, 0, 0⟩) .shut false (some 0) (shows 4 1 0 0)
      (fun t cut => sees t = ⟨.mismatch, 0, 0, 0⟩ ∧ hasFlag t.attn.latched .headFault = true ∧ cut = false) ∧
    Takes (watched ⟨.normal, 2, 0, 0⟩) .shut false (some 0) (shows 0 1 0 0)
      (fun t cut => sees t = ⟨.normal, 0, 0, 0⟩ ∧ hasFlag t.attn.latched .falseOpen = true ∧ cut = true ∧
        t.falseOpen 2 = some ⟨⟨2, 1, .b⟩, .shownOpen, none⟩) ∧
    Takes (watched ⟨.normal, 2, 0, 0⟩) .shut true (some 0) (shows 0 1 0 0)
      (fun t cut => sees t = ⟨.normal, 2, 0, 0⟩ ∧ cut = false) ∧
    Takes (watched ⟨.miswired, 2, 0, 0⟩) .shut false (some 0) (shows 5 1 0 0)
      (fun t _ => (sees t).condition = .miswired) :=
  ⟨takes_of (by decide +kernel) (by decide +kernel), takes_of (by decide +kernel) (by decide +kernel),
    takes_of (by decide +kernel) (by decide +kernel), takes_of (by decide +kernel) (by decide +kernel),
    takes_of (by decide +kernel) (by decide +kernel)⟩

/-- The dark limit is 15 mA by default. -/
theorem witness_headRecordTaken_leaks :
    Takes running .shut false (some 0) (shows 1 1 16 16)
      (fun t cut => sees t = ⟨.normal, 0, 1, 1⟩ ∧ cut = false) ∧
    Takes (watched ⟨.normal, 0, 1, 1⟩) .shut true none (shows 1 1 16 16)
      (fun t cut => sees t = ⟨.miswired, 0, 0, 0⟩ ∧ cut = true ∧ hasFlag t.attn.latched .headFault = true ∧
        t.falseOpen 2 = some ⟨⟨2, 1, .b⟩, .openLeak, none⟩) ∧
    Takes (watched ⟨.normal, 0, 1, 1⟩) .shut false (some 0) (shows 1 1 15 15)
      (fun t cut => sees t = ⟨.normal, 0, 0, 0⟩ ∧ cut = false) ∧
    Takes (watched ⟨.normal, 0, 1, 0⟩) .opn false (some 0) (shows 0 1 16 0)
      (fun t cut => sees t = ⟨.normal, 0, 0, 0⟩ ∧ cut = false) :=
  ⟨takes_of (by decide +kernel) (by decide +kernel), takes_of (by decide +kernel) (by decide +kernel),
    takes_of (by decide +kernel) (by decide +kernel), takes_of (by decide +kernel) (by decide +kernel)⟩

theorem witness_headRecordTaken_samples :
    Takes running .shut false (some 0) (shows 1 1 0 0)
      (fun t _ => (t.string (stringKey ⟨2, 1, .b⟩ 2)).acc.sum = 300 ∧ (t.string (stringKey ⟨2, 1, .b⟩ 3)).acc.sum = 310) ∧
    Takes running .slow false (some 0) (shows 4 1 0 0)
      (fun t _ => (t.string (stringKey ⟨2, 1, .b⟩ 8)).acc.count = 1 ∧ (t.string (stringKey ⟨2, 1, .b⟩ 9)).acc.count = 0) ∧
    Takes running .slow false (some 0) (shows 4 0 0 0)
      (fun t _ => (t.string (stringKey ⟨2, 1, .b⟩ 8)).acc.count = 0 ∧ (t.string (stringKey ⟨2, 1, .b⟩ 9)).acc.sum = 310) ∧
    Takes running .dark false (some 0) (shows 5 1 0 0) (fun t _ => t.lamps.strings = []) ∧
    Takes running .shut false none (shows 1 1 0 0) (fun t _ => t.lamps.strings = []) ∧
    Takes (proved (.learned 312) (accumulating 2 .ok)) .shut false (some 1) (shows 1 1 0 0)
      (fun t _ => (t.string shutString.key).acc.count = 0) ∧
    Takes (proved (.learned 312) (accumulating 2 .ok)) .shut false (some 0) (shows 1 2 0 0)
      (fun t _ => (t.string shutString.key).acc.count = 0) :=
  ⟨takes_of (by decide +kernel) (by decide +kernel), takes_of (by decide +kernel) (by decide +kernel),
    takes_of (by decide +kernel) (by decide +kernel), takes_of (by decide +kernel) (by decide +kernel),
    takes_of (by decide +kernel) (by decide +kernel), takes_of (by decide +kernel) (by decide +kernel),
    takes_of (by decide +kernel) (by decide +kernel)⟩

/-- Head 2/1/B is MISMATCH and one of its strings is in FAULT. -/
def faulted : State :=
  settled { running with
    lamps.strings := [(shutString.key, ⟨.fault, 3, .empty, none, true⟩)]
    lamps.heads := [(HeadRef.key ⟨2, 1, .b⟩, ⟨.mismatch, 3, 0, 0⟩)] }
theorem faulted_rests : rests faulted = true := by decide +kernel

theorem witness_clearFault :
    (∀ b ∈ [[2, 2, 1, 1], [0, 2, 2, 0], [0, 2, 1, 2], [0, 2, 1, 1], [1, 2, 0, 0], [1, 2, 255, 255]],
      Meets faulted 40 b fun s => 2 < s.n ∧ s.l = 2) ∧
    (∀ b ∈ [[0, 3, 1, 1], [1, 3, 0, 0]], Meets faulted 40 b fun s => s.n ≤ 3) :=
  ⟨fun _ _ => meets faulted_rests (by exact (by decide +kernel : 2 < faulted.n ∧ faulted.l = 2)),
    fun _ _ => meets faulted_rests (by exact (by decide +kernel : faulted.n ≤ 3))⟩

def learned : State := proved (.learned 312) (accumulating 3 .ok)
def fixed : State := proved (.fixed 312) (accumulating 3 .ok)
theorem learned_rests : rests learned = true := by decide +kernel
theorem fixed_rests : rests fixed = true := by decide +kernel

theorem witness_signatureCommands :
    (∀ v ∈ [0, 1, 2], Meets running 44 [v] fun _ => True) ∧
    (∀ b ∈ [[2, 1, 1, 1, 1, 0, 0], [2, 1, 1, 1, 1, 3, 255], [2, 1, 1, 4, 2, 4, 0], [0, 0, 0, 0, 1, 1, 56]],
      Meets learned 45 b fun s => 2 < s.n ∧ 1 < s.l) ∧
    (Meets fixed 46 [2, 1, 1, 1, 1] fun s => s.entry (stringKey ⟨2, 1, .b⟩ 2) = .fixed 312) ∧
    (Meets learned 46 [2, 1, 1, 1, 1] fun s => s.entry (stringKey ⟨2, 1, .b⟩ 2) = .learned 312) ∧
    (Meets running 46 [2, 1, 1, 1, 1] fun s => s.entry (stringKey ⟨2, 1, .b⟩ 2) = .unlearned) ∧
    (Meets learned 47 [2] fun s => 2 < s.n) ∧ (Meets running 47 [0] fun s => 0 < s.n) :=
  ⟨fun _ _ => meets running_rests trivial,
    fun _ _ => meets learned_rests (by exact (by decide +kernel : 2 < learned.n ∧ 1 < learned.l)),
    meets fixed_rests (by decide +kernel), meets learned_rests (by decide +kernel), meets running_rests (by decide +kernel),
    meets learned_rests (by decide +kernel), meets running_rests (by decide +kernel)⟩

/-! ### Witnesses: the gantry link -/

/-- Station 2, whose home end is EAST, has a record, and an end waits for its answer. -/
def asking (r : StationRec) (e : LinkEnd) (reprobe : Bool) : State :=
  let s := running.setStation 2 r
  settled (s.setPoller e
    { s.poller e with sending := none, exchange := some ⟨2, reprobe⟩, answerTimer := some 10 })

def homeRec : StationRec := StationRec.reset .east
def onlineRec (misses : Nat) : StationRec := { homeRec with missEast := misses }
def reroutedRec (misses : Nat) : StationRec :=
  { homeRec with state := .rerouted, current := .west, missWest := misses, reprobe := some 5 }
def lostRec (e : LinkEnd) : StationRec := { homeRec with state := .lost, current := e }
def cutRec (misses : Nat) : StationRec := { homeRec with state := .cut, missEast := misses }

/-- The hypotheses that the answers and the misses of an end share. -/
def Asking (s : State) (e : LinkEnd) (x : Exchange) : Prop :=
  s.Good ∧ s.live = true ∧ (s.poller e).exchange = some x ∧ (s.poller e).rx = .hunting ∧ x.station < s.n ∧
    (s.poller e).answerTimer.isSome = true

theorem asking_of {s : State} {e : LinkEnd} {x : Exchange} (h : s.goodCheck = true)
    (h2 : s.live = true ∧ (s.poller e).exchange = some x ∧ (s.poller e).rx = .hunting ∧ x.station < s.n ∧
      (s.poller e).answerTimer.isSome = true) : Asking s e x := ⟨good_of h, h2⟩

/-! GANTRY_ANSWER and GANTRY_MISS in every state of the station, with no miss before and at the third. -/

theorem witness_gantry_online : Asking (asking homeRec .east false) .east ⟨2, false⟩ :=
  asking_of (by decide +kernel) (by decide +kernel)
theorem witness_gantry_online_twice_missed : Asking (asking (onlineRec 2) .east false) .east ⟨2, false⟩ :=
  asking_of (by decide +kernel) (by decide +kernel)
theorem witness_gantry_rerouted : Asking (asking (reroutedRec 0) .west false) .west ⟨2, false⟩ :=
  asking_of (by decide +kernel) (by decide +kernel)
theorem witness_gantry_rerouted_twice_missed : Asking (asking (reroutedRec 2) .west false) .west ⟨2, false⟩ :=
  asking_of (by decide +kernel) (by decide +kernel)
theorem witness_gantry_reprobed : Asking (asking (reroutedRec 0) .east true) .east ⟨2, true⟩ :=
  asking_of (by decide +kernel) (by decide +kernel)
theorem witness_gantry_lost_home : Asking (asking (lostRec .east) .east false) .east ⟨2, false⟩ :=
  asking_of (by decide +kernel) (by decide +kernel)
theorem witness_gantry_lost_away : Asking (asking (lostRec .west) .west false) .west ⟨2, false⟩ :=
  asking_of (by decide +kernel) (by decide +kernel)
theorem witness_gantry_lost_other_end : Asking (asking (lostRec .west) .east false) .east ⟨2, false⟩ :=
  asking_of (by decide +kernel) (by decide +kernel)
theorem witness_gantry_cut : Asking (asking (cutRec 0) .east false) .east ⟨2, false⟩ :=
  asking_of (by decide +kernel) (by decide +kernel)
theorem witness_gantry_cut_twice_missed : Asking (asking (cutRec 2) .east false) .east ⟨2, false⟩ :=
  asking_of (by decide +kernel) (by decide +kernel)

/-- Two records of head 2/0/A in a row have disagreed. -/
def disagreed : State := settled { asking homeRec .east false with lamps.heads := [(HeadRef.key ⟨2, 0, .a⟩, ⟨.normal, 2, 0, 0⟩)] }

def identified : State := settled { asking homeRec .east false with sigs.idents := [(2, some 0x11223344#32)] }

/-- A SAMPLE of a station all of whose heads show an aspect: a record count that fits, the known bounds, an identity that
changes, and a head that shows OPEN where SHUT is resolved for the third time, which cuts the station. -/
theorem witness_gantryAnswer :
    ((sampleOf 4 1).records.length = 2 * running.l ∧
      ∀ r ∈ (sampleOf 4 1).records, r.shown < 256 ∧ r.dim < 256 ∧ r.phase < 256 ∧ r.lit1 ≤ 1023 ∧ r.lit2 ≤ 1023 ∧
        r.leakOpen ≤ 1023 ∧ r.leakOther ≤ 1023) ∧
    Asking disagreed .east ⟨2, false⟩ ∧
    (Asking identified .east ⟨2, false⟩ ∧ identified.ident 2 = some 0x11223344#32 ∧
      (0x11223344#32 : BitVec 32) ≠ (sampleOf 4 1).ident) ∧
    ((nextState (exec (.gantryAnswer .east (sampleFrame 2 (sampleOf 4 0)).octets) disagreed)).station 2).state =
      .cut :=
  ⟨by decide +kernel, asking_of (by decide +kernel) (by decide +kernel),
    ⟨asking_of (by decide +kernel) (by decide +kernel), by decide +kernel⟩, by decide +kernel⟩

/-- Station 2, REROUTED, is being reprobed on its home end, and its next reprobe is due there already. -/
def reprobedTwice : State :=
  let s := asking (reroutedRec 0) .east true
  settled (s.setPoller .east { s.poller .east with due := [2] })

/-- A supply reported OPEN by a station that is not CUT, and a station that leaves REROUTED with a reprobe due. -/
theorem witness_gantryAnswer_supply :
    Asking (asking homeRec .east false) .east ⟨2, false⟩ ∧
    (let t := nextState (exec (.gantryAnswer .east (sampleFrame 2 { sampleOf 4 1 with supplyOpen := true }).octets)
      (asking homeRec .east false))
     (t.station 2).state = .online ∧ (t.station 2).supplyOpen = some true ∧
      ((t.station 2).restorePending = true ∨ (t.poller .east).sending = some ⟨2#8, 3#8, []⟩)) ∧
    Asking reprobedTwice .east ⟨2, true⟩ ∧
    (let t := nextState (exec (.gantryAnswer .east (sampleFrame 2 (sampleOf 4 1)).octets) reprobedTwice)
     (t.station 2).state = .online ∧ (t.poller .east).due = []) :=
  ⟨asking_of (by decide +kernel) (by decide +kernel), by decide +kernel,
    asking_of (by decide +kernel) (by decide +kernel), by decide +kernel⟩

/-- A driver new to station 2, one of whose entries is learned, and the same with the table frozen. -/
def newDriver (freeze : Bool) : State :=
  settled { identified with
    sigs.entries := [(stringKey ⟨2, 1, .b⟩ 2, .learned 312)], config.records.tunnel.freeze := freeze }

/-- Station 2 answers again on its home end; one of its strings was SUSPECT. -/
def returningHome : State :=
  settled { asking (lostRec .east) .east false with
    lamps.strings := [(stringKey ⟨2, 1, .b⟩ 2, ⟨.suspect, 2, .empty, none, true⟩)] }

/-- The head records of a station that is cut for its first false-open, of a frame that asks for no cut, after a driver
change with the table frozen and not, and after a return from LOST. -/
theorem witness_gantryAnswerRecords :
    (let taken (s : State) (h : HeadRef) (r : Sample) : State × Bool :=
      (s.takeIdent 2 0x5A31C007#32).acceptSample h (s.resolved h) false (s.stationDim 2) r
     (Asking disagreed .east ⟨2, false⟩ ∧ disagreed.hasHead ⟨2, 0, .a⟩ = true ∧ disagreed.falseOpen 2 = none ∧
      (disagreed.station 2).state ≠ .cut ∧
      (sampleOf 4 0).records[0]? = some ⟨0, 7, 255, 1023, 0, 1023, 0⟩ ∧
      (taken disagreed ⟨2, 0, .a⟩ ⟨0, 7, 255, 1023, 0, 1023, 0⟩).2 = true) ∧
     (Asking (asking homeRec .east false) .east ⟨2, false⟩ ∧
      ∀ h ∈ stationHeads 2 2, (taken (asking homeRec .east false) h ⟨1, 7, 255, 1023, 0, 0, 0⟩).2 = false)) ∧
    (∀ freeze, Asking (newDriver freeze) .east ⟨2, false⟩ ∧ (newDriver freeze).ident 2 = some 0x11223344#32 ∧
      (newDriver freeze).stringOfStation 2 (stringKey ⟨2, 1, .b⟩ 2) = true ∧
      (newDriver freeze).config.records.tunnel.freeze = freeze ∧
      ((newDriver freeze).takeIdent 2 0x5A31C007#32).entry (stringKey ⟨2, 1, .b⟩ 2) =
        if freeze then .learned 312 else .unlearned) ∧
    (Asking returningHome .east ⟨2, false⟩ ∧ (returningHome.station 2).state = .lost ∧
      (returningHome.string (stringKey ⟨2, 1, .b⟩ 2)).state = .suspect) := by
  refine ⟨⟨⟨asking_of (by decide +kernel) (by decide +kernel), by decide +kernel⟩,
    asking_of (by decide +kernel) (by decide +kernel), by decide +kernel⟩, fun f => ?_,
    asking_of (by decide +kernel) (by decide +kernel), by decide +kernel⟩
  cases f
  · exact ⟨asking_of (by decide +kernel) (by decide +kernel), by decide +kernel⟩
  · exact ⟨asking_of (by decide +kernel) (by decide +kernel), by decide +kernel⟩

/-- A cut fails a fresh opening (R36). -/
def cutWhileOpening : State :=
  settled { disagreed with
    engine.lanes := Tab.set LaneRec.reset disagreed.engine.lanes 1
      { phase := .opening .b 1 false none, timer := some 8000, emergency := true, last := none } }

theorem witness_freshOpeningFailsByCut :
    cutWhileOpening.Good ∧ (cutWhileOpening.lane 1).phase = .opening .b 1 false none ∧
      (let t := nextState (exec (.gantryAnswer .east (sampleFrame 2 (sampleOf 4 0)).octets) cutWhileOpening)
       (t.station 2).state = .cut ∧ (t.lane 1).phase = .shut ∧ (t.lane 1).emergency = true) :=
  ⟨good_of (by decide +kernel), by decide +kernel⟩

def unheard : State := asking homeRec .east false

theorem witness_gantryMiss :
    (∃ got, gantryReads .hunting (sampleFrame 1 (sampleOf 4 1)).octets = (.hunting, [.whole true got]) ∧
      answerFault 2 unheard.l got = some .address) ∧
    (∃ got, gantryReads .hunting (sampleFrame 2 (sampleOf 2 1)).octets = (.hunting, [.whole true got]) ∧
      answerFault 2 unheard.l got = some .form) ∧
    gantryReads .hunting [0xC3, 2, 9, 0, 0, 0, 0, 0, 13] = (.hunting, [.broken true]) ∧
    (∃ got, gantryReads .hunting ((sampleFrame 2 (sampleOf 4 1)).octets.take 20) = (.inFrame true got, [])) := by
  refine ⟨⟨((sampleFrame 1 (sampleOf 4 1)).octets.drop 1), by decide +kernel⟩,
    ⟨((sampleFrame 2 (sampleOf 2 1)).octets.drop 1), by decide +kernel⟩, by decide +kernel,
    ⟨(((sampleFrame 2 (sampleOf 4 1)).octets.take 20).drop 1), by decide +kernel⟩⟩

/-- The west end sends a frame that nobody answers. -/
def answerless (s : State) (f : GantryFrame) (phasePending : Bool) : State :=
  settled { s with link.west := { s.link.west with sending := some f, exchange := none, phasePending := phasePending } }

/-- Station 0, the only one of the west end, REROUTED: the west end serves no station. -/
def westEmpty : State :=
  running.setStation 0 { StationRec.reset .east with state := .rerouted, reprobe := some 5 }
def westCut : State := running.setStation 0 { StationRec.reset .west with state := .cut }
def westRestoring : State := running.setStation 0 { StationRec.reset .west with restorePending := true }

theorem witness_gantryFrames :
    ((answerless running running.phaseFrame false).Good ∧ (answerless running running.phaseFrame false).live = true ∧
      ((answerless running running.phaseFrame false).poller .west).exchange = none ∧
      ((answerless running running.phaseFrame false).poller .west).rx = .hunting ∧
      gantryReads .hunting [0xC3, 2, 9, 0, 0, 0, 0, 0, 13] = (.hunting, [.broken true])) ∧
    (running.Good ∧ (running.poller .west).sending.isSome = true ∧ 2 ≤ running.n ∧
      (running.poller .west).exchange.isSome = true ∧ (running.poller .west).answering = false) ∧
    ((answerless running running.phaseFrame true).Good ∧
      ((answerless running running.phaseFrame true).poller .west).phasePending = true) ∧
    ((answerless westEmpty running.phaseFrame false).Good ∧
      (answerless westEmpty running.phaseFrame false).nextExchange .west = none) ∧
    ((answerless westRestoring running.phaseFrame false).Good ∧
      (answerless westRestoring running.phaseFrame false).nextExchange .west = some ⟨0, false⟩ ∧
      ((answerless westRestoring running.phaseFrame false).station 0).restorePending = true) ∧
    ((answerless westCut running.phaseFrame false).Good ∧
      (answerless westCut running.phaseFrame false).nextExchange .west = some ⟨0, false⟩ ∧
      ((answerless westCut running.phaseFrame false).station 0).state = .cut) ∧
    ((answerless running running.phaseFrame false).nextExchange .west = some ⟨0, false⟩ ∧
      ((answerless running running.phaseFrame false).station 0).state ≠ .cut) ∧
    (westEmpty.nextExchange .west = none ∧
      (westEmpty.setPoller .west { westEmpty.link.west with due := [0] }).nextExchange .west = none) :=
  ⟨⟨good_of (by decide +kernel), by decide +kernel⟩, ⟨(good_rests running_rests).1, by decide +kernel⟩,
    ⟨good_of (by decide +kernel), by decide +kernel⟩, ⟨good_of (by decide +kernel), by decide +kernel⟩,
    ⟨good_of (by decide +kernel), by decide +kernel⟩, ⟨good_of (by decide +kernel), by decide +kernel⟩, by decide +kernel,
    by decide +kernel⟩

/-- Each end has chosen nothing yet, serves two stations, and may have a reprobe due or a poll to make. -/
def walking (last : Option Nat) (due : List Nat) (committed : Option Exchange) : State :=
  let s := (part 4 1 .run).setStation 1 { StationRec.reset .west with restorePending := true }
  let p : Poller := { Poller.reset with last := last, due := due, committed := committed }
  { s with link.west := p, link.east := p }

/-- The walk of either end from each place, a poll still to be made, and a reprobe that is due. -/
theorem witness_gantryWalk :
    (walking none [] none).nextExchange .west = some ⟨0, false⟩ ∧
    (walking none [] none).nextExchange .east = some ⟨3, false⟩ ∧
    (walking (some 0) [] none).nextExchange .west = some ⟨1, false⟩ ∧
    (walking (some 3) [] none).nextExchange .east = some ⟨2, false⟩ ∧
    (walking (some 1) [] none).nextExchange .west = some ⟨0, false⟩ ∧
    (walking (some 2) [] none).nextExchange .east = some ⟨3, false⟩ ∧
    (walking (some 0) [] (some ⟨0, false⟩)).nextExchange .west = some ⟨0, false⟩ ∧
    (walking (some 0) [3, 2] none).nextExchange .east = some ⟨3, true⟩ ∧
    (walking (some 0) [] (some ⟨3, false⟩)).nextExchange .west = some ⟨1, false⟩ ∧
    ((walking none [] none).station 1).current = .west ∧ ((walking none [] none).station 2).current = .east := by
  decide +kernel

def cutHome : State := settled (running.setStation 2 (cutRec 0))
def cutAway : State := settled (running.setStation 2 { cutRec 0 with current := .west })
def rerouted : State := settled (running.setStation 2 (reroutedRec 0))
theorem cutHome_rests : rests cutHome = true := by decide +kernel
theorem cutAway_rests : rests cutAway = true := by decide +kernel

/-- The west end serves no station and is at rest. -/
def westIdle : State := settled { westEmpty with link.west := { Poller.reset with last := some 0 } }

theorem witness_reprobeAndRestore :
    (rerouted.Good ∧ rerouted.live = true ∧ 2 < rerouted.n ∧ (rerouted.station 2).state = .rerouted ∧
      rerouted.reprobing 2 = false ∧ (rerouted.poller (homeEnd rerouted.n 2)).sending.isSome = true) ∧
    (westIdle.Good ∧ westIdle.live = true ∧ (westIdle.station 0).state = .rerouted ∧ westIdle.reprobing 0 = false ∧
      (westIdle.poller .west).sending = none ∧ ∀ j, j < westIdle.n → (westIdle.station j).current ≠ homeEnd westIdle.n 0) ∧
    (Meets running 52 [2] fun s => 2 < s.n ∧ (s.station 2).state ≠ .cut) ∧
    (Meets cutHome 52 [2] fun s => 2 < s.n ∧ (s.station 2).state = .cut ∧ (s.station 2).current = homeEnd s.n 2) ∧
    (Meets cutAway 52 [2] fun s => (s.station 2).state = .cut ∧ (s.station 2).current ≠ homeEnd s.n 2) :=
  ⟨⟨good_of (by decide +kernel), by decide +kernel⟩, ⟨good_of (by decide +kernel), by decide +kernel⟩,
    meets running_rests (by decide +kernel), meets cutHome_rests (by decide +kernel), meets cutAway_rests (by decide +kernel)⟩

/-! ### Witnesses: the Time Base and the flags -/

def following (s : LineState) : State :=
  settled { running with
    config.records.tunnel.role := .follower, time.line := s
    time.lossTimer := if s = .following then some 1500 else none }

theorem witness_flashPhase :
    (running.Good ∧ running.live = true ∧ running.time.halfTimer.isSome = true ∧ running.time.line = .driving ∧
      2 ≤ running.n) ∧
    (State.reset.Good ∧ State.reset.time.halfTimer.isSome = true ∧ State.reset.time.line = .notDriven ∧ State.reset.n < 2) ∧
    ((following .following).Good ∧ (following .following).time.line = .following ∧
      (following .following).time.phase = true) ∧
    ((following .freeRunning).Good ∧ (following .freeRunning).time.line = .freeRunning) :=
  ⟨⟨(good_rests running_rests).1, by decide +kernel⟩, ⟨(good_rests reset_rests).1, by decide +kernel⟩,
    ⟨good_of (by decide +kernel), by decide +kernel⟩, ⟨good_of (by decide +kernel), by decide +kernel⟩⟩

/-- A part whose clock stands a second before midnight on Sunday, with two entries of the schedule for Monday 00:00. -/
def scheduled (s : State) (silent : Bool) : State :=
  settled { planned s with
    time.clock := some ⟨7, 23, 59, 59⟩, time.secondTimer := some 1
    time.schedule := (defaultSchedule.set 0 (some ⟨1#8, 0, 0, 8⟩)).set 23 (some ⟨127#8, 0, 0, 1⟩)
    attn.active := if silent then 1 <<< 18 else 0 }

/-- R63: the plan of a firing clashes with a HOST task, would not fit, and is applied. -/
theorem witness_scheduledPlan :
    (scheduled (held .shut [task 4 (.opn .a)]) false).PlanClashes
      ((scheduled (held .shut [task 4 (.opn .a)]) false).expandPlan .schedule 1) 4 ∧
    ((scheduled (held .shut eight) false).hostTasks.length = 8 ∧
      ((scheduled (held .shut eight) false).expandPlan .schedule 1).length = 1 ∧
      ∀ t ∈ (scheduled (held .shut eight) false).expandPlan .schedule 1,
        ∀ u ∈ (scheduled (held .shut eight) false).hostTasks, u.lane ≠ t.lane) ∧
    ((scheduled (held .shut []) false).Good ∧ (scheduled (held .shut []) false).hostTasks = [] ∧
      ((scheduled (held .shut []) false).expandPlan .schedule 1).length = 1) :=
  ⟨by unfold State.PlanClashes; decide +kernel, by decide +kernel, good_of (by decide +kernel), by decide +kernel⟩

/-- The part with its two entries, the second in a schedule of one or of three. -/
def rescheduled (n : Nat) : State :=
  let s := scheduled runBoth false
  { s with
    time.schedule :=
      if n = 1 then s.time.schedule.set 0 none else s.time.schedule.set 11 (some ⟨1#8, 0, 0, 2⟩) }

/-- The flags of a kind after the second timer's expiry: latched, then repeat. -/
def scheduleFlags (s : State) (k : AttnKind) : Option (Bool × Bool) :=
  match exec .secondTimerExpiry s with
  | .next t => some (hasFlag t.attn.latched k, hasFlag t.attn.rep k)
  | _ => none

/-- R178, R179: with 1, 2 and 3 entries for the minute, the candidate fires, and is held back by host silence. -/
theorem test_schedule_raisings :
    ([rescheduled 1, scheduled runBoth false, rescheduled 3, scheduled runBoth true].map fun s =>
        (scheduleFlags s .scheduleNotApplied, scheduleFlags s .scheduleFired)) =
      [(some (false, false), some (true, false)), (some (true, false), some (true, false)),
        (some (true, true), some (true, false)), (some (true, true), some (false, false))] := by decide +kernel

theorem witness_secondTimer :
    (clocked.Good ∧ clocked.live = true ∧ clocked.time.clock = some ⟨7, 23, 59, 58⟩ ∧
      (Time.next ⟨7, 23, 59, 58⟩).second ≠ 0) ∧
    ((scheduled standby false).Good ∧ (scheduled standby false).time.clock = some ⟨7, 23, 59, 59⟩ ∧
      (Time.next ⟨7, 23, 59, 59⟩) = ⟨1, 0, 0, 0⟩ ∧ (scheduled standby false).config.mode = .standby) ∧
    ((scheduled runBoth false).Good ∧ (scheduled runBoth false).config.mode = .run ∧
      (scheduled runBoth false).time.schedule[0]? = some (some ⟨1#8, 0, 0, 8⟩) ∧
      (scheduled runBoth false).time.schedule[23]? = some (some ⟨127#8, 0, 0, 1⟩) ∧
      (1#8).getLsbD 0 = true ∧ (127#8).getLsbD 0 = true ∧
      hasFlag (scheduled runBoth false).attn.active .hostSilent = false) ∧
    ((scheduled runBoth true).Good ∧ hasFlag (scheduled runBoth true).attn.active .hostSilent = true ∧
      (scheduled runBoth true).config.records.tunnel.autoSchedule = false) ∧
    ((rescheduled 1).Good ∧ (∀ i, i < 23 → (rescheduled 1).time.schedule[i]? = some none) ∧
      (rescheduled 3).Good ∧ (rescheduled 3).time.schedule[11]? = some (some ⟨1#8, 0, 0, 2⟩)) ∧
    ((scheduled (held .shut [task 4 (.opn .a)]) false).Good ∧
      ((scheduled (held .shut eight) false).Good ∧ (scheduled (held .shut eight) false).config.mode = .run)) :=
  ⟨⟨(good_rests clocked_rests).1, by decide +kernel⟩, ⟨good_of (by decide +kernel), by decide +kernel⟩,
    ⟨good_of (by decide +kernel), by decide +kernel⟩, ⟨good_of (by decide +kernel), by decide +kernel⟩,
    ⟨good_of (by decide +kernel), by decide +kernel, good_of (by decide +kernel), by decide +kernel⟩,
    good_of (by decide +kernel), good_of (by decide +kernel), by decide +kernel⟩

theorem witness_clockScheduleAndFlags :
    (∀ b ∈ [[0, 24, 60, 60], [7, 24, 0, 0], [1, 23, 60, 0], [1, 23, 59, 60], [7, 23, 59, 59], [1, 0, 0, 0]],
      Meets running 57 b fun _ => True) ∧
    (∀ b ∈ [[24, 0, 1, 0, 0, 1], [23, 2, 1, 0, 0, 1], [0, 0, 0, 0, 0, 1], [0, 0, 128, 0, 0, 1], [0, 0, 127, 24, 0, 1],
        [0, 0, 127, 23, 60, 1], [0, 0, 127, 23, 59, 0], [0, 0, 127, 23, 59, 8], [23, 1, 0, 24, 60, 9]],
      Meets running 59 b fun _ => True) ∧
    (∀ b ∈ [[255, 255, 63], [0, 0, 64], [0, 0, 0]], Meets running 64 b fun _ => True) ∧
    (∀ b ∈ [[255, 255, 63], [0, 0, 64], [0, 0, 0]], Meets running 65 b fun _ => True) :=
  ⟨fun _ _ => meets running_rests trivial, fun _ _ => meets running_rests trivial, fun _ _ => meets running_rests trivial,
    fun _ _ => meets running_rests trivial⟩

/-! ### One step each -/

/-- R164, R19: an unconfigured part polls no station, and RESTART is answered. -/
theorem test_reset_sends_nothing : State.reset.link.west.sending = none ∧ State.reset.n = 0 := by decide

/-- R28: the front of a closing sweep advances by one. -/
theorem test_front_advances :
    (match (nextState (exec (.closingStepExpiry 0) (closing 1))).lane 0 with
      | ⟨.closing .a 2 .slow _, some 8000, false, none⟩ => true
      | _ => false) = true := by decide +kernel

/-- R29: at the exit the lane enters CLEARANCE for the clearance minimum, 120 s by default. -/
theorem test_clearance_begins :
    (match (nextState (exec (.closingStepExpiry 0) (closing 2))).lane 0 with
      | ⟨.clearance .a false false _, some 120000, false, none⟩ => true
      | _ => false) = true := by decide +kernel

/-- R156: the third miss in a row takes an ONLINE station to its other end, REROUTED, for a 30 s reprobe. -/
theorem test_third_miss :
    (let r := (nextState (exec (.pollTimeout .east) (asking (onlineRec 2) .east false))).station 2
     r.state = .rerouted ∧ r.current = .west ∧ r.reprobe = some 30000) := by decide +kernel

/-- R158, R193: a REROUTED station's third miss makes it LOST, and ALERT rises. -/
theorem test_station_lost :
    (let t := nextState (exec (.pollTimeout .west) (asking (reroutedRec 2) .west false))
     (t.station 2).state = .lost ∧ t.attn.alert = true) := by decide +kernel

/-- R26, R41: CLOSE-NOW on the lane a closing sweep merges toward turns the merge aspect into SLOW. -/
theorem test_merge_becomes_slow :
    (match ((nextState (exec (.closeNow 7 [0]) (slotted merging (commandFrame 26 7 [0])))).lane 1).phase with
      | .closing .a 0 .slow _ => true
      | _ => false) = true := by decide +kernel

/-- R197, R185: a command of a lane outside the section gets reply KIND 148, status BAD_FIELD (18), FREE 4, offset 0. -/
theorem test_bad_field_reply :
    (nextState (exec (.closeLane 7 [2]) (slotted { running with host.tx := none } (commandFrame 20 7 [2])))).host.tx =
      some ⟨148, 7, [18, 4, 0, 0]⟩ := by decide +kernel

/-- R180: an UNSET clock fires nothing; R174: Sunday's last second is followed by Monday's first. -/
theorem test_week_wraps : Time.next ⟨7, 23, 59, 59⟩ = ⟨1, 0, 0, 0⟩ := by decide

/-- R167: the phase toggles, and both ends are to be told of it. -/
theorem test_phase_toggles :
    (let t := nextState (exec .halfPeriodExpiry running)
     t.time.phase = false ∧ t.link.west.phasePending = true ∧ t.link.east.phasePending = true) := by decide +kernel

/-- R88, R91: the entry whose hold runs out with a millisecond leaves the table in that step; the other keeps on counting. -/
theorem test_hold_runs_out :
    ((nextState (step timed)).resolver.overrides.map fun o => (o.head, o.hold)) = [(⟨1, 1, .b⟩, 14399999)] := by decide +kernel

/-- R167, log entry 3: the half-period timer toggles the phase in the step that brings it to 0. -/
theorem test_half_period_runs_out :
    (let t := nextState (step nearEnd)
     t.time.phase = false ∧ t.time.halfTimer = some 500) := by decide +kernel

/-- R108, R110: new default dim levels empty the accumulators of the zones they change, and no others. -/
theorem test_new_dim_levels_empty :
    (let t := nextState (exec (.setTunnel 7 (tunnelBody 3 2 0 0)) (slotted dimmed (commandFrame 1 7 (tunnelBody 3 2 0 0))))
     (t.string (stringKey ⟨0, 1, .a⟩ 3)).acc = .empty ∧ (t.string (stringKey ⟨1, 0, .b⟩ 2)).acc.count = 2) := by
  decide +kernel

/-- R169: FLASH_SYNC carries the phase while the part drives it, and is not driven otherwise. -/
theorem test_flash_sync_level :
    running.flashSyncOut = some true ∧ (nextState (exec .halfPeriodExpiry running)).flashSyncOut = some false ∧
      followed.flashSyncOut = none := by decide +kernel

/-- R152: an end that serves no station holds a reprobe that becomes due back until a station joins it. -/
theorem test_empty_list_sends_no_reprobe :
    (let t := nextState (exec (.reprobeTimerExpiry 0) westIdle)
     (t.poller .west).due = [0] ∧ (t.poller .west).sending = none ∧ (t.poller .west).exchange = none) := by decide +kernel

/-- R157: a reprobe whose RESTORE frame went ahead is dropped when the station leaves REROUTED. -/
theorem test_committed_reprobe_dropped :
    (({ Poller.reset with due := [2, 3], committed := some ⟨2, true⟩ } : Poller).withoutReprobe 2) =
      { Poller.reset with due := [3] } := by decide

end Sys2Proof.Tests
end

