-- ==== Sys2Proof/Proofs/QuietEvents.lean ====
section
/-! PROOFS. Events that leave the resolver, the conditions and the pollers nothing to do. -/

namespace Sys2Proof.Machine

/-! ### Events that leave the resolver, the conditions and the pollers nothing to do -/

/-- An end whose poller chooses nothing is at rest (R153). -/
theorem State.Rests.of_drive {s : State} {e : LinkEnd} (h : s.drivePoller e = s) : s.Rests e := by
  have hr := s.drivePoller_rests e
  rwa [h] at hr

theorem SameDemands.trans {s u v : State} (h : SameDemands s u) (k : SameDemands u v) : SameDemands s v :=
  ⟨k.n.trans h.n, k.l.trans h.l, k.mode.trans h.mode, fun l f pos => (k.lane l f pos).trans (h.lane l f pos),
    fun r => (k.override r).trans (h.override r), fun r => (k.lampTest r).trans (h.lampTest r),
    fun i => (k.station i).trans (h.station i), fun r => (k.condition r).trans (h.condition r),
    fun r i => (k.fault r i).trans (h.fault r i)⟩

/-- An event leaves alone all that the resolver, the owners of conditions, the pollers and ALERT read. -/
structure Quiet (s u : State) : Prop where
  demands : SameDemands s u
  heads : u.resolver.heads = s.resolver.heads
  link : u.link = s.link
  line : u.time.line = s.time.line
  active : u.attn.active = s.attn.active
  alert : u.attn.alert = s.attn.alert
  level : alertLevel u.attn = alertLevel s.attn
  window : u.anyWindow = s.anyWindow
  stringFault : u.anyStringFault = s.anyStringFault
  headFault : u.anyHeadFault = s.anyHeadFault

namespace Quiet

variable {s u : State}

theorem refl (s : State) : Quiet s s := ⟨.refl s, rfl, rfl, rfl, rfl, rfl, rfl, rfl, rfl, rfl⟩

/-- What only the Host Link Port, the store, the Signature Table, the plans or the time record differ in is quiet. -/
theorem of_same (hr : u.config.records.tunnel = s.config.records.tunnel) (hm : u.config.mode = s.config.mode)
    (hl : u.engine.lanes = s.engine.lanes) (hv : u.resolver = s.resolver) (hp : u.lamps = s.lamps)
    (hk : u.link = s.link) (ht : u.time.line = s.time.line) (ha : u.attn = s.attn) : Quiet s u := by
  have hn : u.n = s.n := by unfold State.n; rw [hr]
  have hL : u.l = s.l := by unfold State.l; rw [hr]
  refine ⟨⟨hn, hL, hm, ?_, ?_, ?_, ?_, ?_, ?_⟩, by rw [hv], hk, ht, by rw [ha], by rw [ha], by rw [ha], ?_, ?_, ?_⟩
  · intro l f pos; unfold State.lane; rw [hl]
  · intro h; unfold State.overrideOf; rw [hv]
  · intro h; unfold State.lampTestDemand; rw [hv, hm]
  · intro k; unfold State.station; rw [hk]
  · intro h; unfold State.proving; rw [hp]
  · intro h i; unfold State.faulty State.string; rw [hp]
  · unfold State.anyWindow State.laneNumbers State.lane; rw [hL, hl]
  · unfold State.anyStringFault State.stringKeyIn State.headKeyIn; rw [hp, hn, hL]
  · unfold State.anyHeadFault State.headKeyIn; rw [hp, hn, hL]

theorem trans {v : State} (q : Quiet s u) (r : Quiet u v) : Quiet s v :=
  ⟨q.demands.trans r.demands, r.heads.trans q.heads, r.link.trans q.link, r.line.trans q.line, r.active.trans q.active,
    r.alert.trans q.alert, r.level.trans q.level, r.window.trans q.window, r.stringFault.trans q.stringFault,
    r.headFault.trans q.headFault⟩

theorem station (q : Quiet s u) (k : Nat) : u.station k = s.station k := by unfold State.station; rw [q.link]

theorem poller (q : Quiet s u) (e : LinkEnd) : u.poller e = s.poller e := by unfold State.poller; rw [q.link]

/-- After a quiet event the owners of conditions have nothing to report. -/
theorem conditions (q : Quiet s u) (hs : s.Settled) : u.reportConditions = u := by
  refine State.reportConditions_again q.window q.stringFault q.headFault q.heads (fun st => ?_) q.line ?_
  · unfold State.anyStation State.stationNumbers; simp only [q.demands.n, q.station]
  · rw [hs.conditions, q.active]

/-- After a quiet event the pollers have nothing to choose. -/
theorem drivePoller (q : Quiet s u) {e : LinkEnd} (hs : s.drivePoller e = s) : u.drivePoller e = u :=
  ((State.Rests.of_drive hs).congr q.demands.n (q.poller e) (fun k => by rw [q.station]) fun k => by
    rw [q.station]).drive

theorem alertLevel (q : Quiet s u) (hs : s.Settled) : u.attn.alert = alertLevel u.attn := by
  rw [q.alert, q.level, hs.alert]

/-- A quiet event ends with the transmitter's choice. -/
theorem settle (q : Quiet s u) (hs : s.Settled) : settle s u = u.driveTransmitter := by
  rw [settle_same hs q.demands q.heads (q.conditions hs) (q.drivePoller hs.west) (q.drivePoller hs.east)]
  refine State.driveAlert_of ?_
  rw [driveTransmitter_attn]
  exact q.alertLevel hs

/-- A command whose effect is quiet ends with its reply. -/
theorem settle_complete (q : Quiet s u) (hs : s.Settled) (f : HostFrame) (r : Reply) :
    Machine.settle s (u.complete f r) = u.sent f r :=
  Machine.settle_complete f r hs q.demands q.heads (q.conditions hs) (q.drivePoller hs.west) (q.drivePoller hs.east)
    (q.alertLevel hs)

end Quiet

/-! ### The tables of a good state -/

theorem State.Good.strings_wf {s : State} (h : s.Good) : Tab.wf StringRec.reset s.lamps.strings = true := by
  obtain ⟨⟨-, -, hstrings, -⟩, -⟩ := h.tables
  exact hstrings

theorem State.Good.lanes_wf {s : State} (h : s.Good) : Tab.wf LaneRec.reset s.engine.lanes = true := by
  obtain ⟨⟨hlanes, -⟩, -⟩ := h.tables
  exact hlanes

theorem State.Good.idents_wf {s : State} (h : s.Good) : Tab.wf none s.sigs.idents = true := by
  obtain ⟨-, ⟨-, hidents, -⟩, -⟩ := h.tables
  exact hidents

/-! ### Changes of string records that leave FAULT alone -/

/-- A test that a change of records respects, and that unlisted records fail, finds the same after the change. -/
theorem Tab.any_mapWhere {α : Type} [DecidableEq α] {d : α} (t : Tab α) (p : Nat → Bool) {f : α → α}
    {q : Nat × α → Bool} (hf : ∀ k v, q (k, f v) = q (k, v)) (hd : ∀ k, q (k, d) = false) :
    (Tab.mapWhere d p f t).any q = t.any q := by
  induction t with
  | nil => rfl
  | cons e t ih =>
    obtain ⟨k, v⟩ := e
    unfold Tab.mapWhere
    split
    · split
      · rename_i hv
        have hq : q (k, v) = false := by rw [← hf, hv, hd]
        rw [ih, List.any_cons, hq, Bool.false_or]
      · rw [List.any_cons, List.any_cons, ih, hf]
    · rw [List.any_cons, List.any_cons, ih]

/-- A change of string records by which none enters or leaves FAULT is quiet. -/
theorem Quiet.mapStrings (s : State) (p : Nat → Bool) {f : StringRec → StringRec} (hf : f .reset = .reset)
    (hk : ∀ r, (f r).state = .fault ↔ r.state = .fault) (hw : Tab.wf StringRec.reset s.lamps.strings = true) :
    Quiet s (s.mapStrings p f) := by
  have hb : ∀ r, ((f r).state == .fault) = (r.state == .fault) := fun r => by
    rw [Bool.eq_iff_iff, beq_iff_eq, beq_iff_eq]; exact hk r
  refine ⟨⟨rfl, rfl, rfl, fun _ _ _ => rfl, fun _ => rfl, fun _ => rfl, fun _ => rfl, fun _ => rfl, fun h i => ?_⟩,
    rfl, rfl, rfl, rfl, rfl, rfl, rfl, ?_, rfl⟩
  · unfold State.faulty
    rw [s.mapStrings_string p f hf _ hw]
    split
    · exact hb _
    · rfl
  · exact Tab.any_mapWhere _ p (fun k v => by rw [hb]) fun k => by rw [Bool.and_eq_false_iff]; exact .inr rfl

/-- Emptying accumulators is quiet. -/
theorem Quiet.emptyAccs (s : State) (p : Nat → Bool) (hw : Tab.wf StringRec.reset s.lamps.strings = true) :
    Quiet s (s.emptyAccs p) := .mapStrings s p rfl (fun _ => Iff.rfl) hw

/-! ### The transmitter's choice -/

/-- The transmitter writes what it sends, the replies and the pending-notice marker (R186). -/
theorem State.driveTransmitter_port (u : State) :
    u.driveTransmitter.host =
      { u.host with
        replies := u.driveTransmitter.host.replies, tx := u.driveTransmitter.host.tx
        noticePending := u.driveTransmitter.host.noticePending } := by
  unfold State.driveTransmitter
  split
  · rfl
  · rfl
  · split
    · split <;> rfl
    · rfl

/-- While a reply is queued the transmitter's choice keeps what the host has yet to receive (R186). -/
theorem State.driveTransmitter_outgoing {u : State} (h : u.host.replies ≠ []) :
    u.driveTransmitter.host.outgoing = u.host.outgoing := by
  unfold State.driveTransmitter
  split
  · rfl
  · rename_i r rest htx hr; simp [HostPort.outgoing, htx, hr]
  · contradiction

/-- Where the transmitter has nothing to choose, it has nothing to choose in any state with the same line and flags. -/
theorem State.driveTransmitter_of_same {s u : State} (hs : s.driveTransmitter = s) (ht : u.host.tx = s.host.tx)
    (hr : u.host.replies = s.host.replies) (hp : u.host.noticePending = s.host.noticePending) :
    u.driveTransmitter = u := by
  unfold State.driveTransmitter at hs ⊢
  rw [ht, hr, hp]
  split at hs
  · rfl
  · rename_i r rest _ hrep
    have := congrArg (·.host.replies) hs
    simp [hrep] at this
  · split at hs
    · rename_i hpend
      have := congrArg (·.host.noticePending) hs
      split at this <;> simp [hpend] at this
    · simp_all

/-! ### A command that has completed -/

/-- A reply that joined the replies of a port as another left it has joined those of that other (R184, R186). -/
theorem State.replied_driveTransmitter {s u : State} {f : HostFrame} {r : Reply} (hs : u.host.slots = s.host.slots.tail)
    (ht : u.host.tx = s.host.tx)
    (hr : u.host.replies = s.host.replies ++
      [⟨replyKind f.kind, f.tag, octet r.status :: octet (4 - s.host.slots.tail.length) :: r.body⟩]) :
    s.Replied u.driveTransmitter f r.status r.body := by
  refine ⟨by rw [State.driveTransmitter_port, hs], ?_⟩
  rw [State.driveTransmitter_outgoing (by simp [hr])]
  simp [HostPort.outgoing, ht, hr]

theorem State.replied_sent {s u : State} (hu : u.host = s.host) (f : HostFrame) (r : Reply) :
    s.Replied (u.sent f r) f r.status r.body :=
  State.replied_driveTransmitter (by simp [hu]) (by simp [hu])
    (by simp [hu, State.replyTo, State.free, State.releaseSlot, Config.slotCount])

theorem State.keepsPort_sent {s u : State} (hu : u.host = s.host) (f : HostFrame) (r : Reply) :
    s.KeepsPort (u.sent f r) := by
  unfold State.KeepsPort State.sent
  rw [State.driveTransmitter_port, State.complete_host]
  simp [State.complete, State.releaseSlot, hu]

theorem State.sent_frame (u : State) (f : HostFrame) (r : Reply) : u.sent f r = { u with host := (u.sent f r).host } := by
  unfold State.sent
  rw [State.driveTransmitter_host]
  rfl

/-! ### Commands -/

theorem State.takes.settled {s : State} {f : HostFrame} (h : s.takes f) : s.Settled := h.1.settled h.2.1

section Commands

variable {kind len : Nat} {modes : Modes} {act : State → List Octet → CmdResult} {tag : Octet} {body : List Octet}
  {s : State}

/-- A command whose own act is quiet completes with its reply. -/
theorem runCommand_of_quiet (ht : s.takes (commandFrame kind tag body)) (hlen : body.length = len)
    (hm : modes.accept s.config.mode = true) {u : State} {r : Reply} (ha : act s body = ⟨u, r⟩) (q : Quiet s u) :
    runCommand kind len modes act tag body s = .next (u.sent (commandFrame kind tag body) r) := by
  rw [runCommand_taken ht.2.1 ht.2.2 hlen hm, ha]
  exact congrArg _ (q.settle_complete ht.settled _ r)

/-- A command that its own act answers without an effect. -/
theorem runCommand_replies (ht : s.takes (commandFrame kind tag body)) (hlen : body.length = len)
    (hm : modes.accept s.config.mode = true) {r : Reply} (ha : act s body = ⟨s, r⟩) :
    runCommand kind len modes act tag body s = s.replies (commandFrame kind tag body) r.status r.body :=
  runCommand_of_quiet ht hlen hm ha (.refl s)

/-- What `answers` says of a row that runs a command, from its own act. -/
theorem answers_of {row : Octet → List Octet → Instr} {status : Nat} {reply : List Octet}
    (hrow : ∀ tag, exec (row tag body) s = runCommand kind len modes act tag body s) (hlen : body.length = len)
    (hm : modes.accept s.config.mode = true) (ha : act s body = ⟨s, ⟨status, reply⟩⟩) :
    s.answers row kind body status reply :=
  fun tag ht => (hrow tag).trans (runCommand_replies ht hlen hm ha)

/-- What `performs` says of a row that runs a command with a quiet effect, which leaves the Host Link Port to the reply. -/
theorem performs_of_quiet {row : Octet → List Octet → Instr} {status : Nat} {reply : List Octet} {p : State → Prop}
    {u : State} (hrow : ∀ tag, exec (row tag body) s = runCommand kind len modes act tag body s) (hlen : body.length = len)
    (hm : modes.accept s.config.mode = true) (ha : act s body = ⟨u, ⟨status, reply⟩⟩) (q : s.Good → Quiet s u)
    (hu : u.host = s.host) (hp : s.Good → ∀ port, s.KeepsPort { u with host := port } → p { u with host := port }) :
    s.performs row kind body status reply p := fun tag ht =>
  ⟨_, (hrow tag).trans (runCommand_of_quiet ht hlen hm ha (q ht.1)), State.replied_sent hu _ ⟨status, reply⟩,
    State.sent_frame u _ _ ▸ hp ht.1 _ (State.sent_frame u _ _ ▸ State.keepsPort_sent hu _ _)⟩

end Commands

/-! ### Structural fields -/

theorem firstBad_cons (c : Bool) (o : Nat) (rest : List (Bool × Nat)) :
    firstBad ((c, o) :: rest) = if c = true then firstBad rest else some o := rfl

@[simp] theorem firstBad_nil : firstBad [] = none := rfl

@[simp] theorem okPlan_iff (n : Nat) : okPlan n = true ↔ 1 ≤ n ∧ n ≤ 8 := by
  rw [okPlan, Bool.and_eq_true, decide_eq_true_eq, decide_eq_true_eq]
  rfl
@[simp] theorem okBit_iff (n : Nat) : okBit n = true ↔ n < 2 := by simp [okBit]
@[simp] theorem State.okLane_iff (s : State) (n : Nat) : s.okLane n = true ↔ n < s.l := by simp [State.okLane]
@[simp] theorem State.okStation_iff (s : State) (n : Nat) : s.okStation n = true ↔ n < s.n := by simp [State.okStation]

@[simp] theorem oct_cons_zero (a : Octet) (b : List Octet) : oct (a :: b) 0 = a.toNat := rfl
@[simp] theorem oct_cons_succ (a : Octet) (b : List Octet) (i : Nat) : oct (a :: b) (i + 1) = oct b i := by
  simp [oct]

theorem withFields_bad {s : State} {tests : List (Bool × Nat)} {act : CmdResult} {o : Nat}
    (h : firstBad tests = some o) : withFields s tests act = badField s o := by simp [withFields, h]

theorem withFields_good {s : State} {tests : List (Bool × Nat)} {act : CmdResult} (h : firstBad tests = none) :
    withFields s tests act = act := by simp [withFields, h]

end Sys2Proof.Machine
end

