-- ==== Sys2Proof/Proofs/ConfigReads.lean ====
section
/-! PROOFS. The reads of configuration, engine, resolver and Time Base (O23). -/

namespace Sys2Proof.Machine

/-! ### The reads of configuration, engine, resolver and Time Base -/

variable {s : State} {kind : Nat} {status : Nat} {reply : List Octet}

/-- What `answers` says of a read: a command of either mode that runs without an effect. -/
theorem answers_of_read {row : Octet → List Octet → Instr} {len : Nat} {act : State → List Octet → CmdResult}
    {b : List Octet} (hrow : ∀ tag, exec (row tag b) s = runCommand kind len .both act tag b s) (hlen : b.length = len)
    (ha : act s b = ⟨s, ⟨status, reply⟩⟩) : s.answers row kind b status reply :=
  answers_of hrow hlen rfl ha

@[simp] theorem flatMap_o1 (ns : List Nat) : ns.flatMap o1 = ns.map octet := by
  rw [List.map_eq_flatMap]
  rfl

theorem answers_getLane (lane : Octet) (h : lane.toNat < s.l) :
    match s.laneCfg lane.toNat with
    | none => s.answers .getLane 4 [lane] 22 [0, 0]
    | some c =>
      s.answers .getLane 4 [lane] 0
        ([octet c.kind.code, octet c.merge.code, octet c.clearance.code] ++ laneStatusOctets (s.lane lane.toNat)) := by
  have hf : firstBad [(s.okLane lane.toNat, 0)] = none := by simp [firstBad_cons, h]
  split <;> rename_i hc <;> refine answers_of_read (fun _ => rfl) rfl ?_ <;>
    simp only [actGetLane, oct_cons_zero, withFields_good hf, hc] <;> rfl

theorem answers_getStation (k : Octet) (h : k.toNat < s.n) :
    match s.stationCfg k.toNat with
    | none => s.answers .getStation 6 [k] 22 [0, 0]
    | some c => s.answers .getStation 6 [k] 0 ([octet c.zone] ++ flagOctets c.learn) := by
  have hf : firstBad [(s.okStation k.toNat, 0)] = none := by simp [firstBad_cons, h]
  split <;> rename_i hc <;> refine answers_of_read (fun _ => rfl) rfl ?_ <;>
    simp only [actGetStation, oct_cons_zero, withFields_good hf, hc] <;> rfl

theorem answers_getPlan (id : Octet) (h1 : 1 ≤ id.toNat) (h8 : id.toNat ≤ 8) :
    s.answers .getPlan 29 [id] 0 ((s.engine.plans.getD (id.toNat - 1) keepPlan).map fun t => octet t.code) := by
  have hf : firstBad [(okPlan id.toNat, 0)] = none := by simp [firstBad_cons, h1, h8]
  refine answers_of_read (fun _ => rfl) rfl ?_
  simp only [actGetPlan, oct_cons_zero, withFields_good hf, okWith, List.map_eq_flatMap]
  rfl

theorem answers_getPlan_bad (id : Octet) (h : id.toNat = 0 ∨ 8 < id.toNat) : s.answers .getPlan 29 [id] 18 [0, 0] := by
  have hf : firstBad [(okPlan id.toNat, 0)] = some 0 := by
    rw [firstBad_cons, if_neg (by rw [okPlan_iff]; omega)]
  refine answers_of_read (fun _ => rfl) rfl ?_
  rw [actGetPlan, oct_cons_zero, withFields_bad hf]
  rfl

theorem answers_getHeads (k : Octet) (h : k.toNat < s.n) :
    s.answers .getHeads 32 [k] 0
      (counted (fun p => headRecOctets p.1 p.2)
        ((stationHeads s.l k.toNat).filterMap fun h => (s.headRec h).map fun r => (r, s.displayed h))) := by
  have hf : firstBad [(s.okStation k.toNat, 0)] = none := by simp [firstBad_cons, h]
  refine answers_of_read (fun _ => rfl) rfl ?_
  rw [actGetHeads, oct_cons_zero, withFields_good hf]
  rfl

theorem roleOctet (r : Role) : o1 r.code = [if r = .master then 0#8 else 1#8] := by cases r <;> rfl

theorem modeOctet (m : Mode) : o1 m.code = [if m = .run then 1#8 else 0#8] := by cases m <;> rfl

/-- Settles O23: each read's own act answers with its record and the state it was given. -/
theorem configEngineAndTimeReads : Obligations.ConfigEngineAndTimeReads := by
  intro s
  refine ⟨?tunnel, ?proving, ?duty, ?dim, ?mode, answers_getLane, answers_getStation, ?queue, answers_getPlan,
    answers_getPlan_bad, answers_getHeads, ?closures, ?overrides, ?lampTest, ?flash, ?clock, ?unset⟩
  case tunnel =>
    refine answers_of_read (fun _ => rfl) rfl ?_
    simp only [okWith, tunnelOctets, roleOctet, flatMap_o1]
    rfl
  case dim => exact answers_of_read (fun _ => rfl) rfl (by rw [flatMap_o1]; rfl)
  case mode =>
    refine answers_of_read (fun _ => rfl) rfl ?_
    simp only [okWith, modeOctets, modeOctet]
    rfl
  case flash =>
    refine answers_of_read (fun _ => rfl) rfl ?_
    simp only [okWith, roleOctet]
    rfl
  case clock =>
    intro t ht
    refine answers_of_read (fun _ => rfl) rfl ?_
    simp only [ht]
    rfl
  case unset =>
    intro ht
    refine answers_of_read (fun _ => rfl) rfl ?_
    simp only [ht]
    rfl
  all_goals exact answers_of_read (fun _ => rfl) rfl rfl

end Sys2Proof.Machine
end

