-- ==== Sys2Proof/Proofs/ConfigRecords.lean ====
section
/-! PROOFS. SET-LANE and SET-STATION (O27). -/

namespace Sys2Proof.Machine

/-! ### SET-LANE and SET-STATION -/

theorem laneKindOf_eq (n : Nat) : laneKindOf n = if n = 0 then .tidal else if n = 1 then .fixedA else .fixedB := by
  match n with
  | 0 => rfl
  | 1 => rfl
  | _ + 2 => rfl

/-- A command whose first bad structural field is at this offset is refused there, and does nothing else. -/
theorem answers_badField {s : State} {row : Octet → List Octet → Instr} {kind len : Nat} {modes : Modes}
    {act : State → List Octet → CmdResult} {b : List Octet} {tests : List (Bool × Nat)} {res : CmdResult} {offset : Nat}
    (hrow : ∀ tag, exec (row tag b) s = runCommand kind len modes act tag b s) (hlen : b.length = len)
    (hm : modes.accept s.config.mode = true) (ha : act s b = withFields s tests res)
    (hb : firstBad tests = some offset) : s.answers row kind b 18 [octet offset, 0] :=
  answers_of hrow hlen hm (by rw [ha, withFields_bad hb]; rfl)

theorem performs_setLane {s : State} {a x y z : Octet} (hm : s.config.mode = .standby) (ha : a.toNat < s.l)
    (hx : x.toNat < 3) (hy : y.toNat < 2) (hz : z.toNat < 2) :
    s.performs .setLane 3 [a, x, y, z] 0 [] fun t =>
      t = { s with config.records.lanes := t.config.records.lanes, host := t.host } ∧ s.KeepsPort t ∧
      ∀ l, t.laneCfg l =
        if l = a.toNat then some ⟨laneKindOf x.toNat, mergeOf y.toNat, clearanceOf z.toNat⟩ else s.laneCfg l := by
  have hf : firstBad [(s.okLane a.toNat, 0), (decide (x.toNat < 3), 1), (okBit y.toNat, 2), (okBit z.toNat, 3)] = none := by
    simp [firstBad_cons, ha, hx, hy, hz]
  refine performs_of_quiet (fun _ => rfl) rfl (by rw [hm]; rfl) (withFields_good hf)
    (fun _ => .of_same rfl rfl rfl rfl rfl rfl rfl rfl) rfl fun hg port hp => ⟨rfl, hp, fun l => ?_⟩
  have hw := hg.tables.2.2.1
  simp only [Records.canonical, Bool.and_eq_true] at hw
  exact Tab.get_set _ _ _ _ hw.1

/-- What an accepted SET-STATION changes (R7, R138, R140). -/
theorem State.applyStation_frame (s : State) (k : Nat) (c : StationCfg) :
    s.applyStation k c =
      { s with
        config.records.stations := (s.applyStation k c).config.records.stations
        lamps.strings := (s.applyStation k c).lamps.strings
        sigs.idents := (s.applyStation k c).sigs.idents
        sigs.unsaved := s.sigs.unsaved || (s.ident k).isSome } := by
  unfold State.applyStation
  cases (s.ident k).isSome <;> dsimp only <;> split_ifs <;> simp_all <;> rfl

theorem State.applyStation_stations (s : State) (k : Nat) (c : StationCfg) :
    (s.applyStation k c).config.records.stations = Tab.set none s.config.records.stations k (some c) := by
  unfold State.applyStation
  dsimp only
  split_ifs <;> rfl

theorem State.applyStation_strings (s : State) (k : Nat) (c : StationCfg) :
    (s.applyStation k c).lamps.strings =
      if (s.stationCfg k).map (·.zone) = some c.zone then s.lamps.strings
      else (s.emptyAccs (s.stringOfStation k)).lamps.strings := by
  unfold State.applyStation
  dsimp only
  split_ifs <;> rfl

theorem State.applyStation_ident (s : State) (k j : Nat) (c : StationCfg) (hw : Tab.wf none s.sigs.idents = true) :
    (s.applyStation k c).ident j = if j = k then none else s.ident j := by
  have hs : ∀ u : State, u.sigs.idents = s.sigs.idents →
      (if (s.ident k).isSome then (u.setIdent k none).setUnsaved else u).ident j = if j = k then none else s.ident j := by
    intro u hu
    cases hk : s.ident k with
    | none =>
      simp only [Option.isSome_none, Bool.false_eq_true, if_false]
      unfold State.ident at hk ⊢
      rw [hu]
      split
      · rename_i hj; rw [hj, hk]
      · rfl
    | some i =>
      simp only [Option.isSome_some, if_true]
      show Tab.get none (Tab.set none u.sigs.idents k none) j = _
      rw [hu, Tab.get_set _ _ _ _ hw]
      rfl
  unfold State.applyStation
  exact hs _ (by split_ifs <;> rfl)

theorem State.applyStation_string (s : State) (k key : Nat) (c : StationCfg)
    (hw : Tab.wf StringRec.reset s.lamps.strings = true) :
    (s.applyStation k c).string key =
      if (s.stationCfg k).map (·.zone) ≠ some c.zone ∧ s.stringOfStation k key = true then (s.string key).emptied
      else s.string key := by
  unfold State.string
  rw [State.applyStation_strings]
  by_cases hz : (s.stationCfg k).map (·.zone) = some c.zone
  · simp [hz]
  · simp only [hz, if_false, ne_eq, not_false_eq_true, true_and]
    exact s.emptyAccs_string _ key hw

/-- SET-STATION moves neither a demand nor a condition. -/
theorem State.applyStation_quiet (s : State) (k : Nat) (c : StationCfg)
    (hw : Tab.wf StringRec.reset s.lamps.strings = true) : Quiet s (s.applyStation k c) := by
  by_cases hz : (s.stationCfg k).map (·.zone) = some c.zone
  · rw [State.applyStation_frame, State.applyStation_strings, if_pos hz]
    exact .of_same rfl rfl rfl rfl rfl rfl rfl rfl
  · rw [State.applyStation_frame, State.applyStation_strings, if_neg hz]
    exact (Quiet.emptyAccs s _ hw).trans (.of_same rfl rfl rfl rfl rfl rfl rfl rfl)

theorem performs_setStation {s : State} {a x y : Octet} (hm : s.config.mode = .standby) (ha : a.toNat < s.n)
    (hx : x.toNat < 4) (hy : y.toNat < 2) :
    s.performs .setStation 5 [a, x, y] 0 [] fun t =>
      t = { s with
        config.records.stations := t.config.records.stations, lamps.strings := t.lamps.strings
        sigs.idents := t.sigs.idents, sigs.unsaved := s.sigs.unsaved || (s.ident a.toNat).isSome
        host := t.host } ∧ s.KeepsPort t ∧
      (∀ k, t.stationCfg k = if k = a.toNat then some ⟨x.toNat, y.toNat == 1⟩ else s.stationCfg k) ∧
      (∀ k, t.ident k = if k = a.toNat then none else s.ident k) ∧
      ∀ key, t.string key =
        if (s.stationCfg a.toNat).map (·.zone) ≠ some x.toNat ∧ s.stringOfStation a.toNat key = true then
          { s.string key with acc := Acc.empty }
        else s.string key := by
  have hf : firstBad [(s.okStation a.toNat, 0), (decide (x.toNat < 4), 1), (okBit y.toNat, 2)] = none := by
    simp [firstBad_cons, ha, hx, hy]
  refine performs_of_quiet (fun _ => rfl) rfl (by rw [hm]; rfl) (withFields_good hf)
    (fun hg => s.applyStation_quiet _ _ hg.strings_wf) ?_
    fun hg port hp => ⟨?_, hp, fun k => ?_, fun k => ?_, fun key => ?_⟩
  · show (s.applyStation _ _).host = s.host
    rw [State.applyStation_frame]
  · exact congrArg (fun u : State => { u with host := port })
      (s.applyStation_frame a.toNat ⟨x.toNat, bitOf y.toNat⟩)
  · have hw := hg.tables.2.2.1
    simp only [Records.canonical, Bool.and_eq_true] at hw
    show Tab.get none (s.applyStation a.toNat ⟨x.toNat, bitOf y.toNat⟩).config.records.stations k = _
    rw [State.applyStation_stations]
    exact Tab.get_set _ _ _ _ hw.2
  · exact s.applyStation_ident a.toNat k ⟨x.toNat, bitOf y.toNat⟩ hg.idents_wf
  · exact s.applyStation_string a.toNat key ⟨x.toNat, bitOf y.toNat⟩ hg.strings_wf

/-- Settles O27: the field checks in octet order, and the records that the accepted commands write. -/
theorem setLaneAndStation : Obligations.SetLaneAndStation := by
  intro s a x y z hm
  have hmode : Modes.standbyOnly.accept s.config.mode = true := by rw [hm]; rfl
  refine ⟨fun ha => ⟨fun hx => ?_, fun hx hy => ?_, fun hx hy hz => ?_, fun hx hy hz => ?_⟩,
    fun ha => ⟨fun hx => ?_, fun hx hy => ?_, fun hx hy => performs_setStation hm ha hx hy⟩⟩
  · exact answers_badField (fun _ => rfl) rfl hmode rfl (offset := 1) (by simp [firstBad_cons, ha, hx])
  · exact answers_badField (fun _ => rfl) rfl hmode rfl (offset := 2) (by simp [firstBad_cons, ha, hx]; omega)
  · exact answers_badField (fun _ => rfl) rfl hmode rfl (offset := 3) (by simp [firstBad_cons, ha, hx, hy]; omega)
  · have h := performs_setLane hm ha hx hy hz
    rw [laneKindOf_eq] at h
    exact h
  · exact answers_badField (fun _ => rfl) rfl hmode rfl (offset := 1) (by simp [firstBad_cons, ha, hx])
  · exact answers_badField (fun _ => rfl) rfl hmode rfl (offset := 2) (by simp [firstBad_cons, ha, hx]; omega)

end Sys2Proof.Machine
end

