-- ==== Sys2Proof/Proofs/ProvingDutyDim.lean ====
section
/-! PROOFS. SET-PROVING, SET-DUTY and SET-DIM (O28). -/

namespace Sys2Proof.Machine

variable {s : State}

/-- A reply that is CLAMPED exactly where the value written differs from the one received (R197). -/
theorem okOrClamped_ne {α : Type} [BEq α] [LawfulBEq α] [DecidableEq α] (a b : α) (u : State) (r : List Octet) :
    okOrClamped (a != b) u r = ⟨u, ⟨if a = b then 0 else 1, r⟩⟩ := by
  by_cases h : a = b <;> simp [okOrClamped, h]

/-! ### SET-PROVING -/

/-- A SUSPECT string whose fail count a lowered threshold no longer allows comes down below it; no other changes (R8). -/
theorem StringRec.rethreshold_acc (n : Nat) (r : StringRec) : (r.rethreshold n).acc = r.acc := by
  unfold StringRec.rethreshold; split_ifs <;> rfl

theorem StringRec.rethreshold_last (n : Nat) (r : StringRec) : (r.rethreshold n).last = r.last := by
  unfold StringRec.rethreshold; split_ifs <;> rfl

theorem StringRec.rethreshold_fault (n : Nat) (r : StringRec) :
    (r.rethreshold n).state = .fault ↔ r.state = .fault := by
  unfold StringRec.rethreshold
  split_ifs with h h1 <;> simp [h]

theorem StringRec.rethreshold_below {n : Nat} {r : StringRec} (h : ¬(r.state = .suspect ∧ n ≤ r.fails)) :
    r.rethreshold n = r := if_neg h

theorem StringRec.rethreshold_above {n : Nat} {r : StringRec} (hn : 1 ≤ n) (hs : r.state = .suspect) (h : n ≤ r.fails) :
    (r.rethreshold n).fails = n - 1 ∧ (r.rethreshold n).state = (if n = 1 then .unproven else .suspect) ∧
      (r.rethreshold n).proved = (if n = 1 then false else r.proved) := by
  unfold StringRec.rethreshold
  rw [if_pos ⟨hs, h⟩]
  by_cases h1 : n = 1
  · subst h1; simp
  · rw [if_neg (by omega), if_neg h1, if_neg h1]
    exact ⟨rfl, hs, rfl⟩

theorem State.applyProving_same (s : State) : s.applyProving s.config.records.proving = s := by
  unfold State.applyProving; simp

theorem State.applyProving_frame (s : State) (p : Proving) :
    s.applyProving p =
      { s with config.records.proving := p, lamps.strings := (s.applyProving p).lamps.strings } := by
  unfold State.applyProving
  dsimp only
  split_ifs with h
  · rw [h]
  · rfl
  · rfl

/-- The string records after an accepted change of the PROVING record (R8, R110). -/
theorem State.applyProving_string {p : Proving} (h : p ≠ s.config.records.proving)
    (hw : Tab.wf StringRec.reset s.lamps.strings = true) (key : Nat) :
    (s.applyProving p).string key =
      (let r := if s.stringKeyIn key = true then (s.string key).emptied else s.string key
       if p.threshold < s.config.records.proving.threshold then r.rethreshold p.threshold else r) := by
  have he := State.emptyAccs_string ({ s with config.records.proving := p } : State) s.stringKeyIn key hw
  have hw' := Tab.wf_mapWhere (d := StringRec.reset) s.stringKeyIn StringRec.emptied hw
  unfold State.applyProving
  rw [if_neg h]
  dsimp only
  split_ifs with ht hk
  · exact (State.mapStrings_string _ _ _ rfl key hw').trans (by rw [if_pos rfl, he, if_pos hk]; rfl)
  · exact (State.mapStrings_string _ _ _ rfl key hw').trans (by rw [if_pos rfl, he, if_neg hk]; rfl)
  · exact he.trans (if_pos ‹_›)
  · exact he.trans (if_neg ‹_›)

/-- SET-PROVING moves neither a demand nor a condition: no string enters or leaves FAULT. -/
theorem State.applyProving_quiet (p : Proving) (hw : Tab.wf StringRec.reset s.lamps.strings = true) :
    Quiet s (s.applyProving p) := by
  have h1 : Quiet s (({ s with config.records.proving := p } : State).emptyAccs s.stringKeyIn) :=
    Quiet.trans (u := { s with config.records.proving := p }) (.of_same rfl rfl rfl rfl rfl rfl rfl rfl)
      (.emptyAccs _ _ hw)
  unfold State.applyProving
  dsimp only
  split_ifs
  · exact .refl s
  · exact h1.trans (.mapStrings _ _ rfl (StringRec.rethreshold_fault _) (Tab.wf_mapWhere _ _ hw))
  · exact h1

theorem performs_setProving {b : List Octet} (hlen : b.length = 13) :
    s.performs .setProving 7 b (if provingOf b = provingRaw b then 0 else 1) [] fun t =>
      t = { s with config.records.proving := provingOf b, lamps.strings := t.lamps.strings, host := t.host } ∧
      s.KeepsPort t ∧ (provingOf b = s.config.records.proving → t.lamps = s.lamps) ∧
      (provingOf b ≠ s.config.records.proving → ∀ key,
        (t.string key).acc = (if s.stringKeyIn key = true then Acc.empty else (s.string key).acc) ∧
        (t.string key).last = (s.string key).last ∧
        if (s.string key).state = .suspect ∧ (provingOf b).threshold < s.config.records.proving.threshold ∧
            (provingOf b).threshold ≤ (s.string key).fails then
          (t.string key).fails = (provingOf b).threshold - 1 ∧
            (t.string key).state = (if (provingOf b).threshold = 1 then .unproven else .suspect) ∧
            (t.string key).proved = (if (provingOf b).threshold = 1 then false else (s.string key).proved)
        else
          (t.string key).state = (s.string key).state ∧ (t.string key).fails = (s.string key).fails ∧
            (t.string key).proved = (s.string key).proved) := by
  have hpos : 1 ≤ (provingOf b).threshold := Nat.le_max_left 1 _
  refine performs_of_quiet (fun _ => rfl) hlen rfl (okOrClamped_ne _ _ _ _)
    (fun hg => State.applyProving_quiet _ hg.strings_wf) (by rw [State.applyProving_frame]) fun hg port hp =>
    ⟨congrArg (fun u : State => { u with host := port }) (s.applyProving_frame (provingOf b)), hp, fun he => ?_,
      fun hne key => ?_⟩
  · show (s.applyProving (provingOf b)).lamps = s.lamps
    rw [he, State.applyProving_same]
  · have hr : (({ s.applyProving (provingOf b) with host := port } : State).string key) = _ :=
      State.applyProving_string hne hg.strings_wf key
    rw [hr]
    generalize hq : (if s.stringKeyIn key = true then (s.string key).emptied else s.string key) = q
    have hs : q.state = (s.string key).state := by rw [← hq]; split_ifs <;> rfl
    have hf : q.fails = (s.string key).fails := by rw [← hq]; split_ifs <;> rfl
    have hl : q.last = (s.string key).last := by rw [← hq]; split_ifs <;> rfl
    have hv : q.proved = (s.string key).proved := by rw [← hq]; split_ifs <;> rfl
    have ha : q.acc = if s.stringKeyIn key = true then Acc.empty else (s.string key).acc := by
      rw [← hq]; split_ifs <;> rfl
    dsimp only
    rw [← hs, ← hf, ← hl, ← hv, ← ha]
    by_cases ht : (provingOf b).threshold < s.config.records.proving.threshold
    · simp only [ht, if_true, StringRec.rethreshold_acc, StringRec.rethreshold_last, true_and]
      by_cases hc : q.state = .suspect ∧ (provingOf b).threshold ≤ q.fails
      · rw [if_pos hc]
        exact StringRec.rethreshold_above hpos hc.1 hc.2
      · rw [if_neg hc, StringRec.rethreshold_below hc]
        exact ⟨rfl, rfl, rfl⟩
    · simp [ht]

/-! ### SET-DUTY -/

theorem State.applyDuties_frame (s : State) (d : List Nat) :
    s.applyDuties d = { s with config.records.duties := d, lamps.strings := (s.applyDuties d).lamps.strings } := by
  unfold State.applyDuties
  split_ifs with h
  · rw [h]
  · rfl

theorem State.applyDuties_string (d : List Nat) (hw : Tab.wf StringRec.reset s.lamps.strings = true) (key : Nat) :
    (s.applyDuties d).string key =
      if d ≠ s.config.records.duties ∧ s.stringKeyIn key = true then (s.string key).emptied else s.string key := by
  unfold State.applyDuties
  by_cases h : d = s.config.records.duties
  · simp [h]
  · simp only [ne_eq, h, not_false_eq_true, true_and]
    exact State.emptyAccs_string ({ s with config.records.duties := d } : State) s.stringKeyIn key hw

theorem State.applyDuties_quiet (d : List Nat) (hw : Tab.wf StringRec.reset s.lamps.strings = true) :
    Quiet s (s.applyDuties d) := by
  unfold State.applyDuties
  split_ifs
  · exact .refl s
  · exact Quiet.trans (u := { s with config.records.duties := d }) (.of_same rfl rfl rfl rfl rfl rfl rfl rfl)
      (.emptyAccs _ _ hw)

theorem performs_setDuty {b : List Octet} (hlen : b.length = 16) :
    s.performs .setDuty 9 b (if dutiesOf b = dutiesRaw b then 0 else 1) [] fun t =>
      t = { s with config.records.duties := dutiesOf b, lamps.strings := t.lamps.strings, host := t.host } ∧
      s.KeepsPort t ∧ ∀ key, t.string key =
        if dutiesOf b ≠ s.config.records.duties ∧ s.stringKeyIn key = true then { s.string key with acc := Acc.empty }
        else s.string key :=
  performs_of_quiet (fun _ => rfl) hlen rfl (okOrClamped_ne _ _ _ _)
    (fun hg => State.applyDuties_quiet _ hg.strings_wf) (by rw [State.applyDuties_frame]) fun hg port hp =>
    ⟨congrArg (fun u : State => { u with host := port }) (s.applyDuties_frame (dutiesOf b)), hp,
      State.applyDuties_string (dutiesOf b) hg.strings_wf⟩

/-! ### SET-DIM -/

/-- The string records after new dim levels (R108, R110; log entry 25). -/
theorem State.emptyRelevelled_string (old : List Nat) (hw : Tab.wf StringRec.reset s.lamps.strings = true) (key : Nat) :
    (s.emptyRelevelled old).string key = if s.relevelled old key = true then (s.string key).emptied else s.string key :=
  s.emptyAccs_string _ key hw

/-- Writing one zone's level relevels the strings of that zone's stations, if the level differs (R9). -/
theorem State.relevelled_set {z v : Nat} (hz : z < s.config.dims.length) (key : Nat) :
    ({ s with config.dims := s.config.dims.set z v } : State).relevelled s.config.dims key = true ↔
      s.config.dims.getD z 0 ≠ v ∧ s.stringKeyIn key = true ∧ (s.stationCfg (key / 120)).map (·.zone) = some z := by
  have hk : ∀ c : Nat, (s.config.dims.getD c 0 ≠ (s.config.dims.set z v).getD c 0) ↔
      (s.config.dims.getD z 0 ≠ v ∧ c = z) := by
    intro c
    by_cases hc : c = z
    · subst hc; simp [hz]
    · simp [List.getD, List.getElem?_set_ne (Ne.symm hc), hc]
  unfold State.relevelled
  rw [Bool.and_eq_true]
  show s.stringKeyIn key = true ∧ ((s.stationCfg (key / 120)).any _) = true ↔ _
  cases hs : s.stationCfg (key / 120) with
  | none => simp
  | some c =>
    have := hk c.zone
    simp only [Option.any_some, bne_iff_ne, Option.map_some, Option.some.injEq, this]
    tauto

theorem performs_setDim {z v : Octet} (hz : z.toNat < 4) :
    s.performs .setDim 11 [z, v] (if v.toNat ≤ 7 then 0 else 1) [] fun t =>
      t = { s with config.dims := s.config.dims.set z.toNat (min 7 v.toNat), lamps.strings := t.lamps.strings
                   host := t.host } ∧ s.KeepsPort t ∧
      ∀ key, t.string key =
        if s.config.dims.getD z.toNat 0 ≠ min 7 v.toNat ∧ s.stringKeyIn key = true ∧
            (s.stationCfg (key / 120)).map (·.zone) = some z.toNat then
          { s.string key with acc := Acc.empty }
        else s.string key := by
  have hf : firstBad [(decide (z.toNat < Config.zoneCount), 0)] = none := by
    rw [firstBad_cons, if_pos (by rw [decide_eq_true_eq]; exact hz)]; rfl
  have ha : actSetDim s [z, v] =
      ⟨s.applyDim z.toNat (min 7 v.toNat), ⟨if v.toNat ≤ 7 then 0 else 1, []⟩⟩ := by
    refine (withFields_good hf).trans ?_
    by_cases hv : v.toNat ≤ 7
    · simp [okOrClamped, hv, Nat.not_lt.2 hv]
    · simp [okOrClamped, hv, Nat.lt_of_not_le hv]
  refine performs_of_quiet (fun _ => rfl) rfl rfl ha
    (fun hg => Quiet.trans (u := { s with config.dims := s.config.dims.set z.toNat (min 7 v.toNat) })
      (.of_same rfl rfl rfl rfl rfl rfl rfl rfl) (.emptyAccs _ _ hg.strings_wf)) rfl
    fun hg port hp => ⟨rfl, hp, fun key => ?_⟩
  have hlen : z.toNat < s.config.dims.length := by rw [hg.config.2.2.2.1]; exact hz
  refine (State.emptyRelevelled_string (s := { s with config.dims := s.config.dims.set z.toNat (min 7 v.toNat) })
    s.config.dims hg.strings_wf key).trans ?_
  simp only [State.relevelled_set hlen]
  rfl

/-- Settles O28: each command's quiet effect on the strings it concerns, and the reply that tells a clamped field. -/
theorem setProvingDutyAndDim : Obligations.SetProvingDutyAndDim := by
  intro s b
  refine ⟨performs_setProving, performs_setDuty, fun z v => ⟨fun hz => ?_, performs_setDim⟩⟩
  refine answers_badField (fun _ => rfl) rfl rfl rfl (offset := 0) ?_
  rw [firstBad_cons, if_neg (by rw [decide_eq_true_eq]; exact Nat.not_lt.2 hz)]

end Sys2Proof.Machine
end

