-- ==== Sys2Proof/Proofs/Addresses.lean ====
section
/-! PROOFS. The address checks that commands of a lane, a station, a head or a string share (O22). -/

namespace Sys2Proof.Machine

/-! ### The rows of the table of R198 -/

/-- The frame of a well-formed command names that command (R198). -/
theorem rowOf_of_frameOf {i : Instr} {f : HostFrame} (hw : i.wf = true) (hf : frameOf i = some f) : rowOf f = i := by
  cases i
  case unknownKind kind tag body => exact Laws.F.unknownKind kind tag body hw f hf
  all_goals cases hf
  all_goals rfl

/-- A KIND has one row in the table (R198). -/
theorem kindTable_unique {p q : Nat × Nat × Modes} (hp : p ∈ kindTable) (hq : q ∈ kindTable) (h : p.1 = q.1) : p = q :=
  List.inj_on_of_nodup_map (by decide : (kindTable.map Prod.fst).Nodup) hp hq h

variable {s : State} {f : HostFrame} {row : Nat × Nat × Modes}

/-- A command whose body and mode are its KIND's is refused at the first structural field that fails, and has no other
effect (R196). -/
theorem exec_badField {kind len : Nat} {modes : Modes} {act : State → List Octet → CmdResult} {tests : List (Bool × Nat)}
    {res : CmdResult} {offset : Nat} (ht : s.takes f) (hrow : row ∈ kindTable) (hk : f.kind.toNat = row.1)
    (hlen : f.body.length = row.2.1) (hm : row.2.2.accept s.config.mode = true) (hkind : row.1 = kind)
    (hexec : ∀ tag body, exec (rowOf (commandFrame kind tag body)) s = runCommand kind len modes act tag body s)
    (hmem : (kind, len, modes) ∈ kindTable) (hact : act s f.body = withFields s tests res)
    (hbad : firstBad tests = some offset) : exec (rowOf f) s = s.replies f 18 [octet offset, 0] := by
  obtain rfl := kindTable_unique hrow hmem hkind
  have hf : f = commandFrame kind f.tag f.body := by
    have hk' : f.kind.toNat = kind := hk
    rw [commandFrame, octet, ← hk', BitVec.ofNat_toNat, BitVec.setWidth_eq]
  have hr := runCommand_replies (act := act) (hf ▸ ht) hlen hm (hact.trans (withFields_bad hbad))
  rw [← hexec, ← hf] at hr
  exact hr

theorem exec_badLane (ht : s.takes f) (hrow : row ∈ kindTable) (hk : f.kind.toNat = row.1)
    (hlen : f.body.length = row.2.1) (hm : row.2.2.accept s.config.mode = true) (hl : row.1 ∈ laneKinds)
    (hb : s.l ≤ oct f.body 0) : exec (rowOf f) s = s.replies f 18 [0, 0] := by
  have hbad : ∀ rest, firstBad ((s.okLane (oct f.body 0), 0) :: rest) = some 0 := fun rest => by
    rw [firstBad_cons, if_neg (by rw [State.okLane_iff]; omega)]
  simp only [laneKinds, List.mem_cons, List.not_mem_nil, or_false] at hl
  rcases hl with h | h | h | h | h | h | h | h | h <;>
    exact exec_badField ht hrow hk hlen hm h (fun _ _ => rfl) (by decide) rfl (hbad _)

theorem exec_badHead (ht : s.takes f) (hrow : row ∈ kindTable) (hk : f.kind.toNat = row.1)
    (hlen : f.body.length = row.2.1) (hm : row.2.2.accept s.config.mode = true) (hh : row.1 ∈ [34, 35, 41, 48])
    (hb : s.okHead f.body 0 ≠ true) : exec (rowOf f) s = s.replies f 18 [0, 0] := by
  have hbad : ∀ rest, firstBad ((s.okHead f.body 0, 0) :: rest) = some 0 := fun rest => by
    rw [firstBad_cons, if_neg hb]
  simp only [List.mem_cons, List.not_mem_nil, or_false] at hh
  rcases hh with h | h | h | h <;>
    exact exec_badField ht hrow hk hlen hm h (fun _ _ => rfl) (by decide) rfl (hbad _)

theorem exec_badStation (ht : s.takes f) (hrow : row ∈ kindTable) (hk : f.kind.toNat = row.1)
    (hlen : f.body.length = row.2.1) (hm : row.2.2.accept s.config.mode = true) (hst : row.1 ∈ stationKinds)
    (hb : s.n ≤ oct f.body 0) : exec (rowOf f) s = s.replies f 18 [0, 0] := by
  have hno : s.okStation (oct f.body 0) ≠ true := by rw [Ne, State.okStation_iff]; omega
  by_cases hh : row.1 ∈ [34, 35, 41, 48]
  · exact exec_badHead ht hrow hk hlen hm hh (by simp [State.okHead, hno])
  · have hbad : ∀ rest, firstBad ((s.okStation (oct f.body 0), 0) :: rest) = some 0 := fun rest => by
      rw [firstBad_cons, if_neg hno]
    have hst' : row.1 ∈ [5, 6, 32, 37, 45, 46, 47, 52] := by
      simp only [stationKinds, List.mem_cons, List.not_mem_nil, or_false] at hst hh ⊢
      omega
    simp only [List.mem_cons, List.not_mem_nil, or_false] at hst'
    rcases hst' with h | h | h | h | h | h | h | h <;>
      exact exec_badField ht hrow hk hlen hm h (fun _ _ => rfl) (by decide) rfl (hbad _)

/-- FIX-SIGNATURE and UNFIX name the first field of the string address that fails (R135, R136). -/
theorem exec_badString (ht : s.takes f) (hrow : row ∈ kindTable) (hk : f.kind.toNat = row.1)
    (hlen : f.body.length = row.2.1) (hm : row.2.2.accept s.config.mode = true) (hs : row.1 ∈ [45, 46])
    (hst : oct f.body 0 < s.n) {offset : Nat}
    (hb : firstBad [(decide (oct f.body 1 < s.l), 1), (decide (oct f.body 2 < 2), 2), (decide (oct f.body 3 < 5), 3),
      (decide (1 ≤ oct f.body 4 ∧ oct f.body 4 ≤ 2), 4)] = some offset) :
    exec (rowOf f) s = s.replies f 18 [octet offset, 0] := by
  have hbad : firstBad (s.stringTests f.body) = some offset := by
    rw [State.stringTests, firstBad_cons, if_pos ((State.okStation_iff _ _).2 hst), ← hb, Bool.decide_and]
    rfl
  simp only [List.mem_cons, List.not_mem_nil, or_false] at hs
  rcases hs with h | h <;> exact exec_badField ht hrow hk hlen hm h (fun _ _ => rfl) (by decide) rfl hbad

/-- Settles O22: the KIND names the row, and the row's first structural test is that of the address. -/
theorem addressesChecked : Obligations.AddressesChecked := by
  intro s i f row hw hf ht hrow hk hlen hm
  obtain rfl := rowOf_of_frameOf hw hf
  refine ⟨exec_badLane ht hrow hk hlen hm, exec_badStation ht hrow hk hlen hm, fun hh hb => ?_,
    fun hs hst offset => exec_badString ht hrow hk hlen hm hs hst⟩
  refine exec_badHead ht hrow hk hlen hm hh ?_
  simp only [State.okHead, ne_eq, Bool.and_eq_true, State.okStation_iff, State.okLane_iff, okBit_iff, Nat.zero_add]
  omega

end Sys2Proof.Machine
end

