-- ==== Sys2Proof/Proofs/HeldInReset.lean ====
section
/-! PROOFS. RESET_N low and a lost supply (O6), and the part as delivered (O4). -/

namespace Sys2Proof.Machine

/-! ### RESET_N low, a lost supply, and the part as delivered -/

@[simp] theorem ConfigStore.stopWrite_writing (c : ConfigStore) : c.stopWrite.writing = none := by
  unfold ConfigStore.stopWrite; split <;> simp_all

/-- A store write that stops leaves its region invalid (R17). -/
theorem ConfigStore.stopWrite_nvConfig (c : ConfigStore) :
    c.stopWrite.nvConfig = match c.writing with
      | some (.config _) => none
      | _ => c.nvConfig := by
  unfold ConfigStore.stopWrite; split <;> simp_all

theorem ConfigStore.stopWrite_nvSig (c : ConfigStore) :
    c.stopWrite.nvSig = match c.writing with
      | some (.signature _) => none
      | _ => c.nvSig := by
  unfold ConfigStore.stopWrite; split <;> simp_all

/-- What `hold` leaves, with any supply and RESET_N, is a stopped part (R17). -/
theorem stopped_hold (s : State) (p : Power) : s.Stopped { s.hold with power := p } where
  flags := ⟨rfl, rfl, rfl, rfl⟩
  host := ⟨rfl, rfl⟩
  flash := ⟨rfl, rfl, rfl, rfl, rfl, rfl⟩
  gantry e := by cases e <;> exact ⟨rfl, rfl, rfl⟩
  writing := s.config.stopWrite_writing
  configRegion := s.config.stopWrite_nvConfig
  sigRegion := s.config.stopWrite_nvSig

/-- Settles O6: each of the three events is `hold` with its own supply and RESET_N. -/
theorem heldInReset : Obligations.HeldInReset := by
  intro s
  refine ⟨fun hl => ?_, ⟨_, rfl, stopped_hold s _, rfl, rfl⟩, fun hr => ?_⟩
  · obtain ⟨hon, hr⟩ : s.power.on = true ∧ s.power.resetN = true := by simpa [State.live] using hl
    have he : exec .resetNFall s = .next { s.hold with power.resetN := false } := by
      show execResetNFall s = _
      simp [execResetNFall, hon, hr]
    refine ⟨_, he, stopped_hold s _, ?_⟩
    show Power.mk s.power.on false .resetPin = _
    rw [hon]
  · have he : exec .powerUp s = .next { s.hold with power := ⟨true, s.power.resetN, .powerUp⟩ } := by
      show execPowerUp s = _
      simp [execPowerUp, hr, State.fail, State.hold]
    exact ⟨_, he, stopped_hold s _, by rw [hr]⟩

/-- Settles O4, by the test of `State.Good` that evaluates. -/
theorem resetIsGood : Obligations.ResetIsGood :=
  ⟨good_of (by decide), timersLegal_of (by decide), by unfold State.AlertFollows; decide⟩

end Sys2Proof.Machine
end

