-- ==== Sys2Proof/Proofs/StoreWrites.lean ====
section
/-! PROOFS. COMMIT, SAVE-SIGNATURES, STORE_WRITE_COMPLETE and RESTART (O31). -/

namespace Sys2Proof.Machine

/-! ### The store's commands and RESTART -/

/-- A kind that is not CRITICAL leaves the level of ALERT when it is raised (R193). -/
theorem alertLevel_raise (s : State) {k : AttnKind} (hk : criticalMask.getLsbD k.index = false) :
    alertLevel (s.raise k).attn = alertLevel s.attn := by
  have hl : ∀ i, (s.raise k).attn.latched.getLsbD i = true → criticalMask.getLsbD i = true →
      s.attn.latched.getLsbD i = true := by
    intro i hi hc
    unfold State.raise at hi
    split at hi
    · exact hi
    · rw [getLsbD_putFlag] at hi
      split at hi
      · rename_i hik; rw [hik, hk] at hc; cases hc
      · exact hi
  have hu : ∀ i, s.attn.latched.getLsbD i = true → (s.raise k).attn.latched.getLsbD i = true := by
    intro i hi
    unfold State.raise
    split
    · exact hi
    · rw [getLsbD_putFlag]; split <;> simp [hi]
  have hword : ((s.raise k).attn.active ||| (s.raise k).attn.latched) &&& criticalMask =
      (s.attn.active ||| s.attn.latched) &&& criticalMask := by
    apply BitVec.eq_of_getLsbD_eq
    intro i _
    rw [State.raise_active, BitVec.getLsbD_and, BitVec.getLsbD_and, BitVec.getLsbD_or, BitVec.getLsbD_or]
    cases hc : criticalMask.getLsbD i
    · simp
    · rw [Bool.eq_iff_iff]
      simp only [Bool.and_true, Bool.or_eq_true]
      exact or_congr_right ⟨fun h => hl i h hc, hu i⟩
  unfold alertLevel
  rw [hword]

/-- A raising of a kind that is not CRITICAL is quiet (R189). -/
theorem Quiet.raise (s : State) {k : AttnKind} (hk : criticalMask.getLsbD k.index = false) : Quiet s (s.raise k) :=
  ⟨⟨rfl, rfl, rfl, fun _ _ _ => rfl, fun _ => rfl, fun _ => rfl, fun _ => rfl, fun _ => rfl, fun _ _ => rfl⟩, rfl, rfl, rfl,
    s.raise_active k, (raise_step s k).alert, alertLevel_raise s hk, rfl, rfl, rfl⟩

/-- A row that the state allows and whose effect is quiet and completes no command changes nothing else. -/
theorem eventIf_quiet {s u : State} {allowed : Bool} {g : State → State} (hl : s.live = true) (ha : allowed = true)
    (hg : g s = u) (hs : s.Settled) (q : Quiet s u) (hd : u.driveTransmitter = u) : eventIf s allowed g = .next u := by
  unfold eventIf answer
  rw [hl, ha, hg, q.settle hs, hd]
  rfl

/-- A row that completes the oldest command with a quiet effect ends with its reply. -/
theorem eventIf_completes {s u : State} {allowed : Bool} {g : State → State} {f : HostFrame} {r : Reply}
    (hl : s.live = true) (ha : allowed = true) (hg : g s = u.complete f r) (hs : s.Settled) (q : Quiet s u) :
    eventIf s allowed g = u.replies f r.status r.body := by
  unfold eventIf answer
  rw [hl, ha, hg, q.settle_complete hs]
  rfl

/-- A store write command without a body holds the processor in WRITING with the contents held now (R18). -/
theorem State.beginWrite_nil (s : State) (kind : Nat) (tag : Octet) (w : StoreWrite) :
    s.beginWrite (commandFrame kind tag []) w = { s with host.processor := .writing, config.writing := some w } :=
  if_neg (by rintro h; exact h rfl)

theorem exec_commit {s : State} {tag : Octet} (ht : s.takes (commandFrame 16 tag [])) :
    exec (.commit tag []) s =
      .next { s with host.processor := .writing, config.writing := some (.config s.configImage) } := by
  show execCommit tag [] s = _
  unfold execCommit
  exact eventIf_quiet ht.2.1 ht.2.2 (s.beginWrite_nil 16 tag _) ht.settled (.of_same rfl rfl rfl rfl rfl rfl rfl rfl)
    (State.driveTransmitter_of_same ht.settled.line rfl rfl rfl)

theorem exec_saveSignatures {s : State} {tag : Octet} (ht : s.takes (commandFrame 17 tag [])) :
    exec (.saveSignatures tag []) s =
      .next { s with
        host.processor := .writing, config.writing := some (.signature s.sigImage), sigs.unsaved := false } := by
  show execSaveSignatures tag [] s = _
  unfold execSaveSignatures
  refine eventIf_quiet ht.2.1 ht.2.2 ?_ ht.settled (.of_same rfl rfl rfl rfl rfl rfl rfl rfl)
    (State.driveTransmitter_of_same ht.settled.line rfl rfl rfl)
  rw [State.beginWrite_nil]
  rfl

/-- The end of a store write, where its effect is quiet, completes the command in the oldest slot (R18). -/
theorem exec_storeWriteComplete {s u : State} {f : HostFrame} {rest : List HostFrame} {w : StoreWrite} {ok : Bool}
    {r : Reply} (hs : s.Settled) (hl : s.live = true) (hp : s.host.processor = .writing) (hf : s.host.slots = f :: rest)
    (hw : s.config.writing = some w) (he : s.endWrite w ok = ⟨u, r⟩) (q : Quiet s u) :
    exec (.storeWriteComplete ok) s = u.replies f r.status r.body := by
  show execStoreWriteComplete ok s = _
  unfold execStoreWriteComplete
  rw [hw, hf]
  exact eventIf_completes hl (by rw [hp]; rfl) (by rw [he]) hs q

theorem Quiet.endWrite (s : State) (w : StoreWrite) (ok : Bool) : Quiet s (s.endWrite w ok).state := by
  have hk : criticalMask.getLsbD AttnKind.storeFailed.index = false := by decide
  cases w <;> cases ok
  case config.false image =>
    exact Quiet.trans (u := { s with
      host.processor := .ready, config.writing := none, config.nvConfig := none, config.configValid := false })
      (.of_same rfl rfl rfl rfl rfl rfl rfl rfl) (.raise _ hk)
  case signature.false image =>
    exact Quiet.trans (u := { s with
      host.processor := .ready, config.writing := none, config.nvSig := none, config.sigValid := false
      sigs.unsaved := true }) (.of_same rfl rfl rfl rfl rfl rfl rfl rfl) (.raise _ hk)
  all_goals exact .of_same rfl rfl rfl rfl rfl rfl rfl rfl

theorem exec_restart {s : State} {tag : Octet} (ht : s.takes (commandFrame 18 tag [])) :
    exec (.restart tag []) s =
      ({ s with host.processor := .closed } : State).replies (commandFrame 18 tag []) 0 [] :=
  runCommand_of_quiet ht rfl rfl rfl (.of_same rfl rfl rfl rfl rfl rfl rfl rfl)

/-- Settles O31: the effects of the store's commands, of the ends of their writes, and of RESTART are quiet. -/
theorem storeWritesAndRestart : Obligations.StoreWritesAndRestart := by
  intro s
  refine ⟨fun tag => exec_commit, fun tag => exec_saveSignatures, fun f rest i hg hl hp hf hw => ?_,
    fun f rest i hg hl hp hf hw => ?_, fun tag => exec_restart⟩
  · exact ⟨exec_storeWriteComplete (hg.settled hl) hl hp hf hw rfl (.endWrite s (.config i) true),
      exec_storeWriteComplete (hg.settled hl) hl hp hf hw rfl (.endWrite s (.config i) false)⟩
  · exact ⟨exec_storeWriteComplete (hg.settled hl) hl hp hf hw rfl (.endWrite s (.signature i) true),
      exec_storeWriteComplete (hg.settled hl) hl hp hf hw rfl (.endWrite s (.signature i) false)⟩

end Sys2Proof.Machine
end

