-- ==== Sys2Proof/Proofs/FreshPart.lean ====
section
/-! PROOFS. What settling does to a part that has just been loaded. -/

namespace Sys2Proof.Machine

/-! ### Tables written number by number -/

/-- A read after a record was written for each number of a list. -/
theorem Tab.get_foldl_set {α : Type} [DecidableEq α] {d : α} (v : Nat → α) (ks : List Nat) (t : Tab α)
    (hw : Tab.wf d t = true) (j : Nat) :
    Tab.get d (ks.foldl (fun t k => Tab.set d t k (v k)) t) j = if j ∈ ks then v j else Tab.get d t j := by
  induction ks generalizing t with
  | nil => simp
  | cons k ks ih =>
    rw [List.foldl_cons, ih _ (Tab.wf_set hw), Tab.get_set _ _ _ _ hw]
    by_cases h1 : j ∈ ks <;> by_cases h2 : j = k <;> simp [h1, h2]

theorem Tab.wf_foldl_set {α : Type} [DecidableEq α] {d : α} (v : Nat → α) (ks : List Nat) (t : Tab α)
    (hw : Tab.wf d t = true) : Tab.wf d (ks.foldl (fun t k => Tab.set d t k (v k)) t) = true := by
  induction ks generalizing t with
  | nil => exact hw
  | cons k ks ih => exact ih _ (Tab.wf_set hw)

/-- The station records of a section at reset (R151). -/
theorem get_resetStationTab (n k : Nat) :
    Tab.get (StationRec.reset .west) (resetStationTab n) k = StationRec.reset (if k < n then homeEnd n k else .west) := by
  rw [resetStationTab, Tab.get_foldl_set _ _ _ rfl]
  simp only [List.mem_range]
  split_ifs <;> rfl

/-! ### A head table with nothing new -/

/-- A new head table in which no head's R has changed, none has become closure-lost and none FAILED, changes nothing but
the head table (R79, R80, R83). -/
theorem State.takeTable_of_calm (s : State) {old new : List (List HeadRec)}
    (h : ∀ i, ∀ p ∈ pairsAt old new i, changedResolved p = false ∧ becameLost p = false ∧ becameFailed p = false) :
    s.takeTable old new = { s with resolver.heads := new } := by
  have hc : changedHeads s.n s.l old new = [] := by
    unfold changedHeads
    rw [List.flatMap_eq_nil_iff]
    intro i _
    rw [List.map_eq_nil_iff, List.filter_eq_nil_iff]
    rintro ⟨p, j⟩ hp
    simp [(h i p (List.fst_mem_of_mem_zipIdx hp)).1]
  have hj : joiningEntries s.l old new = 0 := by
    unfold joiningEntries countWhere
    rw [List.length_eq_zero_iff, List.filter_eq_nil_iff]
    intro i _
    cases hp : pairsAt old new i with
    | nil => simp
    | cons p ps => simp [(h i p (by rw [hp]; exact List.mem_cons_self)).2.1]
  have hf : someBecameFailed s.l old new = false := by
    unfold someBecameFailed
    rw [List.any_eq_false]
    intro i _
    rw [Bool.not_eq_true, List.any_eq_false]
    intro p hp
    simp [(h i p hp).2.2]
  unfold State.takeTable
  rw [hc, hj, hf]
  simp [State.raiseTimes, State.raiseIf, State.emptyAccs, State.mapStrings]

theorem pairChain_nil_left (c : List HeadRec) : pairChain [] c = c.map fun r => (none, r) := by
  induction c with
  | nil => rfl
  | cons r c ih => rw [pairChain, ih]; rfl

/-- Pollers whose stations await no RESTORE frame choose without changing a station record (R147). -/
theorem State.drivePoller_stations {s : State} (h : ∀ k, (s.station k).restorePending = false) (e : LinkEnd) :
    (s.drivePoller e).link.stations = s.link.stations := by
  unfold State.drivePoller
  dsimp only
  split
  · rfl
  · split
    · rw [State.setPoller_stations]
    · cases s.nextExchange e with
      | none => rfl
      | some x => simp [State.beginExchange, h]

/-- The records of a chain, each head taking the cascade demand its downstream neighbour places (R77). -/
theorem State.resolveChain_succ (s : State) (lane : Nat) (f : Face) (j : Nat) :
    s.resolveChain lane f (j + 1) =
      s.resolveHead ⟨stationAt s.n f (s.n - 1 - j), lane, f⟩ (recHas (·.closureLost) (s.resolveChain lane f j).head?) ::
        s.resolveChain lane f j := by
  rw [State.resolveChain]
  cases s.resolveChain lane f j <;> rfl

theorem link_frame_trans {s t u : State} (h : t = { s with link := t.link }) (k : u = { t with link := u.link }) :
    u = { s with link := u.link } := by
  rw [h] at k
  exact k

/-- Where no condition holds and no flag is active, there is nothing to report (R190). -/
theorem State.reportConditions_clear {u : State} (hw : u.anyWindow = false) (hs : u.anyStringFault = false)
    (hh : u.anyHeadFault = false) (hf : anyFailed u.resolver.heads = false) (he : anyEntryLost u.resolver.heads = false)
    (hst : ∀ st, st ≠ .online → u.anyStation st = false) (hl : u.time.line ≠ .freeRunning) (ha : u.attn.active = 0) :
    u.reportConditions = u := by
  have hact : u.reportConditions.attn.active = u.attn.active := by
    apply BitVec.eq_of_getLsbD_eq
    intro i _
    have hi : u.attn.active.getLsbD i = false := by rw [ha]; exact BitVec.getLsbD_zero
    rw [State.reportConditions_active, hst _ (by decide), hst _ (by decide), hst _ (by decide), hi, hw, hs, hh, hf, he,
      beq_false_of_ne hl]
    simp only [ite_self]
  rw [State.reportConditions_frame, hact]

/-! ### The part as the start-up sequence leaves it before it settles -/

/-- A part just loaded: no lane, lamp, override or lamp test out of its reset value, every station ONLINE, nothing raised and
nothing to send (R16). -/
structure State.Fresh (u : State) : Prop where
  heads : u.resolver.heads = []
  lanes : u.engine.lanes = []
  overrides : u.resolver.overrides = []
  lampTest : u.resolver.lampTest = none
  lamps : u.lamps = { strings := [], heads := [], falseOpen := [] }
  stations : u.link.stations = resetStationTab u.n
  line : u.time.line ≠ .freeRunning
  attn : u.attn = { active := 0, latched := 0, rep := 0, enabled := u.attn.enabled, alert := false }
  port : u.host.tx = none ∧ u.host.replies = [] ∧ u.host.noticePending = false

namespace State.Fresh

variable {u : State}

theorem lane (h : u.Fresh) (l : Nat) : u.lane l = LaneRec.reset := by unfold State.lane; rw [h.lanes]; rfl

theorem station (h : u.Fresh) (k : Nat) : u.station k = StationRec.reset (if k < u.n then homeEnd u.n k else .west) := by
  unfold State.station
  rw [h.stations, get_resetStationTab]

/-- Every head of a fresh part is asked for SHUT, and SHUT is available on it (R70, R72). -/
theorem resolveHead (h : u.Fresh) (r : HeadRef) :
    (u.resolveHead r false).closureLost = false ∧ (u.resolveHead r false).failed = false := by
  have hav : ∀ a, u.availability r a = .available := by
    intro a
    have hd : u.stationDown r.station = false := by unfold State.stationDown; rw [h.station]; rfl
    have hp : (u.proving r).condition = .normal := by unfold State.proving; rw [h.lamps]; rfl
    have hf : ∀ i, u.faulty r i = false := by intro i; unfold State.faulty State.string; rw [h.lamps]; rfl
    simp [State.availability, State.headUnavailable, hd, hp, hf]
  have he : (u.resolveHead r false).effective = .shut := by
    have ht : u.lampTestDemand r = none := by unfold State.lampTestDemand; rw [h.lampTest]
    have ho : u.overrideOf r = none := by unfold State.overrideOf; rw [h.overrides]; rfl
    simp only [State.resolveHead, h.lane, ht, ho]
    cases u.config.mode <;> rfl
  have hr : (u.resolveHead r false).resolved = .shut := by
    show resolvedAspect (u.resolveHead r false).effective _ = .shut
    rw [he]
    simp [resolvedAspect, hav]
  refine ⟨?_, ?_⟩
  · show (_ && decide ((u.resolveHead r false).resolved = .dark)) = false
    rw [hr]
    simp
  · unfold HeadRec.failed HeadRec.availOf
    rw [he]
    show (((litAspects.map (u.availability r)).getD 1 .failed) == Avail.failed) = false
    simp [litAspects, hav]

theorem resolveChain (h : u.Fresh) (lane : Nat) (f : Face) (j : Nat) :
    ∀ r ∈ u.resolveChain lane f j, r.closureLost = false ∧ r.failed = false := by
  induction j with
  | zero => simp [State.resolveChain]
  | succ j ih =>
    have hc : recHas (·.closureLost) (u.resolveChain lane f j).head? = false := by
      cases hr : u.resolveChain lane f j with
      | nil => rfl
      | cons r rest => exact (ih r (by rw [hr]; exact List.mem_cons_self)).1
    rw [State.resolveChain_succ, hc]
    intro r hr
    rcases List.mem_cons.1 hr with rfl | hr
    · exact h.resolveHead _
    · exact ih r hr

theorem resolveTable (h : u.Fresh) {c : List HeadRec} (hc : c ∈ u.resolveTable) :
    ∀ r ∈ c, r.closureLost = false ∧ r.failed = false := by
  obtain ⟨i, -, rfl⟩ := List.mem_map.1 hc
  exact h.resolveChain _ _ _

/-- The head table of a fresh part brings nothing new (log entry 19). -/
theorem settleHeads (h : u.Fresh) : settleHeads u u = { u with resolver.heads := u.resolveTable } := by
  have hold : comparedTable u u = [] := by unfold comparedTable; rw [if_pos ⟨rfl, rfl⟩, h.heads]
  have hfail : failingLanes u u [] u.resolveTable = [] := by
    unfold failingLanes
    rw [List.filter_eq_nil_iff]
    intro l _
    simp [h.lane, LaneRec.reset, LanePhase.freshOpening]
  unfold Machine.settleHeads
  simp only [hold, hfail, State.failOpenings_nil]
  refine u.takeTable_of_calm fun i p hp => ?_
  have hnew : ∀ r ∈ u.resolveTable.getD i [], r.closureLost = false ∧ r.failed = false := by
    rw [List.getD_eq_getElem?_getD]
    cases hi : u.resolveTable[i]? with
    | none => simp
    | some c => exact h.resolveTable (List.mem_of_getElem? hi)
  have hpair : p ∈ (u.resolveTable.getD i []).map fun r => ((none : Option HeadRec), r) := by
    rwa [pairsAt, List.getD_nil, pairChain_nil_left] at hp
  obtain ⟨r, hr, rfl⟩ := List.mem_map.1 hpair
  simp [changedResolved, becameLost, becameFailed, recHas, hnew r hr]

/-- A fresh part has nothing to report (R190). -/
theorem reportConditions (h : u.Fresh) :
    ({ u with resolver.heads := u.resolveTable } : State).reportConditions =
      { u with resolver.heads := u.resolveTable } := by
  have hst : ∀ st, st ≠ .online → ({ u with resolver.heads := u.resolveTable } : State).anyStation st = false := by
    intro st hne
    unfold State.anyStation
    rw [List.any_eq_false]
    intro k _
    show ¬((u.station k).state == st) = true
    rw [h.station]
    simpa [StationRec.reset] using hne.symm
  have hfl : anyFailed u.resolveTable = false := by
    unfold anyFailed
    rw [List.any_eq_false]
    intro c hc
    rw [Bool.not_eq_true, List.any_eq_false]
    intro r hr
    simp [(h.resolveTable hc r hr).2]
  have hel : anyEntryLost u.resolveTable = false := by
    unfold anyEntryLost
    rw [List.any_eq_false]
    intro c hc
    cases c with
    | nil => simp
    | cons r c => simp [(h.resolveTable hc r List.mem_cons_self).1]
  have hw : u.anyWindow = false := by
    unfold State.anyWindow
    rw [List.any_eq_false]
    intro l _
    simp [h.lane, LaneRec.reset, LanePhase.windowOpen]
  have hsf : u.anyStringFault = false := by unfold State.anyStringFault; rw [h.lamps]; rfl
  have hhf : u.anyHeadFault = false := by unfold State.anyHeadFault; rw [h.lamps]; rfl
  have ha : u.attn.active = 0 := by rw [h.attn]
  exact State.reportConditions_clear hw hsf hhf hfl hel hst h.line ha

/-- A fresh part settles to its head table and its pollers' first frames (R16, R81, R153). -/
theorem settle (h : u.Fresh) :
    settle u u = { u with resolver.heads := u.resolveTable, link := (Machine.settle u u).link } ∧
      (Machine.settle u u).link.stations = u.link.stations ∧ (u.n < 2 → (Machine.settle u u).link = u.link) := by
  obtain ⟨htx, hrep, hpend⟩ := h.port
  set v : State := { u with resolver.heads := u.resolveTable } with hv
  have hrp : ∀ k, (v.station k).restorePending = false := fun k => by
    show (u.station k).restorePending = false
    rw [h.station]; rfl
  have hw1 := State.drivePoller_stations hrp .west
  have hrp1 : ∀ k, ((v.drivePoller .west).station k).restorePending = false := fun k => by
    unfold State.station; rw [hw1]; exact hrp k
  have hw2 := State.drivePoller_stations hrp1 .east
  have hline : ((v.drivePoller .west).drivePoller .east).driveTransmitter = (v.drivePoller .west).drivePoller .east := by
    unfold State.driveTransmitter
    simp [hv, htx, hrep, hpend]
  have halert : ((v.drivePoller .west).drivePoller .east).driveAlert = (v.drivePoller .west).drivePoller .east := by
    refine State.driveAlert_of ?_
    rw [drivePoller_attn, drivePoller_attn]
    show u.attn.alert = alertLevel u.attn
    rw [h.attn]
    simp [alertLevel]
  have hset : Machine.settle u u = (v.drivePoller .west).drivePoller .east := by
    unfold Machine.settle
    rw [h.settleHeads, h.reportConditions, hline, halert]
  rw [hset]
  refine ⟨?_, hw2.trans hw1, fun hn => ?_⟩
  · exact link_frame_trans (v.drivePoller_frame .west) (State.drivePoller_frame _ .east)
  · have hpoll : v.polling = false := by
      show decide (2 ≤ u.n) = false
      simp [hn]
    have hrest : ∀ e, v.drivePoller e = v := fun e => State.Rests.drive (.inl hpoll)
    rw [hrest, hrest]

end State.Fresh

end Sys2Proof.Machine
end

