-- ==== Sys2Proof/Proofs/StartUp.lean ====
section
/-! PROOFS. The start-up sequence (O5). -/

namespace Sys2Proof.Machine

/-! ### START on the lanes (R12, R21) -/

/-- Every lane of a list as START sets it. -/
def State.startLanes (s : State) (ls : List Nat) : State := ls.foldl (fun s l => s.setLane l (s.lane l).started) s

theorem State.startLanes_plans (ls : List Nat) (s : State) : (s.startLanes ls).engine.plans = s.engine.plans := by
  induction ls generalizing s with
  | nil => rfl
  | cons l ls ih => exact (ih _).trans rfl

theorem LaneRec.started_started (r : LaneRec) : r.started.started = r.started := rfl

theorem State.startLanes_lane (ls : List Nat) (s : State) (m : Nat)
    (hw : Tab.wf LaneRec.reset s.engine.lanes = true) :
    (s.startLanes ls).lane m = if m ∈ ls then (s.lane m).started else s.lane m := by
  induction ls generalizing s with
  | nil => simp [State.startLanes]
  | cons l ls ih =>
    have h := ih (s.setLane l (s.lane l).started) (Tab.wf_set hw)
    rw [s.setLane_lane l m _ hw] at h
    refine h.trans ?_
    by_cases h1 : m ∈ ls <;> by_cases h2 : m = l <;> simp [h1, h2, LaneRec.started_started]

/-- A part whose lanes are all at reset is started without a change of them. -/
theorem State.startLanes_reset (ls : List Nat) {s : State} (h : s.engine.lanes = []) : s.startLanes ls = s := by
  induction ls with
  | nil => rfl
  | cons l ls ih =>
    have hset : s.setLane l (s.lane l).started = s := by
      have hl : (s.lane l).started = LaneRec.reset := by unfold State.lane; rw [h]; rfl
      unfold State.setLane
      rw [hl, h]
      exact congrArg (fun x => ({ s with engine.lanes := x } : State)) h.symm
    show (s.setLane l (s.lane l).started).startLanes ls = s
    rw [hset, ih]

/-- A part that enters RUN has an empty queue, so the scan that follows finds nothing (R12). -/
theorem State.enterRun_eq (s : State) :
    s.enterRun =
      { ((s.startLanes s.laneNumbers).setQueue []).endLampTest .start with
        config.mode := .run, config.startRefusal := none } := by
  have hq : (((s.startLanes s.laneNumbers).setQueue []).endLampTest .start).engine.queue = [] := by
    unfold State.endLampTest; split <;> rfl
  exact State.scan_empty _ hq

/-! ### The start-up sequence (R16) -/

/-- What START checks (R12) is read from the configuration records and the plans. -/
theorem State.startFault_congr {s t : State} (hc : t.config.records = s.config.records)
    (hp : t.engine.plans = s.engine.plans) : t.startFault = s.startFault := by
  have hcfg : ∀ l, t.laneCfg l = s.laneCfg l := fun l => by unfold State.laneCfg; rw [hc]
  have hst : ∀ k, t.stationCfg k = s.stationCfg k := fun k => by unfold State.stationCfg; rw [hc]
  have hL : t.laneNumbers = s.laneNumbers := by unfold State.laneNumbers State.l; rw [hc]
  have hN : t.stationNumbers = s.stationNumbers := by unfold State.stationNumbers State.n; rw [hc]
  have hpl : t.planInconsistent = s.planInconsistent := by
    funext id
    unfold State.planInconsistent State.contradicts State.target State.barredDirection
    simp only [hL, hcfg, hp]
  unfold State.startFault
  simp only [hc, hL, hN, hcfg, hst, hpl]

theorem startLine_ne (t : Tunnel) : startLine t ≠ .freeRunning := by
  unfold startLine
  split
  · simp
  · split <;> simp

/-- The loaded state with the mode and the START refusal that step 5 leaves (R16). -/
def State.loadedIn (s : State) (cause : ResetCause) (mode : Mode) (refusal : Option ConfigFault) : State :=
  { s.loaded cause with config.mode := mode, config.startRefusal := refusal }

theorem State.loadedIn_fresh (s : State) (cause : ResetCause) (mode : Mode) (refusal : Option ConfigFault) :
    (s.loadedIn cause mode refusal).Fresh where
  heads := rfl
  lanes := rfl
  overrides := rfl
  lampTest := rfl
  lamps := rfl
  stations := rfl
  line := startLine_ne _
  attn := rfl
  port := ⟨rfl, rfl, rfl⟩

/-- Step 5 of the start-up sequence writes the mode and the START refusal, and nothing else (R16). -/
theorem State.autoStart_loaded (s : State) (cause : ResetCause) :
    ∃ mode refusal, (s.loaded cause).autoStart = s.loadedIn cause mode refusal ∧
      (mode = .run ↔ (s.loaded cause).config.configValid = true ∧
        (s.loaded cause).config.records.tunnel.autoStart = true ∧ (s.loaded cause).startFault = none) ∧
      refusal = if (s.loaded cause).config.configValid = true ∧
        (s.loaded cause).config.records.tunnel.autoStart = true then (s.loaded cause).startFault else none := by
  unfold State.autoStart
  by_cases hc : (s.loaded cause).config.configValid = true ∧ (s.loaded cause).config.records.tunnel.autoStart = true
  · rw [if_pos (by rw [hc.1, hc.2]; rfl), if_pos hc]
    cases hf : (s.loaded cause).startFault with
    | none =>
      refine ⟨.run, none, ?_, by simp [hc], rfl⟩
      dsimp only
      rw [State.enterRun_eq, State.startLanes_reset _ rfl]
      rfl
    | some f => exact ⟨.standby, some f, rfl, by simp, rfl⟩
  · rw [if_neg (by simpa using hc), if_neg hc]
    exact ⟨.standby, none, rfl, ⟨fun h => (nomatch h), fun h => absurd ⟨h.1, h.2.1⟩ hc⟩, rfl⟩

/-- A part with an invalid configuration region stays in STANDBY (R16). -/
theorem State.autoStart_invalid {s : State} {cause : ResetCause} (h : s.config.stopWrite.nvConfig = none) :
    (s.loaded cause).autoStart = s.loaded cause := by
  have hv : (s.loaded cause).config.configValid = false := by
    show s.config.stopWrite.nvConfig.isSome = false
    rw [h]; rfl
  unfold State.autoStart
  rw [hv]
  rfl

/-- The start-up sequence leaves what `StartedFrom` says (R16). -/
theorem startUp_startedFrom (s : State) (cause : ResetCause) : s.StartedFrom (s.startUp cause) cause := by
  obtain ⟨mode, refusal, ha, hmode, href⟩ := s.autoStart_loaded cause
  obtain ⟨hset, hst, -⟩ := (s.loadedIn_fresh cause mode refusal).settle
  have hheads := (settle_settled (s.loadedIn cause mode refusal) (s.loadedIn cause mode refusal) rfl
    (Tab.wf_foldl_set _ _ _ rfl)).heads
  have hstart : s.startUp cause = settle (s.loadedIn cause mode refusal) (s.loadedIn cause mode refusal) :=
    congrArg (fun u => settle u u) ha
  rw [hstart]
  generalize settle (s.loadedIn cause mode refusal) (s.loadedIn cause mode refusal) = t at hset hst hheads ⊢
  have hfault : t.startFault = (s.loaded cause).startFault :=
    State.startFault_congr (by rw [hset]; rfl) (by rw [hset]; rfl)
  rw [← hfault] at hmode href
  generalize t.link = link at hset hst
  subst hset
  exact {
    records := rfl
    dims := rfl
    plans := rfl
    schedule := rfl
    mask := rfl
    store := ⟨rfl, rfl, rfl⟩
    regions := ⟨rfl, rfl⟩
    signatures := congrArg (fun b => ({ (s.loaded cause).sigs with unsaved := b } : SigTable)) (Option.not_isSome _).symm
    cause := rfl
    mode := hmode
    refusal := href
    lanes := ⟨fun _ => rfl, rfl⟩
    resolver := by rw [← hheads]; rfl
    lamps := rfl
    stations := fun k hk => by
      unfold State.station
      rw [hst]
      show Tab.get _ (resetStationTab _) k = _
      rw [get_resetStationTab]
      exact congrArg StationRec.reset (if_pos hk)
    flash := by
      refine ⟨rfl, rfl, rfl, rfl, ?_⟩
      show (match startLine (loadedConfig s.config.stopWrite.nvConfig).records.tunnel with
        | .driving => some true
        | .following => none
        | .freeRunning => none
        | .notDriven => none) =
        if startLine (loadedConfig s.config.stopWrite.nvConfig).records.tunnel = .driving then some true else none
      cases startLine (loadedConfig s.config.stopWrite.nvConfig).records.tunnel <;> rfl
    clock := ⟨rfl, rfl, rfl⟩
    host := rfl
    attention := ⟨rfl, rfl, rfl, rfl⟩
    pending := rfl }

/-- What the start-up sequence leaves is told by the store and the queue it began with. -/
theorem State.StartedFrom.of_store {s u t : State} {cause : ResetCause} (h : u.StartedFrom t cause)
    (hc : u.config.stopWrite.nvConfig = s.config.stopWrite.nvConfig)
    (hg : u.config.stopWrite.nvSig = s.config.stopWrite.nvSig) (hp : u.pending = s.pending) :
    s.StartedFrom t cause :=
  { h with
    records := hc ▸ h.records
    plans := hc ▸ h.plans
    schedule := hc ▸ h.schedule
    mask := hc ▸ h.mask
    store := hc ▸ hg ▸ h.store
    pending := hp ▸ h.pending }

@[simp] theorem State.startUp_power (s : State) (cause : ResetCause) :
    (s.startUp cause).power = { s.power with heldCause := .resetPin } := by
  obtain ⟨mode, refusal, ha, -⟩ := s.autoStart_loaded cause
  unfold State.startUp
  rw [settle_power, ha]
  rfl

theorem ConfigStore.stopWrite_stopWrite (c : ConfigStore) : c.stopWrite.stopWrite = c.stopWrite := by
  rw [ConfigStore.stopWrite, ConfigStore.stopWrite_writing]

/-- A part whose regions are both invalid starts up as it was delivered (log entry 1). -/
theorem startUp_delivered {s : State} (hp : s.power.on = true ∧ s.power.resetN = true)
    (hc : s.config.stopWrite.nvConfig = none) (hg : s.config.stopWrite.nvSig = none) :
    s.startUp .powerUp = { State.reset with pending := s.pending } := by
  have hl : s.loaded .powerUp = { State.reset with pending := s.pending } := by
    unfold State.loaded
    dsimp only
    rw [hc, hg, hp.1, hp.2]
    rfl
  obtain ⟨hset, -, hlink⟩ := (s.loadedIn_fresh .powerUp .standby none).settle
  have hstandby : s.loadedIn .powerUp .standby none = s.loaded .powerUp := rfl
  rw [hstandby] at hset hlink
  unfold State.startUp
  rw [State.autoStart_invalid hc]
  dsimp only
  rw [hset, hlink (by rw [hl]; exact Nat.zero_lt_two), hl]
  rfl

/-- Settles O5: POWER_UP and RESET_N_RISE run the start-up sequence from the stopped store. -/
theorem startUpSequence : Obligations.StartUpSequence := by
  intro s
  have hup : s.power.resetN = true →
      exec .powerUp s = .next (({ s.fail with power.on := true } : State).startUp .powerUp) := by
    intro hr
    show execPowerUp s = _
    simp only [execPowerUp, hr, if_true]
  refine ⟨fun hr => ⟨_, hup hr, ?_, ?_⟩, fun hr hc hg => (hup hr).trans (congrArg _ ?_), fun hon hr => ?_⟩
  · refine (startUp_startedFrom _ _).of_store ?_ ?_ rfl
    · exact congrArg ConfigStore.nvConfig s.config.stopWrite_stopWrite
    · exact congrArg ConfigStore.nvSig s.config.stopWrite_stopWrite
  · unfold State.live
    rw [State.startUp_power]
    show (true && s.power.resetN) = true
    rw [hr]; rfl
  · refine startUp_delivered ⟨rfl, hr⟩ ?_ ?_
    · refine (congrArg ConfigStore.nvConfig s.config.stopWrite_stopWrite).trans ?_
      rw [ConfigStore.stopWrite_nvConfig, hc]
      split <;> rfl
    · refine (congrArg ConfigStore.nvSig s.config.stopWrite_stopWrite).trans ?_
      rw [ConfigStore.stopWrite_nvSig, hg]
      split <;> rfl
  · have he : exec .resetNRise s = .next (({ s with power.resetN := true } : State).startUp s.power.heldCause) := by
      show execResetNRise s = _
      simp [execResetNRise, hr, hon]
    refine ⟨_, he, (startUp_startedFrom _ _).of_store rfl rfl rfl, ?_⟩
    unfold State.live
    rw [State.startUp_power]
    show (s.power.on && true) = true
    rw [hon]; rfl

end Sys2Proof.Machine
end

