-- ==== Sys2Proof/Proofs/TransmitEnd.lean ====
section
/-! PROOFS. The end of a transmission (O20). -/

namespace Sys2Proof.Machine

/-! ### The end of a transmission -/

section Transmitter

variable {u : State}

theorem State.driveTransmitter_reply {r : HostFrame} {rest : List HostFrame} (ht : u.host.tx = none)
    (hr : u.host.replies = r :: rest) : u.driveTransmitter = { u with host.tx := some r, host.replies := rest } := by
  unfold State.driveTransmitter
  rw [ht, hr]

theorem State.driveTransmitter_notice (ht : u.host.tx = none) (hr : u.host.replies = [])
    (hp : u.host.noticePending = true) (hl : u.attn.latched ≠ 0) :
    u.driveTransmitter =
      { u with host.noticePending := false, host.tx := some ⟨0, u.host.noticeCount, noticeBody u.attn⟩ } := by
  unfold State.driveTransmitter
  rw [ht, hr]
  dsimp only
  rw [if_pos hp, if_neg hl]

theorem State.driveTransmitter_idle (ht : u.host.tx = none) (hr : u.host.replies = [])
    (hp : u.host.noticePending = false ∨ u.attn.latched = 0) :
    u.driveTransmitter = { u with host.noticePending := false } := by
  unfold State.driveTransmitter
  rw [ht, hr]
  dsimp only
  by_cases hn : u.host.noticePending = true
  · rw [if_pos hn, if_pos (hp.resolve_left (by simp [hn]))]
  · rw [if_neg hn, ← Bool.eq_false_iff.2 hn]

end Transmitter

/-- The last octet of a frame has been sent, the next one not being chosen yet (R186, R187). -/
def State.transmitted (s : State) (f : HostFrame) : State :=
  { s with host.tx := none, host.noticeCount := countAfter f s.host.noticeCount }

theorem State.transmitted_quiet (s : State) (f : HostFrame) : Quiet s (s.transmitted f) :=
  .of_same rfl rfl rfl rfl rfl rfl rfl rfl

/-- After any frame but the RESTART reply the transmitter chooses, and nothing else happens (R186). -/
theorem exec_hostTransmitEnd {s : State} {f : HostFrame} (hs : s.Settled) (hl : s.live = true)
    (hf : s.host.tx = some f) (hr : s.sendsRestartReply f = false) :
    exec .hostTransmitEnd s = .next (s.transmitted f).driveTransmitter := by
  show execHostTransmitEnd s = _
  unfold execHostTransmitEnd
  rw [hf]
  dsimp only
  rw [hr, Bool.and_false, if_neg (by decide)]
  unfold event answer
  rw [if_pos hl]
  exact congrArg _ ((s.transmitted_quiet f).settle hs)

/-- After the RESTART reply the start-up sequence runs (R19). -/
theorem exec_hostTransmitEnd_restart {s : State} {f : HostFrame} (hl : s.live = true) (hf : s.host.tx = some f)
    (hr : s.sendsRestartReply f = true) : exec .hostTransmitEnd s = .next (s.startUp .restart) := by
  show execHostTransmitEnd s = _
  unfold execHostTransmitEnd
  rw [hf]
  dsimp only
  rw [hl, hr]
  rfl

/-- Settles O20: the event is quiet, so that what it does is the transmitter's choice. -/
theorem hostTransmitEnd : Obligations.HostTransmitEnd := by
  intro s f hg hl hf
  have hs := hg.settled hl
  refine ⟨fun hr => ⟨_, exec_hostTransmitEnd_restart hl hf hr, startUp_startedFrom s .restart⟩, fun hr =>
    ⟨_, exec_hostTransmitEnd hs hl hf hr, ?_, ?_, ?reply, ?notice, ?idle⟩⟩
  · rw [State.driveTransmitter_host]
    rfl
  · rw [State.driveTransmitter_port]
    rfl
  case reply =>
    intro r rest hrep
    rw [State.driveTransmitter_reply (u := s.transmitted f) rfl hrep]
    exact ⟨rfl, rfl, rfl⟩
  case notice =>
    intro hrep hpend hlat
    rw [State.driveTransmitter_notice (u := s.transmitted f) rfl hrep hpend hlat]
    refine ⟨?_, hrep, rfl⟩
    rw [hs.alert]
    rfl
  case idle =>
    intro hrep hpend
    rw [State.driveTransmitter_idle (u := s.transmitted f) rfl hrep hpend]
    exact ⟨rfl, hrep, rfl⟩

end Sys2Proof.Machine
end

