-- ==== Sys2Proof/Proofs/SettingsFrame.lean ====
section
/-! PROOFS. The settings that have ranges, and the operations that leave them. -/

namespace Sys2Proof.Machine

/-! ### What the laws of the configuration and the clock read -/

/-- The part of a state that the laws of the configuration and of the clock read. -/
structure Settings where
  records : Records
  dims : List Nat
  nvConfig : Option ConfigImage
  writing : Option StoreWrite
  plans : List (List Target)
  schedule : List (Option ScheduleEntry)
  clock : Option Time

/-- The settings of a state. -/
def State.settings (s : State) : Settings :=
  { records := s.config.records, dims := s.config.dims, nvConfig := s.config.nvConfig, writing := s.config.writing
    plans := s.engine.plans, schedule := s.time.schedule, clock := s.time.clock }

/-- A time of week (R174). -/
def Time.legal (t : Time) : Prop := (1 ≤ t.weekday ∧ t.weekday ≤ 7) ∧ t.hour ≤ 23 ∧ t.minute ≤ 59 ∧ t.second ≤ 59

/-- The laws of the configuration and of the clock, of the settings (R4, R8, R9, R60, R174, R177). -/
structure Settings.Legal (g : Settings) : Prop where
  image : (ConfigImage.mk g.records g.plans g.schedule 0).legal = true
  stored : ∀ i, g.nvConfig = some i → i.legal = true
  writing : ∀ i, g.writing = some (.config i) → i.legal = true
  dims : g.dims.length = 4 ∧ g.dims.all (within 0 7) = true
  clock : ∀ t, g.clock = some t → t.legal

theorem State.legal_iff (s : State) : s.settings.Legal ↔ s.ConfigLegal ∧ s.ClockLegal :=
  ⟨fun h => ⟨⟨h.image, h.stored, h.writing, h.dims⟩, h.clock⟩,
    fun ⟨⟨image, stored, writing, dims⟩, clock⟩ => ⟨image, stored, writing, dims, clock⟩⟩

/-! ### Operations that keep the settings -/

section Keeps

variable (s : State)

theorem foldl_settings {α : Type} {f : State → α → State} (h : ∀ u x, (f u x).settings = u.settings) (xs : List α) :
    (xs.foldl f s).settings = s.settings := by
  induction xs generalizing s with
  | nil => rfl
  | cons x xs ih => rw [List.foldl_cons, ih, h]

@[simp] theorem raise_settings (k : AttnKind) : (s.raise k).settings = s.settings := rfl
@[simp] theorem report_settings (k : AttnKind) (v : Bool) : (s.report k v).settings = s.settings := rfl
@[simp] theorem setLane_settings (l : Nat) (r : LaneRec) : (s.setLane l r).settings = s.settings := rfl
@[simp] theorem setQueue_settings (q : List Task) : (s.setQueue q).settings = s.settings := rfl
@[simp] theorem enqueue_settings (ts : List Task) : (s.enqueue ts).settings = s.settings := rfl
@[simp] theorem putPhase_settings (l : Nat) (p : LanePhase) (t : Option Nat) :
    (s.putPhase l p t).settings = s.settings := rfl
@[simp] theorem setString_settings (i : Nat) (r : StringRec) : (s.setString i r).settings = s.settings := rfl
@[simp] theorem mapStrings_settings (p : Nat → Bool) (f : StringRec → StringRec) :
    (s.mapStrings p f).settings = s.settings := rfl
@[simp] theorem emptyAccs_settings (p : Nat → Bool) : (s.emptyAccs p).settings = s.settings := rfl
@[simp] theorem emptyHead_settings (h : HeadRef) : (s.emptyHead h).settings = s.settings := rfl
@[simp] theorem setProving_settings (h : HeadRef) (r : HeadProving) : (s.setProving h r).settings = s.settings := rfl
@[simp] theorem mapProving_settings (p : Nat → Bool) (f : HeadProving → HeadProving) :
    (s.mapProving p f).settings = s.settings := rfl
@[simp] theorem clearLamps_settings (p : Nat → Bool) : (s.clearLamps p).settings = s.settings := rfl
@[simp] theorem setDisplayed_settings (h : HeadRef) (a : Option Aspect) : (s.setDisplayed h a).settings = s.settings := rfl
@[simp] theorem setEntry_settings (i : Nat) (e : SigEntry) : (s.setEntry i e).settings = s.settings := rfl
@[simp] theorem setUnsaved_settings : s.setUnsaved.settings = s.settings := rfl
@[simp] theorem setIdent_settings (k : Nat) (i : Option (BitVec 32)) : (s.setIdent k i).settings = s.settings := rfl
@[simp] theorem changeClass_settings (i : Nat) (e : SigEntry) : (s.changeClass i e).settings = s.settings := rfl
@[simp] theorem unlearnStation_settings (k : Nat) : (s.unlearnStation k).settings = s.settings := rfl
@[simp] theorem setStation_settings (k : Nat) (r : StationRec) : (s.setStation k r).settings = s.settings := rfl
@[simp] theorem setPoller_settings (e : LinkEnd) (p : Poller) : (s.setPoller e p).settings = s.settings := by
  cases e <;> rfl
@[simp] theorem dropReprobe_settings (k : Nat) : (s.dropReprobe k).settings = s.settings := rfl
@[simp] theorem dropPoll_settings (k : Nat) : (s.dropPoll k).settings = s.settings := rfl
@[simp] theorem quietStation_settings (k : Nat) : (s.quietStation k).settings = s.settings := rfl
@[simp] theorem returnStrings_settings (k : Nat) : (s.returnStrings k).settings = s.settings := rfl
@[simp] theorem complete_settings (f : HostFrame) (r : Reply) : (s.complete f r).settings = s.settings := rfl
@[simp] theorem startHalf_settings : s.startHalf.settings = s.settings := rfl
@[simp] theorem zeroCounters_settings : s.zeroCounters.settings = s.settings := rfl
@[simp] theorem endTask_settings (t : Task) (o : TaskOutcome) (r : Option Reason) :
    (s.endTask t o r).settings = s.settings := rfl
@[simp] theorem endUntasked_settings (l : Nat) (d : Face) (o : TaskOutcome) (r : Option Reason) :
    (s.endUntasked l d o r).settings = s.settings := rfl
@[simp] theorem startClose_settings (t : Task) (d : Face) : (s.startClose t d).settings = s.settings := rfl
@[simp] theorem startOpen_settings (t : Task) (d : Face) : (s.startOpen t d).settings = s.settings := rfl
@[simp] theorem startLampTest_settings (k : Nat) (f : Face) (a : Aspect) :
    (s.startLampTest k f a).settings = s.settings := rfl
@[simp] theorem dropOverride_settings (h : HeadRef) : (s.dropOverride h).settings = s.settings := rfl
@[simp] theorem placeOverride_settings (h : HeadRef) (a : Aspect) (m : Nat) :
    (s.placeOverride h a m).settings = s.settings := rfl
@[simp] theorem reprobeDue_settings (k : Nat) : (s.reprobeDue k).settings = s.settings := by
  unfold State.reprobeDue; simp

@[simp] theorem raiseIf_settings (c : Bool) (k : AttnKind) : (s.raiseIf c k).settings = s.settings := by
  unfold State.raiseIf; split <;> simp

@[simp] theorem raiseTimes_settings (k : AttnKind) (n : Nat) : (s.raiseTimes k n).settings = s.settings := by
  induction n generalizing s with
  | zero => rfl
  | succ n ih => exact ih _

/-! The Changeover Engine. -/

@[simp] theorem endOpening_settings (l : Nat) (d : Face) (t : Option Task) (o : TaskOutcome) (r : Option Reason) :
    (s.endOpening l d t o r).settings = s.settings := by cases t <;> rfl

@[simp] theorem removeQueued_settings (p : Task → Bool) (o : TaskOutcome) : (s.removeQueued p o).settings = s.settings := by
  unfold State.removeQueued
  exact (foldl_settings _ (by intro _ _; rfl) _).trans rfl

@[simp] theorem cancelOpens_settings (l : Nat) : (s.cancelOpens l).settings = s.settings := removeQueued_settings s _ _

@[simp] theorem scanQueue_settings (kept rest : List Task) : (s.scanQueue kept rest).settings = s.settings := by
  induction rest generalizing s kept with
  | nil => rfl
  | cons t rest ih =>
    unfold State.scanQueue
    split
    · exact ih s _
    · split
      · rfl
      · exact ih _ _
      · exact ih _ _
      · split
        · exact ih _ _
        · rfl
      · exact ih s _
      · exact ih s _
      · exact ih s _

@[simp] theorem scan_settings : s.scan.settings = s.settings := by unfold State.scan; split <;> simp

@[simp] theorem failOpening_settings (l : Nat) : (s.failOpening l).settings = s.settings := by
  unfold State.failOpening; split <;> simp

@[simp] theorem failOpenings_settings (ls : List Nat) : (s.failOpenings ls).settings = s.settings := by
  cases ls with
  | nil => rfl
  | cons l ls => exact (scan_settings _).trans (foldl_settings s (fun u m => failOpening_settings u m) (l :: ls))

@[simp] theorem endClearance_settings (l : Nat) (t : Task) (o : TaskOutcome) :
    (s.endClearance l t o).settings = s.settings := by unfold State.endClearance; simp

@[simp] theorem preEmpt_settings (t : Option Task) : (s.preEmpt t).settings = s.settings := by cases t <;> rfl

@[simp] theorem mergeFallback_settings (l : Nat) : (s.mergeFallback l).settings = s.settings := by
  unfold State.mergeFallback
  exact (foldl_settings _ (by intro _ _; rfl) _).trans rfl

@[simp] theorem closeNow_settings (l : Nat) : (s.closeNow l).settings = s.settings := by unfold State.closeNow; simp

@[simp] theorem closingStep_settings (l : Nat) : (s.closingStep l).settings = s.settings := by
  unfold State.closingStep
  split
  · split <;> simp
  all_goals rfl

@[simp] theorem openingDone_settings (t : Option Task) : (s.openingDone t).settings = s.settings := by cases t <;> rfl

@[simp] theorem openingStep_settings (l : Nat) : (s.openingStep l).settings = s.settings := by
  unfold State.openingStep
  split
  · split <;> simp
  all_goals rfl

@[simp] theorem clearanceEnds_settings (l : Nat) : (s.clearanceEnds l).settings = s.settings := by
  unfold State.clearanceEnds
  split
  · split <;> simp
  all_goals rfl

@[simp] theorem windowEnds_settings (l : Nat) : (s.windowEnds l).settings = s.settings := by
  unfold State.windowEnds; split <;> simp

/-- A plan that is applied keeps the settings (R63). -/
theorem selectPlan_settings {o : Origin} {id a b : Nat} {t : State} (h : s.selectPlan o id = .applied t a b) :
    t.settings = s.settings := by
  unfold State.selectPlan at h
  dsimp only at h
  split at h
  · cases h
  · split at h
    · cases h
    · cases h
      simp

/-! The settling of an event. -/

@[simp] theorem drivePoller_settings (e : LinkEnd) : (s.drivePoller e).settings = s.settings := by
  rw [State.drivePoller_frame]; rfl

@[simp] theorem settle_settings (a b : State) : (settle a b).settings = b.settings := by
  have he := failOpenings_settings b (settledFailures a b)
  have hp : (settle a b).engine.plans = b.engine.plans := by
    rw [settle_engine]
    exact congrArg Settings.plans he
  unfold State.settings
  rw [settle_config, settle_time, hp]

/-! The Lamp Proving Unit and the Signature Table. -/

@[simp] theorem takeResult_settings (r : StringRef) (v : Verdict) (avg duty : Nat) :
    (s.takeResult r v avg duty).settings = s.settings := by
  unfold State.takeResult
  split
  · rfl
  · split
    case h_2 => dsimp only; split <;> rfl
    case h_5 => rfl
    all_goals split <;> rfl

@[simp] theorem handOver_settings (r : StringRef) (st : StringState) (res : LastResult) (duty : Nat) :
    (s.handOver r st res duty).settings = s.settings := by
  unfold State.handOver
  split
  · rfl
  · split <;> simp

@[simp] theorem prove_settings (r : StringRef) (a : Acc) (d : Nat) : (s.prove r a d).settings = s.settings := by
  unfold State.prove; simp

@[simp] theorem addSample_settings (r : StringRef) (x d : Nat) : (s.addSample r x d).settings = s.settings := by
  unfold State.addSample; dsimp only; split <;> simp

@[simp] theorem accumulate_settings (h : HeadRef) (a : Aspect) (r : Sample) (d : Nat) :
    (s.accumulate h a r d).settings = s.settings := by
  unfold State.accumulate
  split
  case h_2 => split <;> simp
  all_goals simp

@[simp] theorem enterCondition_settings (h : HeadRef) (c : HeadCondition) :
    (s.enterCondition h c).settings = s.settings := by unfold State.enterCondition; split <;> rfl

@[simp] theorem detectFalseOpen_settings (h : HeadRef) (c : FalseOpenCause) :
    (s.detectFalseOpen h c).settings = s.settings := by unfold State.detectFalseOpen; dsimp only; split <;> rfl

@[simp] theorem acceptLit_settings (h : HeadRef) (a : Aspect) (d : Option Nat) (r : Sample) :
    (s.acceptLit h a d r).1.settings = s.settings := by
  unfold State.acceptLit
  dsimp only
  split
  · split
    · rfl
    · split <;> simp
  · split
    · rfl
    · split <;> simp

@[simp] theorem checkOpenLeak_settings (h : HeadRef) (a : Aspect) (r : Sample) :
    (s.checkOpenLeak h a r).1.settings = s.settings := by
  unfold State.checkOpenLeak
  dsimp only
  split
  · split <;> simp
  · rfl

@[simp] theorem checkOtherLeak_settings (h : HeadRef) (r : Sample) : (s.checkOtherLeak h r).settings = s.settings := by
  unfold State.checkOtherLeak
  dsimp only
  split
  · split <;> simp
  · rfl

@[simp] theorem acceptSample_settings (h : HeadRef) (a : Aspect) (cut : Bool) (d : Option Nat) (r : Sample) :
    (s.acceptSample h a cut d r).1.settings = s.settings := by
  unfold State.acceptSample; cases cut <;> simp

@[simp] theorem acceptFrame_settings (a : HeadRef → Aspect) (cut : Bool) (d : Option Nat) (rs : List (HeadRef × Sample)) :
    (s.acceptFrame a cut d rs).1.settings = s.settings := by
  induction rs generalizing s with
  | nil => rfl
  | cons p rs ih => exact (ih _).trans (acceptSample_settings _ _ _ _ _ _)

@[simp] theorem driverChange_settings (k : Nat) (i j : BitVec 32) : (s.driverChange k i j).settings = s.settings := by
  unfold State.driverChange
  dsimp only
  split <;> rfl

@[simp] theorem takeIdent_settings (k : Nat) (i : BitVec 32) : (s.takeIdent k i).settings = s.settings := by
  unfold State.takeIdent
  split
  · rfl
  · split <;> simp

@[simp] theorem unlearn_settings (k : Nat) : (s.unlearn k).settings = s.settings := by
  unfold State.unlearn; split <;> simp

/-! The Gantry Link Controller. -/

@[simp] theorem setStationDisplayed_settings (k : Nat) (a : Option Aspect) :
    (s.setStationDisplayed k a).settings = s.settings := by
  unfold State.setStationDisplayed
  exact (foldl_settings _ (by intro _ _; rfl) _).trans rfl

@[simp] theorem endLampTest_settings (c : LampEndCause) : (s.endLampTest c).settings = s.settings := by
  unfold State.endLampTest; split <;> rfl

@[simp] theorem endLampTestAt_settings (k : Nat) : (s.endLampTestAt k).settings = s.settings := by
  unfold State.endLampTestAt
  split
  · rfl
  · split <;> simp

@[simp] theorem stationGone_settings (k : Nat) (a : Option Aspect) : (s.stationGone k a).settings = s.settings := by
  unfold State.stationGone; simp

@[simp] theorem loseStation_settings (k : Nat) (r : StationRec) : (s.loseStation k r).settings = s.settings := by
  unfold State.loseStation; simp

@[simp] theorem miss_settings (e : LinkEnd) (x : Exchange) (c : MissCause) : (s.miss e x c).settings = s.settings := by
  unfold State.miss
  dsimp only
  split
  case h_3 => split_ifs <;> simp
  all_goals split <;> simp

@[simp] theorem returnStation_settings (e : LinkEnd) (k : Nat) (r : StationRec) :
    (s.returnStation e k r).settings = s.settings := by
  unfold State.returnStation
  dsimp only
  split_ifs <;> simp

@[simp] theorem answerStation_settings (e : LinkEnd) (k : Nat) : (s.answerStation e k).settings = s.settings := by
  unfold State.answerStation
  dsimp only
  split
  case h_2 => split <;> simp
  all_goals simp

@[simp] theorem takeSupply_settings (k : Nat) (o : Bool) : (s.takeSupply k o).settings = s.settings := rfl

@[simp] theorem takeDisplayed_settings (rs : List (HeadRef × Sample)) : (s.takeDisplayed rs).settings = s.settings := by
  unfold State.takeDisplayed
  exact (foldl_settings _ (by intro _ _; rfl) _).trans rfl

@[simp] theorem cutStation_settings (k : Nat) : (s.cutStation k).settings = s.settings := by
  unfold State.cutStation
  dsimp only
  split <;> simp

@[simp] theorem takeSamples_settings (k : Nat) (f : SampleFrame) : (s.takeSamples k f).settings = s.settings := by
  unfold State.takeSamples
  dsimp only
  split_ifs <;> simp

@[simp] theorem takeAnswer_settings (e : LinkEnd) (k : Nat) (f : SampleFrame) :
    (s.takeAnswer e k f).settings = s.settings := by unfold State.takeAnswer; simp

@[simp] theorem endExchange_settings (e : LinkEnd) : (s.endExchange e).settings = s.settings := setPoller_settings s e _

@[simp] theorem gantryEvent_settings (e : LinkEnd) (ev : GantryRxEvent) : (s.gantryEvent e ev).settings = s.settings := by
  unfold State.gantryEvent
  split
  case h_1 => split <;> simp
  all_goals simp

@[simp] theorem gantryReceived_settings (e : LinkEnd) (r : GantryRx × Option GantryRxEvent) :
    (s.gantryReceived e r).settings = s.settings := by
  unfold State.gantryReceived
  dsimp only
  split <;> simp

@[simp] theorem gantryOctets_settings (e : LinkEnd) (os : List Octet) : (s.gantryOctets e os).settings = s.settings :=
  foldl_settings _ (fun _ _ => gantryReceived_settings _ _ _) _

@[simp] theorem gantryCutShort_settings (e : LinkEnd) : (s.gantryCutShort e).settings = s.settings :=
  gantryReceived_settings s e _

@[simp] theorem restoreStation_settings (k : Nat) : (s.restoreStation k).settings = s.settings := by
  have h : ∀ u v : State, u.settings = v.settings →
      ({ u with lamps.falseOpen := Tab.set none u.lamps.falseOpen k none } : State).settings = v.settings := fun _ _ h => h
  unfold State.restoreStation
  dsimp only
  refine h _ s ?_
  rw [clearLamps_settings, setStationDisplayed_settings]
  split <;> rfl

@[simp] theorem timeOut_settings (e : LinkEnd) : (s.timeOut e).settings = s.settings := by
  unfold State.timeOut; split <;> simp

@[simp] theorem frameSent_settings (e : LinkEnd) : (s.frameSent e).settings = s.settings := setPoller_settings s e _

/-! The Host Link Port and the Time Base. -/

@[simp] theorem hostEvent_settings (ev : HostRxEvent) : (s.hostEvent ev).settings = s.settings := by
  cases ev with
  | good f => unfold State.hostEvent State.frameArrives; dsimp only; split <;> rfl
  | dropped fault => cases fault <;> rfl

@[simp] theorem hostReceived_settings (r : HostRx × List HostRxEvent) : (s.hostReceived r).settings = s.settings :=
  foldl_settings _ (fun u ev => hostEvent_settings u ev) _

@[simp] theorem hostOctets_settings (os : List Octet) : (s.hostOctets os).settings = s.settings := hostReceived_settings s _

@[simp] theorem hostCutShort_settings (f : HostFault) : (s.hostCutShort f).settings = s.settings :=
  hostReceived_settings s _

@[simp] theorem setPhase_settings (p : Bool) : (s.setPhase p).settings = s.settings := by
  unfold State.setPhase State.markPhase
  split_ifs <;> rfl

@[simp] theorem overridesExpire_settings (hs : List HeadRef) : (s.overridesExpire hs).settings = s.settings :=
  raiseTimes_settings _ _ _

@[simp] theorem fire_settings (id : Nat) : (s.fire id).1.settings = s.settings := by
  unfold State.fire
  split
  · rfl
  · split
    · rename_i h
      exact (selectPlan_settings s h :)
    · rfl
    · rfl

@[simp] theorem minuteEvent_settings (t : Time) : (s.minuteEvent t).settings = s.settings := by
  unfold State.minuteEvent
  dsimp only
  split
  · rfl
  · rfl
  · exact (fire_settings _ _).trans (raiseTimes_settings _ _ _)

@[simp] theorem enterRun_settings : s.enterRun.settings = s.settings := by
  have h := (endLampTest_settings ((s.startLanes s.laneNumbers).setQueue []) .start).trans
    (foldl_settings s (fun u l => setLane_settings u l _) s.laneNumbers)
  rw [State.enterRun_eq]
  exact h

@[simp] theorem enterStandby_settings : s.enterStandby.settings = s.settings := removeQueued_settings s _ _

end Keeps

end Sys2Proof.Machine
end

