-- ==== Sys2Proof/Proofs/SettingsKept.lean ====
section
/-! PROOFS. The commands that leave the settings, and the ranges of records and of the clock. -/

namespace Sys2Proof.Machine

/-! ### The acts of the commands that keep the settings -/

@[simp] theorem okWith_state (s : State) (b : List Octet) : (okWith s b).state = s := rfl
@[simp] theorem okOrClamped_state (c : Bool) (s : State) (b : List Octet) : (okOrClamped c s b).state = s := rfl
@[simp] theorem acceptedWith_state (s : State) (b : List Octet) : (acceptedWith s b).state = s := rfl
@[simp] theorem refuse_state (s : State) (c d e : Nat) : (refuse s c d e).state = s := rfl
@[simp] theorem badField_state (s : State) (o : Nat) : (badField s o).state = s := rfl
@[simp] theorem wrongLaneState_state (s : State) (l : Nat) : (s.wrongLaneState l).state = s := rfl

section Acts

variable (s : State)

theorem withFields_settings {s : State} {tests : List (Bool × Nat)} {act : CmdResult}
    (h : act.state.settings = s.settings) : (withFields s tests act).state.settings = s.settings := by
  unfold withFields; split
  · rfl
  · exact h

@[simp] theorem addTasks_settings (l : Nat) (ts : List Task) : (s.addTasks l ts).state.settings = s.settings := by
  unfold State.addTasks
  split_ifs
  · rfl
  · rfl
  · exact scan_settings _

theorem actCloseLane_settings (b : List Octet) : (actCloseLane s b).state.settings = s.settings := by
  refine withFields_settings ?_
  split <;> simp

theorem actOpenLane_settings (b : List Octet) : (actOpenLane s b).state.settings = s.settings := by
  refine withFields_settings ?_
  split
  · rfl
  · split
    · simp
    · split <;> rfl

theorem actReverseLane_settings (b : List Octet) : (actReverseLane s b).state.settings = s.settings := by
  refine withFields_settings ?_
  split
  · rfl
  · split <;> simp

theorem actCancelTask_settings (b : List Octet) : (actCancelTask s b).state.settings = s.settings := by
  refine withFields_settings ?_
  split <;> simp

theorem actConfirmClear_settings (b : List Octet) : (actConfirmClear s b).state.settings = s.settings := by
  refine withFields_settings ?_
  split <;> simp

@[simp] theorem abortClosing_settings (l : Nat) (d : Face) (f : Nat) (t : Task) :
    (s.abortClosing l d f t).state.settings = s.settings := by unfold State.abortClosing; split <;> simp

@[simp] theorem abortClearance_settings (l : Nat) (d : Face) (t : Task) :
    (s.abortClearance l d t).state.settings = s.settings := by
  unfold State.abortClearance; dsimp only; split <;> simp

@[simp] theorem abortOpening_settings (l : Nat) (d : Face) (t : Option Task) :
    (s.abortOpening l d t).state.settings = s.settings := by unfold State.abortOpening; simp

theorem actAbortLane_settings (b : List Octet) : (actAbortLane s b).state.settings = s.settings := by
  refine withFields_settings ?_
  split <;> simp

theorem actCloseNow_settings (b : List Octet) : (actCloseNow s b).state.settings = s.settings :=
  withFields_settings (closeNow_settings s _)

theorem actSelectPlan_settings (b : List Octet) : (actSelectPlan s b).state.settings = s.settings := by
  refine withFields_settings ?_
  split
  · rename_i h; exact (selectPlan_settings s h :)
  · rfl
  · rfl

theorem actOverride_settings (b : List Octet) : (actOverride s b).state.settings = s.settings := by
  refine withFields_settings ?_
  split <;> simp

theorem actRelease_settings (b : List Octet) : (actRelease s b).state.settings = s.settings := by
  refine withFields_settings ?_
  split <;> simp

theorem actLampTest_settings (b : List Octet) : (actLampTest s b).state.settings = s.settings := by
  refine withFields_settings ?_
  split
  · rfl
  · split <;> simp

theorem actEndLampTest_settings (b : List Octet) : (actEndLampTest s b).state.settings = s.settings := by
  unfold actEndLampTest
  split <;> simp

theorem actStart_settings (b : List Octet) : (actStart s b).state.settings = s.settings := by
  unfold actStart
  split
  · simp
  · rfl

theorem actStop_settings (b : List Octet) : (actStop s b).state.settings = s.settings := by
  unfold actStop
  split <;> simp

theorem actGetLane_settings (b : List Octet) : (actGetLane s b).state.settings = s.settings := by
  refine withFields_settings ?_
  split <;> rfl

theorem actGetStation_settings (b : List Octet) : (actGetStation s b).state.settings = s.settings := by
  refine withFields_settings ?_
  split <;> rfl

theorem actUnfix_settings (b : List Octet) : (actUnfix s b).state.settings = s.settings := by
  refine withFields_settings ?_
  split <;> rfl

theorem actRestoreStation_settings (b : List Octet) : (actRestoreStation s b).state.settings = s.settings := by
  refine withFields_settings ?_
  split <;> simp

end Acts

/-! ### Rows, from what their effects do -/

section Rows

variable {s t : State}

theorem runCommand_legal {kind len : Nat} {modes : Modes} {act : State → List Octet → CmdResult} {tag : Octet}
    {b : List Octet} (h : runCommand kind len modes act tag b s = .next t) (hs : s.settings.Legal)
    (ha : (act s b).state.settings.Legal) : t.settings.Legal := by
  rcases runCommand_cases h with rfl | ⟨r, rfl, rfl | rfl | rfl⟩
  · exact hs
  all_goals rw [settle_settings, complete_settings]
  · exact hs
  · exact hs
  · exact ha

theorem runCommand_keepsLegal {kind len : Nat} {modes : Modes} {act : State → List Octet → CmdResult} {tag : Octet}
    {b : List Octet} (h : runCommand kind len modes act tag b s = .next t) (hs : s.settings.Legal)
    (ha : (act s b).state.settings = s.settings) : t.settings.Legal := runCommand_legal h hs (ha ▸ hs)

theorem eventIf_legal {allowed : Bool} {f : State → State} (h : eventIf s allowed f = .next t) (hs : s.settings.Legal)
    (hf : (f s).settings.Legal) : t.settings.Legal := by
  rcases eventIf_cases h with rfl | ⟨-, -, rfl⟩
  · exact hs
  · rw [settle_settings]; exact hf

theorem eventIf_keepsLegal {allowed : Bool} {f : State → State} (h : eventIf s allowed f = .next t)
    (hs : s.settings.Legal) (hf : (f s).settings = s.settings) : t.settings.Legal := eventIf_legal h hs (hf ▸ hs)

theorem event_keepsLegal {f : State → State} (h : event s f = .next t) (hs : s.settings.Legal)
    (hf : (f s).settings = s.settings) : t.settings.Legal := by
  rcases event_cases h with rfl | ⟨-, rfl⟩
  · exact hs
  · rw [settle_settings, hf]; exact hs

end Rows

/-! ### Ranges -/

@[simp] theorem within_iff (lo hi n : Nat) : within lo hi n = true ↔ lo ≤ n ∧ n ≤ hi := by simp [within]

/-- What a test says of the keys of a table it still says after a write whose key passes it. -/
theorem Tab.all_set {α : Type} [DecidableEq α] {d : α} {p : Nat → Bool} {t : Tab α} {i : Nat} {v : α}
    (h : t.all (fun e => p e.1) = true) (hi : p i = true) : (Tab.set d t i v).all (fun e => p e.1) = true := by
  induction t with
  | nil => unfold Tab.set; split <;> simp [hi]
  | cons e t ih =>
    obtain ⟨k, w⟩ := e
    rw [List.all_cons, Bool.and_eq_true] at h
    have ht := ih h.2
    unfold Tab.set
    split_ifs <;> simp only [List.all_cons, h.1, h.2, hi, ht, Bool.and_self]

/-- The configuration region's laws, one by one (R4, R8, R9, R60, R177). -/
theorem ConfigImage.legal_iff (i : ConfigImage) : i.legal = true ↔
    i.records.tunnel.legal = true ∧ i.records.proving.legal = true ∧
      i.records.lanes.all (fun e => decide (e.1 < i.records.tunnel.l)) = true ∧
      i.records.stations.all (fun e => decide (e.1 < i.records.tunnel.n)) = true ∧
      (i.records.duties.length = 8 ∧ i.records.duties.all (within 20 1000) = true) ∧
      (i.plans.length = 8 ∧ i.plans.all (fun p => p.length == 6) = true) ∧
      i.schedule.length = 24 ∧ i.schedule.all (fun e => e.all ScheduleEntry.legal) = true := by
  simp only [ConfigImage.legal, Bool.and_eq_true, beq_iff_eq]
  tauto

/-- The TUNNEL record that an accepted SET-TUNNEL writes is legal (R4). -/
theorem tunnelOf_legal {b : List Octet} (hn : 2 ≤ oct b 0 ∧ oct b 0 ≤ 16) (hl : 1 ≤ oct b 1 ∧ oct b 1 ≤ 6) :
    (tunnelOf b).legal = true := by
  simp only [Tunnel.legal, tunnelOf, Bool.and_eq_true, if_true, beq_iff_eq, within_iff, halfPeriodOf, clamp,
    List.all_cons, List.all_nil, List.length_cons, List.length_nil, and_true]
  omega

theorem provingOf_legal (b : List Octet) : (provingOf b).legal = true := by
  simp only [Proving.legal, provingOf, Bool.and_eq_true, within_iff, clamp]
  omega

theorem Time.next_legal {t : Time} (h : t.legal) : t.next.legal := by
  obtain ⟨⟨h1, h2⟩, h3, h4, h5⟩ := h
  unfold Time.next Time.legal
  split_ifs <;> simp only [] <;> omega

namespace Settings.Legal

variable {g : Settings}

/-- What a part has stored or is writing is legal to load (R16, R18). -/
theorem loaded {nv : Option ConfigImage} (h : ∀ i, nv = some i → i.legal = true) : (loadedConfig nv).legal = true := by
  cases nv with
  | none => decide
  | some i => exact h i rfl

theorem of_tunnel_dims {i : ConfigImage} (h : i.legal = true) :
    i.records.tunnel.dims.length = 4 ∧ i.records.tunnel.dims.all (within 0 7) = true := by
  have ht := ((ConfigImage.legal_iff i).1 h).1
  simp only [Tunnel.legal, Bool.and_eq_true, beq_iff_eq] at ht
  exact ⟨ht.1.2, ht.2⟩

end Settings.Legal

end Sys2Proof.Machine
end

