-- ==== Sys2Proof/Proofs/SettingsWritten.lean ====
section
/-! PROOFS. The commands that write the settings, and the start-up sequence, keep them in their ranges. -/

namespace Sys2Proof.Machine

/-! ### The commands that write the configuration, the plans, the schedule and the clock -/

section Writes

variable {s : State} {b : List Octet}

/-- A command whose fields pass acts; one whose fields do not leaves the settings. -/
theorem withFields_legal {tests : List (Bool × Nat)} {act : CmdResult} (hs : s.settings.Legal)
    (h : firstBad tests = none → act.state.settings.Legal) : (withFields s tests act).state.settings.Legal := by
  unfold withFields
  split
  · exact hs
  · rename_i hb; exact h hb

theorem firstBad_none {c : Bool} {o : Nat} {rest : List (Bool × Nat)} :
    firstBad ((c, o) :: rest) = none ↔ c = true ∧ firstBad rest = none := by
  rw [firstBad_cons]
  by_cases h : c = true <;> simp [h]

/-- Settings whose records, plans and schedule are legal, and whose other parts are those of legal settings, are legal. -/
theorem Settings.Legal.of_image {g k : Settings} (h : g.Legal)
    (hi : (ConfigImage.mk k.records k.plans k.schedule 0).legal = true) (hn : k.nvConfig = g.nvConfig)
    (hw : k.writing = g.writing) (hd : k.dims.length = 4 ∧ k.dims.all (within 0 7) = true) (hc : k.clock = g.clock) :
    k.Legal := ⟨hi, hn ▸ h.stored, hw ▸ h.writing, hd, hc ▸ h.clock⟩

theorem followRole_settings (s : State) : s.followRole.settings = s.settings := by
  unfold State.followRole
  dsimp only
  split <;> rfl

theorem newHeadSet_settings (s : State) : s.newHeadSet.settings = s.settings := rfl

theorem emptyRelevelled_settings (s : State) (old : List Nat) : (s.emptyRelevelled old).settings = s.settings := rfl

theorem resetStations_settings (s : State) : s.resetStations.settings = s.settings := by
  have h : ∀ (u : State) (k : Nat), (u.resetStation k).settings = u.settings := by
    intro u k
    unfold State.resetStation
    dsimp only
    split <;> simp
  exact foldl_settings s h s.stationNumbers

theorem raiseNewConditions_settings (s u : State) : (s.raiseNewConditions u).settings = s.settings := by
  unfold State.raiseNewConditions; simp

theorem applyTunnel_settings (s : State) (t : Tunnel) : (s.applyTunnel t).settings = (s.writeTunnel t).settings := by
  unfold State.applyTunnel
  dsimp only
  split_ifs
  · rw [emptyRelevelled_settings, followRole_settings]
  · rw [emptyRelevelled_settings, resetStations_settings, followRole_settings]
  · rw [raiseNewConditions_settings, newHeadSet_settings, followRole_settings]
  · rw [raiseNewConditions_settings, newHeadSet_settings, resetStations_settings, followRole_settings]

theorem Tab.all_eraseWhere {α : Type} {t : Tab α} {p q : Nat → Bool} (h : ∀ k, ¬p k = true → q k = true) :
    (Tab.eraseWhere p t).all (fun e => q e.1) = true := by
  rw [List.all_eq_true]
  intro e he
  have := (List.mem_filter.1 he).2
  exact h e.1 (by simpa using this)

/-- The records of lanes and stations that leave the section are discarded, and the new record is legal (R4, R21). -/
theorem writeTunnel_legal (hs : s.settings.Legal) {t : Tunnel} (ht : t.legal = true) :
    (s.writeTunnel t).settings.Legal := by
  obtain ⟨-, hp, -, -, hd, hpl, hsc⟩ := (ConfigImage.legal_iff _).1 hs.image
  have hlegal : (ConfigImage.mk (s.writeTunnel t).config.records s.engine.plans s.time.schedule 0).legal = true := by
    refine (ConfigImage.legal_iff _).2 ⟨ht, hp, ?_, ?_, hd, hpl, hsc⟩
    · exact Tab.all_eraseWhere (p := fun i => decide (t.l ≤ i)) (q := fun i => decide (i < t.l))
        fun k hk => by simpa using hk
    · exact Tab.all_eraseWhere (p := fun i => decide (t.n ≤ i)) (q := fun i => decide (i < t.n))
        fun k hk => by simpa using hk
  exact hs.of_image hlegal rfl rfl (Settings.Legal.of_tunnel_dims hlegal) rfl

theorem actSetTunnel_legal (hs : s.settings.Legal) : (actSetTunnel s b).state.settings.Legal := by
  refine withFields_legal hs fun hf => ?_
  simp only [firstBad_none, Bool.and_eq_true, decide_eq_true_eq] at hf
  dsimp only
  split
  · exact hs
  · show (s.applyTunnel (tunnelOf b)).settings.Legal
    rw [applyTunnel_settings]
    exact writeTunnel_legal hs (tunnelOf_legal hf.1 hf.2.1)

theorem actSetLane_legal (hs : s.settings.Legal) : (actSetLane s b).state.settings.Legal := by
  refine withFields_legal hs fun hf => ?_
  obtain ⟨ht, hp, hl, hst, hd, hpl, hsc⟩ := (ConfigImage.legal_iff _).1 hs.image
  refine hs.of_image ((ConfigImage.legal_iff _).2 ⟨ht, hp, ?_, hst, hd, hpl, hsc⟩) rfl rfl hs.dims rfl
  exact Tab.all_set (p := fun l => decide (l < s.l)) hl (firstBad_none.1 hf).1

theorem actSetStation_legal (hs : s.settings.Legal) : (actSetStation s b).state.settings.Legal := by
  refine withFields_legal hs fun hf => ?_
  obtain ⟨ht, hp, hl, hst, hd, hpl, hsc⟩ := (ConfigImage.legal_iff _).1 hs.image
  have hset : (s.applyStation (oct b 0) ⟨oct b 1, bitOf (oct b 2)⟩).settings =
      { s.settings with
        records.stations := Tab.set none s.config.records.stations (oct b 0) (some ⟨oct b 1, bitOf (oct b 2)⟩) } := by
    rw [State.applyStation_frame, State.applyStation_stations]
    rfl
  show (s.applyStation (oct b 0) ⟨oct b 1, bitOf (oct b 2)⟩).settings.Legal
  rw [hset]
  refine hs.of_image ((ConfigImage.legal_iff _).2 ⟨ht, hp, hl, ?_, hd, hpl, hsc⟩) rfl rfl hs.dims rfl
  exact Tab.all_set (p := fun k => decide (k < s.n)) hst (firstBad_none.1 hf).1

theorem applyProving_legal (hs : s.settings.Legal) {p : Proving} (hp : p.legal = true) :
    (s.applyProving p).settings.Legal := by
  obtain ⟨ht, -, hl, hst, hd, hpl, hsc⟩ := (ConfigImage.legal_iff _).1 hs.image
  rw [State.applyProving_frame]
  exact hs.of_image ((ConfigImage.legal_iff _).2 ⟨ht, hp, hl, hst, hd, hpl, hsc⟩) rfl rfl hs.dims rfl

theorem applyDuties_legal (hs : s.settings.Legal) : (s.applyDuties (dutiesOf b)).settings.Legal := by
  obtain ⟨ht, hp, hl, hst, -, hpl, hsc⟩ := (ConfigImage.legal_iff _).1 hs.image
  have hlen : (dutiesOf b).length = 8 := by simp [dutiesOf, dutiesRaw]
  have hall : (dutiesOf b).all (within 20 1000) = true := ?_
  · rw [State.applyDuties_frame]
    exact hs.of_image ((ConfigImage.legal_iff _).2 ⟨ht, hp, hl, hst, ⟨hlen, hall⟩, hpl, hsc⟩) rfl rfl hs.dims rfl
  · simp only [dutiesOf, List.all_map, List.all_eq_true, Function.comp, within_iff, clamp]
    omega

theorem actSetDim_legal (hs : s.settings.Legal) : (actSetDim s b).state.settings.Legal := by
  refine withFields_legal hs fun _ => hs.of_image hs.image rfl rfl ⟨?_, ?_⟩ rfl
  · exact List.length_set.trans hs.dims.1
  · show (s.config.dims.set _ _).all _ = true
    have hd := hs.dims.2
    rw [List.all_eq_true] at hd ⊢
    intro v hv
    rcases List.mem_or_eq_of_mem_set hv with h | rfl
    · exact hd v h
    · rw [within_iff]; omega

theorem actSetPlan_legal (hs : s.settings.Legal) : (actSetPlan s b).state.settings.Legal := by
  refine withFields_legal hs fun _ => ?_
  split
  · exact hs
  · obtain ⟨ht, hp, hl, hst, hd, hpl, hsc⟩ := (ConfigImage.legal_iff _).1 hs.image
    refine hs.of_image ((ConfigImage.legal_iff _).2 ⟨ht, hp, hl, hst, hd, ⟨?_, ?_⟩, hsc⟩) rfl rfl hs.dims rfl
    · exact List.length_set.trans hpl.1
    · show (s.engine.plans.set _ _).all _ = true
      have ha := hpl.2
      rw [List.all_eq_true] at ha ⊢
      intro v hv
      rcases List.mem_or_eq_of_mem_set hv with h | rfl
      · exact ha v h
      · simp [planOf]

theorem actFreeze_legal (hs : s.settings.Legal) : (actFreeze s b).state.settings.Legal := by
  refine withFields_legal hs fun _ => ?_
  exact hs.of_image hs.image rfl rfl hs.dims rfl

theorem actSetClock_legal (hs : s.settings.Legal) : (actSetClock s b).state.settings.Legal := by
  refine withFields_legal hs fun hf => ⟨hs.image, hs.stored, hs.writing, hs.dims, ?_⟩
  simp only [firstBad_none, Bool.and_eq_true, decide_eq_true_eq] at hf
  rintro t ⟨⟩
  obtain ⟨hd, hh, hm, hsec, -⟩ := hf
  exact ⟨hd, Nat.le_of_lt_succ hh, Nat.le_of_lt_succ hm, Nat.le_of_lt_succ hsec⟩

theorem actSetSchedule_legal (hs : s.settings.Legal) : (actSetSchedule s b).state.settings.Legal := by
  refine withFields_legal hs fun hf => ?_
  obtain ⟨ht, hp, hl, hst, hd, hpl, hsc⟩ := (ConfigImage.legal_iff _).1 hs.image
  refine hs.of_image ((ConfigImage.legal_iff _).2 ⟨ht, hp, hl, hst, hd, hpl, ?_, ?_⟩) rfl rfl hs.dims rfl
  · exact List.length_set.trans hsc.1
  · show (s.time.schedule.set _ _).all _ = true
    have ha := hsc.2
    rw [List.all_eq_true] at ha ⊢
    intro v hv
    rcases List.mem_or_eq_of_mem_set hv with h | rfl
    · exact ha v h
    · cases he : oct b 1 == 1
      · simp only [he, firstBad_none, Bool.false_or, decide_eq_true_eq, okPlan_iff] at hf
        obtain ⟨-, -, hw, hh, hm, hpn, -⟩ := hf
        simp only [Bool.false_eq_true, if_false, Option.all_some, ScheduleEntry.legal, Bool.and_eq_true, within_iff, hw,
          true_and]
        omega
      · rfl

theorem beginWrite_settings_legal (hs : s.settings.Legal) (f : HostFrame) {w : StoreWrite}
    (hw : ∀ i, w = .config i → i.legal = true) : (s.beginWrite f w).settings.Legal := by
  unfold State.beginWrite
  split
  · exact hs
  · exact ⟨hs.image, hs.stored, fun i hi => hw i (Option.some.inj hi), hs.dims, hs.clock⟩

theorem endWrite_legal (hs : s.settings.Legal) {w : StoreWrite} (hw : s.config.writing = some w) (ok : Bool) :
    (s.endWrite w ok).state.settings.Legal := by
  have hno : ∀ i, (none : Option StoreWrite) = some (.config i) → i.legal = true := fun _ h => nomatch h
  cases w with
  | config image =>
    cases ok
    · exact ⟨hs.image, (fun _ h => nomatch h), hno, hs.dims, hs.clock⟩
    · refine ⟨hs.image, fun i hi => ?_, hno, hs.dims, hs.clock⟩
      cases hi
      exact hs.writing image hw
  | signature image => cases ok <;> exact ⟨hs.image, hs.stored, hno, hs.dims, hs.clock⟩

theorem secondEnds_legal (hs : s.settings.Legal) : s.secondEnds.settings.Legal := by
  unfold State.secondEnds
  split
  · exact hs
  · rename_i t ht
    have h1 : ({ s with time.clock := some t.next, time.secondTimer := some 1000 } : State).settings.Legal := by
      refine ⟨hs.image, hs.stored, hs.writing, hs.dims, ?_⟩
      rintro _ ⟨⟩
      exact Time.next_legal (hs.clock t ht)
    dsimp only
    split
    · rw [minuteEvent_settings]; exact h1
    · exact h1

/-! ### The supply, RESET_N and the start-up sequence -/

theorem stopWrite_legal (hs : s.settings.Legal) :
    ∀ i, s.config.stopWrite.nvConfig = some i → i.legal = true := by
  intro i hi
  rw [ConfigStore.stopWrite_nvConfig] at hi
  split at hi
  · cases hi
  · exact hs.stored i hi

theorem hold_legal (hs : s.settings.Legal) : s.hold.settings.Legal := by
  have hrec : s.config.stopWrite.records = s.config.records ∧ s.config.stopWrite.dims = s.config.dims := by
    unfold ConfigStore.stopWrite; split <;> exact ⟨rfl, rfl⟩
  refine ⟨?_, stopWrite_legal hs, fun i hi => ?_, ?_, hs.clock⟩
  · show (ConfigImage.mk s.config.stopWrite.records _ _ 0).legal = true
    rw [hrec.1]; exact hs.image
  · have : s.config.stopWrite.writing = some (.config i) := hi
    rw [ConfigStore.stopWrite_writing] at this
    cases this
  · show s.config.stopWrite.dims.length = 4 ∧ s.config.stopWrite.dims.all (within 0 7) = true
    rw [hrec.2]; exact hs.dims

/-- The start-up sequence works from a stored region, or from that of an invalid one, and both are legal (R16). -/
theorem startUp_legal (hs : s.settings.Legal) (cause : ResetCause) : (s.startUp cause).settings.Legal := by
  obtain ⟨mode, refusal, ha, -⟩ := s.autoStart_loaded cause
  have hi := Settings.Legal.loaded (stopWrite_legal hs)
  unfold State.startUp
  rw [settle_settings, ha]
  exact ⟨hi, stopWrite_legal hs, (fun _ h => nomatch h), Settings.Legal.of_tunnel_dims hi, (fun _ h => nomatch h)⟩

end Writes

end Sys2Proof.Machine
end

