-- ==== Sys2Proof/Proofs/ConfigurationKept.lean ====
section
/-! PROOFS. Every step keeps the configuration and the clock in their ranges (O10). -/

namespace Sys2Proof.Machine

/-! ### Every row, and so every step, keeps the settings legal -/

section Rows

variable {s t : State}

theorem unknownKind_legal {k tag : Octet} {b : List Octet} (h : execUnknownKind k tag b s = .next t)
    (hs : s.settings.Legal) : t.settings.Legal :=
  eventIf_keepsLegal (f := fun s => s.complete ⟨k, tag, b⟩ (refuse s 16 k.toNat 0).reply) h hs (complete_settings s _ _)

theorem hostTransmitEnd_legal (h : execHostTransmitEnd s = .next t) (hs : s.settings.Legal) : t.settings.Legal := by
  unfold execHostTransmitEnd at h
  split at h
  · obtain rfl := Host.Outcome.next.inj h; exact hs
  · split at h
    · obtain rfl := Host.Outcome.next.inj h; exact startUp_legal hs .restart
    · exact event_keepsLegal h hs rfl

theorem fail_legal (hs : s.settings.Legal) : s.fail.settings.Legal := by
  have h := hold_legal hs
  exact ⟨h.image, h.stored, h.writing, h.dims, h.clock⟩

theorem powerUp_legal (h : execPowerUp s = .next t) (hs : s.settings.Legal) : t.settings.Legal := by
  have hoff : ({ s.fail with power.on := true } : State).settings.Legal := fail_legal hs
  unfold execPowerUp at h
  dsimp only at h
  split at h
  · obtain rfl := Host.Outcome.next.inj h; exact startUp_legal hoff _
  · obtain rfl := Host.Outcome.next.inj h; exact hoff

theorem resetNFall_legal (h : execResetNFall s = .next t) (hs : s.settings.Legal) : t.settings.Legal := by
  unfold execResetNFall at h
  split_ifs at h <;> cases h
  · exact hs
  · exact hold_legal hs
  · exact hs

theorem resetNRise_legal (h : execResetNRise s = .next t) (hs : s.settings.Legal) : t.settings.Legal := by
  have hup : ({ s with power.resetN := true } : State).settings.Legal := hs
  unfold execResetNRise at h
  split_ifs at h
  · obtain rfl := Host.Outcome.next.inj h; exact hs
  · obtain rfl := Host.Outcome.next.inj h; exact startUp_legal hup _
  · obtain rfl := Host.Outcome.next.inj h; exact hup

theorem commit_legal {tag : Octet} {b : List Octet} (h : execCommit tag b s = .next t) (hs : s.settings.Legal) :
    t.settings.Legal :=
  eventIf_legal (f := fun s => s.beginWrite (commandFrame 16 tag b) (.config s.configImage)) h hs
    (beginWrite_settings_legal hs _ fun i hi => by
      obtain rfl := StoreWrite.config.inj hi
      exact (ConfigImage.legal_iff _).2 ((ConfigImage.legal_iff _).1 hs.image))

theorem saveSignatures_legal {tag : Octet} {b : List Octet} (h : execSaveSignatures tag b s = .next t)
    (hs : s.settings.Legal) : t.settings.Legal := by
  refine eventIf_legal (f := fun s => let s1 := s.beginWrite (commandFrame 17 tag b) (.signature s.sigImage)
    if b.length ≠ 0 then s1 else { s1 with sigs.unsaved := false }) h hs ?_
  have hw := beginWrite_settings_legal hs (commandFrame 17 tag b) (w := .signature s.sigImage)
    fun i hi => StoreWrite.noConfusion hi
  dsimp only
  split
  · exact hw
  · exact ⟨hw.image, hw.stored, hw.writing, hw.dims, hw.clock⟩

theorem storeWriteComplete_legal {ok : Bool} (h : execStoreWriteComplete ok s = .next t) (hs : s.settings.Legal) :
    t.settings.Legal := by
  unfold execStoreWriteComplete at h
  split at h
  · rename_i w f _ hw _
    refine eventIf_legal h hs ?_
    show ((s.endWrite w ok).state.complete f _).settings.Legal
    rw [complete_settings]
    exact endWrite_legal hs hw ok
  · cases h; exact hs
  · cases h; exact hs

theorem badAnswer_settings (e : LinkEnd) (o : List Octet) (brk : Bool) :
    (if brk then (s.gantryOctets e o).gantryCutShort e else s.gantryOctets e o).settings = s.settings := by
  split <;> simp

theorem frameDropped_settings (o : List Octet) (brk : Bool) :
    (if brk then (s.hostOctets o).hostCutShort .brk else s.hostOctets o).settings = s.settings := by
  split <;> simp

theorem halfPeriod_settings (p : Bool) : ((s.setPhase p).startHalf).settings = s.settings := by simp

/-- Each row keeps the settings legal: the writes of the configuration and of the store, the clock and the start-up
sequence by their own lemmas, every other row because it leaves them. -/
theorem exec_keepsLegal (c : Instr) (h : exec c s = .next t) (hs : s.settings.Legal) : t.settings.Legal := by
  unfold exec at h
  cases c with
  | powerUp => exact powerUp_legal h hs
  | resetNFall => exact resetNFall_legal h hs
  | resetNRise => exact resetNRise_legal h hs
  | hostFrameReceived o => exact event_keepsLegal h hs (hostOctets_settings s o)
  | hostFrameDropped o brk =>
    exact event_keepsLegal h hs (frameDropped_settings o brk)
  | hostGapTimeout o =>
    exact event_keepsLegal h hs ((hostCutShort_settings _ _).trans (hostOctets_settings s o))
  | hostTransmitEnd => exact hostTransmitEnd_legal h hs
  | silenceTimeout => exact eventIf_keepsLegal h hs (rfl)
  | unknownKind k tag b => exact unknownKind_legal h hs
  | setTunnel tag b => exact runCommand_legal h hs (actSetTunnel_legal hs)
  | getTunnel tag b => exact runCommand_legal h hs hs
  | setLane tag b => exact runCommand_legal h hs (actSetLane_legal hs)
  | getLane tag b => exact runCommand_keepsLegal h hs (actGetLane_settings s b)
  | setStation tag b => exact runCommand_legal h hs (actSetStation_legal hs)
  | getStation tag b => exact runCommand_keepsLegal h hs (actGetStation_settings s b)
  | setProving tag b => exact runCommand_legal h hs (applyProving_legal hs (provingOf_legal b))
  | getProving tag b => exact runCommand_legal h hs hs
  | setDuty tag b => exact runCommand_legal h hs (applyDuties_legal hs)
  | getDuty tag b => exact runCommand_legal h hs hs
  | setDim tag b => exact runCommand_legal h hs (actSetDim_legal hs)
  | getDim tag b => exact runCommand_legal h hs hs
  | start tag b => exact runCommand_keepsLegal h hs (actStart_settings s b)
  | stop tag b => exact runCommand_keepsLegal h hs (actStop_settings s b)
  | getMode tag b => exact runCommand_legal h hs hs
  | commit tag b => exact commit_legal h hs
  | saveSignatures tag b => exact saveSignatures_legal h hs
  | storeWriteComplete ok => exact storeWriteComplete_legal h hs
  | restart tag b => exact runCommand_legal h hs hs
  | closeLane tag b => exact runCommand_keepsLegal h hs (actCloseLane_settings s b)
  | openLane tag b => exact runCommand_keepsLegal h hs (actOpenLane_settings s b)
  | reverseLane tag b => exact runCommand_keepsLegal h hs (actReverseLane_settings s b)
  | cancelTask tag b => exact runCommand_keepsLegal h hs (actCancelTask_settings s b)
  | confirmClear tag b => exact runCommand_keepsLegal h hs (actConfirmClear_settings s b)
  | abortLane tag b => exact runCommand_keepsLegal h hs (actAbortLane_settings s b)
  | closeNow tag b => exact runCommand_keepsLegal h hs (actCloseNow_settings s b)
  | getQueue tag b => exact runCommand_legal h hs hs
  | setPlan tag b => exact runCommand_legal h hs (actSetPlan_legal hs)
  | getPlan tag b => exact runCommand_keepsLegal h hs (withFields_settings rfl)
  | selectPlan tag b => exact runCommand_keepsLegal h hs (actSelectPlan_settings s b)
  | closingStepExpiry l => exact eventIf_keepsLegal h hs (closingStep_settings s l)
  | openingStepExpiry l => exact eventIf_keepsLegal h hs (openingStep_settings s l)
  | clearanceTimerExpiry l => exact eventIf_keepsLegal h hs (clearanceEnds_settings s l)
  | confirmWindowExpiry l => exact eventIf_keepsLegal h hs (windowEnds_settings s l)
  | getHeads tag b => exact runCommand_keepsLegal h hs (withFields_settings rfl)
  | getClosures tag b => exact runCommand_legal h hs hs
  | override tag b => exact runCommand_keepsLegal h hs (actOverride_settings s b)
  | release tag b => exact runCommand_keepsLegal h hs (actRelease_settings s b)
  | getOverrides tag b => exact runCommand_legal h hs hs
  | overrideHoldExpiry hd => exact eventIf_keepsLegal h hs (overridesExpire_settings s hd)
  | lampTest tag b => exact runCommand_keepsLegal h hs (actLampTest_settings s b)
  | endLampTest tag b => exact runCommand_keepsLegal h hs (actEndLampTest_settings s b)
  | getLampTest tag b => exact runCommand_legal h hs hs
  | lampTestWindowExpiry => exact eventIf_keepsLegal h hs (endLampTest_settings s .window)
  | clearFault tag b => exact runCommand_keepsLegal h hs (withFields_settings rfl)
  | getLamps tag b => exact runCommand_keepsLegal h hs (withFields_settings rfl)
  | getFaults tag b => exact runCommand_legal h hs hs
  | freeze tag b => exact runCommand_legal h hs (actFreeze_legal hs)
  | fixSignature tag b => exact runCommand_keepsLegal h hs (withFields_settings rfl)
  | unfix tag b => exact runCommand_keepsLegal h hs (actUnfix_settings s b)
  | unlearn tag b => exact runCommand_keepsLegal h hs (withFields_settings (unlearn_settings s _))
  | getSignatures tag b => exact runCommand_keepsLegal h hs (withFields_settings rfl)
  | getLearning tag b => exact runCommand_legal h hs hs
  | gantryAnswer e o => exact event_keepsLegal h hs (gantryOctets_settings s e o)
  | gantryBadAnswer e o brk =>
    exact event_keepsLegal h hs (badAnswer_settings e o brk)
  | gantryStrayFrame e o =>
    exact event_keepsLegal h hs (foldl_settings s (fun u x => gantryReceived_settings u e _) o)
  | gantryGapTimeout e o =>
    exact event_keepsLegal h hs ((gantryCutShort_settings _ e).trans (gantryOctets_settings s e o))
  | pollTimeout e => exact eventIf_keepsLegal h hs (timeOut_settings s e)
  | gantryTransmitEnd e => exact eventIf_keepsLegal h hs (frameSent_settings s e)
  | reprobeTimerExpiry k => exact eventIf_keepsLegal h hs (reprobeDue_settings s k)
  | restoreStation tag b => exact runCommand_keepsLegal h hs (actRestoreStation_settings s b)
  | getRing tag b => exact runCommand_legal h hs hs
  | halfPeriodExpiry => exact eventIf_keepsLegal h hs (halfPeriod_settings _)
  | flashSyncEdge high => exact eventIf_keepsLegal h hs (halfPeriod_settings high)
  | lossTimerExpiry => exact eventIf_keepsLegal h hs (rfl)
  | getFlash tag b => exact runCommand_legal h hs hs
  | secondTimerExpiry => exact eventIf_legal h hs (secondEnds_legal hs)
  | setClock tag b => exact runCommand_legal h hs (actSetClock_legal hs)
  | getClock tag b => exact runCommand_legal h hs hs
  | setSchedule tag b => exact runCommand_legal h hs (actSetSchedule_legal hs)
  | getSchedule tag b => exact runCommand_legal h hs hs
  | ackAttention tag b => exact runCommand_keepsLegal h hs (withFields_settings rfl)
  | setNoticeMask tag b => exact runCommand_keepsLegal h hs (withFields_settings rfl)
  | getAttention tag b => exact runCommand_legal h hs hs
  | getLink tag b => exact runCommand_legal h hs hs
  | powerFailure => obtain rfl := Host.Outcome.next.inj h; exact fail_legal hs

end Rows

/-- Settles O10: legality is kept by the queue, by the millisecond that passes and by each row. -/
theorem configurationKept : Obligations.ConfigurationKept := by
  intro s t hg h
  have hs : s.settings.Legal := s.legal_iff.2 ⟨hg.config, hg.clock⟩
  exact t.legal_iff.1 (step_keeps (p := fun s => s.settings.Legal) (fun _ _ h => h) (fun _ h => h)
    (fun c _ _ hs h => exec_keepsLegal c h hs) hs h)

end Sys2Proof.Machine
end

