-- ==== Sys2Proof/Proofs/HeadTables.lean ====
section
/-! PROOFS. The places of a head table, and what the comparison of two tables finds. -/

namespace Sys2Proof.Machine

/-! ### The places of a head table -/

/-- A head table holds a record for each head of a section of `n` stations and `l` lanes, and no other (R66). -/
structure Covers (n l : Nat) (t : List (List HeadRec)) : Prop where
  length : t.length = 2 * l
  chain : ∀ c ∈ t, c.length = n

theorem State.resolveChain_length (s : State) (lane : Nat) (f : Face) (j : Nat) : (s.resolveChain lane f j).length = j := by
  induction j with
  | zero => rfl
  | succ j ih => rw [State.resolveChain_succ, List.length_cons, ih]

theorem State.resolveTable_covers (s : State) : Covers s.n s.l s.resolveTable where
  length := by simp [State.resolveTable]
  chain c hc := by
    obtain ⟨i, -, rfl⟩ := List.mem_map.1 hc
    exact s.resolveChain_length _ _ _

/-- The head at a position of a place of the head table. -/
def headOfPlace (n i j : Nat) : HeadRef := ⟨stationAt n (faceOfPlace i) j, i / 2, faceOfPlace i⟩

theorem faceOfPlace_code (i : Nat) : 2 * (i / 2) + (faceOfPlace i).code = i := by
  unfold faceOfPlace
  split <;> simp only [Face.code] <;> omega

theorem faceOfPlace_place (lane : Nat) (f : Face) :
    faceOfPlace (2 * lane + f.code) = f ∧ (2 * lane + f.code) / 2 = lane := by
  cases f
  · exact ⟨if_pos (show (2 * lane + 0) % 2 = 0 by omega), show (2 * lane + 0) / 2 = lane by omega⟩
  · exact ⟨if_neg (show ¬(2 * lane + 1) % 2 = 0 by omega), show (2 * lane + 1) / 2 = lane by omega⟩

/-- A station and its position along a face determine each other. -/
theorem stationAt_stationAt {n j : Nat} (f : Face) (h : j < n) : stationAt n f (stationAt n f j) = j := by
  cases f <;> simp only [stationAt]; omega

theorem stationAt_lt {n j : Nat} (f : Face) (h : j < n) : stationAt n f j < n := by
  cases f <;> simp only [stationAt] <;> omega

/-- The record of the head at a place. -/
theorem tableAt_headOfPlace (t : List (List HeadRec)) {n j : Nat} (i : Nat) (hj : j < n) :
    tableAt t n (headOfPlace n i j) = (t.getD i [])[j]? := by
  unfold tableAt headOfPlace positionOf
  dsimp only
  rw [faceOfPlace_code, stationAt_stationAt _ hj]

/-- Each head of the section stands at its place. -/
theorem headOfPlace_place {n : Nat} {h : HeadRef} (hk : h.station < n) :
    headOfPlace n (2 * h.lane + h.face.code) (positionOf n h.face h.station) = h := by
  obtain ⟨hf, hl⟩ := faceOfPlace_place h.lane h.face
  unfold headOfPlace positionOf
  rw [hf, hl, stationAt_stationAt _ hk]

theorem headOfPlace_key {n i j l : Nat} (hj : j < n) (hi : i < 2 * l) (hl : l ≤ 6) :
    (headOfPlace n i j).key / 12 < n ∧ (headOfPlace n i j).key % 12 / 2 < l := by
  have hs := stationAt_lt (faceOfPlace i) hj
  have hc := faceOfPlace_code i
  unfold headOfPlace HeadRef.key
  dsimp only
  omega

/-- Places of a section with at most 6 lanes have different head numbers. -/
theorem headOfPlace_key_inj {n i j l : Nat} {h : HeadRef} (hj : j < n) (hi : i < 2 * l) (hl : l ≤ 6)
    (hlane : h.lane < l) (he : (headOfPlace n i j).key = h.key) :
    i = 2 * h.lane + h.face.code ∧ j = positionOf n h.face h.station := by
  have hc := faceOfPlace_code i
  have hf : h.face.code < 2 := by cases h.face <;> decide
  unfold headOfPlace HeadRef.key at he
  dsimp only at he
  have hi' : i = 2 * h.lane + h.face.code := by omega
  have hst : stationAt n (faceOfPlace i) j = h.station := by omega
  refine ⟨hi', ?_⟩
  rw [hi', (faceOfPlace_place h.lane h.face).1] at hst
  unfold positionOf
  rw [← hst, stationAt_stationAt _ hj]

namespace Covers

variable {n l : Nat} {t : List (List HeadRec)}

theorem getD_length (h : Covers n l t) {i : Nat} (hi : i < 2 * l) : (t.getD i []).length = n := by
  have hlt : i < t.length := h.length ▸ hi
  rw [List.getD_eq_getElem _ _ hlt]
  exact h.chain _ (List.getElem_mem hlt)

theorem getD_outside (h : Covers n l t) {i : Nat} (hi : ¬i < 2 * l) : t.getD i [] = [] := by
  rw [List.getD_eq_default]
  rw [h.length]; omega

/-- There is a record at every position of every place. -/
theorem record (h : Covers n l t) {i j : Nat} (hi : i < 2 * l) (hj : j < n) : ∃ r, (t.getD i [])[j]? = some r :=
  ⟨_, List.getElem?_eq_getElem ((h.getD_length hi).symm ▸ hj)⟩

end Covers

/-! ### Comparing head tables -/

/-- The pair at a position of a place: the new record there, with the old one. -/
theorem pairChain_getElem (old new : List HeadRec) (j : Nat) :
    (pairChain old new)[j]? = new[j]?.map fun r => (old[j]?, r) := by
  induction new generalizing old j with
  | nil => cases old <;> rfl
  | cons r new ih =>
    cases old <;> cases j
    · rfl
    · simp [pairChain, ih]
    · rfl
    · simp [pairChain, ih]

theorem pairsAt_getElem (old new : List (List HeadRec)) (i j : Nat) :
    (pairsAt old new i)[j]? = (new.getD i [])[j]?.map fun r => ((old.getD i [])[j]?, r) := pairChain_getElem _ _ _

/-- The entry head of a place is closure-lost (R79). -/
def entryLost (t : List (List HeadRec)) (i : Nat) : Bool := recHas (·.closureLost) (t.getD i []).head?

/-- The pair of the entry-closure set that a place is. -/
def pairOfPlace (i : Nat) : Nat × Face := (i / 2, faceOfPlace i)

theorem pairOfPlace_inj {i j : Nat} (h : pairOfPlace i = pairOfPlace j) : i = j := by
  have hi := faceOfPlace_code i
  have hj := faceOfPlace_code j
  obtain ⟨hl, hf⟩ := Prod.mk.inj h
  rw [hf] at hi
  omega

theorem State.entryClosures_eq (s : State) :
    s.entryClosures = ((List.range (2 * s.l)).filter (entryLost s.resolver.heads)).map pairOfPlace := by
  rw [← List.filterMap_eq_map, List.filterMap_filter]
  refine List.filterMap_congr fun i _ => ?_
  unfold entryLost
  cases s.resolver.heads.getD i [] with
  | nil => rfl
  | cons r c => rfl

theorem State.mem_entryClosures {s : State} {i : Nat} (hi : i < 2 * s.l) :
    s.entryClosures.contains (pairOfPlace i) = entryLost s.resolver.heads i := by
  rw [Bool.eq_iff_iff, List.contains_iff_mem, State.entryClosures_eq, List.mem_map]
  constructor
  · rintro ⟨j, hj, he⟩
    rw [← pairOfPlace_inj he]
    exact (List.mem_filter.1 hj).2
  · exact fun h => ⟨i, List.mem_filter.2 ⟨List.mem_range.2 hi, h⟩, rfl⟩

theorem becameLost_entry (old new : List (List HeadRec)) (i : Nat) :
    (match pairsAt old new i with
      | [] => false
      | p :: _ => becameLost p) = (entryLost new i && !entryLost old i) := by
  unfold pairsAt entryLost
  cases new.getD i [] with
  | nil => cases old.getD i [] <;> rfl
  | cons r c => cases old.getD i [] <;> rfl

/-- The pairs that join the entry-closure set are those that the comparison of the head tables counts (R79). -/
theorem joiningEntries_joined {s t : State} (hl : t.l = s.l) :
    joiningEntries s.l s.resolver.heads t.resolver.heads = (s.joined t).length := by
  have hj : s.joined t =
      ((List.range (2 * s.l)).filter fun i => entryLost t.resolver.heads i && !entryLost s.resolver.heads i).map
        pairOfPlace := by
    unfold State.joined
    rw [t.entryClosures_eq, hl, List.filter_map, List.filter_filter]
    refine congrArg _ (List.filter_congr fun i hi => ?_)
    rw [Function.comp, State.mem_entryClosures (List.mem_range.1 hi), Bool.and_comm]
  rw [hj, List.length_map]
  unfold joiningEntries countWhere
  exact congrArg _ (List.filter_congr fun i _ => becameLost_entry _ _ i)

section Compare

variable {s t : State} {n l : Nat}

/-- Some head's E availability became FAILED exactly when the comparison of the head tables finds one (R80). -/
theorem someBecameFailed_iff (hn : s.n = n) (htn : t.n = n) (hs : Covers n l s.resolver.heads)
    (ht : Covers n l t.resolver.heads) :
    someBecameFailed l s.resolver.heads t.resolver.heads = true ↔ s.newlyFailed t := by
  unfold someBecameFailed State.newlyFailed
  simp only [List.any_eq_true, List.mem_range]
  constructor
  · rintro ⟨i, hi, p, hp, hb⟩
    obtain ⟨j, hj⟩ := List.mem_iff_getElem?.1 hp
    rw [pairsAt_getElem] at hj
    obtain ⟨r, hr, rfl⟩ := Option.map_eq_some_iff.1 hj
    have hjn : j < n := by
      have := (List.getElem?_eq_some_iff.1 hr).1
      rwa [ht.getD_length hi] at this
    obtain ⟨q, hq⟩ := hs.record hi hjn
    refine ⟨headOfPlace n i j, q, r, ?_, ?_, ?_⟩
    · unfold State.headRec; rw [hn, tableAt_headOfPlace _ _ hjn, hq]
    · unfold State.headRec; rw [htn, tableAt_headOfPlace _ _ hjn, hr]
    · rw [hq] at hb
      simpa [becameFailed, HeadRec.failed, recHas, and_comm] using hb
  · rintro ⟨h, q, r, hq, hr, hqf, hrf⟩
    unfold State.headRec tableAt at hq hr
    rw [hn] at hq
    rw [htn] at hr
    have hi : 2 * h.lane + h.face.code < 2 * l := by
      by_contra hi
      rw [ht.getD_outside hi] at hr
      cases hr
    refine ⟨_, hi, (some q, r), List.mem_iff_getElem?.2 ⟨positionOf n h.face h.station, ?_⟩, ?_⟩
    · rw [pairsAt_getElem, hr, hq]; rfl
    · simp [becameFailed, HeadRec.failed, recHas, hqf, hrf]

/-- The head numbers whose records the comparison finds with another resolved aspect (R83). -/
theorem mem_changedHeads {old new : List (List HeadRec)} {key : Nat} :
    key ∈ changedHeads n l old new ↔ ∃ i j p, i < 2 * l ∧ (pairsAt old new i)[j]? = some p ∧ changedResolved p = true ∧
      (headOfPlace n i j).key = key := by
  unfold changedHeads
  rw [List.mem_flatMap]
  constructor
  · rintro ⟨i, hi, hk⟩
    obtain ⟨⟨p, j⟩, hp, rfl⟩ := List.mem_map.1 hk
    obtain ⟨hp, hc⟩ := List.mem_filter.1 hp
    exact ⟨i, j, p, List.mem_range.1 hi, List.mk_mem_zipIdx_iff_getElem?.1 hp, hc, rfl⟩
  · rintro ⟨i, j, p, hi, hp, hc, rfl⟩
    exact ⟨i, List.mem_range.2 hi, List.mem_map.2
      ⟨(p, j), List.mem_filter.2 ⟨List.mk_mem_zipIdx_iff_getElem?.2 hp, hc⟩, rfl⟩⟩

theorem headRec_place {u : State} (hu : u.n = n) {h : HeadRef} :
    u.headRec h = (u.resolver.heads.getD (2 * h.lane + h.face.code) [])[positionOf n h.face h.station]? := by
  unfold State.headRec tableAt; rw [hu]

/-- The comparison finds the heads of the section whose resolved aspect changed (R83). -/
theorem changedHeads_key (hn : s.n = n) (htn : t.n = n) (hl : l ≤ 6) (hs : Covers n l s.resolver.heads)
    (ht : Covers n l t.resolver.heads) {h : HeadRef} (hk : h.station < n) (hlane : h.lane < l) :
    (changedHeads n l s.resolver.heads t.resolver.heads).contains h.key = true ↔ t.resolved h ≠ s.resolved h := by
  have hf : h.face.code < 2 := by cases h.face <;> decide
  have hi : 2 * h.lane + h.face.code < 2 * l := by omega
  have hj : positionOf n h.face h.station < n := stationAt_lt _ hk
  obtain ⟨q, hq⟩ := hs.record hi hj
  obtain ⟨r, hr⟩ := ht.record hi hj
  have hpair : (pairsAt s.resolver.heads t.resolver.heads (2 * h.lane + h.face.code))[positionOf n h.face h.station]? =
      some (some q, r) := by rw [pairsAt_getElem, hr, hq]; rfl
  have hres : changedResolved (some q, r) = true ↔ t.resolved h ≠ s.resolved h := by
    unfold State.resolved
    rw [headRec_place htn, headRec_place hn, hq, hr]
    exact bne_iff_ne.trans ne_comm
  rw [List.contains_iff_mem, mem_changedHeads, ← hres]
  constructor
  · rintro ⟨i, j, p, hil, hp, hc, hkey⟩
    have hjn : j < n := by
      rw [pairsAt_getElem] at hp
      obtain ⟨x, hx, -⟩ := Option.map_eq_some_iff.1 hp
      have := (List.getElem?_eq_some_iff.1 hx).1
      rwa [ht.getD_length hil] at this
    obtain ⟨rfl, rfl⟩ := headOfPlace_key_inj hjn hil hl hlane hkey
    rw [hpair] at hp
    exact Option.some.inj hp ▸ hc
  · exact fun hc => ⟨_, _, _, hi, hpair, hc, by rw [headOfPlace_place hk]⟩

/-- The comparison finds heads of the section alone. -/
theorem changedHeads_section {old new : List (List HeadRec)} (hl : l ≤ 6) (ht : Covers n l new) {key : Nat}
    (h : (changedHeads n l old new).contains key = true) : key / 12 < n ∧ key % 12 / 2 < l := by
  obtain ⟨i, j, p, hi, hp, -, rfl⟩ := mem_changedHeads.1 (List.contains_iff_mem.1 h)
  rw [pairsAt_getElem] at hp
  obtain ⟨x, hx, -⟩ := Option.map_eq_some_iff.1 hp
  have hj := (List.getElem?_eq_some_iff.1 hx).1
  rw [ht.getD_length hi] at hj
  exact headOfPlace_key hj hi hl

end Compare

end Sys2Proof.Machine
end

