-- ==== Sys2Proof/Proofs/Raisings.lean ====
section
/-! PROOFS. What raisings, a new head table, the condition reports and the transmitter's choice do to the attention flags. -/

namespace Sys2Proof.Machine

/-! ### What raising does to the attention flags, in any number of raisings -/

/-- An event has raised kinds of a list and no other: the mask stays, no flag is cleared, a flag newly set of an enabled kind
has set the pending-notice marker, and the marker newly set has an enabled kind latched (R187, R189). -/
structure Raises (s u : State) (kinds : List AttnKind) : Prop where
  enabled : u.attn.enabled = s.attn.enabled
  active : ∀ k, k ∉ reportedKinds → hasFlag u.attn.active k = hasFlag s.attn.active k
  others : ∀ k, k ∉ kinds → s.RaisedTimes u k 0
  latched : ∀ k, hasFlag s.attn.latched k = true → hasFlag u.attn.latched k = true
  rep : ∀ k, hasFlag s.attn.rep k = true → hasFlag u.attn.rep k = true
  marker : s.host.noticePending = true → u.host.noticePending = true
  marked : ∀ k, hasFlag s.attn.enabled k = true →
    (hasFlag u.attn.latched k ≠ hasFlag s.attn.latched k ∨ hasFlag u.attn.rep k ≠ hasFlag s.attn.rep k) →
      u.host.noticePending = true ∧ hasFlag u.attn.latched k = true
  cause : u.host.noticePending = true →
    s.host.noticePending = true ∨ ∃ k, hasFlag s.attn.enabled k = true ∧ hasFlag u.attn.latched k = true
  tx : u.host.tx = s.host.tx

theorem State.RaisedTimes.eq_of_zero {s t : State} {k : AttnKind} (h : s.RaisedTimes t k 0) :
    hasFlag t.attn.latched k = hasFlag s.attn.latched k ∧ hasFlag t.attn.rep k = hasFlag s.attn.rep k := by
  obtain ⟨hl, hr⟩ := h
  exact ⟨by simpa using hl, by simpa using hr⟩

namespace State.RaisedTimes

variable {s t u : State} {k : AttnKind} {n : Nat}

/-- Raisings after an event that raises the kind no time. -/
theorem after (h : s.RaisedTimes t k 0) (g : t.RaisedTimes u k n) : s.RaisedTimes u k n := by
  have := h.trans g
  rwa [Nat.zero_add] at this

/-- Raisings before an event that raises the kind no time. -/
theorem before (h : s.RaisedTimes t k n) (g : t.RaisedTimes u k 0) : s.RaisedTimes u k n := h.trans g

end State.RaisedTimes

/-- The state that has taken a head table, before its raisings (R81, R83). -/
def State.withTable (s : State) (old new : List (List HeadRec)) : State :=
  ({ s with resolver.heads := new } : State).emptyAccs fun i => (changedHeads s.n s.l old new).contains (i / 10)

theorem State.takeTable_withTable (s : State) (old new : List (List HeadRec)) :
    s.takeTable old new =
      ((s.withTable old new).raiseTimes .entryClosureLost (joiningEntries s.l old new)).raiseIf
        (someBecameFailed s.l old new) .aspectFailed := rfl

theorem raiseIf_raisedTimes (s : State) (c : Bool) (k : AttnKind) :
    s.RaisedTimes (s.raiseIf c k) k (if c = true then 1 else 0) := by
  cases c
  · exact .refl s k
  · exact raise_raisedTimes s k

theorem raiseIf_raisedTimes_ne (s : State) (c : Bool) {j k : AttnKind} (h : j ≠ k) :
    s.RaisedTimes (s.raiseIf c k) j 0 := by
  cases c
  · exact .refl s j
  · exact raise_raisedTimes_ne s h

namespace Raises

variable {s u v : State} {kinds : List AttnKind}

/-- An event that leaves the flags, the marker and the transmitter raises nothing. -/
theorem of_same (ha : u.attn = s.attn) (hp : u.host.noticePending = s.host.noticePending) (ht : u.host.tx = s.host.tx) :
    Raises s u kinds where
  enabled := by rw [ha]
  active := fun _ _ => by rw [ha]
  others := fun _ _ => .of_attn ha
  latched := fun _ h => by rwa [ha]
  rep := fun _ h => by rwa [ha]
  marker := fun h => by rwa [hp]
  marked := fun _ _ h => by rw [ha] at h; simp at h
  cause := fun h => .inl (by rwa [← hp])
  tx := ht

theorem refl (s : State) : Raises s s kinds := of_same rfl rfl rfl

theorem mono {more : List AttnKind} (h : Raises s u kinds) (hm : ∀ k ∈ kinds, k ∈ more) : Raises s u more :=
  { h with others := fun k hk => h.others k fun hk' => hk (hm k hk') }

theorem trans (h : Raises s u kinds) (g : Raises u v kinds) : Raises s v kinds where
  enabled := g.enabled.trans h.enabled
  active := fun k hk => (g.active k hk).trans (h.active k hk)
  others := fun k hk => (h.others k hk).trans (g.others k hk)
  latched := fun k hk => g.latched k (h.latched k hk)
  rep := fun k hk => g.rep k (h.rep k hk)
  marker := fun hk => g.marker (h.marker hk)
  marked := fun k hk hd => by
    have hk' : hasFlag u.attn.enabled k = true := by rw [h.enabled]; exact hk
    by_cases hv : hasFlag v.attn.latched k ≠ hasFlag u.attn.latched k ∨ hasFlag v.attn.rep k ≠ hasFlag u.attn.rep k
    · exact g.marked k hk' hv
    · push Not at hv
      rw [hv.1, hv.2] at hd
      obtain ⟨hp, hl⟩ := h.marked k hk hd
      exact ⟨g.marker hp, g.latched k hl⟩
  cause := fun hv => by
    rcases g.cause hv with hu | ⟨k, hk, hl⟩
    · rcases h.cause hu with hs | ⟨k, hk, hl⟩
      · exact .inl hs
      · exact .inr ⟨k, hk, g.latched k hl⟩
    · exact .inr ⟨k, by rw [← h.enabled]; exact hk, hl⟩
  tx := g.tx.trans h.tx

theorem raise (s : State) {k : AttnKind} (hk : k ∈ kinds) : Raises s (s.raise k) kinds where
  enabled := by unfold State.raise; dsimp only; split <;> rfl
  active := fun _ _ => by unfold State.raise; dsimp only; split <;> rfl
  others := fun j hj => raise_raisedTimes_ne s fun h => hj (h ▸ hk)
  latched := fun j hj => by
    unfold State.raise; dsimp only; split
    · exact hj
    · rw [hasFlag_putFlag, hj]; simp
  rep := fun j hj => by
    unfold State.raise; dsimp only; split
    · rw [hasFlag_putFlag, hj]; simp
    · exact hj
  marker := fun h => by simp [State.raise, h]
  marked := fun j hj hd => by
    have hjk : j = k := by
      by_contra hne
      obtain ⟨hl, hr⟩ := (raise_raisedTimes_ne s hne).eq_of_zero
      simp [hl, hr] at hd
    subst hjk
    refine ⟨by simp [State.raise, hj], ?_⟩
    have := (raise_raisedTimes s j).1
    simpa using this
  cause := fun h => by
    rw [show (s.raise k).host.noticePending = (s.host.noticePending || hasFlag s.attn.enabled k) from rfl,
      Bool.or_eq_true] at h
    refine h.imp id fun he => ⟨k, he, ?_⟩
    have := (raise_raisedTimes s k).1
    simpa using this
  tx := rfl

theorem raiseTimes (s : State) {k : AttnKind} (hk : k ∈ kinds) (n : Nat) : Raises s (s.raiseTimes k n) kinds := by
  induction n generalizing s with
  | zero => exact .refl s
  | succ n ih => exact (raise s hk).trans (ih _)

theorem raiseIf (s : State) {k : AttnKind} (hk : k ∈ kinds) (c : Bool) : Raises s (s.raiseIf c k) kinds := by
  cases c
  · exact .refl s
  · exact raise s hk

/-- A new head table raises ENTRY_CLOSURE_LOST and ASPECT_FAILED alone (R79, R80). -/
theorem takeTable (a : State) (old new : List (List HeadRec)) (kinds : List AttnKind) :
    Raises a (a.takeTable old new) (.entryClosureLost :: .aspectFailed :: kinds) := by
  rw [State.takeTable_withTable]
  have h : Raises a (a.withTable old new) (.entryClosureLost :: .aspectFailed :: kinds) := of_same rfl rfl rfl
  exact h.trans ((raiseTimes _ (by simp) _).trans (raiseIf _ (by simp) _))

/-- Completing with a reply touches no flag. -/
theorem complete (h : Raises s u kinds) (f : HostFrame) (r : Reply) : Raises s (u.complete f r) kinds :=
  h.trans (of_same rfl rfl rfl)

end Raises

/-- Each pair that joins the entry-closure set raises ENTRY_CLOSURE_LOST (R79). -/
theorem takeTable_closures (a : State) (old new : List (List HeadRec)) :
    a.RaisedTimes (a.takeTable old new) .entryClosureLost (joiningEntries a.l old new) := by
  rw [State.takeTable_withTable]
  have h : a.RaisedTimes (a.withTable old new) .entryClosureLost 0 := .of_attn rfl
  exact h.after ((raiseTimes_raisedTimes _ _ _).before (raiseIf_raisedTimes_ne _ _ (by decide)))

/-- ASPECT_FAILED is raised once where some head's E availability becomes FAILED (R80). -/
theorem takeTable_failures (a : State) (old new : List (List HeadRec)) :
    a.RaisedTimes (a.takeTable old new) .aspectFailed (if someBecameFailed a.l old new = true then 1 else 0) := by
  rw [State.takeTable_withTable]
  have h : a.RaisedTimes (a.withTable old new) .aspectFailed 0 := .of_attn rfl
  exact h.after (State.RaisedTimes.after (raiseTimes_raisedTimes_ne _ (by decide) _) (raiseIf_raisedTimes _ _ _))

/-! ### The transmitter's choice and the notice -/

/-- A marker that is set for a latched kind is a notice, pending or begun, after the transmitter's choice (R187). -/
theorem State.noticed_driveTransmitter {u : State} (hp : u.host.noticePending = true) {k : AttnKind}
    (hl : hasFlag u.attn.latched k = true) : u.driveTransmitter.noticed := by
  have hne : u.attn.latched ≠ 0 := by
    intro h0
    rw [h0] at hl
    simp [hasFlag] at hl
  unfold State.driveTransmitter
  split
  · exact .inl hp
  · exact .inl hp
  · rw [if_pos hp, if_neg hne]
    exact .inr ⟨_, rfl, rfl⟩

/-- A notice that is pending or sent after the transmitter's choice was pending or sent before, unless a queued reply looks
like one. -/
theorem State.noticed_of_driveTransmitter {u : State} (hr : ∀ r ∈ u.host.replies, r.kind ≠ 0)
    (h : u.driveTransmitter.noticed) : u.noticed := by
  unfold State.driveTransmitter at h
  split at h
  · exact h
  · rename_i r rest _ hrep
    rcases h with h | ⟨f, hf, hk⟩
    · exact .inl h
    · obtain rfl := Option.some.inj hf
      exact absurd hk (hr _ (by rw [hrep]; exact List.mem_cons_self))
  · split at h
    · rename_i hp; exact .inl hp
    · exact h

theorem replyKind_ne_zero (k : Octet) : replyKind k ≠ 0 := by
  unfold replyKind
  split
  · intro h
    have := congrArg BitVec.toNat h
    rw [BitVec.toNat_add] at this
    simp at this
    omega
  · decide

/-- A settled part whose transmitter is IDLE has no reply queued (R186). -/
theorem State.replies_of_idle {s : State} (hs : s.driveTransmitter = s) (ht : s.host.tx = none) : s.host.replies = [] := by
  unfold State.driveTransmitter at hs
  rw [ht] at hs
  cases hr : s.host.replies with
  | nil => rfl
  | cons r rest =>
    rw [hr] at hs
    have := congrArg (fun v : State => v.host.tx) hs
    simp [ht] at this

/-- The frames that an IDLE transmitter of a settled part finds queued after a command has completed are replies. -/
theorem State.completes_noticed {s u v : State} {f : HostFrame} {r : Reply} (hs : s.driveTransmitter = s)
    (ht : u.host.tx = s.host.tx) (hrep : u.host.replies = s.host.replies)
    (hv : v.host.replies = (u.complete f r).host.replies) (hvt : v.host.tx = u.host.tx) (h : v.driveTransmitter.noticed) :
    v.noticed := by
  cases htx : s.host.tx with
  | some g =>
    have : v.driveTransmitter = v := by
      unfold State.driveTransmitter; rw [hvt, ht, htx]
    rwa [this] at h
  | none =>
    refine State.noticed_of_driveTransmitter (fun q hq => ?_) h
    have hnil := State.replies_of_idle hs htx
    rw [hv] at hq
    rw [show (u.complete f r).host.replies = u.host.replies ++ [(u.releaseSlot).replyTo f r] from rfl, hrep, hnil] at hq
    obtain rfl := List.mem_singleton.1 hq
    exact replyKind_ne_zero _

/-! ### The condition reports -/

theorem hasFlag_report_ne (s : State) {j k : AttnKind} (v : Bool) (h : j ≠ k) :
    hasFlag (s.report k v).attn.active j = hasFlag s.attn.active j := by
  show hasFlag (putFlag s.attn.active k v) j = _
  rw [hasFlag_putFlag, if_neg h]

/-- The condition reports leave the active flags of the kinds that no owner reports (R190). -/
theorem reportConditions_active (s : State) {k : AttnKind} (h : k ∉ reportedKinds) :
    hasFlag s.reportConditions.attn.active k = hasFlag s.attn.active k := by
  simp only [reportedKinds, List.mem_cons, List.not_mem_nil, or_false, not_or] at h
  obtain ⟨h1, h2, h3, h4, h5, h6, h7, h8, h9, h10⟩ := h
  unfold State.reportConditions
  simp only [hasFlag_report_ne, h1, h2, h3, h4, h5, h6, h7, h8, h9, h10, ne_eq, not_false_iff]

end Sys2Proof.Machine
end

