-- ==== Sys2Proof/Proofs/SectionKept.lean ====
section
/-! PROOFS. What settling does to an event that keeps the section and fails no opening. -/

namespace Sys2Proof.Machine

/-! ### Events that keep the section and fail no opening -/

section Settling

variable {s a : State}

/-- The state in which the transmitter chooses at the end of an event (R81, R153, R190). -/
def chosen (s a : State) : State := ((settleHeads s a).reportConditions.drivePoller .west).drivePoller .east

theorem settle_chosen (s a : State) : settle s a = (chosen s a).driveTransmitter.driveAlert := rfl

theorem chosen_host (s a : State) : (chosen s a).host = (settleHeads s a).host := by
  unfold chosen
  rw [drivePoller_hostPort, drivePoller_hostPort, State.reportConditions_frame]

theorem chosen_attn (s a : State) :
    (chosen s a).attn = { (settleHeads s a).attn with active := (settleHeads s a).reportConditions.attn.active } := by
  unfold chosen
  rw [drivePoller_attn, drivePoller_attn, State.reportConditions_frame]

theorem driveAlert_attn (u : State) : u.driveAlert.attn = { u.attn with alert := alertLevel u.attn } := rfl

theorem settle_hostPort (s a : State) : (settle s a).host = (chosen s a).driveTransmitter.host := by
  rw [settle_chosen, State.driveAlert_host]

/-- The end of an event writes, of the flags that settling the heads leaves, the active ones and ALERT. -/
theorem settle_attn (s a : State) :
    (settle s a).attn =
      { (settleHeads s a).attn with
        active := (settleHeads s a).reportConditions.attn.active, alert := (settle s a).attn.alert } := by
  rw [settle_chosen, driveAlert_attn, driveTransmitter_attn, chosen_attn]

/-- The resolver's and the engine's settling writes of the Host Link Port the pending-notice marker alone (R187). -/
theorem settleHeads_host (s a : State) :
    (settleHeads s a).host = { a.host with noticePending := (settleHeads s a).host.noticePending } := by
  have he : (settledEngine s a).host = { a.host with noticePending := (settledEngine s a).host.noticePending } :=
    congrArg (·.host) (failOpenings_step a (settledFailures s a))
  rw [settleHeads_frame, State.takeTable_frame]
  dsimp only
  rw [he]

/-- An event that queues a reply and leaves the rest of the Host Link Port ends with that reply queued or begun. -/
theorem settle_replied {u : State} (hu : ∃ p, u.host = { s.host with noticePending := p }) (f : HostFrame)
    (r : Reply) : s.Replied (settle s (u.complete f r)) f r.status r.body := by
  obtain ⟨p, hu⟩ := hu
  have hc := (chosen_host s (u.complete f r)).trans (settleHeads_host s _)
  unfold State.Replied
  rw [settle_hostPort]
  exact State.replied_driveTransmitter (s := s) (u := chosen s (u.complete f r)) (f := f) (r := r)
    (by rw [hc]; simp [State.complete, State.releaseSlot, hu]) (by rw [hc]; simp [State.complete, State.releaseSlot, hu])
    (by rw [hc]; simp [State.complete, State.replyTo, State.free, State.releaseSlot, Config.slotCount, hu])

theorem settle_keepsPort {u : State} (hu : ∃ p, u.host = { s.host with noticePending := p }) (f : HostFrame)
    (r : Reply) : s.KeepsPort (settle s (u.complete f r)) := by
  obtain ⟨p, hu⟩ := hu
  have hc := (chosen_host s (u.complete f r)).trans (settleHeads_host s _)
  unfold State.KeepsPort
  rw [settle_hostPort, State.driveTransmitter_port, hc]
  simp [State.complete, State.releaseSlot, hu]

/-- Where the link and the section stay, the pollers have nothing new to choose (R153). -/
theorem settle_link_kept (hs : s.Settled) (hn : a.n = s.n) (hk : a.link = s.link) : (settle s a).link = s.link := by
  have hR : ∀ v : State, v.link = s.link → v.n = s.n → ∀ e, s.drivePoller e = s → v.drivePoller e = v := by
    intro v hv hvn e he
    have hst : ∀ k, v.station k = s.station k := fun k => by unfold State.station; rw [hv]
    exact ((State.Rests.of_drive he).congr hvn (by unfold State.poller; rw [hv]) (fun k => by rw [hst])
      fun k => by rw [hst]).drive
  have hu : (settleHeads s a).reportConditions.link = s.link := by
    rw [State.reportConditions_frame]; exact (settleHeads_link s a).trans hk
  have hun : (settleHeads s a).reportConditions.n = s.n := by
    rw [State.reportConditions_frame]
    exact (settle_eq_n s a).symm.trans ((settle_n s a).trans hn)
  rw [settle_link, hR _ hu hun .west hs.west, hR _ hu hun .east hs.east, hu]

section NoFailure

/-- A fresh opening is all that an event's reports can fail (R36). -/
theorem settledFailures_nil (h : ∀ l, (a.lane l).phase.freshOpening = false) : settledFailures s a = [] := by
  unfold settledFailures failingLanes
  rw [List.filter_eq_nil_iff]
  intro l _
  simp [h l]

variable (hs : s.Settled) (hn : a.n = s.n) (hl : a.l = s.l) (hf : settledFailures s a = [])

include hf in
theorem settledEngine_of_nil : settledEngine s a = a := by
  unfold settledEngine; rw [hf]; exact State.failOpenings_nil a

include hn hl in
theorem comparedTable_kept : comparedTable s a = s.resolver.heads := by
  unfold comparedTable; rw [if_pos ⟨hn.symm, hl.symm⟩]

include hn hl hf in
theorem settleHeads_kept : settleHeads s a = a.takeTable s.resolver.heads a.resolveTable := by
  rw [settleHeads_frame, settledEngine_of_nil hf, comparedTable_kept hn hl]

include hf in
theorem settle_resolver_kept : (settle s a).resolver = { a.resolver with heads := a.resolveTable } := by
  rw [settle_resolver, settledEngine_of_nil hf]

include hs in
theorem before_covers : Covers s.n s.l s.resolver.heads := hs.heads ▸ s.resolveTable_covers

include hn hl hf in
theorem after_covers : Covers s.n s.l (settle s a).resolver.heads := by
  rw [settle_resolver_kept hf, ← hn, ← hl]; exact a.resolveTable_covers

include hn hl hf in
/-- ENTRY_CLOSURE_LOST is raised by each pair that joins the entry-closure set (R79). -/
theorem settle_closures (h : s.RaisedTimes a .entryClosureLost 0) :
    s.RaisedTimes (settleHeads s a) .entryClosureLost (s.joined (settle s a)).length := by
  rw [settleHeads_kept hn hl hf, ← joiningEntries_joined ((settle_l s a).trans hl), settle_resolver_kept hf, ← hl]
  exact State.RaisedTimes.after h (takeTable_closures a _ _)

include hs hn hl hf in
/-- ASPECT_FAILED is raised once where some head's E availability becomes FAILED (R80). -/
theorem settle_failures (h : s.RaisedTimes a .aspectFailed 0) [Decidable (s.newlyFailed (settle s a))] :
    s.RaisedTimes (settleHeads s a) .aspectFailed (if s.newlyFailed (settle s a) then 1 else 0) := by
  have hi := someBecameFailed_iff rfl ((settle_n s a).trans hn) (before_covers hs) (after_covers hn hl hf)
  rw [settleHeads_kept hn hl hf]
  rw [settle_resolver_kept hf] at hi
  simp only [← hi, ← hl]
  exact State.RaisedTimes.after h (takeTable_failures a _ _)

include hs hn hl hf in
/-- What an event does to the attention flags that itself raises kinds of a list, keeps the section and fails no opening
(R79, R80, R189, R190). -/
theorem settle_keepsFlags {kinds : List AttnKind} (hr : Raises s a kinds) (hc : AttnKind.entryClosureLost ∉ kinds)
    (ha : AttnKind.aspectFailed ∉ kinds) (hnotice : (chosen s a).driveTransmitter.noticed → (chosen s a).noticed) :
    s.KeepsFlags (settle s a) kinds := by
  classical
  have hlat : (settle s a).attn.latched = (settleHeads s a).attn.latched := by rw [settle_attn]
  have hrep : (settle s a).attn.rep = (settleHeads s a).attn.rep := by rw [settle_attn]
  have hall : Raises s (settleHeads s a) (.entryClosureLost :: .aspectFailed :: kinds) := by
    rw [settleHeads_kept hn hl hf]
    exact (hr.mono fun k hk => by simp [hk]).trans (.takeTable a _ _ kinds)
  have hclo := settle_closures hn hl hf (hr.others _ hc)
  have hfai := settle_failures hs hn hl hf (hr.others _ ha)
  have hch : (chosen s a).attn.latched = (settleHeads s a).attn.latched := by rw [chosen_attn]
  refine ⟨?_, ?_, ?_, ?_, ?_, ?_, ?_, ?_⟩
  · rw [settle_attn]; exact hall.enabled
  · intro k hk hk1 hk2
    rw [hlat, hrep]
    exact (hall.others k (by simp [hk, hk1, hk2])).eq_of_zero
  · intro k
    rw [hlat, hrep]
    exact ⟨hall.latched k, hall.rep k⟩
  · rw [hlat, hrep, hclo.1, hclo.2]
    simp [Nat.one_le_iff_ne_zero, and_comm]
  · rw [hlat, hrep, hfai.1, hfai.2]
    by_cases h : s.newlyFailed (settle s a) <;> simp [h]
  · intro k hk
    rw [settle_attn]
    exact (reportConditions_active _ hk).trans (hall.active k hk)
  · intro k hk hd
    rw [hlat, hrep] at hd
    obtain ⟨hp, hl⟩ := hall.marked k hk hd
    rw [State.noticed, settle_hostPort]
    exact State.noticed_driveTransmitter (by rw [chosen_host]; exact hp) (by rw [hch]; exact hl)
  · intro h
    rw [State.noticed, settle_hostPort] at h
    rcases hnotice h with h | ⟨f, hf, hk⟩
    · rw [chosen_host] at h
      rcases hall.cause h with h | ⟨k, hk, hl⟩
      · exact .inl (.inl h)
      · exact .inr ⟨k, hk, by rw [hlat]; exact hl⟩
    · rw [chosen_host, hall.tx] at hf
      exact .inl (.inr ⟨f, hf, hk⟩)

include hs hn hl hf in
/-- The Lamp Proving Unit after an event that keeps its records and the section (R83). -/
theorem settle_keepsLamps (hl6 : s.l ≤ 6) (hw : Tab.wf StringRec.reset s.lamps.strings = true) (hp : a.lamps = s.lamps) :
    s.KeepsLamps (settle s a) := by
  have hnew := after_covers hn hl hf
  have hst : ∀ key, (settle s a).string key =
      if (changedHeads s.n s.l s.resolver.heads (settle s a).resolver.heads).contains (key / 10) = true then
        (s.string key).emptied else s.string key := by
    intro key
    unfold State.string
    rw [settle_lamps, settledEngine_of_nil hf, comparedTable_kept hn hl, hn, hl, hp, settle_resolver_kept hf]
    exact Tab.get_mapWhere _ _ StringRec.emptied rfl hw key
  refine ⟨by rw [settle_lamps, hp], by rw [settle_lamps, hp], fun h hh i hi => ?_, fun key hk => ?_⟩
  · obtain ⟨hk, hlane⟩ : h.station < s.n ∧ h.lane < s.l := by simpa [State.hasHead] using hh
    have hc := changedHeads_key rfl ((settle_n s a).trans hn) hl6 (before_covers hs) hnew hk hlane
    have hkey : stringKey h i / 10 = h.key := by unfold stringKey; omega
    rw [hst, hkey]
    by_cases he : (settle s a).resolved h = s.resolved h
    · rw [if_pos he, if_neg fun hcon => hc.1 hcon he]
    · rw [if_neg he, if_pos (hc.2 he)]
      rfl
  · rw [hst, if_neg]
    intro hcon
    obtain ⟨h1, h2⟩ := changedHeads_section hl6 hnew hcon
    simp [State.stringKeyIn, State.headKeyIn, h1, h2] at hk

end NoFailure

/-- A settled part's transmitter takes no reply of a command for a notice. -/
theorem chosen_notice {u : State} (hs : s.Settled) (hu : ∃ p, u.host = { s.host with noticePending := p }) (f : HostFrame)
    (r : Reply) (h : (chosen s (u.complete f r)).driveTransmitter.noticed) : (chosen s (u.complete f r)).noticed := by
  obtain ⟨p, hu⟩ := hu
  have hc := (chosen_host s (u.complete f r)).trans (settleHeads_host s _)
  exact State.completes_noticed (u := u) (f := f) (r := r) hs.line (by rw [hu]) (by rw [hu]) (by rw [hc])
    (by rw [hc]; rfl) h

end Settling

end Sys2Proof.Machine
end

