-- ==== Sys2Proof/Proofs/CommandsKeep.lean ====
section
/-! PROOFS. Commands that keep the section and fail no opening. -/

namespace Sys2Proof.Machine

/-! ### Commands that keep the section and fail no opening -/

theorem State.Good.l_le {s : State} (h : s.Good) : s.l ≤ 6 := by
  obtain ⟨himage, -⟩ := h.config
  obtain ⟨ht, -⟩ := (ConfigImage.legal_iff _).1 himage
  change s.config.records.tunnel.legal = true at ht
  simp only [Tunnel.legal, Bool.and_eq_true, and_assoc] at ht
  obtain ⟨h1, -⟩ := ht
  show s.config.records.tunnel.l ≤ 6
  split at h1
  · simp only [Bool.and_eq_true, within_iff] at h1; omega
  · simp only [Bool.and_eq_true, beq_iff_eq] at h1; omega

/-- What an event that keeps the section, the link and the lamp records does outside the engine and the resolver, and besides
raising kinds of a list. -/
structure KeepsRest (s t : State) (kinds : List AttnKind) : Prop where
  lamps : s.KeepsLamps t
  link : t.link = s.link
  port : s.KeepsPort t
  flags : s.KeepsFlags t kinds

section Commands

variable {s u : State}

/-- What `performs` says of a row that runs a command whose own act passes its checks. -/
theorem performs_of_settle {kind len : Nat} {modes : Modes} {act : State → List Octet → CmdResult} {body : List Octet}
    {row : Octet → List Octet → Instr} {status : Nat} {reply : List Octet} {p : State → Prop}
    (hrow : ∀ tag, exec (row tag body) s = runCommand kind len modes act tag body s) (hlen : body.length = len)
    (hm : modes.accept s.config.mode = true) (ha : act s body = ⟨u, ⟨status, reply⟩⟩)
    (hu : ∃ m, u.host = { s.host with noticePending := m })
    (hp : s.Good → s.Settled → ∀ f r, p (settle s (u.complete f r))) : s.performs row kind body status reply p := by
  intro tag ht
  refine ⟨_, (hrow tag).trans (runCommand_taken ht.2.1 ht.2.2 hlen hm), ?_, ?_⟩
  · rw [ha]; exact settle_replied hu _ ⟨status, reply⟩
  · rw [ha]; exact hp ht.1 ht.settled _ _

variable (f : HostFrame) (r : Reply)

theorem complete_failures (h : ∀ l, (u.lane l).phase.freshOpening = false) : settledFailures s (u.complete f r) = [] :=
  settledFailures_nil h

theorem settle_complete_keeps {kinds : List AttnKind} (hg : s.Good) (hs : s.Settled) (hn : u.n = s.n) (hl : u.l = s.l)
    (hfresh : ∀ l, (u.lane l).phase.freshOpening = false) (hlamps : u.lamps = s.lamps) (hlink : u.link = s.link)
    (hu : ∃ m, u.host = { s.host with noticePending := m }) (hr : Raises s u kinds)
    (hc : AttnKind.entryClosureLost ∉ kinds) (ha : AttnKind.aspectFailed ∉ kinds) :
    KeepsRest s (settle s (u.complete f r)) kinds := by
  have hn' : (u.complete f r).n = s.n := hn
  have hl' : (u.complete f r).l = s.l := hl
  have hf := complete_failures (s := s) f r hfresh
  refine ⟨?_, ?_, settle_keepsPort hu f r, ?_⟩
  · exact settle_keepsLamps hs hn' hl' hf hg.l_le hg.strings_wf ((State.complete_lamps u f r).trans hlamps)
  · exact settle_link_kept hs hn' ((State.complete_link u f r).trans hlink)
  · exact settle_keepsFlags hs hn' hl' hf (hr.complete f r) hc ha (chosen_notice hs hu f r)

/-- Raisings of an event's own are those of the state it leaves, of all kinds but ENTRY_CLOSURE_LOST and ASPECT_FAILED. -/
theorem settle_raisedTimes {a : State} (hn : a.n = s.n) (hl : a.l = s.l) (hf : settledFailures s a = []) {k : AttnKind}
    {n : Nat} (h : s.RaisedTimes a k n) (hc : k ≠ .entryClosureLost) (ha : k ≠ .aspectFailed) :
    s.RaisedTimes (settle s a) k n := by
  have h0 : a.RaisedTimes (settleHeads s a) k 0 := by
    rw [settleHeads_kept hn hl hf]
    exact (Raises.takeTable a _ _ []).others k (by simp [hc, ha])
  have h1 := State.RaisedTimes.before h h0
  unfold State.RaisedTimes at h1 ⊢
  rw [settle_attn]
  exact h1

theorem settle_complete_raisedTimes (hn : u.n = s.n) (hl : u.l = s.l)
    (hfresh : ∀ l, (u.lane l).phase.freshOpening = false) {k : AttnKind} {n : Nat} (h : s.RaisedTimes u k n)
    (hc : k ≠ .entryClosureLost) (ha : k ≠ .aspectFailed) : s.RaisedTimes (settle s (u.complete f r)) k n := by
  have hn' : (u.complete f r).n = s.n := hn
  have hl' : (u.complete f r).l = s.l := hl
  have h' : s.RaisedTimes (u.complete f r) k n := h
  exact settle_raisedTimes hn' hl' (complete_failures f r hfresh) h' hc ha

/-- Where no opening fails, the engine is as the event left it. -/
theorem settle_complete_engine (hfresh : ∀ l, (u.lane l).phase.freshOpening = false) :
    (settle s (u.complete f r)).engine = u.engine := by
  rw [settle_engine, settledEngine_of_nil (complete_failures f r hfresh)]
  rfl

/-- Completing with a reply changes no input of resolution. -/
theorem completed_resolveTable : (u.complete f r).resolveTable = u.resolveTable :=
  SameDemands.resolveTable ⟨rfl, rfl, rfl, fun _ _ _ => rfl, fun _ => rfl, fun _ => rfl, fun _ => rfl, fun _ => rfl,
    fun _ _ => rfl⟩

/-- Where no opening fails, the head table is the one that the state the event left calls for. -/
theorem settle_complete_resolver (hfresh : ∀ l, (u.lane l).phase.freshOpening = false) :
    (settle s (u.complete f r)).resolver = { u.resolver with heads := u.resolveTable } := by
  rw [settle_resolver_kept (complete_failures f r hfresh), completed_resolveTable]
  rfl

end Commands

/-! ### The records of a head table -/

theorem State.mem_resolveChain (s : State) {lane : Nat} {f : Face} {j : Nat} {r : HeadRec}
    (h : r ∈ s.resolveChain lane f j) : ∃ hd c, r = s.resolveHead hd c := by
  induction j with
  | zero => cases h
  | succ j ih =>
    rw [State.resolveChain_succ] at h
    rcases List.mem_cons.1 h with rfl | h
    · exact ⟨_, _, rfl⟩
    · exact ih h

/-- Each record of the table that a state calls for is resolved from that state. -/
theorem State.tableAt_resolveTable {s : State} {n : Nat} {h : HeadRef} {r : HeadRec}
    (hr : tableAt s.resolveTable n h = some r) : ∃ hd c, r = s.resolveHead hd c := by
  unfold tableAt at hr
  by_cases hi : 2 * h.lane + h.face.code < s.resolveTable.length
  · rw [List.getD_eq_getElem _ _ hi] at hr
    obtain ⟨i, -, he⟩ := List.mem_map.1 (List.getElem_mem hi)
    rw [← he] at hr
    exact s.mem_resolveChain (List.mem_of_getElem? hr)
  · rw [List.getD_eq_default _ _ (by omega)] at hr
    cases hr

end Sys2Proof.Machine
end

