-- ==== Sys2Proof/Proofs/StopCommand.lean ====
section
/-! PROOFS. STOP (O30). -/

namespace Sys2Proof.Machine

/-! ### Tasks that end together -/

section EndTasks

variable (s : State) (o : TaskOutcome)

/-- The tasks of a list end, oldest first. -/
def State.endTasks (s : State) (ts : List Task) (o : TaskOutcome) : State := ts.foldl (fun s t => s.endTask t o none) s

theorem State.endTasks_append (ts : List Task) (t : Task) :
    s.endTasks (ts ++ [t]) o = (s.endTasks ts o).endTask t o none := by
  simp [State.endTasks, List.foldl_append]

/-- A lane's last outcome after tasks have ended is that of its last one (R44). -/
theorem State.endTasks_lane (ts : List Task) (l : Nat) :
    (s.endTasks ts o).lane l =
      { s.lane l with
        last := match (ts.filter fun u => u.lane == l).getLast? with
          | some u => some (s.outcomeOf u o none)
          | none => (s.lane l).last } := by
  induction ts using List.reverseRecOn with
  | nil => rfl
  | append_singleton ts t ih =>
    have hst : (s.endTasks ts o).stamp = s.stamp := (endTasks_step s ts o).stamp
    rw [State.endTasks_append, State.endTask_lane, hst, List.filter_append]
    by_cases h : l = t.lane
    · subst h
      rw [if_pos rfl, ih]
      simp [State.outcomeOf]
    · rw [if_neg h, ih]
      simp [Ne.symm h]

/-- Tasks that end other than DONE raise TASK_UNSUCCESSFUL, once each (R44). -/
theorem State.endTasks_raises (ho : o ≠ .done) (ts : List Task) :
    Raises s (s.endTasks ts o) [.taskUnsuccessful] := by
  induction ts generalizing s with
  | nil => exact .refl s
  | cons t ts ih =>
    have hw : Raises s (s.writeOutcome t.lane ⟨t.kind, t.origin, t.plan, o, none, s.stamp⟩) [.taskUnsuccessful] :=
      .of_same rfl rfl rfl
    have ht := hw.trans (.raise _ (k := .taskUnsuccessful) (by simp))
    have he : s.endTask t o none =
        (s.writeOutcome t.lane ⟨t.kind, t.origin, t.plan, o, none, s.stamp⟩).raise .taskUnsuccessful := by
      unfold State.endTask
      rw [if_neg ho]
    have h1 : Raises s (s.endTask t o none) [.taskUnsuccessful] := by rw [he]; exact ht
    exact h1.trans (ih _)

theorem State.endTasks_raisedTimes (ho : o ≠ .done) (ts : List Task) :
    s.RaisedTimes (s.endTasks ts o) .taskUnsuccessful ts.length := by
  induction ts generalizing s with
  | nil => exact .refl s _
  | cons t ts ih =>
    have h := (endTask_raisedTimes s t o none).trans (n := ts.length) (u := (s.endTask t o none).endTasks ts o)
    rw [if_neg ho] at h
    rw [List.length_cons, Nat.add_comm]
    exact h (ih _)

theorem State.endTasks_host (ts : List Task) : ∃ m, (s.endTasks ts o).host = { s.host with noticePending := m } :=
  ⟨_, congrArg (·.host) (endTasks_step s ts o)⟩

end EndTasks

/-! ### Entering STANDBY -/

theorem State.enterStandby_eq (s : State) :
    s.enterStandby =
      { (s.setQueue []).endTasks s.engine.queue .cancelled with resolver.overrides := [], config.mode := .standby } := by
  unfold State.enterStandby State.removeQueued
  simp [State.endTasks]

section EnterStandby

variable (s : State)

/-- The engine as STOP leaves it, before the mode changes. -/
def State.cancelled (s : State) : State := (s.setQueue []).endTasks s.engine.queue .cancelled

theorem cancelled_step : EngineStep s s.cancelled := (setQueue_step s []).trans (endTasks_step _ _ _)

theorem State.enterStandby_config : s.enterStandby.config = { s.config with mode := .standby } := by
  rw [State.enterStandby_eq]
  exact congrArg (fun c : ConfigStore => { c with mode := .standby }) (cancelled_step s).config

theorem State.enterStandby_lane (l : Nat) : s.enterStandby.lane l = s.cancelled.lane l := by
  rw [State.enterStandby_eq]; rfl

theorem State.enterStandby_phase (l : Nat) : (s.enterStandby.lane l).phase = (s.lane l).phase :=
  State.removeQueued_phase s _ _ l

theorem State.enterStandby_queue : s.enterStandby.engine.queue = [] := by
  refine (State.removeQueued_queue s (fun _ => true) .cancelled).trans ?_
  simp

theorem State.enterStandby_plans : s.enterStandby.engine.plans = s.engine.plans := by
  rw [State.enterStandby_eq]
  show (s.engine.queue.foldl _ (s.setQueue [])).engine.plans = _
  generalize s.engine.queue = ts
  have h : ∀ u : State, (u.endTasks ts .cancelled).engine.plans = u.engine.plans := by
    induction ts with
    | nil => exact fun _ => rfl
    | cons t ts ih => exact fun u => (ih (u.endTask t .cancelled none)).trans (u.endTask_plans _ _ _)
  exact h _

theorem State.enterStandby_resolver : s.enterStandby.resolver = { s.resolver with overrides := [] } := by
  rw [State.enterStandby_eq]
  exact congrArg (fun c : Resolver => { c with overrides := [] }) (cancelled_step s).resolver

theorem State.enterStandby_attn : s.enterStandby.attn = s.cancelled.attn := by
  rw [State.enterStandby_eq]; rfl

theorem State.enterStandby_host : s.enterStandby.host = s.cancelled.host := by
  rw [State.enterStandby_eq]; rfl

theorem State.cancelled_host : ∃ m, s.cancelled.host = { s.host with noticePending := m } :=
  State.endTasks_host (s.setQueue []) _ _

theorem State.enterStandby_raises : Raises s s.enterStandby [.taskUnsuccessful] := by
  have hq : Raises s (s.setQueue []) [.taskUnsuccessful] := .of_same rfl rfl rfl
  have h : Raises s s.cancelled [.taskUnsuccessful] := hq.trans (State.endTasks_raises _ .cancelled (by decide) _)
  exact h.trans (.of_same s.enterStandby_attn (by rw [s.enterStandby_host]) (by rw [s.enterStandby_host]))

theorem State.enterStandby_raisedTimes :
    s.RaisedTimes s.enterStandby .taskUnsuccessful s.engine.queue.length := by
  have h : s.RaisedTimes s.cancelled .taskUnsuccessful s.engine.queue.length :=
    State.RaisedTimes.after (.of_attn (t := s.setQueue []) rfl) (State.endTasks_raisedTimes _ _ (by decide) _)
  exact h.before (.of_attn s.enterStandby_attn)

/-- In STANDBY without a lamp test every head is asked for SHUT (R70, R71). -/
theorem State.resolveHead_standby {v : State} (hm : v.config.mode = .standby) (ht : v.resolver.lampTest = none)
    (h : HeadRef) (c : Bool) : (v.resolveHead h c).effective = .shut := by
  unfold State.resolveHead State.lampTestDemand
  rw [hm, ht]
  rfl

end EnterStandby

/-! ### STOP -/

theorem actStop_refused {s : State} {l : Nat} (hl : l < s.l) (h : (s.lane l).phase ≠ .shut) (b : List Octet) :
    actStop s b = ⟨s, ⟨20, [0, 0]⟩⟩ := by
  have hns : s.allShut = false := by
    unfold State.allShut
    rw [List.all_eq_false]
    exact ⟨l, List.mem_range.2 hl, by simpa using h⟩
  unfold actStop
  rw [hns]
  rfl

theorem actStop_taken {s : State} (h : ∀ l, l < s.l → (s.lane l).phase = .shut) (b : List Octet) :
    actStop s b = ⟨s.enterStandby, ⟨0, []⟩⟩ := by
  have hall : s.allShut = true := by
    unfold State.allShut
    rw [List.all_eq_true]
    exact fun l hl => by rw [h l (List.mem_range.1 hl)]; rfl
  have hnone : s.sweepLane = none := by
    unfold State.sweepLane
    rw [List.find?_eq_none]
    exact fun l hl => by rw [h l (List.mem_range.1 hl)]; decide
  unfold actStop State.activeTask
  rw [hall, hnone]
  rfl

/-- Settles O30: with every lane SHUT the event fails no opening, and raises TASK_UNSUCCESSFUL for each queued task. -/
theorem stop : Obligations.Stop := by
  intro s hm
  refine ⟨fun ⟨l, hl, h⟩ => ?_, fun h => ?_⟩
  · exact answers_of (len := 0) (modes := .runOnly) (act := actStop) (fun _ => rfl) rfl (by rw [hm]; rfl)
      (actStop_refused hl h _)
  refine performs_of_settle (len := 0) (modes := .runOnly) (act := actStop) (fun _ => rfl) rfl (by rw [hm]; rfl)
    (actStop_taken h _) (by rw [s.enterStandby_host]; exact s.cancelled_host) fun hg hs f r => ?_
  have hshut : ∀ l, (s.lane l).phase = .shut := fun l => by
    by_cases hl : l < s.l
    · exact h l hl
    · rw [hg.lanes.outside l (by omega)]; rfl
  have hfresh : ∀ l, (s.enterStandby.lane l).phase.freshOpening = false := fun l => by
    rw [s.enterStandby_phase, hshut]; rfl
  have hn : s.enterStandby.n = s.n := by unfold State.n; rw [s.enterStandby_config]
  have hl : s.enterStandby.l = s.l := by unfold State.l; rw [s.enterStandby_config]
  have hrest := settle_complete_keeps f r hg hs hn hl hfresh
    (by rw [s.enterStandby_eq]; exact (cancelled_step s).lamps) (by rw [s.enterStandby_eq]; exact (cancelled_step s).link)
    (by rw [s.enterStandby_host]; exact s.cancelled_host) s.enterStandby_raises (by decide) (by decide)
  have hengine := settle_complete_engine (s := s) f r hfresh
  have hresolver := settle_complete_resolver (s := s) f r hfresh
  have hlane : ∀ l, (settle s (s.enterStandby.complete f r)).lane l = s.enterStandby.lane l := fun l => by
    unfold State.lane; rw [hengine]
  refine ⟨?_, ?_, ?_, ?_, ?_, ?_, ?_, ?_, ?_, ?_, ?_, hrest.lamps, hrest.link, hrest.port, hrest.flags⟩
  · rw [settle_config, State.complete_config, s.enterStandby_config]
  · rw [hengine, s.enterStandby_queue]
  · rw [hengine, s.enterStandby_plans]
  · rw [hresolver, s.enterStandby_resolver]
  · rw [hresolver, s.enterStandby_resolver]
  · exact (hrest.flags.kept _ (by decide) (by decide) (by decide)).1
  · refine State.RaisedTimes.atLeast ?_ le_rfl
    exact settle_complete_raisedTimes f r hn hl hfresh s.enterStandby_raisedTimes (by decide) (by decide)
  · intro l
    rw [hlane, s.enterStandby_lane]
    exact State.endTasks_lane (s.setQueue []) .cancelled s.engine.queue l
  · intro h r' hr
    unfold State.headRec at hr
    rw [hresolver] at hr
    obtain ⟨hd, c, rfl⟩ := State.tableAt_resolveTable hr
    exact State.resolveHead_standby (by rw [s.enterStandby_config])
      (by rw [s.enterStandby_resolver]; exact hg.lanes.untested hm) hd c
  · rw [settle_sigs, State.complete_sigs, s.enterStandby_eq]
    exact (cancelled_step s).sigs
  · rw [settle_time, State.complete_time, s.enterStandby_eq]
    exact (cancelled_step s).time

end Sys2Proof.Machine
end

