-- ==== Sys2Proof/Proofs/StartCommand.lean ====
section
/-! PROOFS. START (O29). -/

namespace Sys2Proof.Machine

/-! ### The checks of START (R12) -/

section Checks

variable {s : State}

/-- A plan gives a lane a target against its kind (R12, check 4). -/
theorem State.contradicts_iff (id l : Nat) : s.contradicts (s.target id l) l = true ↔ ∃ c, s.laneCfg l = some c ∧
    ((c.kind = .fixedA ∧ s.target id l = .dir .b) ∨ (c.kind = .fixedB ∧ s.target id l = .dir .a)) := by
  unfold State.contradicts State.barredDirection
  cases hc : s.laneCfg l with
  | none => cases s.target id l <;> simp
  | some c =>
    obtain ⟨kind, _, _⟩ := c
    cases s.target id l with
    | dir d => cases kind <;> cases d <;> simp
    | shut => cases kind <;> simp
    | keep => cases kind <;> simp

theorem State.planInconsistent_iff (id : Nat) : s.planInconsistent id = true ↔ ∃ l, l < s.l ∧ ∃ c, s.laneCfg l = some c ∧
    ((c.kind = .fixedA ∧ s.target id l = .dir .b) ∨ (c.kind = .fixedB ∧ s.target id l = .dir .a)) := by
  unfold State.planInconsistent State.laneNumbers
  simp only [List.any_eq_true, List.mem_range, State.contradicts_iff]

theorem startFault_tunnel (h : s.config.records.tunnel.written ≠ true) : s.startFault = some .tunnel := by
  unfold State.startFault; simp [h]

/-- The first lane or station whose record is missing. -/
theorem find_missing {α : Type} {n i : Nat} {f : Nat → Option α} (hi : i < n) (h : f i = none)
    (hb : ∀ j, j < i → f j ≠ none) : (List.range n).find? (fun j => (f j).isNone) = some i := by
  rw [List.find?_range_eq_some]
  refine ⟨by rw [h]; rfl, List.mem_range.2 hi, fun j hj => ?_⟩
  rw [Bool.not_eq_true', Option.isNone_eq_false_iff, Option.isSome_iff_ne_none]
  exact hb j hj

theorem find_complete {α : Type} {n : Nat} {f : Nat → Option α} (h : ∀ i, i < n → f i ≠ none) :
    (List.range n).find? (fun j => (f j).isNone) = none := by
  rw [List.find?_eq_none]
  intro i hi
  simpa [Option.isNone_iff_eq_none] using h i (List.mem_range.1 hi)

theorem startFault_lane (hw : s.config.records.tunnel.written = true) {l : Nat} (hl : l < s.l) (h : s.laneCfg l = none)
    (hb : ∀ m, m < l → s.laneCfg m ≠ none) : s.startFault = some (.lane l) := by
  unfold State.startFault State.laneNumbers
  simp [hw, find_missing hl h hb]

variable (hw : s.config.records.tunnel.written = true) (hlanes : ∀ l, l < s.l → s.laneCfg l ≠ none)
include hw hlanes

theorem startFault_station {k : Nat} (hk : k < s.n) (h : s.stationCfg k = none)
    (hb : ∀ j, j < k → s.stationCfg j ≠ none) : s.startFault = some (.station k) := by
  unfold State.startFault State.laneNumbers State.stationNumbers
  simp [hw, find_complete hlanes, find_missing hk h hb]

variable (hstations : ∀ k, k < s.n → s.stationCfg k ≠ none)
include hstations

theorem startFault_plans :
    s.startFault = ((List.range' 1 Config.planCount).find? s.planInconsistent).map .plan := by
  unfold State.startFault State.laneNumbers State.stationNumbers
  simp [hw, find_complete hlanes, find_complete hstations]

theorem startFault_plan {id : Nat} (h1 : 1 ≤ id) (h8 : id ≤ 8) (h : s.planInconsistent id = true)
    (hb : ∀ j, 1 ≤ j → j < id → s.planInconsistent j = false) : s.startFault = some (.plan id) := by
  have hf : (List.range' 1 Config.planCount).find? s.planInconsistent = some id := by
    rw [List.find?_range'_eq_some]
    exact ⟨h, List.mem_range'_1.2 ⟨h1, by show id < 1 + 8; omega⟩, fun j hj hlt => by rw [hb j hj hlt]; rfl⟩
  rw [startFault_plans hw hlanes hstations, hf]
  rfl

theorem startFault_none (h : ∀ id, 1 ≤ id → id ≤ 8 → s.planInconsistent id = false) : s.startFault = none := by
  rw [startFault_plans hw hlanes hstations, Option.map_eq_none_iff, List.find?_eq_none]
  intro id hid
  obtain ⟨h1, h2⟩ := List.mem_range'_1.1 hid
  have h8 : id < 1 + 8 := h2
  rw [h id h1 (by omega)]
  decide

end Checks

/-- A START that a check refuses keeps the record that fails, and changes nothing else (R12, R14). -/
theorem start_refused {s : State} {f : ConfigFault} (hm : s.config.mode = .standby) (hf : s.startFault = some f)
    (tag : Octet) (ht : s.takes (commandFrame 13 tag [])) :
    exec (.start tag []) s =
      ({ s with config.startRefusal := some f } : State).replies (commandFrame 13 tag []) 31
        [octet f.detail.1, octet f.detail.2] :=
  runCommand_of_quiet (act := actStart) (modes := .standbyOnly) (len := 0) ht rfl (by rw [hm]; rfl)
    (by unfold actStart; rw [hf]; rfl) (.of_same rfl rfl rfl rfl rfl rfl rfl rfl)

/-! ### Entering RUN -/

section EnterRun

variable (s : State)

theorem State.startLanes_frame (ls : List Nat) : s.startLanes ls = { s with engine := (s.startLanes ls).engine } := by
  induction ls generalizing s with
  | nil => rfl
  | cons l ls ih => exact (ih (s.setLane l (s.lane l).started)).trans rfl

/-- The lamp test that START ends (R100). -/
def Resolver.started (r : Resolver) : Resolver :=
  { r with
    lampTest := none
    lampLast := match r.lampTest with
      | some x => some ⟨x.station, x.face, x.aspect, .start⟩
      | none => r.lampLast }

theorem State.endLampTest_started : s.endLampTest .start = { s with resolver := s.resolver.started } := by
  obtain ⟨_, _, _, ⟨_, _, _, test, _⟩, _, _, _, _, _, _, _⟩ := s
  cases test <;> rfl

theorem State.enterRun_frame :
    s.enterRun =
      { s with
        config := { s.config with mode := .run, startRefusal := none }
        engine := ((s.startLanes s.laneNumbers).setQueue []).engine
        resolver := s.resolver.started } := by
  rw [State.enterRun_eq, State.endLampTest_started, State.startLanes_frame]
  rfl

theorem State.enterRun_lane (hg : s.Good) (l : Nat) :
    s.enterRun.lane l = { phase := .shut, timer := none, emergency := false, last := (s.lane l).last } := by
  have h : s.enterRun.lane l = (s.startLanes s.laneNumbers).lane l := by rw [State.enterRun_frame]; rfl
  rw [h, State.startLanes_lane _ _ _ hg.lanes_wf]
  split
  · rfl
  · rename_i hl
    rw [hg.lanes.outside l (by simpa [State.laneNumbers] using hl)]
    rfl

end EnterRun

/-- Settles O29: a refused START is quiet, and an accepted one leaves no lane that could fail. -/
theorem start : Obligations.Start := by
  intro s hm
  refine ⟨fun hw => ?_, fun hw l hl h hb => ?_, fun hw hlanes k hk h hb => ?_, fun hw hlanes hst id h1 h8 h hb => ?_,
    fun hw hlanes hst hok => ?_⟩
  · exact start_refused hm (startFault_tunnel hw)
  · exact start_refused hm (startFault_lane hw hl h hb)
  · exact start_refused hm (startFault_station hw hlanes hk h hb)
  · refine start_refused hm (startFault_plan hw hlanes hst h1 h8 ((s.planInconsistent_iff id).2 h) fun j hj hlt => ?_)
    rw [← Bool.not_eq_true, s.planInconsistent_iff]
    rintro ⟨l, hl, hc⟩
    exact hb j hj hlt l hl hc
  have hfault : s.startFault = none := startFault_none hw hlanes hst fun id h1 h8 => by
    rw [← Bool.not_eq_true, s.planInconsistent_iff]
    rintro ⟨l, hl, hc⟩
    exact hok id h1 h8 l hl hc
  refine performs_of_settle (len := 0) (modes := .standbyOnly) (act := actStart) (fun _ => rfl) rfl (by rw [hm]; rfl)
    (u := s.enterRun) (by unfold actStart; rw [hfault]; rfl) ⟨_, by rw [s.enterRun_frame]⟩ fun hg hs f r => ?_
  have hlane : ∀ l, s.enterRun.lane l = _ := s.enterRun_lane hg
  have hfresh : ∀ l, (s.enterRun.lane l).phase.freshOpening = false := fun l => by rw [hlane]; rfl
  have hrest := settle_complete_keeps f r hg hs (u := s.enterRun) (kinds := []) (by rw [s.enterRun_frame]; rfl)
    (by rw [s.enterRun_frame]; rfl) hfresh (by rw [s.enterRun_frame]) (by rw [s.enterRun_frame])
    ⟨_, by rw [s.enterRun_frame]⟩ (.of_same (by rw [s.enterRun_frame]) (by rw [s.enterRun_frame]) (by rw [s.enterRun_frame]))
    (by simp) (by simp)
  have hengine := settle_complete_engine (s := s) f r hfresh
  have hresolver := settle_complete_resolver (s := s) f r hfresh
  have hlane' : ∀ l, (settle s (s.enterRun.complete f r)).lane l = s.enterRun.lane l := fun l => by
    unfold State.lane; rw [hengine]
  refine ⟨?_, fun l => (hlane' l).trans (hlane l), ?_, ?_, ?_, ?_, ?_, ?_, ?_, ?_, ?_, ?_, hrest.lamps, hrest.link,
    hrest.port, hrest.flags⟩
  · rw [settle_config, State.complete_config, s.enterRun_frame]
  · rw [hengine, s.enterRun_frame]; rfl
  · rw [hengine, s.enterRun_frame]; exact s.startLanes_plans _
  · have hfree : (settle s (s.enterRun.complete f r)).sweepLane = none := by
      unfold State.sweepLane
      rw [List.find?_eq_none]
      intro l _
      rw [hlane', hlane]
      exact Bool.false_ne_true
    unfold State.activeTask
    rw [hfree]
    rfl
  · rw [hresolver, s.enterRun_frame]; rfl
  · rw [hresolver, s.enterRun_frame]; exact (hg.lanes.standby hm).2.2
  · rw [hresolver, s.enterRun_frame]; rfl
  · rw [hresolver, s.enterRun_frame]; rfl
  · exact (hrest.flags.kept _ (by simp) (by decide) (by decide)).1
  · rw [settle_sigs, State.complete_sigs, s.enterRun_frame]
  · rw [settle_time, State.complete_time, s.enterRun_frame]

end Sys2Proof.Machine
end

