-- ==== Sys2Proof/Proofs/TunnelFrame.lean ====
section
/-! PROOFS. What an accepted SET-TUNNEL touches, and how FLASH_SYNC follows the role. -/

namespace Sys2Proof.Machine

/-! ### What a SET-TUNNEL can do (R4, R5, R172) -/

/-- `t` differs from `s` at most in the displayed aspects, the Lamp Proving Unit's records, the gantry link, the latched and
repeat flags and the pending-notice marker. -/
def SectionStep (s t : State) : Prop :=
  t = { s with
    resolver := { s.resolver with displayed := t.resolver.displayed }
    lamps := t.lamps
    link := t.link
    attn := { s.attn with latched := t.attn.latched, rep := t.attn.rep }
    host := { s.host with noticePending := t.host.noticePending } }

namespace SectionStep

variable {s t u : State}

theorem refl (s : State) : SectionStep s s := rfl

theorem trans (h : SectionStep s t) (k : SectionStep t u) : SectionStep s u := by
  unfold SectionStep at *
  rw [h] at k
  exact k

theorem config (h : SectionStep s t) : t.config = s.config := by rw [h]
theorem engine (h : SectionStep s t) : t.engine = s.engine := by rw [h]
theorem sigs (h : SectionStep s t) : t.sigs = s.sigs := by rw [h]
theorem time (h : SectionStep s t) : t.time = s.time := by rw [h]
theorem overrides (h : SectionStep s t) : t.resolver.overrides = s.resolver.overrides := by rw [h]
theorem lampTest (h : SectionStep s t) : t.resolver.lampTest = s.resolver.lampTest := by rw [h]
theorem lampLast (h : SectionStep s t) : t.resolver.lampLast = s.resolver.lampLast := by rw [h]
theorem enabled (h : SectionStep s t) : t.attn.enabled = s.attn.enabled := by rw [h]
theorem host (h : SectionStep s t) : ∃ m, t.host = { s.host with noticePending := m } := ⟨_, congrArg (·.host) h⟩

end SectionStep

section Steps

variable (s : State)

theorem emptyAccs_section (p : Nat → Bool) : SectionStep s (s.emptyAccs p) := rfl

theorem newHeadSet_section : SectionStep s s.newHeadSet := rfl

theorem resetStation_section (k : Nat) : SectionStep s (s.resetStation k) := by
  unfold State.resetStation
  dsimp only
  split <;> rfl

theorem resetStations_section : SectionStep s s.resetStations := by
  have h : ∀ (ks : List Nat) (u : State), SectionStep u (ks.foldl State.resetStation u) := by
    intro ks
    induction ks with
    | nil => exact .refl
    | cons k ks ih => exact fun u => (resetStation_section u k).trans (ih _)
  have hlink : ∀ u : State, SectionStep u { u with link.west.due := [], link.east.due := [] } := fun _ => rfl
  exact (h s.stationNumbers s).trans (hlink _)

theorem raise_section (k : AttnKind) : SectionStep s (s.raise k) := by
  unfold SectionStep State.raise
  split <;> rfl

theorem raiseIf_section (c : Bool) (k : AttnKind) : SectionStep s (s.raiseIf c k) := by
  cases c
  · exact .refl s
  · exact raise_section s k

theorem raiseNewConditions_section (u : State) : SectionStep s (s.raiseNewConditions u) :=
  (((raiseIf_section s _ _).trans (raiseIf_section _ _ _)).trans (raiseIf_section _ _ _)).trans (raiseIf_section _ _ _)

/-- An accepted SET-TUNNEL writes the records, takes the FLASH_SYNC role, and then does to the section what a change of N or
L asks, or empties the accumulators that see a new dim level. -/
theorem applyTunnel_section (t : Tunnel) : SectionStep (s.writeTunnel t).followRole (s.applyTunnel t) := by
  have h2 : SectionStep (s.writeTunnel t).followRole
      (if s.n = t.n then (s.writeTunnel t).followRole else (s.writeTunnel t).followRole.resetStations) := by
    split
    · exact .refl _
    · exact resetStations_section _
  unfold State.applyTunnel
  dsimp only
  split
  · exact h2.trans (emptyAccs_section _ _)
  · exact (h2.trans (newHeadSet_section _)).trans (raiseNewConditions_section _ _)

/-- The FLASH_SYNC line follows the role, and nothing else (R172). -/
theorem followRole_frame :
    s.followRole =
      { s with time := { s.time with
          line := s.followRole.time.line, lossTimer := s.followRole.time.lossTimer } } := by
  unfold State.followRole
  dsimp only
  split <;> rfl

theorem followRole_master (h : s.config.records.tunnel.role = .master) :
    s.followRole.time.line = .driving ∧ s.followRole.time.lossTimer = none := by
  unfold State.followRole
  dsimp only
  rw [h]
  exact ⟨rfl, rfl⟩

theorem followRole_joins (h : s.config.records.tunnel.role = .follower)
    (hl : s.time.line = .driving ∨ s.time.line = .notDriven) :
    s.followRole.time.line = .following ∧ s.followRole.time.lossTimer = some (3 * s.config.records.tunnel.halfPeriod) := by
  unfold State.followRole
  dsimp only
  rcases hl with hl | hl <;> rw [h, hl] <;> exact ⟨rfl, rfl⟩

theorem followRole_stays (h : s.config.records.tunnel.role = .follower)
    (hl : s.time.line = .following ∨ s.time.line = .freeRunning) :
    s.followRole.time.line = s.time.line ∧ s.followRole.time.lossTimer = s.time.lossTimer := by
  unfold State.followRole
  dsimp only
  rcases hl with hl | hl <;> rw [h, hl] <;> exact ⟨hl, rfl⟩

theorem followRole_released (h : s.config.records.tunnel.role = .follower) : s.followRole.time.line ≠ .driving := by
  unfold State.followRole
  dsimp only
  rw [h]
  split <;> rename_i hr hl <;> simp_all

end Steps

end Sys2Proof.Machine
end

