-- ==== Sys2Proof/Proofs/TunnelCommand.lean ====
section
/-! PROOFS. SET-TUNNEL (O25). -/

namespace Sys2Proof.Machine

/-! ### An accepted SET-TUNNEL -/

section Accepted

variable (s : State) (t : Tunnel)

theorem followRole_config (u : State) : u.followRole.config = u.config := by rw [followRole_frame]
theorem followRole_engine (u : State) : u.followRole.engine = u.engine := by rw [followRole_frame]
theorem followRole_resolver (u : State) : u.followRole.resolver = u.resolver := by rw [followRole_frame]
theorem followRole_lamps (u : State) : u.followRole.lamps = u.lamps := by rw [followRole_frame]
theorem followRole_link (u : State) : u.followRole.link = u.link := by rw [followRole_frame]
theorem followRole_attn (u : State) : u.followRole.attn = u.attn := by rw [followRole_frame]
theorem followRole_host (u : State) : u.followRole.host = u.host := by rw [followRole_frame]
theorem followRole_sigs (u : State) : u.followRole.sigs = u.sigs := by rw [followRole_frame]

theorem applyTunnel_config : (s.applyTunnel t).config = (s.writeTunnel t).config :=
  (applyTunnel_section s t).config.trans (followRole_config _)

theorem applyTunnel_engine : (s.applyTunnel t).engine = (s.writeTunnel t).engine :=
  (applyTunnel_section s t).engine.trans (followRole_engine _)

theorem applyTunnel_time : (s.applyTunnel t).time = (s.writeTunnel t).followRole.time := (applyTunnel_section s t).time

theorem applyTunnel_host : ∃ m, (s.applyTunnel t).host = { s.host with noticePending := m } := by
  have h := (applyTunnel_section s t).host
  rwa [followRole_host] at h

/-- What the records of a table from a number on are after they have been discarded. -/
theorem Tab.get_eraseFrom {α : Type} {d : α} (tab : Tab α) (n j : Nat) :
    Tab.get d (Tab.eraseWhere (fun i => decide (n ≤ i)) tab) j = if j < n then Tab.get d tab j else d := by
  rw [Tab.get_eraseWhere]
  by_cases h : j < n
  · rw [if_neg (by simpa using h), if_pos h]
  · rw [if_pos (by simpa using h), if_neg h]

/-- The lane records that leave the section are discarded (R21). -/
theorem writeTunnel_lane (l : Nat) : (s.writeTunnel t).lane l = if l < t.l then s.lane l else LaneRec.reset :=
  Tab.get_eraseFrom s.engine.lanes t.l l

theorem writeTunnel_laneCfg (l : Nat) : (s.writeTunnel t).laneCfg l = if l < t.l then s.laneCfg l else none :=
  Tab.get_eraseFrom s.config.records.lanes t.l l

theorem writeTunnel_stationCfg (k : Nat) :
    (s.writeTunnel t).stationCfg k = if k < t.n then s.stationCfg k else none :=
  Tab.get_eraseFrom s.config.records.stations t.n k

theorem applyTunnel_lane (l : Nat) : (s.applyTunnel t).lane l = if l < t.l then s.lane l else LaneRec.reset := by
  unfold State.lane
  rw [applyTunnel_engine]
  exact writeTunnel_lane s t l

/-- In STANDBY no lane is opening, so a SET-TUNNEL fails no opening. -/
theorem applyTunnel_fresh (hg : s.Good) (hm : s.config.mode = .standby) (l : Nat) :
    ((s.applyTunnel t).lane l).phase.freshOpening = false := by
  rw [applyTunnel_lane]
  split
  · rw [(hg.lanes.standby hm).1 l]; rfl
  · rfl

section SameSection

variable {s t} (hn : t.n = s.n) (hl : t.l = s.l)
include hn hl

theorem applyTunnel_same : s.applyTunnel t = (s.writeTunnel t).followRole.emptyRelevelled s.config.dims := by
  unfold State.applyTunnel
  dsimp only
  rw [if_pos hn.symm, if_pos ⟨hn.symm, hl.symm⟩]

/-- With N and L kept, a SET-TUNNEL changes no input of resolution (R66). -/
theorem applyTunnel_demands (hg : s.Good) : SameDemands s (s.applyTunnel t) := by
  have hw : SameDemands s (s.writeTunnel t).followRole := by
    rw [followRole_frame]
    refine ⟨hn, hl, rfl, fun l f pos => ?_, fun _ => rfl, fun _ => rfl, fun _ => rfl, fun _ => rfl, fun _ _ => rfl⟩
    have h : (s.writeTunnel t).lane l = s.lane l := by
      rw [writeTunnel_lane]
      split
      · rfl
      · rw [hg.lanes.outside l (by omega)]
    exact congrArg (fun r : LaneRec => laneDemand r.phase f pos) h
  rw [applyTunnel_same hn hl]
  refine hw.trans (Quiet.emptyAccs _ _ ?_).demands
  rw [followRole_lamps]
  exact hg.strings_wf

theorem applyTunnel_kept :
    (s.applyTunnel t).link = s.link ∧ (s.applyTunnel t).resolver = s.resolver ∧ (s.applyTunnel t).attn = s.attn ∧
      (s.applyTunnel t).host = s.host ∧
      (s.applyTunnel t).lamps = { s.lamps with strings := (s.applyTunnel t).lamps.strings } := by
  have hlamps : (s.writeTunnel t).followRole.lamps = s.lamps := by rw [followRole_lamps]; rfl
  rw [applyTunnel_same hn hl]
  refine ⟨?_, ?_, ?_, ?_, ?_⟩
  · exact (State.emptyAccs_link _ _).trans (by rw [followRole_link]; rfl)
  · exact (State.emptyAccs_resolver _ _).trans (by rw [followRole_resolver]; rfl)
  · exact (State.emptyAccs_attn _ _).trans (by rw [followRole_attn]; rfl)
  · exact (State.emptyAccs_host _ _).trans (by rw [followRole_host]; rfl)
  · rw [← hlamps]; rfl

theorem applyTunnel_relevelled (hw : Tab.wf StringRec.reset s.lamps.strings = true) (key : Nat) :
    (s.applyTunnel t).string key =
      if s.stringKeyIn key = true ∧ (s.stationCfg (key / 120)).any (fun c =>
          s.config.dims.getD c.zone 0 != t.dims.getD c.zone 0) = true then (s.string key).emptied
      else s.string key := by
  have hw' : Tab.wf StringRec.reset (s.writeTunnel t).followRole.lamps.strings = true := by
    rw [followRole_lamps]; exact hw
  have hin : (s.writeTunnel t).followRole.stringKeyIn key = s.stringKeyIn key := by
    unfold State.stringKeyIn State.headKeyIn State.n State.l
    rw [followRole_config]
    show (decide (key / 10 / 12 < t.n) && decide (key / 10 % 12 / 2 < t.l)) = _
    rw [hn, hl]
    rfl
  have hstr : (s.writeTunnel t).followRole.string key = s.string key := by
    unfold State.string; rw [followRole_lamps]; rfl
  have hdims : (s.writeTunnel t).followRole.config.dims = t.dims := by rw [followRole_config]; rfl
  have hcfg : s.stringKeyIn key = true →
      (s.writeTunnel t).followRole.stationCfg (key / 120) = s.stationCfg (key / 120) := by
    intro hk
    unfold State.stringKeyIn State.headKeyIn at hk
    simp only [Bool.and_eq_true, decide_eq_true_eq] at hk
    have : (s.writeTunnel t).followRole.stationCfg (key / 120) = (s.writeTunnel t).stationCfg (key / 120) := by
      unfold State.stationCfg; rw [followRole_config]
    rw [this, writeTunnel_stationCfg, if_pos (by omega)]
  rw [applyTunnel_same hn hl, State.emptyRelevelled_string _ hw', hstr]
  unfold State.relevelled
  rw [hin, hdims]
  by_cases hk : s.stringKeyIn key = true
  · rw [hcfg hk, hk, Bool.true_and]; simp
  · simp [hk]

end SameSection

end Accepted

/-! ### The end of the event -/

/-- The end of an event leaves the notice mask (R192). -/
theorem settle_enabled (s a : State) : (settle s a).attn.enabled = a.attn.enabled := by
  have hflags : (settle s a).attn.enabled = (settleHeads s a).attn.enabled := by rw [settle_attn]
  have htable : (settleHeads s a).attn.enabled = (settledEngine s a).attn.enabled := by
    rw [settleHeads_frame]; exact (Raises.takeTable _ _ _ []).enabled
  rw [hflags, htable]
  exact (failOpenings_step a _).enabled

theorem settledTunnel_config (s : State) (t : Tunnel) (f : HostFrame) (r : Reply) :
    (settle s ((s.applyTunnel t).complete f r)).config = (s.writeTunnel t).config := by
  rw [settle_config, State.complete_config, applyTunnel_config]

theorem settledTunnel_time (s : State) (t : Tunnel) (f : HostFrame) (r : Reply) :
    (settle s ((s.applyTunnel t).complete f r)).time = (s.writeTunnel t).followRole.time := by
  rw [settle_time, State.complete_time, applyTunnel_time]

theorem State.flashSyncOut_released {v : State} (h : v.time.line ≠ .driving) : v.flashSyncOut = none := by
  unfold State.flashSyncOut
  split
  · contradiction
  all_goals rfl

theorem State.flashSyncOut_driven {v : State} (h : v.time.line = .driving) : v.flashSyncOut = some v.time.phase := by
  unfold State.flashSyncOut
  rw [h]

/-- FLASH_SYNC follows the role of the new record at once, and the rest of the time record stays (R172). -/
theorem settledTunnel_line (s : State) (t : Tunnel) (f : HostFrame) (r : Reply) :
    let v := settle s ((s.applyTunnel t).complete f r)
    v.time = { s.time with line := v.time.line, lossTimer := v.time.lossTimer } ∧
      (t.role = .master → v.time.line = .driving ∧ v.time.lossTimer = none ∧ v.flashSyncOut = some s.time.phase) ∧
      (t.role = .follower → v.flashSyncOut = none) ∧
      (t.role = .follower → (s.time.line = .driving ∨ s.time.line = .notDriven) →
        v.time.line = .following ∧ v.time.lossTimer = some (3 * t.halfPeriod)) ∧
      (t.role = .follower → (s.time.line = .following ∨ s.time.line = .freeRunning) →
        v.time.line = s.time.line ∧ v.time.lossTimer = s.time.lossTimer) := by
  have htime := settledTunnel_time s t f r
  have hframe : (s.writeTunnel t).followRole.time = { s.time with
      line := (s.writeTunnel t).followRole.time.line, lossTimer := (s.writeTunnel t).followRole.time.lossTimer } :=
    congrArg (·.time) (followRole_frame (s.writeTunnel t))
  have hphase : (settle s ((s.applyTunnel t).complete f r)).time.phase = s.time.phase := by rw [htime, hframe]
  refine ⟨by rw [htime]; exact hframe, fun hrole => ?_, fun hrole => ?_, fun hrole hline => ?_, fun hrole hline => ?_⟩
  · obtain ⟨hline, hloss⟩ := followRole_master (s.writeTunnel t) hrole
    rw [← htime] at hline hloss
    exact ⟨hline, hloss, hphase ▸ State.flashSyncOut_driven hline⟩
  · have hline := followRole_released (s.writeTunnel t) hrole
    rw [← htime] at hline
    exact State.flashSyncOut_released hline
  · rw [htime]; exact followRole_joins (s.writeTunnel t) hrole hline
  · rw [htime]; exact followRole_stays (s.writeTunnel t) hrole hline

/-- The records of lanes and stations that leave the section are discarded, and the engine's queue and plans stay (R4). -/
theorem settledTunnel_records {s : State} (hg : s.Good) (hm : s.config.mode = .standby) (t : Tunnel) (f : HostFrame)
    (r : Reply) :
    let v := settle s ((s.applyTunnel t).complete f r)
    (∀ l, v.laneCfg l = if l < t.l then s.laneCfg l else none) ∧
      (∀ k, v.stationCfg k = if k < t.n then s.stationCfg k else none) ∧
      (∀ l, v.lane l = if l < t.l then s.lane l else LaneRec.reset) ∧ v.engine.queue = s.engine.queue ∧
      v.engine.plans = s.engine.plans ∧ v.sigs = s.sigs := by
  have hconfig := settledTunnel_config s t f r
  have hengine : (settle s ((s.applyTunnel t).complete f r)).engine = (s.writeTunnel t).engine := by
    rw [settle_complete_engine f r (applyTunnel_fresh s t hg hm), applyTunnel_engine]
  refine ⟨fun l => ?_, fun k => ?_, fun l => ?_, ?_, ?_, ?_⟩
  · unfold State.laneCfg; rw [hconfig]; exact writeTunnel_laneCfg s t l
  · unfold State.stationCfg; rw [hconfig]; exact writeTunnel_stationCfg s t k
  · unfold State.lane; rw [hengine]; exact writeTunnel_lane s t l
  · rw [hengine]; rfl
  · rw [hengine]; rfl
  · rw [settle_sigs, State.complete_sigs, (applyTunnel_section s t).sigs, followRole_sigs]; rfl

/-- The override table, the lamp test and the notice mask stay. -/
theorem settledTunnel_resolver (s : State) (t : Tunnel) (f : HostFrame) (r : Reply) :
    let v := settle s ((s.applyTunnel t).complete f r)
    v.resolver.overrides = s.resolver.overrides ∧ v.resolver.lampTest = s.resolver.lampTest ∧
      v.resolver.lampLast = s.resolver.lampLast ∧ v.attn.enabled = s.attn.enabled := by
  have hstep := applyTunnel_section s t
  have hres : (s.writeTunnel t).followRole.resolver = s.resolver := by rw [followRole_resolver]; rfl
  have hattn : (s.writeTunnel t).followRole.attn = s.attn := by rw [followRole_attn]; rfl
  refine ⟨?_, ?_, ?_, ?_⟩
  · rw [settle_resolver, ← hres]; exact hstep.overrides
  · rw [settle_resolver, ← hres]; exact hstep.lampTest
  · rw [settle_resolver, ← hres]; exact hstep.lampLast
  · rw [settle_enabled, State.complete_attn, hstep.enabled, hattn]

/-- A SET-TUNNEL that keeps N and L raises nothing, and empties the accumulators of the zones it relevels (R108). -/
theorem settledTunnel_same {s : State} {t : Tunnel} (hn : t.n = s.n) (hl : t.l = s.l) (hg : s.Good) (hs : s.Settled)
    (hm : s.config.mode = .standby) (f : HostFrame) (r : Reply) :
    let v := settle s ((s.applyTunnel t).complete f r)
    s.KeepsFlags v [] ∧ v.link = s.link ∧ v.resolver = s.resolver ∧ v.lamps = { s.lamps with strings := v.lamps.strings } ∧
      ∀ key, v.string key =
        if s.stringKeyIn key = true ∧ (s.stationCfg (key / 120)).any (fun c =>
            s.config.dims.getD c.zone 0 != t.dims.getD c.zone 0) = true then (s.string key).emptied
        else s.string key := by
  have hfresh := applyTunnel_fresh s t hg hm
  have hd := applyTunnel_demands hn hl hg
  have hf := complete_failures (s := s) f r hfresh
  obtain ⟨hlink, hres, hattn, hhost, hlamps⟩ := applyTunnel_kept hn hl
  have hhost' : ∃ m, (s.applyTunnel t).host = { s.host with noticePending := m } := ⟨_, hhost⟩
  have hn' : ((s.applyTunnel t).complete f r).n = s.n := hd.n
  have hl' : ((s.applyTunnel t).complete f r).l = s.l := hd.l
  have hraises : Raises s (s.applyTunnel t) [] := .of_same hattn (by rw [hhost]) (by rw [hhost])
  have hlamps' : (settle s ((s.applyTunnel t).complete f r)).lamps = (s.applyTunnel t).lamps := by
    rw [settle_eq_lamps, settleHeads_kept hn' hl' hf, completed_resolveTable, hd.resolveTable, ← hs.heads,
      State.takeTable_self]
    exact State.complete_lamps _ f r
  refine ⟨?_, ?_, ?_, ?_, fun key => ?_⟩
  · exact settle_keepsFlags hs hn' hl' hf (hraises.complete f r) (by simp) (by simp) (chosen_notice hs hhost' f r)
  · exact settle_link_kept hs hn' ((State.complete_link _ f r).trans hlink)
  · rw [settle_complete_resolver f r hfresh, hd.resolveTable, ← hs.heads, hres]
  · rw [hlamps', hlamps]
  · unfold State.string
    rw [hlamps']
    exact applyTunnel_relevelled hn hl hg.strings_wf key

/-! ### What SET-TUNNEL checks -/

theorem setTunnel_clamped (b : List Octet) : tunnelClamped b = true ↔
    ¬((tunnelOf b).stepTime = oct2 b 2 ∧ (tunnelOf b).clearance = oct2 b 4 ∧ (tunnelOf b).confirm = oct2 b 6 ∧
      (tunnelOf b).lampWindow = oct2 b 8 ∧ (tunnelOf b).silence = oct2 b 10 ∧ (tunnelOf b).halfPeriod = oct2 b 14 ∧
      (tunnelOf b).dims = [oct b 17, oct b 18, oct b 19, oct b 20]) := by
  unfold tunnelClamped
  dsimp only
  rw [Bool.or_eq_true, bne_iff_ne, bne_iff_ne]
  simp only [List.cons.injEq, and_true, ne_eq]
  tauto

/-- The structural fields of a SET-TUNNEL (R3). -/
def tunnelTests (b : List Octet) : List (Bool × Nat) :=
  [(decide (2 ≤ oct b 0) && decide (oct b 0 ≤ 16), 0), (decide (1 ≤ oct b 1) && decide (oct b 1 ≤ 6), 1),
    (okBit (oct b 12), 12), (okBit (oct b 13), 13), (okBit (oct b 16), 16), (okBit (oct b 21), 21)]

theorem actSetTunnel_bad {s : State} {b : List Octet} {o : Nat} (h : firstBad (tunnelTests b) = some o) :
    actSetTunnel s b = badField s o := withFields_bad h

theorem actSetTunnel_busy {s : State} {b : List Octet} (h : firstBad (tunnelTests b) = none)
    (ht : s.resolver.lampTest.isSome = true) (hc : ¬(oct b 0 = s.n ∧ oct b 1 = s.l)) :
    actSetTunnel s b = ⟨s, ⟨21, [0, 0]⟩⟩ :=
  (withFields_good h).trans (if_pos ⟨ht, hc⟩)

theorem actSetTunnel_taken {s : State} {b : List Octet} (h : firstBad (tunnelTests b) = none)
    (ht : s.resolver.lampTest = none ∨ (oct b 0 = s.n ∧ oct b 1 = s.l)) :
    actSetTunnel s b = ⟨s.applyTunnel (tunnelOf b), ⟨if tunnelClamped b = true then 1 else 0, []⟩⟩ := by
  refine (withFields_good h).trans (if_neg ?_)
  rintro ⟨h1, h2⟩
  rcases ht with ht | ht
  · rw [ht] at h1; cases h1
  · exact h2 ht

/-- Settles O25: in STANDBY no opening can fail, so the end of the event keeps what `applyTunnel` writes. -/
theorem setTunnel : Obligations.SetTunnel := by
  intro s b hm hlen
  have hrow : ∀ tag, exec (.setTunnel tag b) s = runCommand 1 22 .standbyOnly actSetTunnel tag b s := fun _ => rfl
  have hmode : Modes.standbyOnly.accept s.config.mode = true := by rw [hm]; rfl
  have htests : [(decide (2 ≤ oct b 0 ∧ oct b 0 ≤ 16), 0), (decide (1 ≤ oct b 1 ∧ oct b 1 ≤ 6), 1),
      (decide (oct b 12 < 2), 12), (decide (oct b 13 < 2), 13), (decide (oct b 16 < 2), 16),
      (decide (oct b 21 < 2), 21)] = tunnelTests b := by
    simp only [tunnelTests, okBit, Bool.decide_and]
  dsimp only
  rw [htests]
  refine ⟨fun o ho => ?_, fun hb ht hc => ?_, fun hb ht status hst => ?_⟩
  · exact answers_of hrow hlen hmode (actSetTunnel_bad ho)
  · exact answers_of hrow hlen hmode (actSetTunnel_busy hb ht hc)
  have hstatus : status = if tunnelClamped b = true then 1 else 0 := by
    by_cases hc : tunnelClamped b = true
    · rw [if_pos hc]; exact hst.trans (if_neg ((setTunnel_clamped b).1 hc))
    · rw [if_neg hc]; exact hst.trans (if_pos (not_not.1 fun h => hc ((setTunnel_clamped b).2 h)))
  subst hstatus
  refine performs_of_settle hrow hlen hmode (actSetTunnel_taken hb ht) (applyTunnel_host s _) fun hg hs f r => ?_
  have hconfig := settledTunnel_config s (tunnelOf b) f r
  obtain ⟨hlanes, hstations, hlane, hqueue, hplans, hsigs⟩ := settledTunnel_records hg hm (tunnelOf b) f r
  obtain ⟨htime, hmaster, hreleased, hjoins, hstays⟩ := settledTunnel_line s (tunnelOf b) f r
  obtain ⟨hover, htest, hlast, hmask⟩ := settledTunnel_resolver s (tunnelOf b) f r
  refine ⟨?_, ?_, hlanes, hstations, hlane, hqueue, hplans, hsigs, htime, hmaster, hreleased, hjoins, hstays, hover, htest,
    hlast, settle_keepsPort (applyTunnel_host s _) f r, hmask, fun hn hl => settledTunnel_same hn hl hg hs hm f r⟩
  · rw [hconfig]; rfl
  · rw [hconfig]; rfl

end Sys2Proof.Machine
end

