-- ==== Sys2Proof/Proofs/LaneLaws.lean ====
section
/-! PROOFS. The laws of the lane records, with a law for the lane timers left open, and the Changeover Engine's operations
that keep them. -/

namespace Sys2Proof.Machine

/-! ### The tables of a good state -/

theorem State.Good.stations_wf {s : State} (h : s.Good) : Tab.wf (StationRec.reset .west) s.link.stations = true := by
  obtain ⟨-, ⟨-, -, -, hstations⟩, -⟩ := h.tables
  exact hstations

theorem State.Good.displayed_wf {s : State} (h : s.Good) : Tab.wf none s.resolver.displayed = true := by
  obtain ⟨⟨-, hdisplayed, -⟩, -⟩ := h.tables
  exact hdisplayed

theorem State.Good.entries_wf {s : State} (h : s.Good) : Tab.wf .unlearned s.sigs.entries = true := by
  obtain ⟨-, ⟨hentries, -⟩, -⟩ := h.tables
  exact hentries

/-! ### The ranges of the TUNNEL record -/

/-- The ranges that the timers and the section rest on (R4). -/
theorem Tunnel.legal_ranges {t : Tunnel} (h : t.legal = true) :
    (t.l ≤ 6 ∧ (0 < t.l → 2 ≤ t.n)) ∧ (2 ≤ t.stepTime ∧ t.stepTime ≤ 120) ∧ (10 ≤ t.clearance ∧ t.clearance ≤ 1800) ∧
      (30 ≤ t.confirm ∧ t.confirm ≤ 3600) ∧ (10 ≤ t.lampWindow ∧ t.lampWindow ≤ 300) ∧
      (2 ≤ t.silence ∧ t.silence ≤ 60) ∧ 250 ≤ t.halfPeriod ∧ t.halfPeriod ≤ 1000 := by
  simp only [Tunnel.legal, Bool.and_eq_true, and_assoc, beq_iff_eq] at h
  obtain ⟨hw, hstep, hclear, hconfirm, hlamp, hsilence, hhalf, -⟩ := h
  rw [within_iff] at hstep hclear hconfirm hlamp hsilence hhalf
  have hsection : t.l ≤ 6 ∧ (0 < t.l → 2 ≤ t.n) := by
    split at hw
    · simp only [Bool.and_eq_true, within_iff] at hw; omega
    · simp only [Bool.and_eq_true, beq_iff_eq] at hw; omega
  exact ⟨hsection, hstep, hclear, hconfirm, hlamp, hsilence, hhalf⟩

theorem Settings.Legal.tunnel {g : Settings} (h : g.Legal) : g.records.tunnel.legal = true :=
  ((ConfigImage.legal_iff _).1 h.image).1

/-! ### The laws -/

/-- A law for the lane timers that every time the engine starts a lane timer for obeys (R24). -/
def Admits (P : Nat → Nat → Prop) : Prop := ∀ l v, 1 ≤ v → v ≤ 3600000 → P l v

/-- The laws of the lane records, with what their proof rests on: the ranges of the configuration, the canonical form of
the table of lanes, and a law `P` of lane and remaining ms for the lane timers. -/
structure State.Lawful (P : Nat → Nat → Prop) (s : State) : Prop where
  settings : s.settings.Legal
  table : Tab.wf LaneRec.reset s.engine.lanes = true
  lanes : s.LanesLegal
  timer : ∀ l v, (s.lane l).timer = some v → P l v

namespace State.Lawful

variable {P Q : Nat → Nat → Prop} {s t : State}

theorem n_pos (h : s.Lawful P) {l : Nat} (hl : l < s.l) : 0 < s.n := by
  have hn : 0 < s.l → 2 ≤ s.n := (Tunnel.legal_ranges h.settings.tunnel).1.2
  omega

/-- A lane of the section carries every task that a lane carries (R20). -/
theorem carried_lt (h : s.Lawful P) {l : Nat} (hp : (s.lane l).phase ≠ .shut) : l < s.l := by
  by_contra hn
  exact hp (by rw [h.lanes.outside l (by omega)]; rfl)

/-- The laws read the section, the lanes, the queue, the mode and the tables of overrides and lamp tests, and ask the settings
to be legal. -/
theorem congr_of (h : s.Lawful P) (hset : t.settings.Legal) (hn : t.n = s.n) (hl : t.l = s.l)
    (hmode : t.config.mode = s.config.mode) (hlanes : t.engine.lanes = s.engine.lanes)
    (hqueue : t.engine.queue = s.engine.queue) (hover : s.resolver.overrides = [] → t.resolver.overrides = [])
    (htest : t.resolver.lampTest = s.resolver.lampTest ∨ t.resolver.lampTest = none) : t.Lawful P := by
  have hlane : ∀ l, t.lane l = s.lane l := fun l => by unfold State.lane; rw [hlanes]
  refine ⟨hset, hlanes ▸ h.table, ⟨?_, ?_, ?_, ?_, ?_, ?_, ?_, ?_⟩, fun l v => ?_⟩
  · simpa only [State.sweeps, hlane] using h.lanes.oneSweep
  · simpa only [hlane, hl] using h.lanes.outside
  · simpa only [hlane] using h.lanes.carried
  · simpa only [hlane, hn] using h.lanes.fronts
  · simpa only [hlane] using h.lanes.timers
  · simpa only [hqueue, hl] using h.lanes.queued
  · intro hm
    obtain ⟨hshut, hq, ho⟩ := h.lanes.standby (hmode ▸ hm)
    exact ⟨by simpa only [hlane] using hshut, hqueue.trans hq, hover ho⟩
  · intro hm
    rcases htest with ht | ht
    · exact ht.trans (h.lanes.untested (hmode ▸ hm))
    · exact ht
  · rw [hlane]; exact h.timer l v

theorem congr (h : s.Lawful P) (hset : t.settings = s.settings) (hmode : t.config.mode = s.config.mode)
    (hlanes : t.engine.lanes = s.engine.lanes) (hqueue : t.engine.queue = s.engine.queue)
    (hover : s.resolver.overrides = [] → t.resolver.overrides = [])
    (htest : t.resolver.lampTest = s.resolver.lampTest ∨ t.resolver.lampTest = none) : t.Lawful P :=
  h.congr_of (hset ▸ h.settings) (congrArg (·.records.tunnel.n) hset) (congrArg (·.records.tunnel.l) hset) hmode hlanes
    hqueue hover htest

theorem raise (h : s.Lawful P) (k : AttnKind) : (s.raise k).Lawful P := h.congr rfl rfl rfl rfl id (.inl rfl)

/-- A lane record is written: the law of the timers may be a new one for that lane. -/
theorem setLane_as (h : s.Lawful P) {l : Nat} {r : LaneRec} (hl : l < s.l)
    (hPQ : ∀ m v, m ≠ l → P m v → Q m v) (hQ : ∀ v, r.timer = some v → Q l v)
    (hsweep : r.phase.sweeping = true → ∀ m, s.sweeps m → m = l)
    (htask : ∀ t, r.phase.task = some t → t.lane = l) (hfront : ∀ f, r.phase.front = some f → f < s.n)
    (htimed : r.timer.isSome = r.phase.timed) (hmode : s.config.mode = .run ∨ r.phase = .shut) :
    (s.setLane l r).Lawful Q := by
  have hlane : ∀ m, (s.setLane l r).lane m = if m = l then r else s.lane m := fun m => s.setLane_lane l m r h.table
  have hother : ∀ m, m ≠ l → (s.setLane l r).sweeps m → s.sweeps m := fun m hm hs => by
    unfold State.sweeps at hs; rwa [hlane, if_neg hm] at hs
  have hself : (s.setLane l r).sweeps l → r.phase.sweeping = true := fun hs => by
    unfold State.sweeps at hs; rwa [hlane, if_pos rfl] at hs
  refine ⟨h.settings, Tab.wf_set h.table, ⟨?_, ?_, ?_, ?_, ?_, ?_, ?_, ?_⟩, ?_⟩
  · intro a b ha hb
    by_cases hal : a = l <;> by_cases hbl : b = l
    · rw [hal, hbl]
    · subst hal; exact (hsweep (hself ha) b (hother b hbl hb)).symm
    · subst hbl; exact hsweep (hself hb) a (hother a hal ha)
    · exact h.lanes.oneSweep a b (hother a hal ha) (hother b hbl hb)
  · intro m hm
    rw [hlane, if_neg (by rintro rfl; exact absurd hl (not_lt.2 hm))]
    exact h.lanes.outside m hm
  · intro m t ht
    rw [hlane] at ht
    split at ht
    · rename_i he; exact he ▸ htask t ht
    · exact h.lanes.carried m t ht
  · intro m f hf
    rw [hlane] at hf
    split at hf
    · exact hfront f hf
    · exact h.lanes.fronts m f hf
  · intro m
    rw [hlane]
    split
    · exact htimed
    · exact h.lanes.timers m
  · exact h.lanes.queued
  · intro hm
    obtain ⟨hshut, hq, ho⟩ := h.lanes.standby hm
    refine ⟨fun m => ?_, hq, ho⟩
    rw [hlane]
    split
    · exact hmode.resolve_left fun hr => by rw [show s.config.mode = .standby from hm] at hr; cases hr
    · exact hshut m
  · exact h.lanes.untested
  · intro m v hv
    rw [hlane] at hv
    split at hv
    · rename_i he; exact he ▸ hQ v hv
    · rename_i he; exact hPQ m v he (h.timer m v hv)

/-- The queue is written with tasks of lanes of the section; in STANDBY it stays empty (R48, R49). -/
theorem setQueue (h : s.Lawful P) {q : List Task} (hq : ∀ t ∈ q, t.lane < s.l)
    (hmode : s.config.mode = .standby → q = []) : (s.setQueue q).Lawful P :=
  ⟨h.settings, h.table,
    ⟨h.lanes.oneSweep, h.lanes.outside, h.lanes.carried, h.lanes.fronts, h.lanes.timers, hq,
      fun hm => ⟨(h.lanes.standby hm).1, hmode hm, (h.lanes.standby hm).2.2⟩, h.lanes.untested⟩, h.timer⟩

/-- A queue that keeps some of the queued tasks. -/
theorem setQueue_sub (h : s.Lawful P) {q : List Task} (hq : ∀ t ∈ q, t ∈ s.engine.queue) : (s.setQueue q).Lawful P :=
  h.setQueue (fun t ht => h.lanes.queued t (hq t ht)) fun hm =>
    List.eq_nil_iff_forall_not_mem.2 fun t ht => by simpa [(h.lanes.standby hm).2.1] using hq t ht

/-- A last outcome is written; no law reads it. -/
theorem writeOutcome (h : s.Lawful P) {l : Nat} (hl : l < s.l) (o : LastOutcome) : (s.writeOutcome l o).Lawful P := by
  refine h.setLane_as hl (fun _ _ _ hP => hP) (h.timer l) (fun hs m hm => h.lanes.oneSweep m l hm hs)
    (h.lanes.carried l) (h.lanes.fronts l) (h.lanes.timers l) ?_
  cases hm : s.config.mode with
  | run => exact .inl rfl
  | standby => exact .inr ((h.lanes.standby hm).1 l)

theorem endTask (h : s.Lawful P) {t : Task} (ht : t.lane < s.l) (o : TaskOutcome) (r : Option Reason) :
    (s.endTask t o r).Lawful P := (h.writeOutcome ht _).raise _

theorem endOpening (h : s.Lawful P) {l : Nat} (hl : l < s.l) {t : Option Task} (ht : ∀ u, t = some u → u.lane = l)
    (d : Face) (o : TaskOutcome) (r : Option Reason) : (s.endOpening l d t o r).Lawful P := by
  cases t with
  | none => exact (h.writeOutcome hl _).raise _
  | some u => exact h.endTask (ht u rfl ▸ hl) o r

theorem endTasks {o : TaskOutcome} {ts : List Task} (h : s.Lawful P) (ht : ∀ t ∈ ts, t.lane < s.l) :
    (ts.foldl (fun s t => s.endTask t o none) s).Lawful P := by
  induction ts generalizing s with
  | nil => exact h
  | cons t ts ih =>
    have ht' : t.lane < s.l := ht t (List.mem_cons_self ..)
    exact ih (h.endTask ht' o none) fun u hu => ht u (List.mem_cons_of_mem _ hu)

theorem removeQueued (h : s.Lawful P) (p : Task → Bool) (o : TaskOutcome) : (s.removeQueued p o).Lawful P :=
  (h.setQueue_sub fun _ ht => (List.mem_filter.1 ht).1).endTasks fun t ht => h.lanes.queued t (List.mem_filter.1 ht).1

theorem cancelOpens (h : s.Lawful P) (l : Nat) : (s.cancelOpens l).Lawful P := h.removeQueued _ _

/-! ### The sweep and the scan -/

theorem stepMs_bounds (h : s.Lawful P) : 1 ≤ s.stepMs ∧ s.stepMs ≤ 3600000 := by
  obtain ⟨-, hstep, -⟩ := Tunnel.legal_ranges h.settings.tunnel
  have hstep' : 2 ≤ s.config.records.tunnel.stepTime ∧ s.config.records.tunnel.stepTime ≤ 120 := hstep
  unfold State.stepMs
  omega

/-- The sweep is free exactly where no lane holds it (R23). -/
theorem sweepFree_iff (h : s.LanesLegal) : s.sweepFree = true ↔ ∀ m, ¬s.sweeps m := by
  simp only [State.sweepFree, State.laneNumbers, List.all_eq_true, List.mem_range, Bool.not_eq_true', State.sweeps,
    Bool.not_eq_true]
  refine ⟨fun hf m => ?_, fun hf m _ => hf m⟩
  by_cases hm : m < s.l
  · exact hf m hm
  · rw [h.outside m (by omega)]; rfl

/-- A lane of the section takes the sweep, which is free (R25, R34). -/
theorem takeSweep (h : s.Lawful P) (hP : Admits P) {l : Nat} {r : LaneRec} (hl : l < s.l) (hm : s.config.mode = .run)
    (hfree : ∀ m, ¬s.sweeps m) (htimer : r.timer = some s.stepMs) (htimed : r.phase.timed = true)
    (htask : ∀ t, r.phase.task = some t → t.lane = l) (hfront : ∀ f, r.phase.front = some f → f < s.n) :
    (s.setLane l r).Lawful P := by
  refine h.setLane_as hl (fun _ _ _ hp => hp) ?_ (fun _ m hs => absurd hs (hfree m)) htask hfront ?_ (.inl hm)
  · intro v hv
    obtain rfl := Option.some.inj (htimer.symm.trans hv)
    exact hP l _ h.stepMs_bounds.1 h.stepMs_bounds.2
  · rw [htimer, htimed]; rfl

theorem startClose (h : s.Lawful P) (hP : Admits P) {t : Task} (ht : t.lane < s.l) (hm : s.config.mode = .run)
    (hfree : ∀ m, ¬s.sweeps m) (d : Face) : (s.startClose t d).Lawful P := by
  refine h.takeSweep hP ht hm hfree rfl rfl (fun u hu => ?_) fun f hf => ?_
  · obtain rfl := Option.some.inj hu; rfl
  · obtain rfl := Option.some.inj hf; exact h.n_pos ht

theorem startOpen (h : s.Lawful P) (hP : Admits P) {t : Task} (ht : t.lane < s.l) (hm : s.config.mode = .run)
    (hfree : ∀ m, ¬s.sweeps m) (d : Face) : (s.startOpen t d).Lawful P := by
  refine h.takeSweep hP ht hm hfree rfl rfl (fun u hu => ?_) fun f hf => ?_
  · obtain rfl := Option.some.inj hu; rfl
  · obtain rfl := Option.some.inj hf
    have := h.n_pos ht
    omega

/-- In STANDBY no lane is in RUN, and the queue is empty, so what finds one of them finds the part in RUN. -/
theorem run_of_phase (h : s.Lawful P) {l : Nat} (hp : (s.lane l).phase ≠ .shut) : s.config.mode = .run := by
  cases hm : s.config.mode with
  | run => rfl
  | standby => exact absurd ((h.lanes.standby hm).1 l) hp

theorem endTask_sweeps (t : Task) (o : TaskOutcome) (r : Option Reason) (m : Nat) :
    (s.endTask t o r).sweeps m ↔ s.sweeps m := by
  unfold State.sweeps; rw [State.endTask_phase]

/-- The walk of the scan over tasks of lanes of the section, the sweep being free (R57). -/
theorem scanQueue {kept rest : List Task} (h : s.Lawful P) (hP : Admits P) (hm : s.config.mode = .run)
    (hfree : ∀ m, ¬s.sweeps m) (hk : ∀ t ∈ kept, t.lane < s.l) (hr : ∀ t ∈ rest, t.lane < s.l) :
    (s.scanQueue kept rest).Lawful P := by
  induction rest generalizing s kept with
  | nil => exact h.setQueue hk fun hs => by rw [hm] at hs; cases hs
  | cons t rest ih =>
    have ht : t.lane < s.l := hr t (List.mem_cons_self ..)
    have hrest : ∀ u ∈ rest, u.lane < s.l := fun u hu => hr u (List.mem_cons_of_mem _ hu)
    have hstay : (s.scanQueue (kept ++ [t]) rest).Lawful P :=
      ih h hm hfree (by simp only [List.mem_append, List.mem_singleton]; rintro u (hu | rfl); exacts [hk u hu, ht]) hrest
    have hq : (s.setQueue (kept ++ rest)).Lawful P := h.setQueue
      (by simp only [List.mem_append]; rintro u (hu | hu); exacts [hk u hu, hrest u hu])
      fun hs => by rw [hm] at hs; cases hs
    have hend : ∀ o r, ((s.endTask t o r).scanQueue kept rest).Lawful P := fun o r =>
      ih (h.endTask ht o r) hm (fun m hs => hfree m ((endTask_sweeps t o r m).1 hs)) hk hrest
    unfold State.scanQueue
    split
    · exact hstay
    · split
      · exact hq.startClose hP ht hm hfree _
      · exact hend _ _
      · exact hend _ _
      · split
        · exact hend _ _
        · exact hq.startOpen hP ht hm hfree _
      all_goals exact hstay

theorem scan (h : s.Lawful P) (hP : Admits P) : s.scan.Lawful P := by
  cases hf : s.sweepFree with
  | false => rw [State.scan_held s hf]; exact h
  | true =>
    cases hm : s.config.mode with
    | standby => rw [State.scan_empty s (h.lanes.standby hm).2.1]; exact h
    | run =>
      unfold State.scan
      rw [if_pos hf]
      exact h.scanQueue hP hm ((sweepFree_iff h.lanes).1 hf) (by simp) h.lanes.queued

/-! ### Lanes that become SHUT -/

/-- A lane of the section becomes SHUT: it has no timer, and no law for it is needed (R20, R24). -/
theorem shutLane (h : s.Lawful P) {l : Nat} {r : LaneRec} (hl : l < s.l) (hPQ : ∀ m v, m ≠ l → P m v → Q m v)
    (hr : r.phase = .shut) (ht : r.timer = none) : (s.setLane l r).Lawful Q := by
  refine h.setLane_as hl hPQ (by simp [ht]) ?_ ?_ ?_ ?_ (.inr hr)
  · simp [hr, LanePhase.sweeping]
  · simp [hr, LanePhase.task]
  · simp [hr, LanePhase.front]
  · simp [hr, ht, LanePhase.timed]

/-- A lane in a state with a timer stays in one, or begins to run (R20, R24). -/
theorem putPhase_as (h : s.Lawful P) {l : Nat} {p : LanePhase} {v : Option Nat} (hl : l < s.l)
    (hm : s.config.mode = .run) (hPQ : ∀ m v, m ≠ l → P m v → Q m v) (hQ : ∀ w, v = some w → Q l w)
    (hsweep : p.sweeping = true → s.sweeps l) (htask : ∀ t, p.task = some t → t.lane = l)
    (hfront : ∀ f, p.front = some f → f < s.n) (htimed : v.isSome = p.timed) : (s.putPhase l p v).Lawful Q :=
  h.setLane_as hl hPQ hQ (fun hs m hsm => h.lanes.oneSweep m l hsm (hsweep hs)) htask hfront htimed (.inl hm)

theorem failOpening (h : s.Lawful P) (l : Nat) : (s.failOpening l).Lawful P := by
  unfold State.failOpening
  split
  · rename_i d f t hp
    have hl : l < s.l := h.carried_lt (by rw [hp]; simp)
    exact (h.shutLane (P := P) (Q := P) hl (fun _ _ _ hP => hP) rfl rfl).endOpening hl
      (fun u hu => h.lanes.carried l u (by rw [hp]; exact hu)) d _ _
  · exact h

theorem failOpenings (h : s.Lawful P) (hP : Admits P) (ls : List Nat) : (s.failOpenings ls).Lawful P := by
  have hall : ∀ (ms : List Nat) (u : State), u.Lawful P → (ms.foldl State.failOpening u).Lawful P := by
    intro ms
    induction ms with
    | nil => exact fun _ hu => hu
    | cons m ms ih => exact fun u hu => ih _ (hu.failOpening m)
  cases ls with
  | nil => exact h
  | cons m ms => exact (hall (m :: ms) s h).scan hP

end State.Lawful

end Sys2Proof.Machine
end

