-- ==== Sys2Proof/Proofs/LaneActs.lean ====
section
/-! PROOFS. The lane commands, the lane timers, the plans and the changes of mode keep the laws of the lane records. -/

namespace Sys2Proof.Machine

/-- The expansion of a plan is of lanes of the section (R62). -/
theorem State.expandPlan_lane (s : State) (o : Origin) (id : Nat) : ∀ t ∈ s.expandPlan o id, t.lane < s.l := by
  intro t ht
  unfold State.expandPlan at ht
  rcases List.mem_append.1 ht with ht | ht
  · obtain ⟨l, hl, rfl⟩ := List.mem_map.1 ht
    exact List.mem_range.1 (List.mem_filter.1 hl).1
  · obtain ⟨l, hl, hd⟩ := List.mem_filterMap.1 ht
    obtain ⟨d, -, rfl⟩ := Option.map_eq_some_iff.1 hd
    exact List.mem_range.1 hl

theorem State.startLanes_wf (ls : List Nat) {s : State} (h : Tab.wf LaneRec.reset s.engine.lanes = true) :
    Tab.wf LaneRec.reset (s.startLanes ls).engine.lanes = true := by
  induction ls generalizing s with
  | nil => exact h
  | cons l ls ih => exact ih (s := s.setLane l (s.lane l).started) (Tab.wf_set h)

/-! What the loss of a merge target leaves of a lane state (R27). -/

@[simp] theorem LanePhase.unmerge_sweeping (l m : Nat) (p : LanePhase) : (p.unmerge l m).sweeping = p.sweeping := by
  cases p <;> rfl
@[simp] theorem LanePhase.unmerge_task (l m : Nat) (p : LanePhase) : (p.unmerge l m).task = p.task := by cases p <;> rfl
@[simp] theorem LanePhase.unmerge_front (l m : Nat) (p : LanePhase) : (p.unmerge l m).front = p.front := by cases p <;> rfl
@[simp] theorem LanePhase.unmerge_timed (l m : Nat) (p : LanePhase) : (p.unmerge l m).timed = p.timed := by cases p <;> rfl

/-! ### What the lane timers' expiries do, by the state of the lane -/

section Expiries

variable {s : State} {l : Nat}

theorem State.isClosing_iff : s.isClosing l = true ↔ l < s.l ∧ ∃ d f m u, (s.lane l).phase = .closing d f m u := by
  unfold State.isClosing
  rw [Bool.and_eq_true, State.okLane_iff]
  cases (s.lane l).phase <;> simp

theorem State.isOpening_iff : s.isOpening l = true ↔ l < s.l ∧ ∃ d f r u, (s.lane l).phase = .opening d f r u := by
  unfold State.isOpening
  rw [Bool.and_eq_true, State.okLane_iff]
  cases (s.lane l).phase <;> simp

theorem State.inClearance_iff {w : Bool} :
    s.inClearance l w = true ↔ l < s.l ∧ ∃ d c u, (s.lane l).phase = .clearance d c w u := by
  unfold State.inClearance
  rw [Bool.and_eq_true, State.okLane_iff]
  cases (s.lane l).phase <;> simp

theorem State.closingStep_of {d : Face} {f : Nat} {m : Aspect} {u : Task} (h : (s.lane l).phase = .closing d f m u) :
    s.closingStep l =
      if f < s.n - 1 then s.putPhase l (.closing d (f + 1) m u) (some s.stepMs)
      else (s.putPhase l (.clearance d false false u) (some s.clearanceMs)).scan := by
  unfold State.closingStep; rw [h]

theorem State.openingStep_of {d : Face} {f : Nat} {r : Bool} {u : Option Task} (h : (s.lane l).phase = .opening d f r u) :
    s.openingStep l =
      if 0 < f - 1 then s.putPhase l (.opening d (f - 1) r u) (some s.stepMs)
      else ((s.putPhase l (.run d) none).openingDone u).scan := by
  unfold State.openingStep; rw [h]

theorem State.clearanceEnds_of {d : Face} {c w : Bool} {u : Task} (h : (s.lane l).phase = .clearance d c w u) :
    s.clearanceEnds l =
      if (s.needsConfirm l && !c) = true then
        (s.putPhase l (.clearance d c true u) (some s.confirmMs)).raise .clearanceConfirmDue
      else s.endClearance l u .done := by
  unfold State.clearanceEnds; rw [h]

theorem State.windowEnds_of {d : Face} {c w : Bool} {u : Task} (h : (s.lane l).phase = .clearance d c w u) :
    s.windowEnds l = (((s.putPhase l .shut none).endTask u .stalled none).cancelOpens l).scan := by
  unfold State.windowEnds; rw [h]

end Expiries

namespace State.Lawful

variable {P Q : Nat → Nat → Prop} {s t : State}

/-! ### Adding tasks and selecting plans -/

/-- Tasks of lanes of the section join the queue in RUN (R49). -/
theorem enqueue (h : s.Lawful P) {ts : List Task} (hm : s.config.mode = .run) (ht : ∀ t ∈ ts, t.lane < s.l) :
    (s.enqueue ts).Lawful P :=
  h.setQueue (fun t hq => (List.mem_append.1 hq).elim (h.lanes.queued t) (ht t)) fun hs => by rw [hm] at hs; cases hs

theorem addTasks (h : s.Lawful P) (hP : Admits P) (hm : s.config.mode = .run) {l : Nat} {ts : List Task}
    (ht : ∀ t ∈ ts, t.lane < s.l) : (s.addTasks l ts).state.Lawful P := by
  unfold State.addTasks
  split
  · exact h
  · split
    · exact h
    · exact (h.enqueue hm ht).scan hP

theorem selectPlan (h : s.Lawful P) (hP : Admits P) (hm : s.config.mode = .run) {o : Origin} {id a b : Nat}
    (hs : s.selectPlan o id = .applied t a b) : t.Lawful P := by
  unfold State.selectPlan at hs
  dsimp only at hs
  split at hs
  · cases hs
  · split at hs
    · cases hs
    · obtain ⟨rfl, -, -⟩ := PlanResult.applied.inj hs
      have hstep := removeQueued_step s (fun t => t.origin != .host) .superseded
      exact ((h.removeQueued _ _).enqueue (hstep.config ▸ hm) fun t ht => hstep.l ▸ s.expandPlan_lane o id t ht).scan hP

/-! ### Clearances -/

theorem endClearance {l : Nat} {u : Task} (h : s.Lawful P) (hQ : Admits Q) (hPQ : ∀ m v, m ≠ l → P m v → Q m v)
    (hl : l < s.l) (hu : u.lane = l) (o : TaskOutcome) : (s.endClearance l u o).Lawful Q :=
  ((h.shutLane (Q := Q) (r := { s.lane l with phase := .shut, timer := none }) hl hPQ rfl rfl).endTask (t := u) (hu ▸ hl) o
    none).scan hQ

/-- The clearance timer's expiry rewrites its lane's timer: the law of that lane's timer may be a new one (R30). -/
theorem clearanceEnds {l : Nat} (h : s.Lawful P) (hQ : Admits Q) (hPQ : ∀ m v, m ≠ l → P m v → Q m v)
    (ha : s.inClearance l false = true) : (s.clearanceEnds l).Lawful Q := by
  obtain ⟨hl, d, c, u, hph⟩ := State.inClearance_iff.1 ha
  have hu : u.lane = l := h.lanes.carried l u (by rw [hph]; rfl)
  rw [State.clearanceEnds_of hph]
  split
  · obtain ⟨-, -, -, hconfirm, -⟩ := Tunnel.legal_ranges h.settings.tunnel
    have hc : 30 ≤ s.config.records.tunnel.confirm ∧ s.config.records.tunnel.confirm ≤ 3600 := hconfirm
    refine State.Lawful.raise (h.putPhase_as hl (h.run_of_phase (l := l) (by rw [hph]; simp)) hPQ ?_
      (fun hs => by cases hs) ?_ (fun f hf => by cases hf) rfl) _
    · rintro _ ⟨⟩
      exact hQ l _ (by unfold State.confirmMs; omega) (by unfold State.confirmMs; omega)
    · rintro _ ⟨⟩
      exact hu
  · exact h.endClearance hQ hPQ hl hu _

theorem windowEnds {l : Nat} (h : s.Lawful P) (hQ : Admits Q) (hPQ : ∀ m v, m ≠ l → P m v → Q m v)
    (ha : s.inClearance l true = true) : (s.windowEnds l).Lawful Q := by
  obtain ⟨hl, d, c, u, hph⟩ := State.inClearance_iff.1 ha
  have hu : u.lane = l := h.lanes.carried l u (by rw [hph]; rfl)
  rw [State.windowEnds_of hph]
  exact (((h.shutLane hl hPQ rfl rfl).endTask (t := u) (hu ▸ hl) _ _).cancelOpens l).scan hQ

/-! ### Steps of a sweep -/

theorem closingStep {l : Nat} (h : s.Lawful P) (hQ : Admits Q) (hPQ : ∀ m v, m ≠ l → P m v → Q m v)
    (ha : s.isClosing l = true) : (s.closingStep l).Lawful Q := by
  obtain ⟨hl, d, f, m, u, hph⟩ := State.isClosing_iff.1 ha
  have hu : u.lane = l := h.lanes.carried l u (by rw [hph]; rfl)
  have hm := h.run_of_phase (l := l) (by rw [hph]; simp)
  rw [State.closingStep_of hph]
  split
  · refine h.putPhase_as hl hm hPQ ?_ (fun _ => by unfold State.sweeps; rw [hph]; rfl) ?_ ?_ rfl
    · rintro _ ⟨⟩; exact hQ l _ h.stepMs_bounds.1 h.stepMs_bounds.2
    · rintro _ ⟨⟩; exact hu
    · rintro _ ⟨⟩; omega
  · obtain ⟨-, -, hclear, -⟩ := Tunnel.legal_ranges h.settings.tunnel
    have hc : 10 ≤ s.config.records.tunnel.clearance ∧ s.config.records.tunnel.clearance ≤ 1800 := hclear
    refine State.Lawful.scan (h.putPhase_as hl hm hPQ ?_ (fun hs => by cases hs) ?_ (fun f hf => by cases hf) rfl) hQ
    · rintro _ ⟨⟩
      exact hQ l _ (by unfold State.clearanceMs; omega) (by unfold State.clearanceMs; omega)
    · rintro _ ⟨⟩
      exact hu

theorem openingDone {l : Nat} (h : s.Lawful P) (hl : l < s.l) {u : Option Task} (hu : ∀ v, u = some v → v.lane = l) :
    (s.openingDone u).Lawful P := by
  cases u with
  | none => exact h
  | some v => exact h.endTask (hu v rfl ▸ hl) .done none

theorem openingStep {l : Nat} (h : s.Lawful P) (hQ : Admits Q) (hPQ : ∀ m v, m ≠ l → P m v → Q m v)
    (ha : s.isOpening l = true) : (s.openingStep l).Lawful Q := by
  obtain ⟨hl, d, f, r, u, hph⟩ := State.isOpening_iff.1 ha
  have hu : ∀ v, u = some v → v.lane = l := fun v hv => h.lanes.carried l v (by rw [hph]; exact hv)
  have hm := h.run_of_phase (l := l) (by rw [hph]; simp)
  have hf := h.lanes.fronts l f (by rw [hph]; rfl)
  rw [State.openingStep_of hph]
  split
  · refine h.putPhase_as hl hm hPQ ?_ (fun _ => by unfold State.sweeps; rw [hph]; rfl) (fun v hv => hu v hv) ?_ rfl
    · rintro _ ⟨⟩; exact hQ l _ h.stepMs_bounds.1 h.stepMs_bounds.2
    · rintro _ ⟨⟩; omega
  · exact (State.Lawful.openingDone (h.putPhase_as (v := none) (p := .run d) hl hm hPQ (fun v hv => by cases hv)
      (fun hs => by cases hs) (fun v hv => by cases hv) (fun v hv => by cases hv) rfl) hl hu).scan hQ

/-! ### ABORT-LANE, CONFIRM-CLEAR and CLOSE-NOW -/

theorem abortClosing {l f : Nat} {d : Face} {a : Aspect} {u : Task} (h : s.Lawful P) (hP : Admits P)
    (hp : (s.lane l).phase = .closing d f a u) : (s.abortClosing l d f u).state.Lawful P := by
  have hl : l < s.l := h.carried_lt (by rw [hp]; simp)
  have hu : u.lane = l := h.lanes.carried l u (by rw [hp]; rfl)
  have hm := h.run_of_phase (l := l) (by rw [hp]; simp)
  unfold State.abortClosing
  split
  · exact (((h.putPhase_as hl hm (fun _ _ _ hp => hp) (fun v hv => by cases hv) (fun hs => by cases hs)
      (fun v hv => by cases hv) (fun v hv => by cases hv) rfl).endTask (t := u) (hu ▸ hl) _ _).cancelOpens l).scan hP
  · refine ((h.putPhase_as hl hm (fun _ _ _ hp => hp) ?_ (fun _ => by unfold State.sweeps; rw [hp]; rfl)
      (fun v hv => by cases hv) ?_ rfl).endTask (t := u) (hu ▸ hl) _ _).cancelOpens l
    · rintro _ ⟨⟩; exact hP l _ h.stepMs_bounds.1 h.stepMs_bounds.2
    · rintro _ ⟨⟩; exact h.lanes.fronts l f (by rw [hp]; rfl)

theorem abortClearance {l : Nat} {d : Face} {c w : Bool} {u : Task} (h : s.Lawful P) (hP : Admits P)
    (hp : (s.lane l).phase = .clearance d c w u) : (s.abortClearance l d u).state.Lawful P := by
  have hl : l < s.l := h.carried_lt (by rw [hp]; simp)
  have hu : u.lane = l := h.lanes.carried l u (by rw [hp]; rfl)
  have hm := h.run_of_phase (l := l) (by rw [hp]; simp)
  have hshut := ((h.shutLane (Q := P) (r := { s.lane l with phase := .shut, timer := none }) hl (fun _ _ _ hp => hp) rfl
    rfl).endTask (t := u) (hu ▸ hl) .aborted none).cancelOpens l
  have hstep : EngineStep s (((s.putPhase l .shut none).endTask u .aborted none).cancelOpens l) :=
    ((putPhase_step s _ _ _).trans (endTask_step _ _ _ _)).trans (cancelOpens_step _ l)
  unfold State.abortClearance
  dsimp only
  split
  · rename_i hfree
    refine hshut.takeSweep hP (hstep.l ▸ hl) (hstep.config ▸ hm) ((sweepFree_iff hshut.lanes).1 hfree.1) rfl rfl
      (fun v hv => by cases hv) ?_
    rintro _ ⟨⟩
    have := h.n_pos hl
    have hn := hstep.n
    show _ - 1 < _
    exact Nat.sub_lt (hn ▸ this) one_pos
  · exact hshut.scan hP

theorem abortOpening {l f : Nat} {d : Face} {r : Bool} {u : Option Task} (h : s.Lawful P) (hP : Admits P)
    (hp : (s.lane l).phase = .opening d f r u) : (s.abortOpening l d u).state.Lawful P := by
  have hl : l < s.l := h.carried_lt (by rw [hp]; simp)
  exact ((h.shutLane (Q := P) (r := { s.lane l with phase := .shut, timer := none }) hl (fun _ _ _ hp => hp) rfl
    rfl).endOpening hl (fun v hv => h.lanes.carried l v (by rw [hp]; exact hv)) d _ _).scan hP

theorem mergeFallback (h : s.Lawful P) (target : Nat) : (s.mergeFallback target).Lawful P := by
  have hall : ∀ (ls : List Nat) (u : State), u.Lawful P → (∀ l ∈ ls, l < u.l) →
      (ls.foldl (fun s l => s.putPhase l ((s.lane l).phase.unmerge l target) (s.lane l).timer) u).Lawful P := by
    intro ls
    induction ls with
    | nil => exact fun _ hu _ => hu
    | cons l ls ih =>
      refine fun u hu hls => ih _ ?_ fun m hm => hls m (List.mem_cons_of_mem _ hm)
      have hl : l < u.l := hls l (List.mem_cons_self ..)
      refine hu.setLane_as hl (fun _ _ _ hp => hp) (hu.timer l) (fun hs m hm => ?_) (fun v hv => ?_) (fun f hf => ?_) ?_ ?_
      · exact hu.lanes.oneSweep m l hm (by simpa [State.sweeps] using hs)
      · exact hu.lanes.carried l v (by simpa using hv)
      · exact hu.lanes.fronts l f (by simpa using hf)
      · simpa using hu.lanes.timers l
      · by_cases hp : (u.lane l).phase = .shut
        · right; simp [hp, LanePhase.unmerge]
        · left; exact hu.run_of_phase hp
  exact hall _ s h fun l hl => List.mem_range.1 hl

theorem closeNow (h : s.Lawful P) (hP : Admits P) {l : Nat} (hl : l < s.l) : (s.closeNow l).Lawful P := by
  have hshut := h.shutLane (Q := P) (r := { s.lane l with phase := .shut, timer := none, emergency := true }) hl
    (fun _ _ _ hp => hp) rfl rfl
  unfold State.closeNow
  refine (State.Lawful.mergeFallback (State.Lawful.removeQueued ?_ _ _) l).scan hP
  unfold State.preEmpt
  split
  · exact hshut
  · rename_i u hu
    have hu : u.lane = l := h.lanes.carried l u hu
    exact hshut.endTask (t := u) (hu ▸ hl) _ _

/-! ### The changes of mode -/

/-- Entering RUN makes every lane of the section SHUT and ends the lamp test (R12, R100). -/
theorem enterRun (h : s.Lawful P) : s.enterRun.Lawful P := by
  have hlane : ∀ l, s.enterRun.lane l = if l ∈ s.laneNumbers then (s.lane l).started else s.lane l := by
    intro l
    have h' : s.enterRun.lane l = (s.startLanes s.laneNumbers).lane l := by rw [State.enterRun_frame]; rfl
    rw [h', State.startLanes_lane _ _ _ h.table]
  have hshut : ∀ l, s.enterRun.lane l = { phase := .shut, timer := none, emergency := false, last := (s.lane l).last } := by
    intro l
    rw [hlane]
    split
    · rfl
    · rename_i hl
      rw [h.lanes.outside l (by simpa [State.laneNumbers] using hl)]
      rfl
  have hl : s.enterRun.l = s.l := by rw [State.enterRun_frame]; rfl
  refine ⟨by simpa using h.settings, ?_, ⟨?_, ?_, ?_, ?_, ?_, ?_, ?_, ?_⟩, ?_⟩
  · have he : s.enterRun.engine.lanes = (s.startLanes s.laneNumbers).engine.lanes := by rw [State.enterRun_frame]; rfl
    rw [he]
    exact State.startLanes_wf _ h.table
  · intro l m hs
    unfold State.sweeps at hs
    rw [hshut] at hs
    cases hs
  · intro l hle
    rw [hshut, h.lanes.outside l (hl ▸ hle)]
    rfl
  · intro l u hu; rw [hshut] at hu; cases hu
  · intro l f hf; rw [hshut] at hf; cases hf
  · intro l; rw [hshut]; rfl
  · rw [State.enterRun_frame]
    exact fun u hu => by cases hu
  · intro hm; rw [State.enterRun_frame] at hm; cases hm
  · intro; rw [State.enterRun_frame]; rfl
  · intro l v hv; rw [hshut] at hv; cases hv

/-- STOP finds every lane of the section SHUT; it empties the queue and the override table (R13). -/
theorem enterStandby (h : s.Lawful P) (ha : ∀ l, l < s.l → (s.lane l).phase = .shut) : s.enterStandby.Lawful P := by
  have hq := h.removeQueued (fun _ => true) .cancelled
  have hshut : ∀ l, (s.enterStandby.lane l).phase = .shut := by
    intro l
    rw [State.enterStandby_phase]
    by_cases hl : l < s.l
    · exact ha l hl
    · rw [h.lanes.outside l (by omega)]; rfl
  refine ⟨by simpa using h.settings, hq.table, ⟨hq.lanes.oneSweep, hq.lanes.outside, hq.lanes.carried, hq.lanes.fronts,
    hq.lanes.timers, hq.lanes.queued, fun _ => ⟨hshut, s.enterStandby_queue, ?_⟩, ?_⟩, hq.timer⟩
  · rw [State.enterStandby_resolver]
  · intro hm; rw [State.enterStandby_config] at hm; cases hm

end State.Lawful

end Sys2Proof.Machine
end

