-- ==== Sys2Proof/Proofs/RecordSteps.lean ====
section
/-! PROOFS. What accepting sample records can do to the lamp records and the signature entries (R104 to R133). -/

namespace Sys2Proof.Machine

/-! ### Writes of signature entries -/

/-- A table of entries after some writes in turn, each of which changes the entry it writes. -/
def Rewritten : List (Nat × SigEntry) → Tab SigEntry → Tab SigEntry → Prop
  | [], es, fs => fs = es
  | (j, v) :: ws, es, fs => Tab.get .unlearned es j ≠ v ∧ Rewritten ws (Tab.set .unlearned es j v) fs

theorem Rewritten.append {ws vs : List (Nat × SigEntry)} {es fs gs : Tab SigEntry} (h : Rewritten ws es fs)
    (k : Rewritten vs fs gs) : Rewritten (ws ++ vs) es gs := by
  induction ws generalizing es with
  | nil => exact h ▸ k
  | cons w ws ih => exact ⟨h.1, ih h.2⟩

theorem Rewritten.wf {ws : List (Nat × SigEntry)} {es fs : Tab SigEntry} (h : Rewritten ws es fs)
    (hw : Tab.wf .unlearned es = true) : Tab.wf .unlearned fs = true := by
  induction ws generalizing es with
  | nil => exact h ▸ hw
  | cons w ws ih => exact ih h.2 (Tab.wf_set hw)

/-- An entry that none of the writes names stays. -/
theorem Rewritten.get_of_notMem {ws : List (Nat × SigEntry)} {es fs : Tab SigEntry} (h : Rewritten ws es fs) {j : Nat}
    (hj : j ∉ ws.map Prod.fst) : Tab.get .unlearned fs j = Tab.get .unlearned es j := by
  induction ws generalizing es with
  | nil => exact h ▸ rfl
  | cons w ws ih =>
    rw [List.map_cons, List.mem_cons, not_or] at hj
    rw [ih h.2 hj.2]
    exact Tab.get_set_ne _ _ hj.1

/-- Writes of different entries, one at least, leave another table. -/
theorem Rewritten.ne {ws : List (Nat × SigEntry)} {es fs : Tab SigEntry} (h : Rewritten ws es fs)
    (hw : Tab.wf .unlearned es = true) (hne : ws ≠ []) (hnd : (ws.map Prod.fst).Nodup) : fs ≠ es := by
  cases ws with
  | nil => exact absurd rfl hne
  | cons w ws =>
    obtain ⟨hchange, hrest⟩ := h
    obtain ⟨hfirst, -⟩ := List.nodup_cons.1 hnd
    have hget : Tab.get .unlearned fs w.1 = w.2 := by
      rw [hrest.get_of_notMem hfirst, Tab.get_set _ _ _ _ hw, if_pos rfl]
    intro he
    rw [he] at hget
    exact hchange hget

/-! ### Steps of sample records -/

/-- The kinds that a sample record can raise (R116, R121, R122, R132). -/
def recordKinds : List AttnKind := [.stringFault, .headFault, .falseOpen, .learnRejected]

/-- `t` differs from `s` at most in the string records, the head records whose numbers pass a test, the false-open records,
the entries of some strings in turn with the unsaved flag and the last rejection, and the raising of kinds. -/
structure RecordStep (heads : Nat → Prop) (keys : List Nat) (s t : State) : Prop where
  frame : t = { s with
    lamps := t.lamps
    sigs := { s.sigs with entries := t.sigs.entries, unsaved := t.sigs.unsaved, rejection := t.sigs.rejection }
    attn := { s.attn with latched := t.attn.latched, rep := t.attn.rep }
    host := { s.host with noticePending := t.host.noticePending } }
  raises : Raises s t recordKinds
  strings : Tab.wf StringRec.reset s.lamps.strings = true → Tab.wf StringRec.reset t.lamps.strings = true
  others : ∀ i, ¬heads i → Tab.get HeadProving.reset t.lamps.heads i = Tab.get HeadProving.reset s.lamps.heads i
  falseOpens : ∀ k, (s.falseOpen k).isSome = true → (t.falseOpen k).isSome = true
  writes : ∃ ws, (ws.map Prod.fst).Sublist keys ∧ Rewritten ws s.sigs.entries t.sigs.entries ∧
    t.sigs.unsaved = (s.sigs.unsaved || !ws.isEmpty)

/-- No entry is written. -/
theorem writes_none {s t : State} (he : t.sigs.entries = s.sigs.entries) (hu : t.sigs.unsaved = s.sigs.unsaved)
    (keys : List Nat) : ∃ ws, (ws.map Prod.fst).Sublist keys ∧ Rewritten ws s.sigs.entries t.sigs.entries ∧
      t.sigs.unsaved = (s.sigs.unsaved || !ws.isEmpty) :=
  ⟨[], List.nil_sublist _, he, by rw [hu]; simp⟩

namespace RecordStep

variable {heads : Nat → Prop} {keys more : List Nat} {s t u : State}

theorem refl (s : State) : RecordStep heads keys s s :=
  ⟨rfl, .refl s, id, fun _ _ => rfl, fun _ => id, writes_none rfl rfl keys⟩

theorem append (h : RecordStep heads keys s t) (k : RecordStep heads more t u) : RecordStep heads (keys ++ more) s u := by
  obtain ⟨ws, hws, hrw, hunsaved⟩ := h.writes
  obtain ⟨vs, hvs, hrv, hunsaved'⟩ := k.writes
  refine ⟨?_, h.raises.trans k.raises, k.strings ∘ h.strings, fun i hi => (k.others i hi).trans (h.others i hi),
    fun j hj => k.falseOpens j (h.falseOpens j hj), ws ++ vs, ?_, hrw.append hrv, ?_⟩
  · have hk := k.frame
    rw [h.frame] at hk
    exact hk
  · rw [List.map_append]; exact hws.append hvs
  · rw [hunsaved', hunsaved, Bool.or_assoc]
    cases ws <;> simp

theorem mono (h : RecordStep heads keys s t) (hk : keys.Sublist more) : RecordStep heads more s t := by
  obtain ⟨ws, hws, hrest⟩ := h.writes
  exact { h with writes := ⟨ws, hws.trans hk, hrest⟩ }

/-- After a step that writes no entry. -/
theorem after (h : RecordStep heads [] s t) (k : RecordStep heads keys t u) : RecordStep heads keys s u := h.append k

/-- A step that writes no entry goes on. -/
theorem andThen (h : RecordStep heads keys s t) (k : RecordStep heads [] t u) : RecordStep heads keys s u := by
  have hall := h.append k
  rwa [List.append_nil] at hall

/-! ### The lamp records -/

variable (s)

theorem setString (i : Nat) (r : StringRec) : RecordStep heads keys s (s.setString i r) :=
  ⟨rfl, .of_same rfl rfl rfl, Tab.wf_set, fun _ _ => rfl, fun _ => id, writes_none rfl rfl keys⟩

theorem emptyHead (h : HeadRef) : RecordStep heads keys s (s.emptyHead h) :=
  ⟨rfl, .of_same rfl rfl rfl, Tab.wf_mapWhere _ _, fun _ _ => rfl, fun _ => id, writes_none rfl rfl keys⟩

theorem setProving {h : HeadRef} (hh : heads h.key) (r : HeadProving) : RecordStep heads keys s (s.setProving h r) :=
  ⟨rfl, .of_same rfl rfl rfl, id, fun _ hi => Tab.get_set_ne _ _ fun he => hi (he ▸ hh), fun _ => id,
    writes_none rfl rfl keys⟩

theorem raise {k : AttnKind} (hk : k ∈ recordKinds) : RecordStep heads keys s (s.raise k) := by
  have hlamps : (s.raise k).lamps = s.lamps := by unfold State.raise; split <;> rfl
  have hsigs : (s.raise k).sigs = s.sigs := by unfold State.raise; split <;> rfl
  refine ⟨?_, .raise s hk, fun h => hlamps ▸ h, fun _ _ => by rw [hlamps], fun j h => ?_,
    writes_none (by rw [hsigs]) (by rw [hsigs]) keys⟩
  · unfold State.raise; split <;> rfl
  · unfold State.falseOpen at h ⊢; rwa [hlamps]

theorem raiseIf (c : Bool) {k : AttnKind} (hk : k ∈ recordKinds) : RecordStep heads keys s (s.raiseIf c k) := by
  cases c
  · exact .refl s
  · exact raise s hk

theorem enterCondition {h : HeadRef} (hh : heads h.key) (c : HeadCondition) :
    RecordStep heads keys s (s.enterCondition h c) := by
  unfold State.enterCondition
  split
  · exact (setProving s hh _).after (raise _ (by decide))
  · exact .refl s

theorem putFalseOpen (i : Nat) (f : FalseOpen) :
    RecordStep heads keys s { s with lamps.falseOpen := Tab.set none s.lamps.falseOpen i (some f) } := by
  refine ⟨rfl, .of_same rfl rfl rfl, id, fun _ _ => rfl, fun j hj => ?_, writes_none rfl rfl keys⟩
  unfold State.falseOpen at hj ⊢
  by_cases hji : j = i
  · rw [hji, Tab.get_set_self _ _ (by simp)]; rfl
  · rwa [Tab.get_set_ne _ _ hji]

theorem detectFalseOpen (h : HeadRef) (c : FalseOpenCause) : RecordStep heads keys s (s.detectFalseOpen h c) := by
  have hr : RecordStep heads keys s (s.raise .falseOpen) := raise s (by decide)
  unfold State.detectFalseOpen
  dsimp only
  split
  · exact hr
  · exact (raise s (by decide)).after (putFalseOpen _ _ _)

/-! ### Signatures -/

theorem setEntry {j : Nat} {e : SigEntry} (he : s.entry j ≠ e) : RecordStep heads [j] s (s.setEntry j e).setUnsaved :=
  ⟨rfl, .of_same rfl rfl rfl, id, fun _ _ => rfl, fun _ => id, [(j, e)], List.Sublist.refl _, ⟨he, rfl⟩, by
    show true = _
    simp⟩

theorem changeClass {j : Nat} {e : SigEntry} (he : s.entry j ≠ e) : RecordStep heads [j] s (s.changeClass j e).setUnsaved :=
  ⟨rfl, .of_same rfl rfl rfl, Tab.wf_mapWhere _ _, fun _ _ => rfl, fun _ => id, [(j, e)], List.Sublist.refl _, ⟨he, rfl⟩, by
    show true = _
    simp⟩

theorem reject (j : Option Rejection) : RecordStep heads keys s (({ s with sigs.rejection := j } : State).raise .learnRejected) :=
  after (t := { s with sigs.rejection := j })
    ⟨rfl, .of_same rfl rfl rfl, id, fun _ _ => rfl, fun _ => id, writes_none rfl rfl []⟩ (raise _ (by decide))

/-- The Signature Table writes at most the entry of the string proved (R130 to R133). -/
theorem takeResult (r : StringRef) (v : Verdict) (avg duty : Nat) :
    RecordStep heads [r.key] s (s.takeResult r v avg duty) := by
  unfold State.takeResult
  split
  · exact .refl s
  · split
    case h_1 =>
      rename_i hentry
      split
      · exact changeClass s (by rw [hentry]; simp)
      · exact .refl s
    case h_2 =>
      rename_i hentry
      dsimp only
      split
      · exact .refl s
      · rename_i hnew
        exact setEntry s (by rw [hentry]; simpa using Ne.symm hnew)
    case h_5 => exact .refl s
    all_goals
      split
      · exact reject s _
      · exact .refl s

theorem handOver (r : StringRef) (st : StringState) (res : LastResult) (duty : Nat) :
    RecordStep heads [r.key] s (s.handOver r st res duty) := by
  unfold State.handOver
  split
  · exact .refl s
  · split
    case h_1 => exact takeResult s _ _ _ _
    case h_2 => exact takeResult s _ _ _ _
    case h_3 => exact takeResult s _ _ _ _
    all_goals exact .refl s

/-! ### Samples -/

theorem prove (r : StringRef) (a : Acc) (d : Nat) : RecordStep heads [r.key] s (s.prove r a d) :=
  ((setString s _ _).after (raiseIf _ _ (by decide))).after (handOver _ _ _ _ _)

theorem addSample (r : StringRef) (x d : Nat) : RecordStep heads [r.key] s (s.addSample r x d) := by
  unfold State.addSample
  dsimp only
  split
  · exact prove s _ _ _
  · exact setString s _ _

end RecordStep

/-- The numbers of a head's strings (R2). -/
def headKeys (h : HeadRef) : List Nat := (List.range 10).map (stringKey h)

theorem stringKeys_sublist (h : HeadRef) {is : List Nat} (hi : is.Sublist (List.range 10)) :
    (is.map (stringKey h)).Sublist (headKeys h) := hi.map _

/-- The two strings of a lit aspect are among those of their head. -/
theorem aspectKeys_sublist (h : HeadRef) {a : Aspect} (ha : a ≠ .dark) :
    [(⟨h, a, 1⟩ : StringRef).key, (⟨h, a, 2⟩ : StringRef).key].Sublist (headKeys h) := by
  have hi : [stringIndex a 1, stringIndex a 2].Sublist (List.range 10) := by
    cases a with
    | dark => exact absurd rfl ha
    | _ => decide
  exact stringKeys_sublist h hi

/-- A false-open of a station has been found in an event (R121). -/
def State.FindsFalseOpen (s t : State) (k : Nat) : Prop :=
  (t.falseOpen k).isSome = true ∧ s.RaisedAtLeast t .falseOpen 1

namespace RecordStep

variable {heads : Nat → Prop} {keys : List Nat} {s t u : State} {h : HeadRef}

theorem finds (hs : RecordStep heads keys s t) {k : Nat} (ht : t.FindsFalseOpen u k) : s.FindsFalseOpen u k := by
  obtain ⟨hrecord, hlatched, hrep⟩ := ht
  exact ⟨hrecord, hlatched, fun hn hr => hrep hn (hr.imp id (hs.raises.latched _))⟩

theorem keepsFinding (ht : RecordStep heads keys t u) {k : Nat} (hs : s.FindsFalseOpen t k) : s.FindsFalseOpen u k :=
  ⟨ht.falseOpens k hs.1, fun hn => ht.raises.latched _ (hs.2.1 hn), fun hn hr => ht.raises.rep _ (hs.2.2 hn hr)⟩

variable (s)

theorem accumulate (h : HeadRef) (a : Aspect) (r : Sample) (d : Nat) :
    RecordStep heads (headKeys h) s (s.accumulate h a r d) := by
  have hone : ∀ b n x, b ≠ .dark → n = 1 ∨ n = 2 → RecordStep heads (headKeys h) s (s.addSample ⟨h, b, n⟩ x d) := by
    rintro b n x hb hn
    refine (addSample s ⟨h, b, n⟩ x d).mono ((List.singleton_sublist.2 ?_).trans (aspectKeys_sublist h hb))
    rcases hn with rfl | rfl <;> simp
  have hboth : ∀ b, b ≠ .dark → RecordStep heads (headKeys h) s
      ((s.addSample ⟨h, b, 1⟩ r.lit1 d).addSample ⟨h, b, 2⟩ r.lit2 d) := fun b hb =>
    ((addSample s _ _ _).append (addSample _ _ _ _)).mono (aspectKeys_sublist h hb)
  unfold State.accumulate
  split
  case h_1 => exact .refl s
  case h_2 =>
    split
    · exact hone .slow 1 _ (by decide) (.inl rfl)
    · exact hone .slow 2 _ (by decide) (.inr rfl)
  case h_3 => exact hboth .opn (by decide)
  case h_4 => exact hboth .shut (by decide)
  case h_5 => exact hboth .divertL (by decide)
  case h_6 => exact hboth .divertR (by decide)

theorem acceptLit (hh : heads h.key) (a : Aspect) (d : Option Nat) (r : Sample) :
    RecordStep heads (headKeys h) s (s.acceptLit h a d r).1 := by
  unfold State.acceptLit
  dsimp only
  split
  · split
    · exact setProving s hh _
    · split
      · exact (setProving s hh _).after (accumulate _ _ _ _ _)
      · exact (setProving s hh _).after (emptyHead _ _)
  · split
    · exact (emptyHead s _).after (setProving _ hh _)
    · split
      · exact ((emptyHead s _).after (setProving _ hh _)).after (detectFalseOpen _ _ _)
      · exact ((emptyHead s _).after (setProving _ hh _)).after (enterCondition _ hh _)

theorem checkOpenLeak (hh : heads h.key) (a : Aspect) (r : Sample) :
    RecordStep heads [] s (s.checkOpenLeak h a r).1 := by
  unfold State.checkOpenLeak
  dsimp only
  split
  · split
    · exact setProving s hh _
    · exact (setProving s hh _).after (detectFalseOpen _ _ _)
  · exact setProving s hh _

theorem checkOtherLeak (hh : heads h.key) (r : Sample) : RecordStep heads [] s (s.checkOtherLeak h r) := by
  unfold State.checkOtherLeak
  dsimp only
  split
  · split
    · exact setProving s hh _
    · exact (setProving s hh _).after (enterCondition _ hh _)
  · exact setProving s hh _

/-- A record is taken by its head alone (R105). -/
theorem acceptSample (hh : heads h.key) (a : Aspect) (cut : Bool) (d : Option Nat) (r : Sample) :
    RecordStep heads (headKeys h) s (s.acceptSample h a cut d r).1 := by
  have hlit : RecordStep heads (headKeys h) s (if cut then (s, false) else s.acceptLit h a d r).1 := by
    cases cut
    · exact acceptLit s hh a d r
    · exact .refl s
  exact (hlit.andThen (checkOpenLeak _ hh a r)).andThen (checkOtherLeak _ hh r)

/-- The records of a frame are taken in turn, each by its head (R104). -/
theorem acceptFrame (a : HeadRef → Aspect) (cut : Bool) (d : Option Nat) (rs : List (HeadRef × Sample))
    (hh : ∀ p ∈ rs, heads p.1.key) :
    RecordStep heads (rs.flatMap fun p => headKeys p.1) s (s.acceptFrame a cut d rs).1 := by
  induction rs generalizing s with
  | nil => exact .refl s
  | cons p rs ih =>
    exact (acceptSample s (hh p (List.mem_cons_self ..)) _ _ _ _).append
      (ih _ fun q hq => hh q (List.mem_cons_of_mem _ hq))

/-! ### The records that ask for a cut -/

theorem detectFalseOpen_finds (h : HeadRef) (c : FalseOpenCause) : s.FindsFalseOpen (s.detectFalseOpen h c) h.station := by
  have hraised : s.RaisedAtLeast (s.raise .falseOpen) .falseOpen 1 := (raise_raisedTimes s _).atLeast le_rfl
  have hsame : (s.raise .falseOpen).falseOpen h.station = s.falseOpen h.station := by
    unfold State.raise State.falseOpen
    split <;> rfl
  unfold State.detectFalseOpen
  dsimp only
  split
  · rename_i hrecord
    exact ⟨by rw [hsame, hrecord]; rfl, hraised⟩
  · refine ⟨?_, hraised⟩
    unfold State.falseOpen
    rw [Tab.get_set_self _ _ (by simp)]
    rfl

theorem acceptLit_finds (h : HeadRef) (a : Aspect) (d : Option Nat) (r : Sample) (hc : (s.acceptLit h a d r).2 = true) :
    s.FindsFalseOpen (s.acceptLit h a d r).1 h.station := by
  unfold State.acceptLit at hc ⊢
  dsimp only at hc ⊢
  split at hc <;> rename_i hshown
  · split at hc
    · cases hc
    · split at hc <;> cases hc
  · rw [if_neg hshown]
    split at hc <;> rename_i hcount
    · cases hc
    · rw [if_neg hcount]
      split at hc <;> rename_i hopn
      · rw [if_pos hopn]
        exact ((emptyHead (heads := fun _ => True) (keys := []) s h).after (setProving (keys := []) _ trivial _)).finds
          (detectFalseOpen_finds _ h _)
      · cases hc

theorem checkOpenLeak_finds (h : HeadRef) (a : Aspect) (r : Sample) (hc : (s.checkOpenLeak h a r).2 = true) :
    s.FindsFalseOpen (s.checkOpenLeak h a r).1 h.station := by
  unfold State.checkOpenLeak at hc ⊢
  dsimp only at hc ⊢
  split at hc <;> rename_i hleak
  · rw [if_pos hleak]
    split at hc <;> rename_i hcount
    · cases hc
    · rw [if_neg hcount]
      exact (setProving (heads := fun _ => True) (keys := []) s trivial _).finds (detectFalseOpen_finds _ h _)
  · cases hc

/-- A record that asks for a cut has found a false-open (R121). -/
theorem acceptSample_finds (h : HeadRef) (a : Aspect) (cut : Bool) (d : Option Nat) (r : Sample)
    (hc : (s.acceptSample h a cut d r).2 = true) : s.FindsFalseOpen (s.acceptSample h a cut d r).1 h.station := by
  have hall : ∀ p : State × Bool, (p.2 = true → s.FindsFalseOpen p.1 h.station) →
      RecordStep (fun _ => True) (headKeys h) s p.1 → (p.2 || (p.1.checkOpenLeak h a r).2) = true →
        s.FindsFalseOpen ((p.1.checkOpenLeak h a r).1.checkOtherLeak h r) h.station := by
    intro p hp hstep hc
    refine (checkOtherLeak (heads := fun _ => True) _ trivial r).keepsFinding ?_
    rcases Bool.or_eq_true_iff.1 hc with hc | hc
    · exact (checkOpenLeak (heads := fun _ => True) _ trivial a r).keepsFinding (hp hc)
    · exact hstep.finds (checkOpenLeak_finds _ h a r hc)
  cases cut
  · exact hall (s.acceptLit h a d r) (acceptLit_finds s h a d r) (acceptLit s trivial a d r) hc
  · exact hall (s, false) (fun h => nomatch h) (.refl s) hc

theorem acceptFrame_finds {k : Nat} (a : HeadRef → Aspect) (cut : Bool) (d : Option Nat) (rs : List (HeadRef × Sample))
    (hk : ∀ p ∈ rs, p.1.station = k) (hc : (s.acceptFrame a cut d rs).2 = true) :
    s.FindsFalseOpen (s.acceptFrame a cut d rs).1 k := by
  induction rs generalizing s with
  | nil => cases hc
  | cons p rs ih =>
    have hrest : ∀ q ∈ rs, q.1.station = k := fun q hq => hk q (List.mem_cons_of_mem _ hq)
    rcases Bool.or_eq_true_iff.1 hc with hc | hc
    · refine (acceptFrame (heads := fun _ => True) _ a cut d rs fun _ _ => trivial).keepsFinding ?_
      rw [← hk p (List.mem_cons_self ..)]
      exact acceptSample_finds s p.1 _ _ _ _ hc
    · exact (acceptSample (heads := fun _ => True) s trivial (a p.1) cut d p.2).finds (ih _ hrest hc)

end RecordStep

end Sys2Proof.Machine
end

