-- ==== Sys2Proof/Proofs/LinkSteps.lean ====
section
/-! PROOFS. What the operations of the Gantry Link Controller, the Lamp Proving Unit and the Signature Table can do: they leave
the engine, the overrides, the configuration and the Time Base, and keep the laws of the link's timers and tables. -/

namespace Sys2Proof.Machine

/-! ### The laws of the link -/

/-- The laws of the link's timers (R153, R157), an answer timeout that `z` names being allowed to stand at 0, with the
canonical form of the tables that they and resolution are read from. -/
structure State.LinkLaw (z : LinkEnd → Prop) (s : State) : Prop where
  strings : Tab.wf StringRec.reset s.lamps.strings = true
  stations : Tab.wf (StationRec.reset .west) s.link.stations = true
  answers : ∀ e v, (s.poller e).answerTimer = some v → (1 ≤ v ∨ z e) ∧ v ≤ 10 ∧ (s.poller e).exchange.isSome = true
  reprobes : ∀ k v, (s.station k).reprobe = some v → v ≤ 30000

namespace State.LinkLaw

variable {z : LinkEnd → Prop} {s t : State}

/-- The laws read the strings and the link alone. -/
theorem congr (h : s.LinkLaw z) (hl : t.link = s.link) (hs : Tab.wf StringRec.reset t.lamps.strings = true) :
    t.LinkLaw z := by
  have hp : ∀ e, t.poller e = s.poller e := fun e => by unfold State.poller; rw [hl]
  have hk : ∀ k, t.station k = s.station k := fun k => by unfold State.station; rw [hl]
  exact ⟨hs, hl ▸ h.stations, by simpa only [hp] using h.answers, by simpa only [hk] using h.reprobes⟩

theorem setStation (h : s.LinkLaw z) {k : Nat} {r : StationRec} (hr : ∀ v, r.reprobe = some v → v ≤ 30000) :
    (s.setStation k r).LinkLaw z := by
  refine ⟨h.strings, Tab.wf_set h.stations, by simpa using h.answers, fun j v hv => ?_⟩
  rw [State.setStation_station _ _ _ _ h.stations] at hv
  split at hv
  · exact hr v hv
  · exact h.reprobes j v hv

/-- The poller of one end is written: the law of its answer timeout may be a new one. -/
theorem setPoller_as {y : LinkEnd → Prop} (h : s.LinkLaw z) {e : LinkEnd} {p : Poller} (hzy : ∀ f, f ≠ e → z f → y f)
    (hp : ∀ v, p.answerTimer = some v → (1 ≤ v ∨ y e) ∧ v ≤ 10 ∧ p.exchange.isSome = true) :
    (s.setPoller e p).LinkLaw y := by
  have hother : ∀ f, f ≠ e → (s.setPoller e p).poller f = s.poller f := by
    cases e <;> intro f hf <;> cases f <;> first | rfl | exact absurd rfl hf
  refine ⟨by simpa using h.strings, by simpa using h.stations, fun f v hv => ?_, by simpa using h.reprobes⟩
  by_cases hf : f = e
  · subst hf; rw [State.setPoller_poller] at hv ⊢; exact hp v hv
  · rw [hother f hf] at hv ⊢
    obtain ⟨hlow, hrest⟩ := h.answers f v hv
    exact ⟨hlow.imp id (hzy f hf), hrest⟩

theorem setPoller (h : s.LinkLaw z) {e : LinkEnd} {p : Poller}
    (hp : ∀ v, p.answerTimer = some v → (1 ≤ v ∨ z e) ∧ v ≤ 10 ∧ p.exchange.isSome = true) :
    (s.setPoller e p).LinkLaw z := h.setPoller_as (fun _ _ hz => hz) hp

/-- Both pollers change, neither its answer timeout nor its exchange. -/
theorem pollers (h : s.LinkLaw z) {w e : Poller} (hw : w.answerTimer = s.link.west.answerTimer)
    (hwx : w.exchange = s.link.west.exchange) (he : e.answerTimer = s.link.east.answerTimer)
    (hex : e.exchange = s.link.east.exchange) :
    ({ s with link.west := w, link.east := e } : State).LinkLaw z := by
  refine ⟨h.strings, h.stations, fun f v hv => ?_, h.reprobes⟩
  cases f with
  | west =>
    change w.answerTimer = some v at hv
    have := h.answers .west v (hw ▸ hv)
    exact ⟨this.1, this.2.1, (congrArg Option.isSome hwx).trans this.2.2⟩
  | east =>
    change e.answerTimer = some v at hv
    have := h.answers .east v (he ▸ hv)
    exact ⟨this.1, this.2.1, (congrArg Option.isSome hex).trans this.2.2⟩

end State.LinkLaw

/-! ### The reprobe timer of a record that a miss or an answer has counted -/

@[simp] theorem StationRec.setMiss_reprobe (r : StationRec) (e : LinkEnd) (m : Nat) : (r.setMiss e m).reprobe = r.reprobe := by
  cases e <;> rfl
@[simp] theorem StationRec.setCause_reprobe (r : StationRec) (e : LinkEnd) (c : MissCause) :
    (r.setCause e c).reprobe = r.reprobe := by cases e <;> rfl
@[simp] theorem StationRec.moveTo_reprobe (r : StationRec) (e : LinkEnd) : (r.moveTo e).reprobe = r.reprobe := by
  cases e <;> rfl
@[simp] theorem StationRec.missed_reprobe (r : StationRec) (e : LinkEnd) (c : MissCause) :
    (r.missed e c).reprobe = r.reprobe := by simp [StationRec.missed]

/-! ### Steps of the link -/

/-- The kinds that the sample records of an answer can raise, with a cut (R116, R119 to R122, R132, R160). -/
def sampleKinds : List AttnKind := .stationCut :: recordKinds

/-- The kinds that a good answer can raise by itself (R116, R119 to R122, R132, R139, R159, R160). -/
def answerKinds : List AttnKind :=
  [.stringFault, .headFault, .falseOpen, .stationCut, .ringDegraded, .driverChanged, .learnRejected]

/-- The kinds that the link's own events can raise: a miss can also lose a station (R158). -/
def linkKinds : List AttnKind := .stationLost :: answerKinds

/-- `t` differs from `s` at most in the displayed aspects, the lamp test, which may have ended, the lamp records, the
signatures, the link, and the raising of kinds of a list; and the laws of the link are kept. -/
structure LinkStep (kinds : List AttnKind) (s t : State) : Prop where
  frame : t = { s with
    resolver := { s.resolver with
      displayed := t.resolver.displayed, lampTest := t.resolver.lampTest, lampLast := t.resolver.lampLast }
    lamps := t.lamps
    sigs := t.sigs
    link := t.link
    attn := { s.attn with latched := t.attn.latched, rep := t.attn.rep }
    host := { s.host with noticePending := t.host.noticePending } }
  test : t.resolver.lampTest = s.resolver.lampTest ∨ t.resolver.lampTest = none
  raises : Raises s t kinds
  law : ∀ z, s.LinkLaw z → t.LinkLaw z
  strings : Tab.wf StringRec.reset s.lamps.strings = true → Tab.wf StringRec.reset t.lamps.strings = true
  stations : Tab.wf (StationRec.reset .west) s.link.stations = true → Tab.wf (StationRec.reset .west) t.link.stations = true

namespace LinkStep

variable {kinds : List AttnKind} {s t u : State}

theorem refl (s : State) : LinkStep kinds s s := ⟨rfl, .inl rfl, .refl s, fun _ h => h, id, id⟩

theorem trans (h : LinkStep kinds s t) (k : LinkStep kinds t u) : LinkStep kinds s u := by
  refine ⟨?_, ?_, h.raises.trans k.raises, fun z hz => k.law z (h.law z hz),
    k.strings ∘ h.strings, k.stations ∘ h.stations⟩
  · have hk := k.frame
    rw [h.frame] at hk
    exact hk
  · rcases k.test with hk | hk
    · rw [hk]; exact h.test
    · exact .inr hk

theorem mono {more : List AttnKind} (h : LinkStep kinds s t) (hm : ∀ k ∈ kinds, k ∈ more) : LinkStep more s t :=
  { h with raises := h.raises.mono hm }

theorem power (h : LinkStep kinds s t) : t.power = s.power := by rw [h.frame]
theorem config (h : LinkStep kinds s t) : t.config = s.config := by rw [h.frame]
theorem engine (h : LinkStep kinds s t) : t.engine = s.engine := by rw [h.frame]
theorem time (h : LinkStep kinds s t) : t.time = s.time := by rw [h.frame]
theorem pending (h : LinkStep kinds s t) : t.pending = s.pending := by rw [h.frame]
theorem overrides (h : LinkStep kinds s t) : t.resolver.overrides = s.resolver.overrides := by rw [h.frame]
theorem heads (h : LinkStep kinds s t) : t.resolver.heads = s.resolver.heads := by rw [h.frame]
theorem n (h : LinkStep kinds s t) : t.n = s.n := by unfold State.n; rw [h.config]
theorem l (h : LinkStep kinds s t) : t.l = s.l := by unfold State.l; rw [h.config]
theorem host (h : LinkStep kinds s t) : ∃ m, t.host = { s.host with noticePending := m } :=
  ⟨_, congrArg (·.host) h.frame⟩

/-- A change of the records alone: displayed aspects, lamp records and signatures. -/
theorem records (hf : t = { s with
      resolver := { s.resolver with displayed := t.resolver.displayed }, lamps := t.lamps, sigs := t.sigs })
    (hs : Tab.wf StringRec.reset s.lamps.strings = true → Tab.wf StringRec.reset t.lamps.strings = true) :
    LinkStep kinds s t := by
  have hlink : t.link = s.link := by rw [hf]
  refine ⟨?_, .inl (by rw [hf]), .of_same (by rw [hf]) (by rw [hf]) (by rw [hf]), fun z h => h.congr hlink (hs h.strings),
    hs, fun h => hlink ▸ h⟩
  rw [hf]

/-- A change of the link alone. -/
theorem linked (hf : t = { s with link := t.link }) (hl : ∀ z, s.LinkLaw z → t.LinkLaw z)
    (hw : Tab.wf (StationRec.reset .west) s.link.stations = true → Tab.wf (StationRec.reset .west) t.link.stations = true) :
    LinkStep kinds s t := by
  have hlamps : t.lamps = s.lamps := by rw [hf]
  refine ⟨?_, .inl (by rw [hf]), .of_same (by rw [hf]) (by rw [hf]) (by rw [hf]), hl, fun h => hlamps ▸ h, hw⟩
  rw [hf]

theorem foldl {α : Type} {f : State → α → State} (h : ∀ u x, LinkStep kinds u (f u x)) (xs : List α) (s : State) :
    LinkStep kinds s (xs.foldl f s) := by
  induction xs generalizing s with
  | nil => exact .refl s
  | cons x xs ih => exact (h s x).trans (ih _)

theorem raise (s : State) {k : AttnKind} (hk : k ∈ kinds) : LinkStep kinds s (s.raise k) := by
  have hframe : s.raise k = { s with
      attn := { s.attn with latched := (s.raise k).attn.latched, rep := (s.raise k).attn.rep }
      host := { s.host with noticePending := (s.raise k).host.noticePending } } := by
    unfold State.raise; split <;> rfl
  exact ⟨hframe, .inl rfl, .raise s hk, fun z h => h.congr rfl h.strings, id, id⟩

theorem raiseIf (s : State) (c : Bool) {k : AttnKind} (hk : k ∈ kinds) : LinkStep kinds s (s.raiseIf c k) := by
  cases c
  · exact .refl s
  · exact raise s hk

/-! ### Lamp records, displayed aspects and signatures -/

variable (s)

theorem setString (i : Nat) (r : StringRec) : LinkStep kinds s (s.setString i r) := .records rfl Tab.wf_set
theorem mapStrings (p : Nat → Bool) (f : StringRec → StringRec) : LinkStep kinds s (s.mapStrings p f) :=
  .records rfl (Tab.wf_mapWhere p f)
theorem emptyAccs (p : Nat → Bool) : LinkStep kinds s (s.emptyAccs p) := mapStrings s p _
theorem emptyHead (h : HeadRef) : LinkStep kinds s (s.emptyHead h) := emptyAccs s _
theorem setProving (h : HeadRef) (r : HeadProving) : LinkStep kinds s (s.setProving h r) := .records rfl id
theorem mapProving (p : Nat → Bool) (f : HeadProving → HeadProving) : LinkStep kinds s (s.mapProving p f) :=
  .records rfl id
theorem quietStation (k : Nat) : LinkStep kinds s (s.quietStation k) := (emptyAccs s _).trans (mapProving _ _ _)
theorem returnStrings (k : Nat) : LinkStep kinds s (s.returnStrings k) := mapStrings s _ _
theorem clearLamps (p : Nat → Bool) : LinkStep kinds s (s.clearLamps p) := (mapStrings s _ _).trans (mapProving _ _ _)
theorem setDisplayed (h : HeadRef) (a : Option Aspect) : LinkStep kinds s (s.setDisplayed h a) := .records rfl id
theorem setStationDisplayed (k : Nat) (a : Option Aspect) : LinkStep kinds s (s.setStationDisplayed k a) :=
  foldl (fun u h => setDisplayed u h a) _ s
theorem takeDisplayed (rs : List (HeadRef × Sample)) : LinkStep kinds s (s.takeDisplayed rs) :=
  foldl (fun u p => setDisplayed u p.1 _) rs s
theorem setEntry (i : Nat) (e : SigEntry) : LinkStep kinds s (s.setEntry i e) := .records rfl id
theorem setUnsaved : LinkStep kinds s s.setUnsaved := .records rfl id
theorem setIdent (k : Nat) (i : Option (BitVec 32)) : LinkStep kinds s (s.setIdent k i) := .records rfl id
theorem changeClass (i : Nat) (e : SigEntry) : LinkStep kinds s (s.changeClass i e) :=
  (setEntry s i e).trans (emptyAccs _ _)
theorem unlearnStation (k : Nat) : LinkStep kinds s (s.unlearnStation k) :=
  .trans (t := { s with sigs.entries := (s.unlearnStation k).sigs.entries }) (.records rfl id) (emptyAccs _ _)

/-- Accepting sample records is a step of the lamps and the signatures (R105). -/
theorem of_record {heads : Nat → Prop} {keys : List Nat} {s t : State} (h : RecordStep heads keys s t) :
    LinkStep recordKinds s t := by
  have hf := h.frame
  have hlink : t.link = s.link := by rw [hf]
  refine ⟨?_, .inl (by rw [hf]), h.raises, fun z hz => hz.congr hlink (h.strings hz.strings), h.strings,
    fun hw => hlink ▸ hw⟩
  rw [hf]

theorem acceptFrame (a : HeadRef → Aspect) (cut : Bool) (d : Option Nat) (rs : List (HeadRef × Sample)) :
    LinkStep recordKinds s (s.acceptFrame a cut d rs).1 :=
  of_record (RecordStep.acceptFrame (heads := fun _ => True) s a cut d rs fun _ _ => trivial)

theorem driverChange (k : Nat) (i j : BitVec 32) : LinkStep [.driverChanged] s (s.driverChange k i j) := by
  unfold State.driverChange
  dsimp only
  have h : LinkStep [.driverChanged] s (if s.config.records.tunnel.freeze = true then s else s.unlearnStation k) := by
    split
    · exact .refl s
    · exact unlearnStation s k
  have hrecord : ∀ (u : State) (c : Tab (Option LastChange)),
      LinkStep [.driverChanged] u (({ u with sigs.changes := c } : State).setUnsaved.raise .driverChanged) := fun u c =>
    .trans (t := ({ u with sigs.changes := c } : State).setUnsaved) (.records rfl id) (raise _ (by decide))
  exact (h.trans (setIdent _ k (some j))).trans (hrecord _ _)

theorem takeIdent (k : Nat) (i : BitVec 32) : LinkStep [.driverChanged] s (s.takeIdent k i) := by
  unfold State.takeIdent
  split
  · exact (setIdent s _ _).trans (setUnsaved _)
  · split
    · exact .refl s
    · exact driverChange s _ _ _

/-! ### Station records and pollers -/

/-- A station record is written whose reprobe timer is no new one, or lies in its range (R157). -/
theorem setStation {k : Nat} {r : StationRec}
    (hr : r.reprobe = (s.station k).reprobe ∨ ∀ v, r.reprobe = some v → v ≤ 30000) : LinkStep kinds s (s.setStation k r) :=
  .linked rfl (fun _ h => h.setStation (hr.elim (fun he v hv => h.reprobes k v (he ▸ hv)) id)) Tab.wf_set

theorem setPoller {e : LinkEnd} {p : Poller}
    (hp : p.answerTimer = none ∨ (p.answerTimer = (s.poller e).answerTimer ∧ p.exchange = (s.poller e).exchange)) :
    LinkStep kinds s (s.setPoller e p) := by
  refine .linked (by cases e <;> rfl) (fun _ h => h.setPoller fun v hv => ?_) fun h => (by cases e <;> exact h)
  rcases hp with hp | ⟨hp, hx⟩
  · rw [hp] at hv; cases hv
  · rw [hx]; exact h.answers e v (hp ▸ hv)

theorem dropReprobe (k : Nat) : LinkStep kinds s (s.dropReprobe k) :=
  .linked rfl (fun _ h => h.pollers rfl rfl rfl rfl) id

theorem dropPoll (k : Nat) : LinkStep kinds s (s.dropPoll k) := .linked rfl (fun _ h => h.pollers rfl rfl rfl rfl) id

theorem endLampTest (c : LampEndCause) : LinkStep kinds s (s.endLampTest c) := by
  unfold State.endLampTest
  split
  · exact .refl s
  · exact ⟨rfl, .inr rfl, .of_same rfl rfl rfl, fun z h => h.congr rfl h.strings, id, id⟩

theorem endLampTestAt (k : Nat) : LinkStep kinds s (s.endLampTestAt k) := by
  unfold State.endLampTestAt
  split
  · exact .refl s
  · split
    · exact endLampTest s _
    · exact .refl s

theorem stationGone (k : Nat) (a : Option Aspect) : LinkStep kinds s (s.stationGone k a) :=
  ((setStationDisplayed s k a).trans (quietStation _ k)).trans (endLampTestAt _ k)


theorem loseStation (k : Nat) (r : StationRec) : LinkStep linkKinds s (s.loseStation k r) :=
  (((setStation s (.inr (by simp))).trans (dropReprobe _ k)).trans (raise _ (by decide))).trans (stationGone _ k none)

/-- The reprobe timer starts at 30 s (R156, R157). -/
theorem reprobe_start {v : Nat} (h : some Config.reprobeMs = some v) : v ≤ 30000 := by
  obtain rfl := Option.some.inj h; decide

theorem miss (e : LinkEnd) (x : Exchange) (c : MissCause) : LinkStep linkKinds s (s.miss e x c) := by
  have hkeep : LinkStep linkKinds s (s.setStation x.station ((s.station x.station).missed e c)) :=
    setStation s (.inl (by simp))
  have hmove : LinkStep linkKinds s (s.setStation x.station (((s.station x.station).missed e c).moveTo e.other)) :=
    setStation s (.inl (by simp))
  unfold State.miss
  dsimp only
  split
  case h_1 => split; exacts [hmove, hkeep]
  case h_2 =>
    split
    · exact (setStation s (.inr fun v hv => reprobe_start (by simpa using hv))).trans (raise _ (by decide))
    · exact hkeep
  case h_3 =>
    split
    · exact loseStation s _ _
    · split
      · exact setStation s (.inr fun v hv => reprobe_start hv)
      · exact hkeep
  case h_4 => split; exacts [hmove, hkeep]

theorem returnStation (e : LinkEnd) (k : Nat) {r : StationRec} (hr : r.reprobe = (s.station k).reprobe) :
    LinkStep [.ringDegraded] s (s.returnStation e k r) := by
  have hdrop : LinkStep [.ringDegraded] s (if e = r.current then s else s.dropPoll k) := by
    split
    · exact .refl s
    · exact dropPoll s k
  have hsame : (if e = r.current then s else s.dropPoll k).station k = s.station k := by split <;> rfl
  unfold State.returnStation
  dsimp only
  split
  · exact (hdrop.trans (setStation _ (.inl (by rw [hsame]; exact hr)))).trans (returnStrings _ k)
  · exact ((hdrop.trans (setStation _ (.inr fun v hv => reprobe_start hv))).trans (raise _ (by decide))).trans
      (returnStrings _ k)

theorem answerStation (e : LinkEnd) (k : Nat) : LinkStep [.ringDegraded] s (s.answerStation e k) := by
  have hkeep : LinkStep [.ringDegraded] s
      (s.setStation k { ((s.station k).setMiss e 0).setCause e .none with answered := true }) :=
    setStation s (.inl (by simp))
  unfold State.answerStation
  dsimp only
  split
  case h_1 => exact returnStation s e k (by simp)
  case h_2 =>
    split
    · exact ((setStation s (.inr (by simp))).trans (dropReprobe _ k)).trans (dropPoll _ k)
    · exact hkeep
  all_goals exact hkeep

theorem takeSupply (k : Nat) (o : Bool) : LinkStep kinds s (s.takeSupply k o) := setStation s (.inl rfl)

theorem cutStation (k : Nat) : LinkStep [.stationCut] s (s.cutStation k) := by
  have hcut : LinkStep [.stationCut] s
      ((((s.setStation k { s.station k with state := .cut, reprobe := none, restorePending := false }).dropReprobe k).raise
        .stationCut).stationGone k (some .dark)) :=
    (((setStation s (.inr (by simp))).trans (dropReprobe _ k)).trans (raise _ (by decide))).trans (stationGone _ k _)
  unfold State.cutStation
  dsimp only
  split
  · exact .refl s
  · exact hcut
  · exact hcut
  · exact .refl s

theorem takeSamples (k : Nat) (f : SampleFrame) : LinkStep sampleKinds s (s.takeSamples k f) := by
  unfold State.takeSamples
  dsimp only
  have hshown : LinkStep sampleKinds s
      (if ((s.station k).state == .cut) = true then s else s.takeDisplayed ((stationHeads s.l k).zip f.records)) := by
    split
    · exact .refl s
    · exact takeDisplayed s _
  have hcut : ∀ p : State × Bool, LinkStep sampleKinds s p.1 →
      LinkStep sampleKinds s (if p.2 = true then p.1.cutStation k else p.1) := by
    intro p hp
    split
    · exact hp.trans ((cutStation _ k).mono (by decide))
    · exact hp
  exact hcut _ (hshown.trans ((acceptFrame _ _ _ _ _).mono (by decide)))

theorem takeAnswer (e : LinkEnd) (k : Nat) (f : SampleFrame) : LinkStep answerKinds s (s.takeAnswer e k f) :=
  ((((answerStation s e k).mono (by decide)).trans ((takeIdent _ k _).mono (by decide))).trans (takeSupply _ k _)).trans
    ((takeSamples _ k f).mono (by decide))

/-! ### Reception, and the poller's own events -/

theorem endExchange (e : LinkEnd) : LinkStep kinds s (s.endExchange e) := setPoller s (.inl rfl)

theorem of_answerKinds {t : State} (h : LinkStep answerKinds s t) : LinkStep linkKinds s t :=
  h.mono fun _ hk => List.mem_cons_of_mem _ hk

theorem gantryEvent (e : LinkEnd) (ev : GantryRxEvent) : LinkStep linkKinds s (s.gantryEvent e ev) := by
  unfold State.gantryEvent
  split
  case h_1 =>
    split
    · exact (endExchange s e).trans (of_answerKinds _ (takeAnswer _ e _ _))
    · exact (endExchange s e).trans (miss _ e _ _)
  case h_2 => exact (endExchange s e).trans (miss _ e _ _)
  all_goals exact .refl s

theorem gantryReceived (e : LinkEnd) (r : GantryRx × Option GantryRxEvent) :
    LinkStep linkKinds s (s.gantryReceived e r) := by
  have hrx : ∀ p : Poller, p.exchange = (s.poller e).exchange → p.answerTimer = (s.poller e).answerTimer →
      LinkStep linkKinds s (s.setPoller e { p with answerTimer := if p.answering = true then none else p.answerTimer }) :=
    fun p hx ht => setPoller s (by
      split
      · exact .inl rfl
      · exact .inr ⟨ht, hx⟩)
  unfold State.gantryReceived
  dsimp only
  split
  · exact hrx { s.poller e with rx := r.1 } rfl rfl
  · exact (hrx { s.poller e with rx := r.1 } rfl rfl).trans (gantryEvent _ e _)

theorem gantryOctets (e : LinkEnd) (os : List Octet) : LinkStep linkKinds s (s.gantryOctets e os) :=
  foldl (fun u _ => gantryReceived u e _) os s

theorem gantryCutShort (e : LinkEnd) : LinkStep linkKinds s (s.gantryCutShort e) := gantryReceived s e _

theorem timeOut (e : LinkEnd) : LinkStep linkKinds s (s.timeOut e) := by
  unfold State.timeOut
  split
  · exact .refl s
  · exact (endExchange s e).trans (miss _ e _ _)

theorem frameSent (e : LinkEnd) : LinkStep kinds s (s.frameSent e) := by
  refine .linked (by unfold State.frameSent; cases e <;> rfl) (fun _ h => h.setPoller fun v hv => ?_)
    fun h => (by unfold State.frameSent; cases e <;> exact h)
  dsimp only at hv
  split at hv
  · rename_i hc
    obtain rfl := Option.some.inj hv
    exact ⟨.inl (by decide), by decide, (Bool.and_eq_true_iff.1 hc).1⟩
  · exact h.answers e v hv

theorem reprobeDue (k : Nat) : LinkStep kinds s (s.reprobeDue k) := by
  refine (setStation s (.inr ?_)).trans (setPoller _ (.inr ⟨?_, ?_⟩))
  · rintro _ ⟨⟩; exact Nat.zero_le _
  · rw [State.setStation_poller]
  · rw [State.setStation_poller]

theorem restoreStation (k : Nat) : LinkStep linkKinds s (s.restoreStation k) := by
  unfold State.restoreStation
  dsimp only
  have hst : LinkStep linkKinds s
      (if (s.station k).current = homeEnd s.n k then
        s.setStation k { s.station k with restorePending := true, state := .online }
      else (s.setStation k
        { s.station k with
          restorePending := true, state := .rerouted, reprobe := some Config.reprobeMs }).raise .ringDegraded) := by
    split
    · exact setStation s (.inl rfl)
    · exact (setStation s (.inr fun v hv => reprobe_start hv)).trans (raise _ (by decide))
  exact ((hst.trans (setStationDisplayed _ k none)).trans (clearLamps _ _)).trans (.records rfl id)

end LinkStep

end Sys2Proof.Machine
end

