-- ==== Sys2Proof/Proofs/LanesKept.lean ====
section
/-! PROOFS. Every step keeps the laws of the lane records (O8). -/

namespace Sys2Proof.Machine

/-! ### Rows, from what their effects keep -/

/-- A law of states that the end of an event and a command's completion keep. -/
structure RowClosed (p : State → Prop) : Prop where
  settle : ∀ b a, p a → p (settle b a)
  complete : ∀ a f r, p a → p (a.complete f r)

section Rows

variable {p : State → Prop} {s t : State}

theorem runCommand_keeps {kind len : Nat} {modes : Modes} {act : State → List Octet → CmdResult} {tag : Octet}
    {b : List Octet} (hp : RowClosed p) (h : runCommand kind len modes act tag b s = .next t) (hs : p s)
    (ha : modes.accept s.config.mode = true → p (act s b).state) : p t := by
  unfold runCommand at h
  rcases eventIf_cases h with rfl | ⟨-, -, rfl⟩
  · exact hs
  · refine hp.settle _ _ (hp.complete _ _ _ ?_)
    unfold checked
    split
    · exact hs
    · split
      · exact hs
      · rename_i hm
        exact ha (by simpa using hm)

theorem eventIf_keeps {allowed : Bool} {f : State → State} (hp : RowClosed p) (h : eventIf s allowed f = .next t)
    (hs : p s) (hf : s.live = true → allowed = true → p (f s)) : p t := by
  rcases eventIf_cases h with rfl | ⟨hl, ha, rfl⟩
  · exact hs
  · exact hp.settle _ _ (hf hl ha)

theorem event_keeps {f : State → State} (hp : RowClosed p) (h : event s f = .next t) (hs : p s) (hf : p (f s)) : p t := by
  rcases event_cases h with rfl | ⟨-, rfl⟩
  · exact hs
  · exact hp.settle _ _ hf

theorem withFields_keeps {tests : List (Bool × Nat)} {act : CmdResult} (hs : p s)
    (h : firstBad tests = none → p act.state) : p (withFields s tests act).state := by
  unfold withFields
  split
  · exact hs
  · rename_i hb; exact h hb

end Rows

namespace State.Lawful

variable {P : Nat → Nat → Prop} {s t : State}

theorem settle {b a : State} (h : a.Lawful P) (hP : Admits P) : (Machine.settle b a).Lawful P := by
  have he := h.failOpenings hP (settledFailures b a)
  have hstep := failOpenings_step a (settledFailures b a)
  refine he.congr (by simp) ?_ ?_ ?_ ?_ ?_
  · rw [settle_config, hstep.config]
  · rw [settle_engine]
  · rw [settle_engine]
  · rw [settle_resolver, hstep.resolver]; exact id
  · rw [settle_resolver, hstep.resolver]; exact .inl rfl

theorem complete (h : s.Lawful P) (f : HostFrame) (r : Reply) : (s.complete f r).Lawful P :=
  h.congr rfl rfl rfl rfl id (.inl rfl)

theorem rowClosed (hP : Admits P) : RowClosed (State.Lawful P) :=
  ⟨fun _ _ h => h.settle hP, fun _ f r h => h.complete f r⟩

/-- A step of the link leaves what the lane laws read (R156, R160). -/
theorem linkStep {kinds : List AttnKind} (h : s.Lawful P) (hk : LinkStep kinds s t) : t.Lawful P := by
  refine h.congr ?_ (by rw [hk.config]) (by rw [hk.engine]) (by rw [hk.engine]) (by rw [hk.overrides]; exact id) hk.test
  unfold State.settings
  rw [hk.config, hk.engine, hk.time]

/-! ### The lane commands -/

section Acts

variable {b : List Octet} (h : s.Lawful P) (hP : Admits P)

theorem run_of_accept (hm : Modes.runOnly.accept s.config.mode = true) : s.config.mode = .run := by
  simpa [Modes.accept] using hm

/-- The first test of a lane command: its lane lies in the section. -/
theorem okLane_of_first {rest : List (Bool × Nat)} {l o : Nat} (hb : firstBad ((s.okLane l, o) :: rest) = none) :
    l < s.l := (s.okLane_iff l).1 (firstBad_none.1 hb).1

include h hP

theorem actCancelTask : (actCancelTask s b).state.Lawful P := by
  refine withFields_keeps h fun _ => ?_
  split
  · exact (h.removeQueued _ _).scan hP
  · exact h

theorem actAbortLane : (actAbortLane s b).state.Lawful P := by
  refine withFields_keeps h fun _ => ?_
  split
  · exact h
  · exact h
  · rename_i hp; exact h.abortClosing hP hp
  · rename_i hp; exact h.abortClearance hP hp
  · rename_i hp; exact h.abortOpening hP hp
  · exact h

theorem actCloseNow : (actCloseNow s b).state.Lawful P :=
  withFields_keeps h fun hb => h.closeNow hP (okLane_of_first hb)

variable (hm : Modes.runOnly.accept s.config.mode = true)

include hm

theorem actCloseLane : (actCloseLane s b).state.Lawful P := by
  refine withFields_keeps h fun hb => ?_
  split
  · exact h
  · exact h.addTasks hP (run_of_accept hm) fun u hu => List.mem_singleton.1 hu ▸ okLane_of_first hb

theorem actOpenLane : (actOpenLane s b).state.Lawful P := by
  refine withFields_keeps h fun hb => ?_
  split
  · exact h
  · split
    · exact h.addTasks hP (run_of_accept hm) fun u hu => List.mem_singleton.1 hu ▸ okLane_of_first hb
    · split <;> exact h

theorem actReverseLane : (actReverseLane s b).state.Lawful P := by
  refine withFields_keeps h fun hb => ?_
  split
  · exact h
  · split
    · exact h
    · refine h.addTasks hP (run_of_accept hm) fun u hu => ?_
      rcases List.mem_cons.1 hu with rfl | hu
      · exact okLane_of_first hb
      · exact List.mem_singleton.1 hu ▸ okLane_of_first hb

theorem actConfirmClear : (actConfirmClear s b).state.Lawful P := by
  refine withFields_keeps h fun hb => ?_
  have hl := okLane_of_first hb
  split
  · rename_i d c u hp
    refine h.putPhase_as hl (run_of_accept hm) (fun _ _ _ hp => hp) (h.timer _) (fun hs => by cases hs) ?_
      (fun f hf => by cases hf) ?_
    · rintro _ ⟨⟩; exact h.lanes.carried _ u (by rw [hp]; rfl)
    · rw [h.lanes.timers, hp]; rfl
  · rename_i d c u hp
    exact h.endClearance hP (fun _ _ _ hp => hp) hl (h.lanes.carried _ u (by rw [hp]; rfl)) _
  all_goals exact h

theorem actSelectPlan : (actSelectPlan s b).state.Lawful P := by
  refine withFields_keeps h fun _ => ?_
  split
  · rename_i hs; exact h.selectPlan hP (run_of_accept hm) hs
  · exact h
  · exact h

end Acts

/-! ### The commands of the modes and the records -/

section Modes

variable {b : List Octet} (h : s.Lawful P)

include h

theorem actStart : (actStart s b).state.Lawful P := by
  unfold Machine.actStart
  split
  · exact h.enterRun
  · exact h.congr rfl rfl rfl rfl id (.inl rfl)

theorem actStop : (actStop s b).state.Lawful P := by
  unfold Machine.actStop
  split
  · rename_i ha
    obtain ⟨ha, -⟩ := Bool.and_eq_true_iff.1 ha
    simp only [State.allShut, State.laneNumbers, List.all_eq_true, List.mem_range, beq_iff_eq] at ha
    exact h.enterStandby ha
  · exact h

/-- A change of the section finds every lane SHUT; the lanes that leave it are at their reset values (R4, R21). -/
theorem applyTunnel {t : Tunnel} (hm : s.config.mode = .standby) (hset : (s.applyTunnel t).settings.Legal) :
    (s.applyTunnel t).Lawful P := by
  obtain ⟨hshut, hq, ho⟩ := h.lanes.standby hm
  have hlane := applyTunnel_lane s t
  have hphase : ∀ l, ((s.applyTunnel t).lane l).phase = .shut := fun l => by
    rw [hlane]; split
    · exact hshut l
    · rfl
  have hqueue : (s.applyTunnel t).engine.queue = [] := by rw [applyTunnel_engine]; exact hq
  refine ⟨hset, ?_, ⟨?_, ?_, ?_, ?_, ?_, ?_, ?_, ?_⟩, ?_⟩
  · rw [applyTunnel_engine]; exact Tab.wf_eraseWhere (fun i => decide (t.l ≤ i)) h.table
  · intro l m hs
    unfold State.sweeps at hs
    rw [hphase] at hs
    cases hs
  · intro l hl
    have hle : t.l ≤ l := by
      unfold State.l at hl
      rw [applyTunnel_config] at hl
      exact hl
    rw [hlane, if_neg (by omega)]
  · intro l u hu; rw [hphase] at hu; cases hu
  · intro l f hf; rw [hphase] at hf; cases hf
  · intro l
    rw [hlane]; split
    · exact h.lanes.timers l
    · rfl
  · rw [hqueue]; exact fun u hu => by cases hu
  · intro _
    have hover : (s.applyTunnel t).resolver.overrides = [] := by
      rw [(applyTunnel_section s t).overrides, followRole_resolver]; exact ho
    exact ⟨hphase, hqueue, hover⟩
  · intro hr
    rw [applyTunnel_config] at hr
    rw [show (s.writeTunnel t).config.mode = s.config.mode from rfl, hm] at hr
    cases hr
  · intro l v hv
    rw [hlane] at hv; split at hv
    · exact h.timer l v hv
    · cases hv

theorem actSetTunnel (hm : s.config.mode = .standby) : (actSetTunnel s b).state.Lawful P := by
  have hset : (Machine.actSetTunnel s b).state.settings.Legal := actSetTunnel_legal h.settings
  unfold Machine.actSetTunnel at hset ⊢
  unfold withFields at hset ⊢
  split
  · exact h
  · rename_i hb
    rw [hb] at hset
    dsimp only at hset ⊢
    split
    · exact h
    · rename_i hc
      rw [if_neg hc] at hset
      exact h.applyTunnel hm hset

theorem actOverride (hm : s.config.mode = .run) : (actOverride s b).state.Lawful P := by
  refine withFields_keeps h fun _ => ?_
  split
  · exact h
  · refine ⟨h.settings, h.table, ⟨h.lanes.oneSweep, h.lanes.outside, h.lanes.carried, h.lanes.fronts, h.lanes.timers,
      h.lanes.queued, fun hs => ?_, h.lanes.untested⟩, h.timer⟩
    rw [show s.config.mode = .standby from hs] at hm
    cases hm

theorem dropOverride (hd : HeadRef) : (s.dropOverride hd).Lawful P :=
  h.congr rfl rfl rfl rfl (fun ho => by
    show s.resolver.overrides.filter _ = []
    rw [ho]; rfl) (.inl rfl)

theorem actRelease : (actRelease s b).state.Lawful P := by
  refine withFields_keeps h fun _ => ?_
  split
  · exact h.dropOverride _
  · exact h

/-- A lamp test starts in STANDBY alone (R97). -/
theorem actLampTest (hm : s.config.mode = .standby) : (actLampTest s b).state.Lawful P := by
  refine withFields_keeps h fun _ => ?_
  split
  · exact h
  · split
    · exact h
    · refine ⟨h.settings, h.table, ⟨h.lanes.oneSweep, h.lanes.outside, h.lanes.carried, h.lanes.fronts, h.lanes.timers,
        h.lanes.queued, h.lanes.standby, fun hr => ?_⟩, h.timer⟩
      rw [show s.config.mode = .run from hr] at hm
      cases hm

theorem actEndLampTest : (actEndLampTest s b).state.Lawful P := by
  unfold Machine.actEndLampTest
  split
  · exact h.linkStep (LinkStep.endLampTest (kinds := []) s .host)
  · exact h

theorem actUnfix : (actUnfix s b).state.Lawful P := by
  refine withFields_keeps h fun _ => ?_
  split
  · exact h.congr rfl rfl rfl rfl id (.inl rfl)
  · exact h
  · exact h

theorem actUnlearn : (actUnlearn s b).state.Lawful P := by
  refine withFields_keeps h fun _ => ?_
  show (s.unlearn _).Lawful P
  unfold State.unlearn
  split
  · exact h
  · exact h.linkStep ((LinkStep.unlearnStation (kinds := []) s _).trans (.setUnsaved _))

theorem actRestoreStation : (actRestoreStation s b).state.Lawful P := by
  refine withFields_keeps h fun _ => ?_
  split
  · exact h.linkStep (.restoreStation s _)
  · exact h

theorem actGetLane : (actGetLane s b).state.Lawful P := by
  refine withFields_keeps h fun _ => ?_
  split <;> exact h

theorem actGetStation : (actGetStation s b).state.Lawful P := by
  refine withFields_keeps h fun _ => ?_
  split <;> exact h

end Modes

end State.Lawful

end Sys2Proof.Machine
end

