-- ==== Sys2Proof/Proofs/LaneRows.lean ====
section
/-! PROOFS. Every row, the passing of a millisecond, and so every step keeps the laws of the lane records (O8). -/

namespace Sys2Proof.Machine

/-! ### The host's and the Time Base's events -/

/-- What the receiver's new state and each event it found keep, a reception keeps. -/
theorem hostReceived_keeps {p : State → Prop} (hrx : ∀ u rx, p u → p { u with host.rx := rx })
    (hev : ∀ u ev, p u → p (u.hostEvent ev)) {s : State} (hs : p s) (r : HostRx × List HostRxEvent) :
    p (s.hostReceived r) := by
  have hall : ∀ (evs : List HostRxEvent) (u : State), p u → p (evs.foldl State.hostEvent u) := by
    intro evs
    induction evs with
    | nil => exact fun _ hu => hu
    | cons ev evs ih => exact fun u hu => ih _ (hev u ev hu)
  exact hall r.2 _ (hrx s r.1 hs)

namespace State.Lawful

variable {P : Nat → Nat → Prop} {s t : State}

/-- A change outside what the lane laws read. -/
theorem outside (h : s.Lawful P) (hset : t.settings = s.settings) (hmode : t.config.mode = s.config.mode)
    (he : t.engine = s.engine) (hr : t.resolver = s.resolver) : t.Lawful P :=
  h.congr hset hmode (by rw [he]) (by rw [he]) (by rw [hr]; exact id) (.inl (by rw [hr]))

theorem hostEvent (h : s.Lawful P) (ev : HostRxEvent) : (s.hostEvent ev).Lawful P := by
  cases ev with
  | good f =>
    unfold State.hostEvent State.frameArrives
    dsimp only
    split
    · exact h.outside rfl rfl rfl rfl
    · exact h.outside rfl rfl rfl rfl
  | dropped fault => cases fault <;> exact h.outside rfl rfl rfl rfl

theorem hostReceived (h : s.Lawful P) (r : HostRx × List HostRxEvent) : (s.hostReceived r).Lawful P :=
  hostReceived_keeps (fun _ _ hu => hu.outside rfl rfl rfl rfl) (fun _ ev hu => hu.hostEvent ev) h r

theorem setPhase (h : s.Lawful P) (v : Bool) : (s.setPhase v).Lawful P := by
  unfold State.setPhase
  split
  · exact h
  · unfold State.markPhase
    split <;> exact h.outside rfl rfl rfl rfl

theorem raiseTimes (h : s.Lawful P) (k : AttnKind) (n : Nat) : (s.raiseTimes k n).Lawful P := by
  induction n generalizing s with
  | zero => exact h
  | succ n ih => exact ih (h.raise k)

theorem fire (h : s.Lawful P) (hP : Admits P) (hm : s.config.mode = .run) (id : Nat) : (s.fire id).1.Lawful P := by
  unfold State.fire
  split
  · exact h.raise _
  · split
    · rename_i hs; exact (h.selectPlan hP hm hs).raise _
    · exact h.raise _
    · exact h.raise _

theorem minuteEvent (h : s.Lawful P) (hP : Admits P) (t : Time) : (s.minuteEvent t).Lawful P := by
  unfold State.minuteEvent
  dsimp only
  split
  · exact h
  · exact h
  · rename_i hm _
    have hr : (s.raiseTimes .scheduleNotApplied ((s.matching t).length - 1)).config.mode = .run := by
      rw [State.raiseTimes_frame]; exact hm
    exact ((h.raiseTimes _ _).fire hP hr _).outside rfl rfl rfl rfl

theorem secondEnds (h : s.Lawful P) (hP : Admits P) : s.secondEnds.Lawful P := by
  have hset := secondEnds_legal h.settings
  unfold State.secondEnds at hset ⊢
  split
  · exact h
  · rename_i t ht
    rw [ht] at hset
    dsimp only at hset ⊢
    have hset' : ({ s with time.clock := some t.next, time.secondTimer := some 1000 } : State).settings.Legal := by
      split at hset
      · rwa [minuteEvent_settings] at hset
      · exact hset
    have h' : ({ s with time.clock := some t.next, time.secondTimer := some 1000 } : State).Lawful P :=
      h.congr_of hset' rfl rfl rfl rfl rfl id (.inl rfl)
    split
    · exact h'.minuteEvent hP _
    · exact h'

theorem overridesExpire (h : s.Lawful P) (hd : List HeadRef) : (s.overridesExpire hd).Lawful P := by
  have hkept : ({ s with resolver.overrides := s.resolver.overrides.filter fun o => !hd.contains o.head } : State).Lawful P :=
    h.congr rfl rfl rfl rfl (fun ho => by
      show s.resolver.overrides.filter _ = []
      rw [ho]; rfl) (.inl rfl)
  exact hkept.raiseTimes _ _

/-! ### The store, the supply and RESET_N -/

theorem beginWrite (h : s.Lawful P) (f : HostFrame) {w : StoreWrite} (hw : ∀ i, w = .config i → i.legal = true) :
    (s.beginWrite f w).Lawful P := by
  have hset := beginWrite_settings_legal h.settings f hw
  unfold State.beginWrite at hset ⊢
  split
  · exact h.complete _ _
  · rename_i hb
    rw [if_neg hb] at hset
    exact h.congr_of hset rfl rfl rfl rfl rfl id (.inl rfl)

theorem endWrite (h : s.Lawful P) {w : StoreWrite} (hw : s.config.writing = some w) (ok : Bool) :
    (s.endWrite w ok).state.Lawful P := by
  have hset := endWrite_legal h.settings hw ok
  unfold State.endWrite at hset ⊢
  cases w <;> cases ok <;> exact h.congr_of hset rfl rfl rfl rfl rfl id (.inl rfl)

theorem hold (h : s.Lawful P) : s.hold.Lawful P := by
  have hrec : s.config.stopWrite.records = s.config.records ∧ s.config.stopWrite.mode = s.config.mode := by
    unfold ConfigStore.stopWrite; split <;> exact ⟨rfl, rfl⟩
  exact h.congr_of (hold_legal h.settings) (congrArg (·.tunnel.n) hrec.1) (congrArg (·.tunnel.l) hrec.1) hrec.2 rfl rfl id
    (.inl rfl)

theorem fail (h : s.Lawful P) : s.fail.Lawful P := h.hold.outside rfl rfl rfl rfl

/-- The start-up sequence leaves every lane at its reset values, the queue and the tables empty (R16, R21). -/
theorem startUp (hset : s.settings.Legal) (hP : Admits P) (cause : ResetCause) : (s.startUp cause).Lawful P := by
  have hlegal := startUp_legal hset cause
  obtain ⟨mode, refusal, ha, -⟩ := s.autoStart_loaded cause
  unfold State.startUp at hlegal ⊢
  rw [settle_settings] at hlegal
  refine State.Lawful.settle ?_ hP
  rw [ha] at hlegal ⊢
  refine ⟨hlegal, rfl, ⟨fun l m hs => ?_, fun l _ => rfl, fun l u hu => ?_, fun l f hf => ?_, fun l => rfl, fun u hu => ?_,
    fun _ => ⟨fun l => rfl, rfl, rfl⟩, fun _ => rfl⟩, fun l v hv => ?_⟩ <;> contradiction

/-! ### The passing of a millisecond -/

theorem tick_lane (h : Tab.wf LaneRec.reset s.engine.lanes = true) (l : Nat) : s.tick.lane l = (s.lane l).tick :=
  (Tab.get_mapWhere s.engine.lanes (fun _ => true) LaneRec.tick rfl h l).trans (if_pos rfl)

/-- The tick keeps the laws, the law of the timers moving down by a millisecond. -/
theorem tick_as {Q : Nat → Nat → Prop} (h : s.Lawful P) (hPQ : ∀ l v, P l v → Q l (v - 1)) : s.tick.Lawful Q := by
  have hlane := tick_lane h.table
  have hphase : ∀ l, (s.tick.lane l).phase = (s.lane l).phase := fun l => by rw [hlane]; rfl
  refine ⟨h.settings, Tab.wf_mapWhere _ _ h.table, ⟨?_, ?_, ?_, ?_, ?_, h.lanes.queued, ?_, ?_⟩, ?_⟩
  · simpa only [State.sweeps, hphase] using h.lanes.oneSweep
  · intro l hl; rw [hlane, h.lanes.outside l hl]; rfl
  · simpa only [hphase] using h.lanes.carried
  · intro l f hf
    rw [hphase] at hf
    exact h.lanes.fronts l f hf
  · intro l
    rw [hphase, ← h.lanes.timers l, hlane]
    exact Option.isSome_map
  · intro hm
    obtain ⟨hshut, hq, ho⟩ := h.lanes.standby hm
    refine ⟨by simpa only [hphase] using hshut, hq, ?_⟩
    show s.resolver.overrides.map _ = []
    rw [ho]; rfl
  · intro hm
    show s.resolver.lampTest.map _ = none
    rw [h.lanes.untested hm]; rfl
  · intro l v hv
    rw [hlane] at hv
    obtain ⟨w, hw, rfl⟩ := Option.map_eq_some_iff.1 hv
    exact hPQ l w (h.timer l w hw)

end State.Lawful

/-! ### Every row -/

section Rows

variable {P : Nat → Nat → Prop} {s t : State}

theorem standby_of_accept (hm : Modes.standbyOnly.accept s.config.mode = true) : s.config.mode = .standby := by
  simpa [Modes.accept] using hm

theorem powerUp_lawful (hP : Admits P) (hs : s.Lawful P) (h : execPowerUp s = .next t) : t.Lawful P := by
  have hoff : ({ s.fail with power.on := true } : State).Lawful P := hs.fail.outside rfl rfl rfl rfl
  unfold execPowerUp at h
  dsimp only at h
  split at h
  · obtain rfl := Host.Outcome.next.inj h; exact .startUp hoff.settings hP _
  · obtain rfl := Host.Outcome.next.inj h; exact hoff.outside rfl rfl rfl rfl

theorem resetNFall_lawful (hs : s.Lawful P) (h : execResetNFall s = .next t) : t.Lawful P := by
  have hlow : ({ s with power.resetN := false } : State).Lawful P := hs.outside rfl rfl rfl rfl
  unfold execResetNFall at h
  split_ifs at h
  · obtain rfl := Host.Outcome.next.inj h; exact hs
  · obtain rfl := Host.Outcome.next.inj h; exact hlow.hold
  · obtain rfl := Host.Outcome.next.inj h; exact hlow

theorem resetNRise_lawful (hP : Admits P) (hs : s.Lawful P) (h : execResetNRise s = .next t) : t.Lawful P := by
  have hup : ({ s with power.resetN := true } : State).Lawful P := hs.outside rfl rfl rfl rfl
  unfold execResetNRise at h
  split_ifs at h
  · obtain rfl := Host.Outcome.next.inj h; exact hs
  · obtain rfl := Host.Outcome.next.inj h; exact .startUp hup.settings hP _
  · obtain rfl := Host.Outcome.next.inj h; exact hup

theorem hostTransmitEnd_lawful (hP : Admits P) (hs : s.Lawful P) (h : execHostTransmitEnd s = .next t) :
    t.Lawful P := by
  unfold execHostTransmitEnd at h
  split at h
  · obtain rfl := Host.Outcome.next.inj h; exact hs
  · rename_i f _
    split at h
    · obtain rfl := Host.Outcome.next.inj h; exact .startUp hs.settings hP _
    · exact event_keeps (f := fun s => { s with host.tx := none, host.noticeCount := countAfter f s.host.noticeCount })
        (State.Lawful.rowClosed hP) h hs (hs.outside rfl rfl rfl rfl)

theorem unknownKind_lawful {k tag : Octet} {b : List Octet} (hP : Admits P) (hs : s.Lawful P)
    (h : execUnknownKind k tag b s = .next t) : t.Lawful P :=
  eventIf_keeps (f := fun s => s.complete ⟨k, tag, b⟩ (refuse s 16 k.toNat 0).reply) (State.Lawful.rowClosed hP) h hs
    fun _ _ => hs.complete _ _

theorem commit_lawful {tag : Octet} {b : List Octet} (hP : Admits P) (hs : s.Lawful P)
    (h : execCommit tag b s = .next t) : t.Lawful P :=
  eventIf_keeps (f := fun s => s.beginWrite (commandFrame 16 tag b) (.config s.configImage)) (State.Lawful.rowClosed hP)
    h hs fun _ _ => hs.beginWrite _ fun i hi => by
      obtain rfl := StoreWrite.config.inj hi
      exact (ConfigImage.legal_iff _).2 ((ConfigImage.legal_iff _).1 hs.settings.image)

theorem saveSignatures_lawful {tag : Octet} {b : List Octet} (hP : Admits P) (hs : s.Lawful P)
    (h : execSaveSignatures tag b s = .next t) : t.Lawful P := by
  refine eventIf_keeps (f := fun s => let s1 := s.beginWrite (commandFrame 17 tag b) (.signature s.sigImage)
    if b.length ≠ 0 then s1 else { s1 with sigs.unsaved := false }) (State.Lawful.rowClosed hP) h hs fun _ _ => ?_
  have hw := hs.beginWrite (commandFrame 17 tag b) (w := .signature s.sigImage) fun i hi => StoreWrite.noConfusion hi
  dsimp only
  split
  · exact hw
  · exact hw.outside rfl rfl rfl rfl

theorem storeWriteComplete_lawful {ok : Bool} (hP : Admits P) (hs : s.Lawful P)
    (h : execStoreWriteComplete ok s = .next t) : t.Lawful P := by
  unfold execStoreWriteComplete at h
  split at h
  · rename_i w f _ hw _
    refine eventIf_keeps (State.Lawful.rowClosed hP) h hs fun _ _ => ?_
    show ((s.endWrite w ok).state.complete f _).Lawful P
    exact (hs.endWrite hw ok).complete _ _
  · obtain rfl := Host.Outcome.next.inj h; exact hs
  · obtain rfl := Host.Outcome.next.inj h; exact hs

/-- A command that changes records outside what the lane laws read, or none. -/
theorem quietRow_lawful {kind len : Nat} {modes : Modes} {act : State → List Octet → CmdResult} {tag : Octet}
    {b : List Octet} (hP : Admits P) (hs : s.Lawful P) (h : runCommand kind len modes act tag b s = .next t)
    (ha : (act s b).state.Lawful P) : t.Lawful P :=
  runCommand_keeps (State.Lawful.rowClosed hP) h hs fun _ => ha

/-- Each row keeps the laws of the lane records: the engine's rows by what its operations keep, the rows of the link because
they are steps of the link, and the rest because they change nothing that the laws read. -/
theorem exec_lawful (hP : Admits P) (c : Instr) (h : exec c s = .next t) (hs : s.Lawful P) : t.Lawful P := by
  have hp : RowClosed (State.Lawful P) := State.Lawful.rowClosed hP
  have hfields : ∀ {tests : List (Bool × Nat)} {act : CmdResult}, act.state.Lawful P →
      (withFields s tests act).state.Lawful P := fun ha => withFields_keeps hs fun _ => ha
  have hsame : ∀ {u : State}, u.settings = s.settings → u.config.mode = s.config.mode → u.engine = s.engine →
      u.resolver = s.resolver → u.Lawful P := fun h1 h2 h3 h4 => hs.outside h1 h2 h3 h4
  unfold exec at h
  cases c with
  | powerUp => exact powerUp_lawful hP hs h
  | resetNFall => exact resetNFall_lawful hs h
  | resetNRise => exact resetNRise_lawful hP hs h
  | hostFrameReceived o => exact event_keeps hp h hs (hs.hostReceived _)
  | hostFrameDropped o brk =>
    refine event_keeps hp h hs ?_
    split
    · exact (hs.hostReceived _).hostReceived _
    · exact hs.hostReceived _
  | hostGapTimeout o => exact event_keeps hp h hs ((hs.hostReceived _).hostReceived _)
  | hostTransmitEnd => exact hostTransmitEnd_lawful hP hs h
  | silenceTimeout => exact eventIf_keeps hp h hs fun _ _ => hsame rfl rfl rfl rfl
  | unknownKind k tag b => exact unknownKind_lawful hP hs h
  | setTunnel tag b => exact runCommand_keeps hp h hs fun hm => hs.actSetTunnel (standby_of_accept hm)
  | getTunnel tag b => exact quietRow_lawful hP hs h hs
  | setLane tag b =>
    exact quietRow_lawful hP hs h (withFields_keeps hs fun hb => hs.congr_of
      (by have := actSetLane_legal (b := b) hs.settings; unfold actSetLane withFields at this; rw [hb] at this; exact this)
      rfl rfl rfl rfl rfl id (.inl rfl))
  | getLane tag b => exact quietRow_lawful hP hs h hs.actGetLane
  | setStation tag b =>
    refine quietRow_lawful hP hs h (withFields_keeps hs fun hb => ?_)
    have hset := actSetStation_legal (b := b) hs.settings
    unfold actSetStation withFields at hset
    rw [hb] at hset
    change (s.applyStation _ _).settings.Legal at hset
    refine State.Lawful.congr_of hs hset ?_ ?_ ?_ ?_ ?_ ?_ ?_ <;>
      rw [okWith_state, State.applyStation_frame] <;> first | rfl | exact id | exact .inl rfl
  | getStation tag b => exact quietRow_lawful hP hs h hs.actGetStation
  | setProving tag b =>
    refine quietRow_lawful hP hs h ?_
    have hset := applyProving_legal hs.settings (provingOf_legal b)
    refine State.Lawful.congr_of hs hset ?_ ?_ ?_ ?_ ?_ ?_ ?_ <;>
      rw [okOrClamped_state, State.applyProving_frame] <;> first | rfl | exact id | exact .inl rfl
  | getProving tag b => exact quietRow_lawful hP hs h hs
  | setDuty tag b =>
    refine quietRow_lawful hP hs h ?_
    have hset := applyDuties_legal (b := b) hs.settings
    refine State.Lawful.congr_of hs hset ?_ ?_ ?_ ?_ ?_ ?_ ?_ <;>
      rw [okOrClamped_state, State.applyDuties_frame] <;> first | rfl | exact id | exact .inl rfl
  | getDuty tag b => exact quietRow_lawful hP hs h hs
  | setDim tag b =>
    exact quietRow_lawful hP hs h (withFields_keeps hs fun hb => hs.congr_of
      (by have := actSetDim_legal (b := b) hs.settings; unfold actSetDim withFields at this; rw [hb] at this; exact this)
      rfl rfl rfl rfl rfl id (.inl rfl))
  | getDim tag b => exact quietRow_lawful hP hs h hs
  | start tag b => exact quietRow_lawful hP hs h hs.actStart
  | stop tag b => exact quietRow_lawful hP hs h hs.actStop
  | getMode tag b => exact quietRow_lawful hP hs h hs
  | commit tag b => exact commit_lawful hP hs h
  | saveSignatures tag b => exact saveSignatures_lawful hP hs h
  | storeWriteComplete ok => exact storeWriteComplete_lawful hP hs h
  | restart tag b => exact quietRow_lawful hP hs h (hsame rfl rfl rfl rfl)
  | closeLane tag b => exact runCommand_keeps hp h hs fun hm => hs.actCloseLane hP hm
  | openLane tag b => exact runCommand_keeps hp h hs fun hm => hs.actOpenLane hP hm
  | reverseLane tag b => exact runCommand_keeps hp h hs fun hm => hs.actReverseLane hP hm
  | cancelTask tag b => exact quietRow_lawful hP hs h (hs.actCancelTask hP)
  | confirmClear tag b => exact runCommand_keeps hp h hs fun hm => hs.actConfirmClear hP hm
  | abortLane tag b => exact quietRow_lawful hP hs h (hs.actAbortLane hP)
  | closeNow tag b => exact quietRow_lawful hP hs h (hs.actCloseNow hP)
  | getQueue tag b => exact quietRow_lawful hP hs h hs
  | setPlan tag b =>
    refine quietRow_lawful hP hs h ?_
    have hset := actSetPlan_legal (b := b) hs.settings
    unfold actSetPlan at hset ⊢
    refine withFields_keeps hs fun hb => ?_
    unfold withFields at hset
    rw [hb] at hset
    dsimp only at hset
    split
    · exact hs
    · rename_i hc
      rw [hc] at hset
      exact hs.congr_of hset rfl rfl rfl rfl rfl id (.inl rfl)
  | getPlan tag b => exact quietRow_lawful hP hs h (hfields hs)
  | selectPlan tag b => exact runCommand_keeps hp h hs fun hm => hs.actSelectPlan hP hm
  | closingStepExpiry l => exact eventIf_keeps hp h hs fun _ ha => hs.closingStep hP (fun _ _ _ hp => hp) ha
  | openingStepExpiry l => exact eventIf_keeps hp h hs fun _ ha => hs.openingStep hP (fun _ _ _ hp => hp) ha
  | clearanceTimerExpiry l => exact eventIf_keeps hp h hs fun _ ha => hs.clearanceEnds hP (fun _ _ _ hp => hp) ha
  | confirmWindowExpiry l => exact eventIf_keeps hp h hs fun _ ha => hs.windowEnds hP (fun _ _ _ hp => hp) ha
  | getHeads tag b => exact quietRow_lawful hP hs h (hfields hs)
  | getClosures tag b => exact quietRow_lawful hP hs h hs
  | override tag b =>
    exact runCommand_keeps hp h hs fun hm => hs.actOverride (State.Lawful.run_of_accept hm)
  | release tag b => exact quietRow_lawful hP hs h hs.actRelease
  | getOverrides tag b => exact quietRow_lawful hP hs h hs
  | overrideHoldExpiry hd => exact eventIf_keeps hp h hs fun _ _ => hs.overridesExpire hd
  | lampTest tag b => exact runCommand_keeps hp h hs fun hm => hs.actLampTest (standby_of_accept hm)
  | endLampTest tag b => exact quietRow_lawful hP hs h hs.actEndLampTest
  | getLampTest tag b => exact quietRow_lawful hP hs h hs
  | lampTestWindowExpiry =>
    exact eventIf_keeps hp h hs fun _ _ => (hs.linkStep (LinkStep.endLampTest (kinds := []) s _)).raise _
  | clearFault tag b => exact quietRow_lawful hP hs h (hfields (hs.linkStep (LinkStep.clearLamps (kinds := []) s _)))
  | getLamps tag b => exact quietRow_lawful hP hs h (hfields hs)
  | getFaults tag b => exact quietRow_lawful hP hs h hs
  | freeze tag b =>
    exact quietRow_lawful hP hs h (withFields_keeps hs fun hb => hs.congr_of
      (by have := actFreeze_legal (b := b) hs.settings; unfold actFreeze withFields at this; rw [hb] at this; exact this)
      rfl rfl rfl rfl rfl id (.inl rfl))
  | fixSignature tag b => exact quietRow_lawful hP hs h (hfields (hsame rfl rfl rfl rfl))
  | unfix tag b => exact quietRow_lawful hP hs h hs.actUnfix
  | unlearn tag b => exact quietRow_lawful hP hs h hs.actUnlearn
  | getSignatures tag b => exact quietRow_lawful hP hs h (hfields hs)
  | getLearning tag b => exact quietRow_lawful hP hs h hs
  | gantryAnswer e o => exact event_keeps hp h hs (hs.linkStep (.gantryOctets s e o))
  | gantryBadAnswer e o brk =>
    refine event_keeps hp h hs ?_
    split
    · exact hs.linkStep ((LinkStep.gantryOctets s e o).trans (.gantryCutShort _ e))
    · exact hs.linkStep (.gantryOctets s e o)
  | gantryStrayFrame e o => exact event_keeps hp h hs (hs.linkStep (.gantryOctets s e o))
  | gantryGapTimeout e o => exact event_keeps hp h hs (hs.linkStep ((LinkStep.gantryOctets s e o).trans (.gantryCutShort _ e)))
  | pollTimeout e => exact eventIf_keeps hp h hs fun _ _ => hs.linkStep (.timeOut s e)
  | gantryTransmitEnd e => exact eventIf_keeps hp h hs fun _ _ => hs.linkStep (LinkStep.frameSent (kinds := []) s e)
  | reprobeTimerExpiry k => exact eventIf_keeps hp h hs fun _ _ => hs.linkStep (LinkStep.reprobeDue (kinds := []) s k)
  | restoreStation tag b => exact quietRow_lawful hP hs h hs.actRestoreStation
  | getRing tag b => exact quietRow_lawful hP hs h hs
  | halfPeriodExpiry => exact eventIf_keeps hp h hs fun _ _ => (hs.setPhase _).outside rfl rfl rfl rfl
  | flashSyncEdge high => exact eventIf_keeps hp h hs fun _ _ => (hs.setPhase high).outside rfl rfl rfl rfl
  | lossTimerExpiry => exact eventIf_keeps hp h hs fun _ _ => hsame rfl rfl rfl rfl
  | getFlash tag b => exact quietRow_lawful hP hs h hs
  | secondTimerExpiry => exact eventIf_keeps hp h hs fun _ _ => hs.secondEnds hP
  | setClock tag b =>
    exact quietRow_lawful hP hs h (withFields_keeps hs fun hb => hs.congr_of
      (by have := actSetClock_legal (b := b) hs.settings; unfold actSetClock withFields at this; rw [hb] at this; exact this)
      rfl rfl rfl rfl rfl id (.inl rfl))
  | getClock tag b => exact quietRow_lawful hP hs h hs
  | setSchedule tag b =>
    exact quietRow_lawful hP hs h (withFields_keeps hs fun hb => hs.congr_of
      (by
        have := actSetSchedule_legal (b := b) hs.settings
        unfold actSetSchedule withFields at this
        dsimp only at this
        rw [hb] at this
        exact this)
      rfl rfl rfl rfl rfl id (.inl rfl))
  | getSchedule tag b => exact quietRow_lawful hP hs h hs
  | ackAttention tag b => exact quietRow_lawful hP hs h (hfields (hsame rfl rfl rfl rfl))
  | setNoticeMask tag b => exact quietRow_lawful hP hs h (hfields (hsame rfl rfl rfl rfl))
  | getAttention tag b => exact quietRow_lawful hP hs h hs
  | getLink tag b => exact quietRow_lawful hP hs h (hsame rfl rfl rfl rfl)
  | powerFailure => cases h; exact hs.fail

end Rows

/-- Settles O8: the laws, the timers left free, are kept by the queue, by the millisecond that passes and by each row. -/
theorem lanesLegalKept : Obligations.LanesLegalKept := by
  intro s t hg h
  have hs : s.Lawful fun _ _ => True :=
    ⟨s.legal_iff.2 ⟨hg.config, hg.clock⟩, hg.lanes_wf, hg.lanes, fun _ _ _ => trivial⟩
  have hP : Admits fun _ _ => True := fun _ _ _ _ => trivial
  exact (step_keeps (p := State.Lawful fun _ _ => True) (fun _ _ h => h.outside rfl rfl rfl rfl)
    (fun _ h => h.tick_as fun _ _ _ => trivial) (fun c _ _ hs h => exec_lawful hP c h hs) hs h).lanes

end Sys2Proof.Machine
end

