-- ==== Sys2Proof/Proofs/EngineActs.lean ====
section
/-! PROOFS. The composed operations of the Changeover Engine, and its commands, touch the engine and raise kinds, and change
nothing else. -/

namespace Sys2Proof.Machine

section Operations

variable {s t : State} {b : List Octet}

theorem addTasks_step (l : Nat) (ts : List Task) : EngineStep s (s.addTasks l ts).state := by
  unfold State.addTasks
  split
  · exact .refl s
  · split
    · exact .refl s
    · exact (enqueue_step s ts).trans (scan_step _)

theorem startLanes_step (ls : List Nat) (u : State) : EngineStep u (u.startLanes ls) := by
  induction ls generalizing u with
  | nil => exact .refl u
  | cons l ls ih => exact (setLane_step u l _).trans (ih _)

theorem selectPlan_step {o : Origin} {id m n : Nat} (h : s.selectPlan o id = .applied t m n) : EngineStep s t := by
  unfold State.selectPlan at h
  dsimp only at h
  split_ifs at h
  obtain ⟨rfl, -, -⟩ := PlanResult.applied.inj h
  exact ((removeQueued_step s _ _).trans (enqueue_step _ _)).trans (scan_step _)

theorem endClearance_step (l : Nat) (u : Task) (o : TaskOutcome) : EngineStep s (s.endClearance l u o) :=
  ((putPhase_step s _ _ _).trans (endTask_step _ _ _ _)).trans (scan_step _)

theorem openingDone_step (u : Option Task) : EngineStep s (s.openingDone u) := by
  cases u
  · exact .refl s
  · exact endTask_step s _ _ _

theorem closingStep_step (l : Nat) : EngineStep s (s.closingStep l) := by
  unfold State.closingStep
  split
  · split
    · exact putPhase_step s _ _ _
    · exact (putPhase_step s _ _ _).trans (scan_step _)
  all_goals exact .refl s

theorem openingStep_step (l : Nat) : EngineStep s (s.openingStep l) := by
  unfold State.openingStep
  split
  · split
    · exact putPhase_step s _ _ _
    · exact ((putPhase_step s _ _ _).trans (openingDone_step _)).trans (scan_step _)
  all_goals exact .refl s

theorem openWindow_step (l : Nat) (p : LanePhase) (v : Option Nat) :
    EngineStep s ((s.putPhase l p v).raise .clearanceConfirmDue) := (putPhase_step s _ _ _).trans (raise_step _ _)

theorem clearanceEnds_step (l : Nat) : EngineStep s (s.clearanceEnds l) := by
  unfold State.clearanceEnds
  split
  · split
    · exact openWindow_step _ _ _
    · exact endClearance_step _ _ _
  all_goals exact .refl s

theorem windowEnds_step (l : Nat) : EngineStep s (s.windowEnds l) := by
  unfold State.windowEnds
  split
  · exact (((putPhase_step s _ _ _).trans (endTask_step _ _ _ _)).trans (cancelOpens_step _ _)).trans (scan_step _)
  all_goals exact .refl s

theorem abortClosing_step (l : Nat) (d : Face) (f : Nat) (u : Task) : EngineStep s (s.abortClosing l d f u).state := by
  unfold State.abortClosing
  split
  · exact (((putPhase_step s _ _ _).trans (endTask_step _ _ _ _)).trans (cancelOpens_step _ _)).trans (scan_step _)
  · exact ((putPhase_step s _ _ _).trans (endTask_step _ _ _ _)).trans (cancelOpens_step _ _)

theorem abortClearance_step (l : Nat) (d : Face) (u : Task) : EngineStep s (s.abortClearance l d u).state := by
  have h1 : EngineStep s (((s.putPhase l .shut none).endTask u .aborted none).cancelOpens l) :=
    ((putPhase_step s _ _ _).trans (endTask_step _ _ _ _)).trans (cancelOpens_step _ _)
  unfold State.abortClearance
  dsimp only
  split
  · exact h1.trans (putPhase_step _ _ _ _)
  · exact h1.trans (scan_step _)

theorem abortOpening_step (l : Nat) (d : Face) (u : Option Task) : EngineStep s (s.abortOpening l d u).state :=
  ((putPhase_step s _ _ _).trans (endOpening_step _ _ _ _ _ _)).trans (scan_step _)

theorem mergeFallback_step (target : Nat) : EngineStep s (s.mergeFallback target) := by
  have h : ∀ (ls : List Nat) (u : State), EngineStep u
      (ls.foldl (fun s l => s.putPhase l ((s.lane l).phase.unmerge l target) (s.lane l).timer) u) := by
    intro ls
    induction ls with
    | nil => exact .refl
    | cons l ls ih => exact fun u => (putPhase_step u _ _ _).trans (ih _)
  exact h _ s

theorem preEmpt_step (u : Option Task) : EngineStep s (s.preEmpt u) := by
  cases u
  · exact .refl s
  · exact endTask_step s _ _ _

theorem closeNow_step (l : Nat) : EngineStep s (s.closeNow l) :=
  ((((setLane_step s _ _).trans (preEmpt_step _)).trans (removeQueued_step _ _ _)).trans (mergeFallback_step _)).trans
    (scan_step _)

/-! ### The commands -/

theorem withFields_step {tests : List (Bool × Nat)} {act : CmdResult} (h : EngineStep s act.state) :
    EngineStep s (withFields s tests act).state := by
  unfold withFields
  split
  · exact .refl s
  · exact h

theorem actCloseLane_step : EngineStep s (actCloseLane s b).state := by
  refine withFields_step ?_
  split
  · exact .refl s
  · exact addTasks_step _ _

theorem actOpenLane_step : EngineStep s (actOpenLane s b).state := by
  refine withFields_step ?_
  split
  · exact .refl s
  · split
    · exact addTasks_step _ _
    · split <;> exact .refl s

theorem actReverseLane_step : EngineStep s (actReverseLane s b).state := by
  refine withFields_step ?_
  split
  · exact .refl s
  · split
    · exact .refl s
    · exact addTasks_step _ _

theorem actCancelTask_step : EngineStep s (actCancelTask s b).state := by
  refine withFields_step ?_
  split
  · exact (removeQueued_step s _ _).trans (scan_step _)
  · exact .refl s

theorem actConfirmClear_step : EngineStep s (actConfirmClear s b).state := by
  refine withFields_step ?_
  split
  · exact putPhase_step s _ _ _
  · exact endClearance_step _ _ _
  all_goals exact .refl s

theorem actAbortLane_step : EngineStep s (actAbortLane s b).state := by
  refine withFields_step ?_
  split
  · exact .refl s
  · exact .refl s
  · exact abortClosing_step _ _ _ _
  · exact abortClearance_step _ _ _
  · exact abortOpening_step _ _ _
  · exact .refl s

theorem actCloseNow_step : EngineStep s (actCloseNow s b).state := withFields_step (closeNow_step _)

theorem actSetPlan_step : EngineStep s (actSetPlan s b).state := by
  refine withFields_step ?_
  split
  · exact .refl s
  · exact rfl

theorem actSelectPlan_step : EngineStep s (actSelectPlan s b).state := by
  refine withFields_step ?_
  split
  · rename_i h; exact selectPlan_step h
  · exact .refl s
  · exact .refl s

end Operations

end Sys2Proof.Machine
end

