-- ==== Sys2Proof/Proofs/ClockLaws.lean ====
section
/-! PROOFS. The range of every timer of the part, those of the lanes apart, and what keeps it (O12). -/

namespace Sys2Proof.Machine

/-- The timers of the part, by name. -/
inductive TimerName where
  | hold | window | lane (l : Nat) | half | loss | second | silence | answer (e : LinkEnd)

/-- The resolver's timers lie in their ranges, those that `z` names being allowed to stand at 0 (R88, R96). -/
structure Resolver.Timed (z : TimerName → Prop) (r : Resolver) : Prop where
  holds : ∀ o ∈ r.overrides, (1 ≤ o.hold ∨ z .hold) ∧ o.hold ≤ 14400000
  window : ∀ x, r.lampTest = some x → (1 ≤ x.window ∨ z .window) ∧ x.window ≤ 300000

/-- The Time Base's timers lie in their ranges, those that `z` names being allowed to stand at 0 (R166, R168, R174). -/
structure TimeBase.Timed (z : TimerName → Prop) (g : TimeBase) : Prop where
  half : ∀ v, g.halfTimer = some v → (1 ≤ v ∨ z .half) ∧ v ≤ 1000
  loss : ∀ v, g.lossTimer = some v → (1 ≤ v ∨ z .loss) ∧ v ≤ 3000 ∧ g.line = .following
  second : ∀ v, g.secondTimer = some v → (1 ≤ v ∨ z .second) ∧ v ≤ 1000 ∧ g.clock.isSome = true

/-- Every timer but those of the lanes lies in its range, and those that `z` names may stand at 0: what holds between the
passing of a millisecond and the expiries that it makes due (log entries 3 and 23). -/
structure State.Timed (z : TimerName → Prop) (s : State) : Prop where
  resolver : s.resolver.Timed z
  time : s.time.Timed z
  silence : ∀ v, s.host.silence = some v → (1 ≤ v ∨ z .silence) ∧ v ≤ 60000
  link : s.LinkLaw fun e => z (.answer e)

namespace Resolver.Timed

variable {z : TimerName → Prop} {r q : Resolver}

/-- Entries may leave the table and the lamp test may end. -/
theorem congr (h : r.Timed z) (ho : ∀ o ∈ q.overrides, o ∈ r.overrides)
    (ht : q.lampTest = r.lampTest ∨ q.lampTest = none) : q.Timed z := by
  refine ⟨fun o hm => h.holds o (ho o hm), fun x hx => ?_⟩
  rcases ht with ht | ht
  · exact h.window x (ht ▸ hx)
  · rw [ht] at hx; cases hx

end Resolver.Timed

/-- The timers of the Time Base, its line and its clock are read, and nothing else of it. -/
theorem TimeBase.Timed.congr {z : TimerName → Prop} {g k : TimeBase} (h : g.Timed z) (hh : k.halfTimer = g.halfTimer)
    (hl : k.lossTimer = g.lossTimer) (hn : k.line = g.line) (hs : k.secondTimer = g.secondTimer)
    (hc : k.clock.isSome = g.clock.isSome) : k.Timed z :=
  ⟨hh ▸ h.half, by rw [hl, hn]; exact h.loss, by rw [hs, hc]; exact h.second⟩

theorem lossMs_range {t : Tunnel} (h : t.legal = true) : 1 ≤ lossMs t ∧ lossMs t ≤ 3000 := by
  obtain ⟨-, -, -, -, -, -, hlow, hhigh⟩ := Tunnel.legal_ranges h
  unfold lossMs
  omega

namespace State.Timed

variable {z : TimerName → Prop} {s t : State}

/-! ### Changes that no timer sees -/

theorem congr (h : s.Timed z) (hr : t.resolver.Timed z) (ht : t.time.Timed z) (hh : t.host.silence = s.host.silence)
    (hk : t.link = s.link) (hl : t.lamps.strings = s.lamps.strings) : t.Timed z :=
  ⟨hr, ht, hh ▸ h.silence, h.link.congr hk (hl ▸ h.link.strings)⟩

/-- A change outside the resolver, the Time Base, the silence timer, the link and the strings. -/
theorem same (h : s.Timed z) (hr : t.resolver = s.resolver) (ht : t.time = s.time) (hh : t.host.silence = s.host.silence)
    (hk : t.link = s.link) (hl : t.lamps.strings = s.lamps.strings) : t.Timed z :=
  h.congr (hr ▸ h.resolver) (ht ▸ h.time) hh hk hl

theorem engineStep (h : s.Timed z) (he : EngineStep s t) : t.Timed z :=
  h.same he.resolver he.time (by rw [he]) he.link (by rw [he.lamps])

theorem linkStep {kinds : List AttnKind} (h : s.Timed z) (hk : LinkStep kinds s t) : t.Timed z :=
  ⟨h.resolver.congr (fun o ho => hk.overrides ▸ ho) hk.test, hk.time ▸ h.time,
    by obtain ⟨m, hm⟩ := hk.host; rw [hm]; exact h.silence, hk.law _ h.link⟩

theorem raise (h : s.Timed z) (k : AttnKind) : (s.raise k).Timed z := h.engineStep (raise_step s k)

theorem raiseTimes (h : s.Timed z) (k : AttnKind) (n : Nat) : (s.raiseTimes k n).Timed z := by
  induction n generalizing s with
  | zero => exact h
  | succ n ih => exact ih (h.raise k)

theorem complete (h : s.Timed z) (f : HostFrame) (r : Reply) : (s.complete f r).Timed z := h.same rfl rfl rfl rfl rfl

/-! ### What ends every event -/

theorem drivePoller_link {y : LinkEnd → Prop} (h : s.LinkLaw y) (e : LinkEnd) : (s.drivePoller e).LinkLaw y := by
  unfold State.drivePoller
  dsimp only
  split
  · exact h
  · rename_i hidle
    have hx : (s.poller e).exchange.isSome = false := by
      simp only [Bool.or_eq_true, not_or, Bool.not_eq_true] at hidle
      exact hidle.2
    have hnone : (s.poller e).answerTimer = none := by
      cases ht : (s.poller e).answerTimer with
      | none => rfl
      | some v => rw [(h.answers e v ht).2.2] at hx; cases hx
    have hset : ∀ (u : State) (p : Poller), u.LinkLaw y → p.answerTimer = (s.poller e).answerTimer →
        (u.setPoller e p).LinkLaw y := fun u p hu hp => hu.setPoller fun v hv => by rw [hp, hnone] at hv; cases hv
    split
    · exact hset s _ h rfl
    · split
      · exact h
      · unfold State.beginExchange
        dsimp only
        split
        · exact hset _ _ (h.setStation fun v hv => h.reprobes _ v hv) rfl
        · exact hset s _ h rfl

theorem settle (b : State) {a : State} (h : a.Timed z) : (Machine.settle b a).Timed z := by
  have hR : (settleHeads b a).reportConditions.LinkLaw fun e => z (.answer e) := by
    rw [State.reportConditions_frame]
    refine h.link.congr (settleHeads_link b a) ?_
    show Tab.wf StringRec.reset (settleHeads b a).lamps.strings = true
    rw [← settle_eq_lamps, settle_lamps]
    exact Tab.wf_mapWhere _ _ h.link.strings
  refine ⟨?_, by rw [settle_time]; exact h.time, ?_, ?_⟩
  · rw [settle_resolver]; exact h.resolver.congr (fun _ ho => ho) (.inl rfl)
  · have hs : (Machine.settle b a).host.silence = a.host.silence := by
      rw [settle_hostPort, State.driveTransmitter_port, chosen_host, settleHeads_host]
    rw [hs]; exact h.silence
  · refine (drivePoller_link (drivePoller_link hR .west) .east).congr (settle_link b a) ?_
    rw [settle_lamps]
    exact Tab.wf_mapWhere _ _ h.link.strings

theorem rowClosed : RowClosed (State.Timed z) := ⟨fun b _ h => h.settle b, fun _ f r h => h.complete f r⟩

end State.Timed

end Sys2Proof.Machine
end

