-- ==== Sys2Proof/Proofs/ClockRows.lean ====
section
/-! PROOFS. Every row keeps the range of every timer (O12). -/

namespace Sys2Proof.Machine

/-! ### The link under a change of the section -/

namespace State.LinkLaw

variable {z : LinkEnd → Prop} {s : State}

theorem resetStation (h : s.LinkLaw z) (k : Nat) : (s.resetStation k).LinkLaw z := by
  have hfresh : ∀ v, (StationRec.reset (homeEnd s.n k)).reprobe = some v → v ≤ 30000 := fun v hv => by cases hv
  unfold State.resetStation
  dsimp only
  split
  · refine h.setStation fun v hv => h.reprobes k v ?_
    split at hv
    · exact hv
    · rwa [StationRec.moveTo_reprobe] at hv
  · exact (LinkStep.returnStrings (kinds := []) _ k).law _ (h.setStation hfresh)
  · exact h.setStation hfresh
  · exact h.setStation hfresh

theorem resetStations (h : s.LinkLaw z) : s.resetStations.LinkLaw z := by
  have hall : ∀ (ks : List Nat) (u : State), u.LinkLaw z → (ks.foldl State.resetStation u).LinkLaw z := by
    intro ks
    induction ks with
    | nil => exact fun _ hu => hu
    | cons k ks ih => exact fun u hu => ih _ (hu.resetStation k)
  exact (hall s.stationNumbers s h).pollers rfl rfl rfl rfl

/-- No answer is awaited on an end whose exchange is abandoned (R153). -/
theorem abandonExchanges (h : s.LinkLaw z) : s.abandonExchanges.LinkLaw z := by
  refine ⟨h.strings, h.stations, fun e v hv => ?_, h.reprobes⟩
  cases e <;> cases hv

theorem newHeadSet (h : s.LinkLaw z) : s.newHeadSet.LinkLaw z := by
  have hblank : ({ s with resolver.displayed := Tab.eraseWhere s.headKeyIn s.resolver.displayed } : State).LinkLaw z :=
    h.congr rfl h.strings
  exact ((LinkStep.emptyAccs (kinds := []) _ _).law _
    ((LinkStep.mapProving (kinds := []) _ _ _).law _ hblank)).abandonExchanges

theorem raiseIf (h : s.LinkLaw z) (c : Bool) (k : AttnKind) : (s.raiseIf c k).LinkLaw z :=
  (LinkStep.raiseIf (kinds := [k]) s c (List.mem_singleton_self k)).law z h

theorem applyTunnel (h : s.LinkLaw z) (t : Tunnel) : (s.applyTunnel t).LinkLaw z := by
  have h1 : (s.writeTunnel t).followRole.LinkLaw z := by
    rw [followRole_frame]; exact h.congr rfl h.strings
  have h2 : (if s.n = t.n then (s.writeTunnel t).followRole else (s.writeTunnel t).followRole.resetStations).LinkLaw z := by
    split
    · exact h1
    · exact h1.resetStations
  unfold State.applyTunnel
  dsimp only
  split
  · exact (LinkStep.emptyAccs (kinds := []) _ _).law _ h2
  · exact (((h2.newHeadSet.raiseIf _ _).raiseIf _ _).raiseIf _ _).raiseIf _ _

end State.LinkLaw

/-! ### Single events -/

namespace State.Timed

variable {z : TimerName → Prop} {s t : State} {b : List Octet}

theorem withFields {tests : List (Bool × Nat)} {act : CmdResult} (h : s.Timed z) (ha : act.state.Timed z) :
    (Machine.withFields s tests act).state.Timed z := withFields_keeps h fun _ => ha

theorem hostEvent (h : s.Timed z) (hl : s.settings.Legal) (ev : HostRxEvent) : (s.hostEvent ev).Timed z := by
  obtain ⟨-, -, -, -, -, ⟨hlow, hhigh⟩, -⟩ := Tunnel.legal_ranges hl.tunnel
  have hsilence : ∀ v, some s.silenceMs = some v → (1 ≤ v ∨ z .silence) ∧ v ≤ 60000 := by
    rintro _ ⟨⟩
    have hms : s.silenceMs = s.config.records.tunnel.silence * 1000 := rfl
    have hrange : 2 ≤ s.config.records.tunnel.silence ∧ s.config.records.tunnel.silence ≤ 60 := ⟨hlow, hhigh⟩
    exact ⟨.inl (by omega), by omega⟩
  cases ev with
  | good f =>
    unfold State.hostEvent State.frameArrives
    dsimp only
    split
    · exact ⟨h.resolver, h.time, hsilence, h.link.congr rfl h.link.strings⟩
    · exact ⟨h.resolver, h.time, hsilence, h.link.congr rfl h.link.strings⟩
  | dropped fault => cases fault <;> exact h.same rfl rfl rfl rfl rfl

theorem hostReceived (h : s.Timed z) (hl : s.settings.Legal) (r : HostRx × List HostRxEvent) :
    (s.hostReceived r).Timed z :=
  (hostReceived_keeps (p := fun u => u.Timed z ∧ u.settings.Legal)
    (fun _ _ hu => ⟨hu.1.same rfl rfl rfl rfl rfl, hu.2⟩)
    (fun u ev hu => ⟨hu.1.hostEvent hu.2 ev, by rw [hostEvent_settings]; exact hu.2⟩) ⟨h, hl⟩ r).1

theorem setPhase (h : s.Timed z) (v : Bool) : (s.setPhase v).Timed z := by
  unfold State.setPhase
  split
  · exact h
  · have hp : ({ s with time.phase := v } : State).Timed z :=
      h.congr h.resolver (h.time.congr rfl rfl rfl rfl rfl) rfl rfl rfl
    unfold State.markPhase
    split
    · exact ⟨hp.resolver, hp.time, hp.silence, hp.link.pollers rfl rfl rfl rfl⟩
    · exact hp

/-- The half-period timer starts anew (R168). -/
theorem startHalf (h : s.Timed z) (hl : s.settings.Legal) : s.startHalf.Timed z := by
  obtain ⟨-, -, -, -, -, -, hlow, hhigh⟩ := Tunnel.legal_ranges hl.tunnel
  refine h.congr h.resolver ⟨?_, h.time.loss, h.time.second⟩ rfl rfl rfl
  rintro _ ⟨⟩
  exact ⟨.inl (Nat.le_trans (by decide) hlow), hhigh⟩

theorem newPhase (h : s.Timed z) (hl : s.settings.Legal) (v : Bool) : (s.setPhase v).startHalf.Timed z :=
  (h.setPhase v).startHalf (by rw [setPhase_settings]; exact hl)

/-- The line follows an edge: the loss timer starts anew (R170). -/
theorem follow (h : s.Timed z) (hl : s.settings.Legal) (v : Bool) :
    ({ (s.setPhase v).startHalf with
        time.lossTimer := some (lossMs s.config.records.tunnel), time.line := .following } : State).Timed z := by
  have hp := h.newPhase hl v
  refine hp.congr hp.resolver ⟨hp.time.half, ?_, hp.time.second⟩ rfl rfl rfl
  rintro _ ⟨⟩
  exact ⟨.inl (lossMs_range hl.tunnel).1, (lossMs_range hl.tunnel).2, rfl⟩

theorem lossEnds (h : s.Timed z) :
    (({ s with time.line := .freeRunning, time.lossTimer := none } : State).raise .flashSyncLost).Timed z := by
  have hfree : ({ s with time.line := .freeRunning, time.lossTimer := none } : State).Timed z :=
    h.congr h.resolver ⟨h.time.half, fun v hv => (by cases hv), h.time.second⟩ rfl rfl rfl
  exact hfree.raise _

theorem fire (h : s.Timed z) (id : Nat) : (s.fire id).1.Timed z := by
  unfold State.fire
  split
  · exact h.raise _
  · split
    · rename_i hs; exact (h.engineStep (selectPlan_step hs)).raise _
    · exact h.raise _
    · exact h.raise _

theorem minuteEvent (h : s.Timed z) (t : Time) : (s.minuteEvent t).Timed z := by
  unfold State.minuteEvent
  dsimp only
  split
  · exact h
  · exact h
  · have hf := (h.raiseTimes .scheduleNotApplied ((s.matching t).length - 1)).fire ‹Nat›
    exact hf.congr hf.resolver (hf.time.congr rfl rfl rfl rfl rfl) rfl rfl rfl

/-- The clock runs, its second timer started anew (R174, R175). -/
theorem startClock (h : s.Timed z) (t : Time) :
    ({ s with time.clock := some t, time.secondTimer := some 1000 } : State).Timed z := by
  refine h.congr h.resolver ⟨h.time.half, h.time.loss, ?_⟩ rfl rfl rfl
  rintro _ ⟨⟩
  exact ⟨.inl (by decide), by decide, rfl⟩

theorem secondEnds (h : s.Timed z) : s.secondEnds.Timed z := by
  unfold State.secondEnds
  split
  · exact h
  · dsimp only
    split
    · exact (h.startClock _).minuteEvent _
    · exact h.startClock _

theorem overridesExpire (h : s.Timed z) (hs : List HeadRef) : (s.overridesExpire hs).Timed z := by
  have hkept : ({ s with resolver.overrides := s.resolver.overrides.filter fun o => !hs.contains o.head } : State).Timed z :=
    h.congr (h.resolver.congr (fun _ ho => (List.mem_filter.1 ho).1) (.inl rfl)) h.time rfl rfl rfl
  exact hkept.raiseTimes _ _

/-! ### The store, the supply and RESET_N -/

theorem beginWrite (h : s.Timed z) (f : HostFrame) (w : StoreWrite) : (s.beginWrite f w).Timed z := by
  unfold State.beginWrite
  split
  · exact h.complete _ _
  · exact h.same rfl rfl rfl rfl rfl

theorem endWrite (h : s.Timed z) (w : StoreWrite) (ok : Bool) : (s.endWrite w ok).state.Timed z := by
  unfold State.endWrite
  cases w <;> cases ok <;> exact h.same rfl rfl rfl rfl rfl

theorem hold (h : s.Timed z) : s.hold.Timed z := by
  refine ⟨h.resolver, ⟨fun v hv => (by cases hv), fun v hv => (by cases hv), fun v hv => (by cases hv)⟩,
    fun v hv => (by cases hv), ⟨h.link.strings, h.link.stations, fun e v hv => ?_, h.link.reprobes⟩⟩
  cases e <;> cases hv

theorem fail (h : s.Timed z) : s.fail.Timed z := h.hold.same rfl rfl rfl rfl rfl

theorem loaded_legal (hl : s.settings.Legal) (cause : ResetCause) : (s.loaded cause).config.records.tunnel.legal = true := by
  have hlegal := startUp_legal hl cause
  obtain ⟨mode, refusal, ha, -⟩ := s.autoStart_loaded cause
  unfold State.startUp at hlegal
  rw [settle_settings, ha] at hlegal
  exact hlegal.tunnel

theorem resetStationTab_wf (n : Nat) : Tab.wf (StationRec.reset .west) (resetStationTab n) = true := by
  have hall : ∀ (ks : List Nat) (u : Tab StationRec), Tab.wf (StationRec.reset .west) u = true →
      Tab.wf (StationRec.reset .west)
        (ks.foldl (fun t k => Tab.set (StationRec.reset .west) t k (StationRec.reset (homeEnd n k))) u) = true := by
    intro ks
    induction ks with
    | nil => exact fun _ hu => hu
    | cons k ks ih => exact fun u hu => ih _ (Tab.wf_set hu)
  exact hall _ _ rfl

/-- The start-up sequence starts the timers of the Time Base and of the silence, and no other (R16). -/
theorem loadedIn (hl : s.settings.Legal) (cause : ResetCause) (m : Mode) (f : Option ConfigFault) :
    (s.loadedIn cause m f).Timed z := by
  have ht := loaded_legal hl cause
  obtain ⟨-, -, -, -, -, ⟨hlow, hhigh⟩, hhalf, hhalf'⟩ := Tunnel.legal_ranges ht
  refine ⟨⟨fun o ho => (List.not_mem_nil ho).elim, fun x hx => (by cases hx)⟩,
    ⟨?_, fun v hv => ?_, fun v hv => (by cases hv)⟩, ?_, ⟨rfl, resetStationTab_wf _, fun e v hv => ?_, fun k v hv => ?_⟩⟩
  · rintro _ ⟨⟩
    exact ⟨.inl (Nat.le_trans (by decide) hhalf), hhalf'⟩
  · change (if startLine (s.loaded cause).config.records.tunnel = .following
      then some (lossMs (s.loaded cause).config.records.tunnel) else none) = some v at hv
    split at hv
    · rename_i hline
      obtain rfl := Option.some.inj hv
      exact ⟨.inl (lossMs_range ht).1, (lossMs_range ht).2, hline⟩
    · cases hv
  · rintro _ ⟨⟩
    exact ⟨.inl (Nat.mul_pos (Nat.lt_of_lt_of_le (by decide) hlow) (by decide)), Nat.mul_le_mul_right 1000 hhigh⟩
  · cases e <;> cases hv
  · change (Tab.get (StationRec.reset .west) (resetStationTab _) k).reprobe = some v at hv
    rw [get_resetStationTab] at hv
    cases hv

theorem startUp (hl : s.settings.Legal) (cause : ResetCause) : (s.startUp cause).Timed z := by
  obtain ⟨mode, refusal, ha, -⟩ := s.autoStart_loaded cause
  unfold State.startUp
  rw [ha]
  exact (loadedIn hl cause mode refusal).settle _

/-! ### The commands of the modes and the records -/

theorem applyTunnel (h : s.Timed z) (t : Tunnel) (ht : t.legal = true) : (s.applyTunnel t).Timed z := by
  have hstep := applyTunnel_section s t
  have hfollow : (s.writeTunnel t).followRole.time.Timed z := by
    have hdriven : ∀ l : LineState, ({ s.time with line := .driving, lossTimer := none } : TimeBase).Timed z :=
      fun _ => ⟨h.time.half, fun v hv => (by cases hv), h.time.second⟩
    have hfollows : ({ s.time with line := .following, lossTimer := some (lossMs t) } : TimeBase).Timed z := by
      refine ⟨h.time.half, ?_, h.time.second⟩
      rintro _ ⟨⟩
      exact ⟨.inl (lossMs_range ht).1, (lossMs_range ht).2, rfl⟩
    unfold State.followRole
    dsimp only
    split
    · exact hdriven .driving
    · exact hfollows
    · exact hfollows
    · exact h.time
    · exact h.time
  refine ⟨h.resolver.congr (fun o ho => ?_) (.inl ?_), hstep.time ▸ hfollow, ?_, h.link.applyTunnel t⟩
  · rw [hstep.overrides, followRole_resolver] at ho; exact ho
  · rw [hstep.lampTest, followRole_resolver]; rfl
  · obtain ⟨m, hm⟩ := hstep.host
    rw [hm, followRole_frame]
    exact h.silence

theorem enterRun (h : s.Timed z) : s.enterRun.Timed z := by
  have hlanes : ((s.startLanes s.laneNumbers).setQueue []).Timed z :=
    h.engineStep ((startLanes_step _ _).trans (setQueue_step _ _))
  rw [State.enterRun_eq]
  exact (hlanes.linkStep (LinkStep.endLampTest (kinds := []) _ .start)).same rfl rfl rfl rfl rfl

theorem enterStandby (h : s.Timed z) : s.enterStandby.Timed z := by
  have hq := h.engineStep (removeQueued_step s (fun _ => true) .cancelled)
  exact hq.congr (hq.resolver.congr (fun o ho => by cases ho) (.inl rfl)) hq.time rfl rfl rfl

theorem emptyAccs (h : s.Timed z) (p : Nat → Bool) : (s.emptyAccs p).Timed z :=
  h.linkStep (LinkStep.emptyAccs (kinds := []) s p)

theorem applyStation (h : s.Timed z) (k : Nat) (c : StationCfg) : (s.applyStation k c).Timed z := by
  have h1 : ({ s with config.records.stations := Tab.set none s.config.records.stations k (some c) } : State).Timed z :=
    h.same rfl rfl rfl rfl rfl
  have h2 : ∀ p : Nat → Bool, (if (s.stationCfg k).map (·.zone) = some c.zone
      then { s with config.records.stations := Tab.set none s.config.records.stations k (some c) }
      else ({ s with config.records.stations := Tab.set none s.config.records.stations k (some c) } : State).emptyAccs p).Timed
        z := by
    intro p
    split
    · exact h1
    · exact h1.emptyAccs p
  unfold State.applyStation
  dsimp only
  split
  · exact (h2 _).linkStep ((LinkStep.setIdent (kinds := []) _ k none).trans (.setUnsaved _))
  · exact h2 _

theorem applyProving (h : s.Timed z) (p : Proving) : (s.applyProving p).Timed z := by
  have h1 : ({ s with config.records.proving := p } : State).Timed z := h.same rfl rfl rfl rfl rfl
  unfold State.applyProving
  dsimp only
  split
  · exact h
  · split
    · exact (h1.emptyAccs _).linkStep (LinkStep.mapStrings (kinds := []) _ _ _)
    · exact h1.emptyAccs _

theorem applyDuties (h : s.Timed z) (d : List Nat) : (s.applyDuties d).Timed z := by
  have h1 : ({ s with config.records.duties := d } : State).Timed z := h.same rfl rfl rfl rfl rfl
  unfold State.applyDuties
  split
  · exact h
  · exact h1.emptyAccs _

theorem applyDim (h : s.Timed z) (k v : Nat) : (s.applyDim k v).Timed z := by
  have h1 : ({ s with config.dims := s.config.dims.set k v } : State).Timed z := h.same rfl rfl rfl rfl rfl
  exact h1.emptyAccs _

theorem actStart (h : s.Timed z) : (actStart s b).state.Timed z := by
  unfold Machine.actStart
  split
  · exact h.enterRun
  · exact h.same rfl rfl rfl rfl rfl

theorem actStop (h : s.Timed z) : (actStop s b).state.Timed z := by
  unfold Machine.actStop
  split
  · exact h.enterStandby
  · exact h

theorem actSetTunnel (h : s.Timed z) (hl : s.settings.Legal) : (actSetTunnel s b).state.Timed z := by
  have hset : (Machine.actSetTunnel s b).state.settings.Legal := actSetTunnel_legal hl
  unfold Machine.actSetTunnel at hset ⊢
  unfold Machine.withFields at hset ⊢
  split
  · exact h
  · rename_i hb
    rw [hb] at hset
    dsimp only at hset ⊢
    split
    · exact h
    · rename_i hc
      rw [if_neg hc] at hset
      refine h.applyTunnel _ ?_
      have ht := hset.tunnel
      rw [okOrClamped_state] at ht
      change (s.applyTunnel (tunnelOf b)).config.records.tunnel.legal = true at ht
      rw [applyTunnel_config] at ht
      exact ht

theorem actOverride (h : s.Timed z) : (actOverride s b).state.Timed z := by
  have hrange : 1 ≤ clamp 1 240 (oct b 4) ∧ clamp 1 240 (oct b 4) ≤ 240 := by unfold clamp; omega
  refine h.withFields ?_
  split
  · exact h
  · refine h.congr ⟨fun o ho => ?_, h.resolver.window⟩ h.time rfl rfl rfl
    rcases List.mem_append.1 ho with ho | ho
    · exact h.resolver.holds o (List.mem_filter.1 ho).1
    · obtain rfl := List.mem_singleton.1 ho
      exact ⟨.inl (Nat.mul_pos hrange.1 (by decide)), Nat.mul_le_mul_right 60000 hrange.2⟩

theorem dropOverride (h : s.Timed z) (hd : HeadRef) : (s.dropOverride hd).Timed z :=
  h.congr (h.resolver.congr (fun _ ho => (List.mem_filter.1 ho).1) (.inl rfl)) h.time rfl rfl rfl

theorem actRelease (h : s.Timed z) : (actRelease s b).state.Timed z := by
  refine h.withFields ?_
  split
  · exact h.dropOverride _
  · exact h

theorem actLampTest (h : s.Timed z) (hl : s.settings.Legal) : (actLampTest s b).state.Timed z := by
  obtain ⟨-, -, -, -, ⟨hlow, hhigh⟩, -⟩ := Tunnel.legal_ranges hl.tunnel
  refine h.withFields ?_
  split
  · exact h
  · split
    · exact h
    · refine h.congr ⟨h.resolver.holds, ?_⟩ h.time rfl rfl rfl
      rintro _ ⟨⟩
      exact ⟨.inl (Nat.mul_pos (Nat.lt_of_lt_of_le (by decide) hlow) (by decide)), Nat.mul_le_mul_right 1000 hhigh⟩

theorem actEndLampTest (h : s.Timed z) : (actEndLampTest s b).state.Timed z := by
  unfold Machine.actEndLampTest
  split
  · exact h.linkStep (LinkStep.endLampTest (kinds := []) s .host)
  · exact h

theorem actUnfix (h : s.Timed z) : (actUnfix s b).state.Timed z := by
  refine h.withFields ?_
  split
  · exact h.linkStep ((LinkStep.changeClass (kinds := []) s _ _).trans (.setUnsaved _))
  · exact h
  · exact h

theorem actUnlearn (h : s.Timed z) : (actUnlearn s b).state.Timed z := by
  refine h.withFields ?_
  show (s.unlearn _).Timed z
  unfold State.unlearn
  split
  · exact h
  · exact h.linkStep ((LinkStep.unlearnStation (kinds := []) s _).trans (.setUnsaved _))

theorem actRestoreStation (h : s.Timed z) : (actRestoreStation s b).state.Timed z := by
  refine h.withFields ?_
  split
  · exact h.linkStep (.restoreStation s _)
  · exact h

theorem actGetLane (h : s.Timed z) : (actGetLane s b).state.Timed z := by
  refine h.withFields ?_
  split <;> exact h

theorem actGetStation (h : s.Timed z) : (actGetStation s b).state.Timed z := by
  refine h.withFields ?_
  split <;> exact h

end State.Timed

/-! ### Every row -/

section Rows

variable {z : TimerName → Prop} {s t : State}

theorem powerUp_timed (hl : s.settings.Legal) (hs : s.Timed z) (h : execPowerUp s = .next t) : t.Timed z := by
  have hoff : ({ s.fail with power.on := true } : State).Timed z := hs.fail.same rfl rfl rfl rfl rfl
  have hlegal : ({ s.fail with power.on := true } : State).settings.Legal := fail_legal hl
  unfold execPowerUp at h
  dsimp only at h
  split at h
  · obtain rfl := Host.Outcome.next.inj h; exact .startUp hlegal _
  · obtain rfl := Host.Outcome.next.inj h; exact hoff.same rfl rfl rfl rfl rfl

theorem resetNFall_timed (hs : s.Timed z) (h : execResetNFall s = .next t) : t.Timed z := by
  have hlow : ({ s with power.resetN := false } : State).Timed z := hs.same rfl rfl rfl rfl rfl
  unfold execResetNFall at h
  split_ifs at h
  · obtain rfl := Host.Outcome.next.inj h; exact hs
  · obtain rfl := Host.Outcome.next.inj h; exact hlow.hold
  · obtain rfl := Host.Outcome.next.inj h; exact hlow

theorem resetNRise_timed (hl : s.settings.Legal) (hs : s.Timed z) (h : execResetNRise s = .next t) : t.Timed z := by
  have hup : ({ s with power.resetN := true } : State).settings.Legal := hl
  unfold execResetNRise at h
  split_ifs at h
  · obtain rfl := Host.Outcome.next.inj h; exact hs
  · obtain rfl := Host.Outcome.next.inj h; exact .startUp hup _
  · obtain rfl := Host.Outcome.next.inj h; exact hs.same rfl rfl rfl rfl rfl

theorem hostTransmitEnd_timed (hl : s.settings.Legal) (hs : s.Timed z) (h : execHostTransmitEnd s = .next t) :
    t.Timed z := by
  unfold execHostTransmitEnd at h
  split at h
  · obtain rfl := Host.Outcome.next.inj h; exact hs
  · rename_i f _
    split at h
    · obtain rfl := Host.Outcome.next.inj h; exact .startUp hl _
    · exact event_keeps (f := fun s => { s with host.tx := none, host.noticeCount := countAfter f s.host.noticeCount })
        State.Timed.rowClosed h hs (hs.same rfl rfl rfl rfl rfl)

theorem unknownKind_timed {k tag : Octet} {b : List Octet} (hs : s.Timed z) (h : execUnknownKind k tag b s = .next t) :
    t.Timed z :=
  eventIf_keeps (f := fun s => s.complete ⟨k, tag, b⟩ (refuse s 16 k.toNat 0).reply) State.Timed.rowClosed h hs
    fun _ _ => hs.complete _ _

theorem commit_timed {tag : Octet} {b : List Octet} (hs : s.Timed z) (h : execCommit tag b s = .next t) : t.Timed z :=
  eventIf_keeps (f := fun s => s.beginWrite (commandFrame 16 tag b) (.config s.configImage)) State.Timed.rowClosed h hs
    fun _ _ => hs.beginWrite _ _

theorem saveSignatures_timed {tag : Octet} {b : List Octet} (hs : s.Timed z) (h : execSaveSignatures tag b s = .next t) :
    t.Timed z := by
  refine eventIf_keeps (f := fun s => let s1 := s.beginWrite (commandFrame 17 tag b) (.signature s.sigImage)
    if b.length ≠ 0 then s1 else { s1 with sigs.unsaved := false }) State.Timed.rowClosed h hs fun _ _ => ?_
  have hw := hs.beginWrite (commandFrame 17 tag b) (.signature s.sigImage)
  dsimp only
  split
  · exact hw
  · exact hw.same rfl rfl rfl rfl rfl

theorem storeWriteComplete_timed {ok : Bool} (hs : s.Timed z) (h : execStoreWriteComplete ok s = .next t) :
    t.Timed z := by
  unfold execStoreWriteComplete at h
  split at h
  · rename_i w f _ _ _
    refine eventIf_keeps State.Timed.rowClosed h hs fun _ _ => ?_
    show ((s.endWrite w ok).state.complete f _).Timed z
    exact (hs.endWrite w ok).complete _ _
  · obtain rfl := Host.Outcome.next.inj h; exact hs
  · obtain rfl := Host.Outcome.next.inj h; exact hs

/-- The rows that are commands. -/
theorem runCommand_timed {kind len : Nat} {modes : Modes} {act : State → List Octet → CmdResult} {tag : Octet}
    {b : List Octet} (hs : s.Timed z) (h : runCommand kind len modes act tag b s = .next t)
    (ha : (act s b).state.Timed z) : t.Timed z := runCommand_keeps State.Timed.rowClosed h hs fun _ => ha

/-- Each row keeps the range of every timer: it starts one within its range, stops one, or leaves them. -/
theorem exec_timed (hl : s.settings.Legal) (c : Instr) (h : exec c s = .next t) (hs : s.Timed z) : t.Timed z := by
  have hp : RowClosed (State.Timed z) := State.Timed.rowClosed
  have hsame : ∀ {u : State}, u.resolver = s.resolver → u.time = s.time → u.host.silence = s.host.silence →
      u.link = s.link → u.lamps.strings = s.lamps.strings → u.Timed z := fun h1 h2 h3 h4 h5 => hs.same h1 h2 h3 h4 h5
  unfold exec at h
  cases c with
  | powerUp => exact powerUp_timed hl hs h
  | resetNFall => exact resetNFall_timed hs h
  | resetNRise => exact resetNRise_timed hl hs h
  | hostFrameReceived o => exact event_keeps hp h hs (hs.hostReceived hl _)
  | hostFrameDropped o brk =>
    refine event_keeps hp h hs ?_
    split
    · exact (hs.hostReceived hl _).hostReceived (by rw [hostReceived_settings]; exact hl) _
    · exact hs.hostReceived hl _
  | hostGapTimeout o =>
    exact event_keeps hp h hs ((hs.hostReceived hl _).hostReceived (by rw [hostReceived_settings]; exact hl) _)
  | hostTransmitEnd => exact hostTransmitEnd_timed hl hs h
  | silenceTimeout =>
    exact eventIf_keeps hp h hs fun _ _ => ⟨hs.resolver, hs.time, fun v hv => (by cases hv), hs.link.congr rfl hs.link.strings⟩
  | unknownKind k tag b => exact unknownKind_timed hs h
  | setTunnel tag b => exact runCommand_timed hs h (hs.actSetTunnel hl)
  | getTunnel tag b => exact runCommand_timed hs h hs
  | setLane tag b => exact runCommand_timed hs h (hs.withFields (hsame rfl rfl rfl rfl rfl))
  | getLane tag b => exact runCommand_timed hs h hs.actGetLane
  | setStation tag b => exact runCommand_timed hs h (hs.withFields (hs.applyStation _ _))
  | getStation tag b => exact runCommand_timed hs h hs.actGetStation
  | setProving tag b => exact runCommand_timed hs h (hs.applyProving _)
  | getProving tag b => exact runCommand_timed hs h hs
  | setDuty tag b => exact runCommand_timed hs h (hs.applyDuties _)
  | getDuty tag b => exact runCommand_timed hs h hs
  | setDim tag b => exact runCommand_timed hs h (hs.withFields (hs.applyDim _ _))
  | getDim tag b => exact runCommand_timed hs h hs
  | start tag b => exact runCommand_timed hs h hs.actStart
  | stop tag b => exact runCommand_timed hs h hs.actStop
  | getMode tag b => exact runCommand_timed hs h hs
  | commit tag b => exact commit_timed hs h
  | saveSignatures tag b => exact saveSignatures_timed hs h
  | storeWriteComplete ok => exact storeWriteComplete_timed hs h
  | restart tag b => exact runCommand_timed hs h (hsame rfl rfl rfl rfl rfl)
  | closeLane tag b => exact runCommand_timed hs h (hs.engineStep actCloseLane_step)
  | openLane tag b => exact runCommand_timed hs h (hs.engineStep actOpenLane_step)
  | reverseLane tag b => exact runCommand_timed hs h (hs.engineStep actReverseLane_step)
  | cancelTask tag b => exact runCommand_timed hs h (hs.engineStep actCancelTask_step)
  | confirmClear tag b => exact runCommand_timed hs h (hs.engineStep actConfirmClear_step)
  | abortLane tag b => exact runCommand_timed hs h (hs.engineStep actAbortLane_step)
  | closeNow tag b => exact runCommand_timed hs h (hs.engineStep actCloseNow_step)
  | getQueue tag b => exact runCommand_timed hs h hs
  | setPlan tag b => exact runCommand_timed hs h (hs.engineStep actSetPlan_step)
  | getPlan tag b => exact runCommand_timed hs h (hs.withFields hs)
  | selectPlan tag b => exact runCommand_timed hs h (hs.engineStep actSelectPlan_step)
  | closingStepExpiry l => exact eventIf_keeps hp h hs fun _ _ => hs.engineStep (closingStep_step l)
  | openingStepExpiry l => exact eventIf_keeps hp h hs fun _ _ => hs.engineStep (openingStep_step l)
  | clearanceTimerExpiry l => exact eventIf_keeps hp h hs fun _ _ => hs.engineStep (clearanceEnds_step l)
  | confirmWindowExpiry l => exact eventIf_keeps hp h hs fun _ _ => hs.engineStep (windowEnds_step l)
  | getHeads tag b => exact runCommand_timed hs h (hs.withFields hs)
  | getClosures tag b => exact runCommand_timed hs h hs
  | override tag b => exact runCommand_timed hs h hs.actOverride
  | release tag b => exact runCommand_timed hs h hs.actRelease
  | getOverrides tag b => exact runCommand_timed hs h hs
  | overrideHoldExpiry hd => exact eventIf_keeps hp h hs fun _ _ => hs.overridesExpire hd
  | lampTest tag b => exact runCommand_timed hs h (hs.actLampTest hl)
  | endLampTest tag b => exact runCommand_timed hs h hs.actEndLampTest
  | getLampTest tag b => exact runCommand_timed hs h hs
  | lampTestWindowExpiry =>
    exact eventIf_keeps hp h hs fun _ _ => (hs.linkStep (LinkStep.endLampTest (kinds := []) s _)).raise _
  | clearFault tag b => exact runCommand_timed hs h (hs.withFields (hs.linkStep (LinkStep.clearLamps (kinds := []) s _)))
  | getLamps tag b => exact runCommand_timed hs h (hs.withFields hs)
  | getFaults tag b => exact runCommand_timed hs h hs
  | freeze tag b => exact runCommand_timed hs h (hs.withFields (hsame rfl rfl rfl rfl rfl))
  | fixSignature tag b =>
    exact runCommand_timed hs h
      (hs.withFields (hs.linkStep ((LinkStep.changeClass (kinds := []) s _ _).trans (.setUnsaved _))))
  | unfix tag b => exact runCommand_timed hs h hs.actUnfix
  | unlearn tag b => exact runCommand_timed hs h hs.actUnlearn
  | getSignatures tag b => exact runCommand_timed hs h (hs.withFields hs)
  | getLearning tag b => exact runCommand_timed hs h hs
  | gantryAnswer e o => exact event_keeps hp h hs (hs.linkStep (.gantryOctets s e o))
  | gantryBadAnswer e o brk =>
    refine event_keeps hp h hs ?_
    split
    · exact hs.linkStep ((LinkStep.gantryOctets s e o).trans (.gantryCutShort _ e))
    · exact hs.linkStep (.gantryOctets s e o)
  | gantryStrayFrame e o => exact event_keeps hp h hs (hs.linkStep (.gantryOctets s e o))
  | gantryGapTimeout e o => exact event_keeps hp h hs (hs.linkStep ((LinkStep.gantryOctets s e o).trans (.gantryCutShort _ e)))
  | pollTimeout e => exact eventIf_keeps hp h hs fun _ _ => hs.linkStep (.timeOut s e)
  | gantryTransmitEnd e => exact eventIf_keeps hp h hs fun _ _ => hs.linkStep (LinkStep.frameSent (kinds := []) s e)
  | reprobeTimerExpiry k => exact eventIf_keeps hp h hs fun _ _ => hs.linkStep (LinkStep.reprobeDue (kinds := []) s k)
  | restoreStation tag b => exact runCommand_timed hs h hs.actRestoreStation
  | getRing tag b => exact runCommand_timed hs h hs
  | halfPeriodExpiry => exact eventIf_keeps hp h hs fun _ _ => hs.newPhase hl _
  | flashSyncEdge high => exact eventIf_keeps hp h hs fun _ _ => hs.follow hl high
  | lossTimerExpiry => exact eventIf_keeps hp h hs fun _ _ => hs.lossEnds
  | getFlash tag b => exact runCommand_timed hs h hs
  | secondTimerExpiry => exact eventIf_keeps hp h hs fun _ _ => hs.secondEnds
  | setClock tag b => exact runCommand_timed hs h (hs.withFields (hs.startClock _))
  | getClock tag b => exact runCommand_timed hs h hs
  | setSchedule tag b =>
    exact runCommand_timed hs h
      (hs.withFields (hs.congr hs.resolver (hs.time.congr rfl rfl rfl rfl rfl) rfl rfl rfl))
  | getSchedule tag b => exact runCommand_timed hs h hs
  | ackAttention tag b => exact runCommand_timed hs h (hs.withFields (hsame rfl rfl rfl rfl rfl))
  | setNoticeMask tag b => exact runCommand_timed hs h (hs.withFields (hsame rfl rfl rfl rfl rfl))
  | getAttention tag b => exact runCommand_timed hs h hs
  | getLink tag b => exact runCommand_timed hs h (hsame rfl rfl rfl rfl rfl)
  | powerFailure => obtain rfl := Host.Outcome.next.inj h; exact hs.fail

end Rows

end Sys2Proof.Machine
end

