-- ==== Sys2Proof/Proofs/ClocksKept.lean ====
section
/-! PROOFS. A millisecond's expiries bring every timer that the millisecond took to 0 off it again (O12). -/

namespace Sys2Proof.Machine

/-! ### Timers that stand at 0 -/

/-- A timer stands at 0. -/
def State.AtZero (s : State) : TimerName → Prop
  | .hold => ∃ o ∈ s.resolver.overrides, o.hold = 0
  | .window => ∃ x, s.resolver.lampTest = some x ∧ x.window = 0
  | .lane l => (s.lane l).timer = some 0
  | .half => s.time.halfTimer = some 0
  | .loss => s.time.lossTimer = some 0
  | .second => s.time.secondTimer = some 0
  | .silence => s.host.silence = some 0
  | .answer e => (s.poller e).answerTimer = some 0

/-- The range of a lane's timer (R24). -/
def laneRange (z : TimerName → Prop) (l v : Nat) : Prop := (1 ≤ v ∨ z (.lane l)) ∧ v ≤ 3600000

theorem admits_laneRange (z : TimerName → Prop) : Admits (laneRange z) := fun _ _ hlow hhigh => ⟨.inl hlow, hhigh⟩

/-- Every timer of the part lies in its range, those that `z` names being allowed to stand at 0, and the lane records are
lawful. -/
structure State.Ticking (z : TimerName → Prop) (s : State) : Prop where
  lanes : s.Lawful (laneRange z)
  timed : s.Timed z

namespace State.Timed

variable {y z : TimerName → Prop} {s : State}

/-- Timers that do not stand at 0 need not be allowed to. -/
theorem sharpen (h : s.Timed z) (hz : ∀ x, z x → y x ∨ ¬s.AtZero x) : s.Timed y := by
  have hlow : ∀ {v : Nat} (x : TimerName), (v = 0 → s.AtZero x) → 1 ≤ v ∨ z x → 1 ≤ v ∨ y x := by
    intro v x hx hv
    rcases Nat.eq_zero_or_pos v with h0 | h0
    · exact .inr ((hz x (hv.resolve_left (by omega))).resolve_right fun hn => hn (hx h0))
    · exact .inl h0
  refine ⟨⟨fun o ho => ?_, fun x hx => ?_⟩, ⟨fun v hv => ?_, fun v hv => ?_, fun v hv => ?_⟩, fun v hv => ?_,
    ⟨h.link.strings, h.link.stations, fun e v hv => ?_, h.link.reprobes⟩⟩
  · exact ⟨hlow .hold (fun h0 => ⟨o, ho, h0⟩) (h.resolver.holds o ho).1, (h.resolver.holds o ho).2⟩
  · exact ⟨hlow .window (fun h0 => ⟨x, hx, h0⟩) (h.resolver.window x hx).1, (h.resolver.window x hx).2⟩
  · exact ⟨hlow .half (fun h0 => hv.trans (congrArg some h0)) (h.time.half v hv).1, (h.time.half v hv).2⟩
  · exact ⟨hlow .loss (fun h0 => hv.trans (congrArg some h0)) (h.time.loss v hv).1, (h.time.loss v hv).2⟩
  · exact ⟨hlow .second (fun h0 => hv.trans (congrArg some h0)) (h.time.second v hv).1, (h.time.second v hv).2⟩
  · exact ⟨hlow .silence (fun h0 => hv.trans (congrArg some h0)) (h.silence v hv).1, (h.silence v hv).2⟩
  · exact ⟨hlow (.answer e) (fun h0 => hv.trans (congrArg some h0)) (h.link.answers e v hv).1, (h.link.answers e v hv).2⟩

end State.Timed

/-- Every name but one. -/
def without (z : TimerName → Prop) (x : TimerName) : TimerName → Prop := fun y => z y ∧ y ≠ x

theorem State.Timed.off {z : TimerName → Prop} {s : State} {x : TimerName} (h : s.Timed z) (hx : ¬s.AtZero x) :
    s.Timed (without z x) := by
  refine h.sharpen fun y hy => ?_
  by_cases he : y = x
  · exact .inr (he ▸ hx)
  · exact .inl ⟨hy, he⟩

/-- The lane records stay lawful where no timer of a lane is taken from the names. -/
theorem State.Lawful.offOther {z : TimerName → Prop} {s : State} {x : TimerName} (h : s.Lawful (laneRange z))
    (hx : ∀ l, x ≠ .lane l) : s.Lawful (laneRange (without z x)) :=
  ⟨h.settings, h.table, h.lanes, fun l v hv =>
    ⟨(h.timer l v hv).1.imp id fun hz => ⟨hz, (hx l).symm⟩, (h.timer l v hv).2⟩⟩

theorem State.Ticking.off {z : TimerName → Prop} {s : State} {x : TimerName} (h : s.Ticking z) (hx : ¬s.AtZero x) :
    s.Ticking (without z x) := by
  refine ⟨⟨h.lanes.settings, h.lanes.table, h.lanes.lanes, fun l v hv => ?_⟩, h.timed.off hx⟩
  obtain ⟨hlow, hhigh⟩ := h.lanes.timer l v hv
  refine ⟨?_, hhigh⟩
  by_cases hl : TimerName.lane l = x
  · rcases Nat.eq_zero_or_pos v with h0 | h0
    · exact absurd (show s.AtZero (.lane l) from hv.trans (congrArg some h0)) (hl ▸ hx)
    · exact .inl h0
  · exact hlow.imp id fun hz => ⟨hz, hl⟩

/-! ### Rows that take a timer off 0 -/

/-- A due row takes a timer off 0, or finds it off 0, and keeps every range. -/
def TakesOff (d : State → Option Instr) (x : TimerName) : Prop :=
  ∀ z s t, s.live = true → s.Ticking z → runDue [d] s = .next t → t.live = true ∧ t.Ticking (without z x)

/-- A due row's expiry: where it is not due the timer is off 0, and where it is due its effect takes it off. -/
theorem takesOff_of {d : State → Option Instr} {x : TimerName}
    (hoff : ∀ z s, s.Ticking z → d s = none → ¬s.AtZero x)
    (hdue : ∀ z s c t, s.live = true → s.Ticking z → d s = some c → exec c s = .next t →
      t.live = true ∧ t.Ticking (without z x)) : TakesOff d x := by
  intro z s t hl hs h
  simp only [runDue] at h
  split at h
  · obtain rfl := Host.Outcome.next.inj h
    exact ⟨hl, hs.off (hoff z s hs ‹_›)⟩
  · split at h
    · obtain rfl := Host.Outcome.next.inj h
      exact hdue z s _ _ hl hs ‹_› ‹_›
    · cases h
    · cases h

/-- What the effect of an event keeps that can happen, its settled state keeps. -/
theorem ticking_of_eventIf {z : TimerName → Prop} {s t : State} {allowed : Bool} {f : State → State}
    (h : eventIf s allowed f = .next t) (hl : s.live = true) (ha : allowed = true) (hp : (f s).live = true)
    (hf : (f s).Ticking z) : t.live = true ∧ t.Ticking z := by
  unfold eventIf at h
  rw [hl, ha] at h
  obtain rfl := Host.Outcome.next.inj h
  exact ⟨by rw [settle_live]; exact hp, hf.lanes.settle (admits_laneRange z), hf.timed.settle s⟩

/-- An expiry that is due when its timer stands at 0. -/
theorem dueAt_some {v : Option Nat} {a : Bool} {i c : Instr} (h : dueAt v a i = some c) : v = some 0 ∧ a = true ∧ c = i := by
  unfold dueAt at h
  split at h
  · rename_i hc; exact ⟨hc.1, hc.2, (Option.some.inj h).symm⟩
  · cases h

theorem dueAt_none {v : Option Nat} {a : Bool} {i : Instr} (h : dueAt v a i = none) (ha : v = some 0 → a = true) :
    v ≠ some 0 := by
  intro hv
  unfold dueAt at h
  rw [if_pos ⟨hv, ha hv⟩] at h
  cases h

section Due

variable {z : TimerName → Prop} {s t : State}

/-- The firing of a plan touches the engine and raises kinds (R179). -/
theorem fire_step (id : Nat) : EngineStep s (s.fire id).1 := by
  unfold State.fire
  split
  · exact raise_step s _
  · split
    · rename_i h; exact (selectPlan_step h).trans (raise_step _ _)
    · exact raise_step s _
    · exact raise_step s _

theorem raiseTimes_step (k : AttnKind) (n : Nat) : EngineStep s (s.raiseTimes k n) := by
  induction n generalizing s with
  | zero => exact .refl s
  | succ n ih => exact (raise_step s k).trans ih

/-- A minute event touches the engine, raises kinds and writes the last-firing record (R178 to R180). -/
theorem minuteEvent_frame (u : Time) :
    ∃ f v, EngineStep s v ∧ s.minuteEvent u = { v with time := { s.time with lastFiring := f } } := by
  unfold State.minuteEvent
  dsimp only
  split
  · exact ⟨_, s, .refl s, rfl⟩
  · exact ⟨_, s, .refl s, rfl⟩
  · have hstep := (raiseTimes_step (s := s) .scheduleNotApplied ((s.matching u).length - 1)).trans (fire_step ‹Nat›)
    rw [← hstep.time]
    exact ⟨_, _, hstep, rfl⟩

theorem second_takesOff : TakesOff (fun s => dueAt s.time.secondTimer s.time.clock.isSome .secondTimerExpiry) .second := by
  refine takesOff_of (fun z s hs h => dueAt_none h fun hv => (hs.timed.time.second 0 hv).2.2) fun z s c t hl hs hd h => ?_
  obtain ⟨-, ha, rfl⟩ := dueAt_some hd
  change execSecondTimerExpiry s = .next t at h
  obtain ⟨u, hu⟩ := Option.isSome_iff_exists.1 ha
  have hoff : s.secondEnds.time.secondTimer = some 1000 ∧ s.secondEnds.power = s.power := by
    unfold State.secondEnds
    rw [hu]
    dsimp only
    split
    · obtain ⟨f, v, hv, hm⟩ :=
        minuteEvent_frame (s := { s with time.clock := some u.next, time.secondTimer := some 1000 }) u.next
      rw [hm]
      exact ⟨rfl, hv.power⟩
    · exact ⟨rfl, rfl⟩
  have hlaw : s.secondEnds.Ticking z := ⟨hs.lanes.secondEnds (admits_laneRange z), hs.timed.secondEnds⟩
  refine ticking_of_eventIf h hl ha (by unfold State.live; rw [hoff.2]; exact hl) (hlaw.off ?_)
  show s.secondEnds.time.secondTimer ≠ some 0
  rw [hoff.1]
  decide

theorem silence_takesOff : TakesOff (fun s => dueAt s.host.silence true .silenceTimeout) .silence := by
  refine takesOff_of (fun z s _ h => dueAt_none h fun _ => rfl) fun z s c t hl hs hd h => ?_
  obtain ⟨hv, -, rfl⟩ := dueAt_some hd
  change execSilenceTimeout s = .next t at h
  have hlaw : ((({ s with host.silence := none } : State).report .hostSilent true).raise .hostSilent).Ticking z :=
    ⟨hs.lanes.outside rfl rfl rfl rfl,
      ⟨hs.timed.resolver, hs.timed.time, fun v hv => (by cases hv), hs.timed.link.congr rfl hs.timed.link.strings⟩⟩
  exact ticking_of_eventIf h hl (by rw [hv]; rfl) hl (hlaw.off fun h0 => by cases h0)

theorem half_takesOff : TakesOff (fun s => dueAt s.time.halfTimer true .halfPeriodExpiry) .half := by
  refine takesOff_of (fun z s _ h => dueAt_none h fun _ => rfl) fun z s c t hl hs hd h => ?_
  obtain ⟨hv, -, rfl⟩ := dueAt_some hd
  change execHalfPeriodExpiry s = .next t at h
  have hlegal := hs.lanes.settings
  have hlaw : (s.setPhase !s.time.phase).startHalf.Ticking z :=
    ⟨(hs.lanes.setPhase _).outside rfl rfl rfl rfl, hs.timed.newPhase hlegal _⟩
  have hpower : (s.setPhase !s.time.phase).power = s.power := by
    unfold State.setPhase State.markPhase; split_ifs <;> rfl
  refine ticking_of_eventIf h hl (by rw [hv]; rfl) (by unfold State.live; exact hpower ▸ hl) (hlaw.off ?_)
  obtain ⟨-, -, -, -, -, -, hlow, -⟩ := Tunnel.legal_ranges hlaw.lanes.settings.tunnel
  exact fun h0 => absurd (Option.some.inj h0) (Nat.pos_iff_ne_zero.1 (Nat.lt_of_lt_of_le (by decide) hlow))

theorem loss_takesOff :
    TakesOff (fun s => dueAt s.time.lossTimer (s.time.line == .following) .lossTimerExpiry) .loss := by
  refine takesOff_of (fun z s hs h => dueAt_none h fun hv => by rw [(hs.timed.time.loss 0 hv).2.2]; rfl)
    fun z s c t hl hs hd h => ?_
  obtain ⟨-, ha, rfl⟩ := dueAt_some hd
  change execLossTimerExpiry s = .next t at h
  have hlaw : (({ s with time.line := .freeRunning, time.lossTimer := none } : State).raise .flashSyncLost).Ticking z :=
    ⟨hs.lanes.outside rfl rfl rfl rfl, hs.timed.lossEnds⟩
  exact ticking_of_eventIf h hl ha hl (hlaw.off fun h0 => by cases h0)

theorem answer_takesOff (e : LinkEnd) :
    TakesOff (fun s => dueAt (s.poller e).answerTimer (s.poller e).waiting (.pollTimeout e)) (.answer e) := by
  refine takesOff_of (fun z s hs h => dueAt_none h fun hv => ?_) fun z s c t hl hs hd h => ?_
  · unfold Poller.waiting
    rw [(hs.timed.link.answers e 0 hv).2.2, hv]
    rfl
  · obtain ⟨-, ha, rfl⟩ := dueAt_some hd
    change execPollTimeout e s = .next t at h
    have hend := LinkStep.endExchange (kinds := linkKinds) s e
    have hended : (s.endExchange e).Timed (without z (.answer e)) := by
      refine (hs.timed.linkStep hend).off fun h0 => ?_
      change ((s.endExchange e).poller e).answerTimer = some 0 at h0
      rw [State.endExchange, State.setPoller_poller] at h0
      cases h0
    obtain ⟨x, hx⟩ := Option.isSome_iff_exists.1 (Bool.and_eq_true_iff.1 ha).1
    have hout : s.timeOut e = (s.endExchange e).miss e x .timeout := by unfold State.timeOut; rw [hx]
    have hlaw : (s.timeOut e).Ticking (without z (.answer e)) :=
      ⟨(hs.lanes.linkStep (.timeOut s e)).offOther fun l h0 => (by cases h0), hout ▸ hended.linkStep (.miss _ e x .timeout)⟩
    exact ticking_of_eventIf h hl ha (by unfold State.live; rw [(LinkStep.timeOut s e).power]; exact hl) hlaw

theorem window_takesOff : TakesOff State.windowDue .window := by
  have hend : ∀ (s : State) (x : LampTest), s.resolver.lampTest = some x →
      (s.endLampTest .window).resolver.lampTest = none := fun s x hx => by
    unfold State.endLampTest; rw [hx]
  refine takesOff_of (fun z s _ h h0 => ?_) fun z s c t hl hs hd h => ?_
  · obtain ⟨x, hx, h0⟩ := h0
    unfold State.windowDue at h
    rw [hx] at h
    simp only [h0, if_true] at h
    cases h
  · unfold State.windowDue at hd
    split at hd
    · cases hd
    · rename_i x hx
      split at hd
      · obtain rfl := Option.some.inj hd
        change execLampTestWindowExpiry s = .next t at h
        have hstep := LinkStep.endLampTest (kinds := []) s .window
        have hlaw : ((s.endLampTest .window).raise .lampTestEnded).Ticking z :=
          ⟨(hs.lanes.linkStep hstep).raise _, (hs.timed.linkStep hstep).raise _⟩
        refine ticking_of_eventIf h hl (by rw [hx]; rfl) (by unfold State.live; exact hstep.power ▸ hl) (hlaw.off ?_)
        rintro ⟨y, hy, -⟩
        rw [show ((s.endLampTest .window).raise .lampTestEnded).resolver = (s.endLampTest .window).resolver from rfl,
          hend s x hx] at hy
        cases hy
      · cases hd

/-- The entries whose holds have run out all leave the table together (R91). -/
theorem holds_takesOff : TakesOff State.holdsDue .hold := by
  refine takesOff_of (fun z s _ h h0 => ?_) fun z s c t hl hs hd h => ?_
  · obtain ⟨o, ho, h0⟩ := h0
    have hm : o.head ∈ (s.resolver.overrides.filter fun o => o.hold == 0).map (·.head) :=
      List.mem_map_of_mem (List.mem_filter.2 ⟨ho, by rw [h0]; rfl⟩)
    unfold State.holdsDue at h
    split at h
    · rename_i hn; rw [hn] at hm; cases hm
    · cases h
  · unfold State.holdsDue at hd
    generalize hdue : (s.resolver.overrides.filter fun o => o.hold == 0).map (·.head) = hds at hd
    cases hds with
    | nil => cases hd
    | cons hd0 rest =>
      obtain rfl := Option.some.inj hd
      generalize hlist : hd0 :: rest = hds at h hdue
      change execOverrideHoldExpiry hds s = .next t at h
      have hmem : ∀ {hd}, hd ∈ hds ↔ ∃ o ∈ s.resolver.overrides, o.hold = 0 ∧ o.head = hd := by
        intro hd
        rw [← hdue]
        simp only [List.mem_map, List.mem_filter, beq_iff_eq, and_assoc]
      have hall : (!hds.isEmpty && hds.all fun h => (s.overrideOf h).isSome) = true := by
        refine Bool.and_eq_true_iff.2 ⟨?_, List.all_eq_true.2 fun hd hm => ?_⟩
        · rw [← hlist]; rfl
        · obtain ⟨o, ho, -, rfl⟩ := hmem.1 hm
          exact List.find?_isSome.2 ⟨o, ho, decide_eq_true rfl⟩
      have hover : (s.overridesExpire hds).resolver.overrides = s.resolver.overrides.filter fun o => !hds.contains o.head := by
        unfold State.overridesExpire; rw [State.raiseTimes_frame]
      have hlaw : (s.overridesExpire hds).Ticking z := ⟨hs.lanes.overridesExpire hds, hs.timed.overridesExpire hds⟩
      have hpower : (s.overridesExpire hds).power = s.power := by
        unfold State.overridesExpire; rw [State.raiseTimes_frame]
      refine ticking_of_eventIf h hl hall (by unfold State.live; rw [hpower]; exact hl) (hlaw.off ?_)
      rintro ⟨o, ho, h0⟩
      rw [hover, List.mem_filter] at ho
      have hin : o.head ∈ hds := hmem.2 ⟨o, ho.1, h0, rfl⟩
      simp [hin] at ho

/-- The law that a lane's timer takes once its expiry has rewritten it, and the laws of the others. -/
theorem laneRange_without {l m v : Nat} (hm : m ≠ l) (h : laneRange z m v) : laneRange (without z (.lane l)) m v :=
  ⟨h.1.imp id fun hz => ⟨hz, fun he => hm (TimerName.lane.inj he)⟩, h.2⟩

/-- A lane's timer is rewritten by its expiry, whatever state the lane is in (R24). -/
theorem lane_takesOff (l : Nat) : TakesOff (fun s => s.laneDue l) (.lane l) := by
  refine takesOff_of (fun z s hs h h0 => ?_) fun z s c t hl hs hd h => ?_
  · change (s.lane l).timer = some 0 at h0
    have htimed : (s.lane l).phase.timed = true := by rw [← hs.lanes.lanes.timers, h0]; rfl
    have hin : l < s.l := hs.lanes.carried_lt fun hp => by rw [hp] at htimed; cases htimed
    unfold State.laneDue at h
    rw [if_pos ⟨hin, h0⟩] at h
    cases hp : (s.lane l).phase with
    | clearance d c w u => rw [hp] at h; cases w <;> cases h
    | run d => rw [hp] at htimed; cases htimed
    | shut => rw [hp] at htimed; cases htimed
    | closing d f m u => rw [hp] at h; cases h
    | opening d f r u => rw [hp] at h; cases h
  · have hin : l < s.l := by
      unfold State.laneDue at hd
      split at hd
      · exact And.left ‹_›
      · cases hd
    have hdue : laneExpiry l (s.lane l).phase = some c := by
      unfold State.laneDue at hd
      split at hd
      · exact hd
      · cases hd
    have hother : ∀ m v, m ≠ l → laneRange z m v → laneRange (without z (.lane l)) m v := fun m v => laneRange_without
    have hend : ∀ {allowed : Bool} {f : State → State}, eventIf s allowed f = .next t → allowed = true →
        EngineStep s (f s) → (f s).Lawful (laneRange (without z (.lane l))) →
        t.live = true ∧ t.Ticking (without z (.lane l)) := by
      intro allowed f h ha he hu
      unfold eventIf at h
      rw [hl, ha] at h
      obtain rfl := Host.Outcome.next.inj h
      have hlaw := hu.settle (b := s) (admits_laneRange _)
      refine ⟨by rw [settle_live, he.live]; exact hl, hlaw, ((hs.timed.engineStep he).settle s).off fun h0 => ?_⟩
      rcases (hlaw.timer l 0 h0).1 with h1 | ⟨-, h1⟩
      · cases h1
      · exact h1 rfl
    cases hp : (s.lane l).phase with
    | run d => rw [hp] at hdue; cases hdue
    | shut => rw [hp] at hdue; cases hdue
    | closing d f m u =>
      rw [hp] at hdue
      obtain rfl := Option.some.inj hdue
      have ha : s.isClosing l = true := State.isClosing_iff.2 ⟨hin, _, _, _, _, hp⟩
      exact hend (f := fun s => s.closingStep l) h ha (closingStep_step l)
        (hs.lanes.closingStep (admits_laneRange _) hother ha)
    | opening d f r u =>
      rw [hp] at hdue
      obtain rfl := Option.some.inj hdue
      have ha : s.isOpening l = true := State.isOpening_iff.2 ⟨hin, _, _, _, _, hp⟩
      exact hend (f := fun s => s.openingStep l) h ha (openingStep_step l)
        (hs.lanes.openingStep (admits_laneRange _) hother ha)
    | clearance d c w u =>
      rw [hp] at hdue
      cases w with
      | false =>
        obtain rfl := Option.some.inj hdue
        have ha : s.inClearance l false = true := State.inClearance_iff.2 ⟨hin, _, _, _, hp⟩
        exact hend (f := fun s => s.clearanceEnds l) h ha (clearanceEnds_step l)
          (hs.lanes.clearanceEnds (admits_laneRange _) hother ha)
      | true =>
        obtain rfl := Option.some.inj hdue
        have ha : s.inClearance l true = true := State.inClearance_iff.2 ⟨hin, _, _, _, hp⟩
        exact hend (f := fun s => s.windowEnds l) h ha (windowEnds_step l)
          (hs.lanes.windowEnds (admits_laneRange _) hother ha)

end Due

/-! ### The expiries of a millisecond -/

/-- The rows of a millisecond that take a timer off 0, with the timers they take. -/
def clockRows : List ((State → Option Instr) × TimerName) :=
  [(fun s => dueAt s.time.secondTimer s.time.clock.isSome .secondTimerExpiry, .second)] ++
    (List.range 6).map (fun l => (fun s => s.laneDue l, .lane l)) ++
    [(State.holdsDue, .hold), (State.windowDue, .window),
      (fun s => dueAt s.host.silence true .silenceTimeout, .silence),
      (fun s => dueAt s.time.halfTimer true .halfPeriodExpiry, .half),
      (fun s => dueAt s.time.lossTimer (s.time.line == .following) .lossTimerExpiry, .loss),
      (fun s => dueAt (s.poller .west).answerTimer (s.poller .west).waiting (.pollTimeout .west), .answer .west),
      (fun s => dueAt (s.poller .east).answerTimer (s.poller .east).waiting (.pollTimeout .east), .answer .east)]

theorem clockRows_takeOff : ∀ p ∈ clockRows, TakesOff p.1 p.2 := by
  intro p hp
  simp only [clockRows, List.mem_append, List.mem_map, List.mem_cons, List.not_mem_nil, or_false] at hp
  obtain (rfl | ⟨l, -, rfl⟩) | rfl | rfl | rfl | rfl | rfl | rfl | rfl := hp
  · exact second_takesOff
  · exact lane_takesOff l
  · exact holds_takesOff
  · exact window_takesOff
  · exact silence_takesOff
  · exact half_takesOff
  · exact loss_takesOff
  · exact answer_takesOff .west
  · exact answer_takesOff .east

/-- What can fall due is the rows that take a timer off 0, and the reprobe timers. -/
theorem dueRows_eq : dueRows = clockRows.map Prod.fst ++ (List.range 16).map fun k s => s.reprobeTimerDue k := rfl

theorem runDue_append (ds es : List (State → Option Instr)) (s t : State) (h : runDue (ds ++ es) s = .next t) :
    ∃ u, runDue ds s = .next u ∧ runDue es u = .next t := by
  induction ds generalizing s with
  | nil => exact ⟨s, rfl, h⟩
  | cons d ds ih =>
    simp only [List.cons_append, runDue] at h ⊢
    split at h
    · exact ih s h
    · split at h
      · exact ih _ h
      · cases h
      · cases h

/-- Rows that take their timers off 0 one after the other have taken them all off in the end. -/
theorem runDue_takesOff (ps : List ((State → Option Instr) × TimerName)) (hp : ∀ p ∈ ps, TakesOff p.1 p.2)
    (z : TimerName → Prop) (s t : State) (hl : s.live = true) (hs : s.Ticking z)
    (h : runDue (ps.map Prod.fst) s = .next t) :
    t.live = true ∧ t.Ticking fun y => z y ∧ y ∉ ps.map Prod.snd := by
  induction ps generalizing z s with
  | nil =>
    obtain rfl := Host.Outcome.next.inj h
    exact ⟨hl, by simpa using hs⟩
  | cons p ps ih =>
    obtain ⟨u, hu, h⟩ := runDue_append [p.1] (ps.map Prod.fst) s t h
    obtain ⟨hlu, hsu⟩ := hp p (List.mem_cons_self) z s u hl hs hu
    have hrest := ih (fun q hq => hp q (List.mem_cons_of_mem _ hq)) _ u hlu hsu h
    simpa [without, and_assoc] using hrest

theorem ticking_exec {z : TimerName → Prop} {c : Instr} {s t : State} (hs : s.Ticking z) (h : exec c s = .next t) :
    t.Ticking z :=
  ⟨exec_lawful (admits_laneRange z) c h hs.lanes, exec_timed hs.lanes.settings c h hs.timed⟩

/-! ### The step -/

theorem ticking_of_timersLegal {s : State} (hg : s.Good) (hs : s.TimersLegal) : s.Ticking fun _ => False := by
  obtain ⟨-, ⟨-, -, -, hstations⟩, -⟩ := hg.tables
  have hlow : ∀ {v m : Nat}, 1 ≤ v ∧ v ≤ m → (1 ≤ v ∨ False) ∧ v ≤ m := fun h => ⟨.inl h.1, h.2⟩
  have hlow' : ∀ {v m : Nat} {p : Prop}, 1 ≤ v ∧ v ≤ m ∧ p → (1 ≤ v ∨ False) ∧ v ≤ m ∧ p := fun h => ⟨.inl h.1, h.2⟩
  exact ⟨⟨s.legal_iff.2 ⟨hg.config, hg.clock⟩, hg.lanes_wf, hg.lanes, fun l v hv => hlow (hs.lanes l v hv)⟩,
    ⟨fun o ho => hlow (hs.holds o ho), fun x hx => hlow (hs.window x hx)⟩,
    ⟨fun v hv => hlow (hs.half v hv), fun v hv => hlow' (hs.loss v hv), fun v hv => hlow' (hs.second v hv)⟩,
    fun v hv => hlow (hs.silence v hv),
    ⟨hg.strings_wf, hstations, fun e v hv => hlow' (hs.answers e v hv), hs.reprobes⟩⟩

/-- The names of the due rows are all the timers there are but those of lanes that no section has. -/
theorem timersLegal_of_ticking {s : State} (hs : s.Ticking fun y => y ∉ clockRows.map Prod.snd) : s.TimersLegal := by
  have hlow : ∀ {v m : Nat} {y : TimerName}, y ∈ clockRows.map Prod.snd →
      (1 ≤ v ∨ y ∉ clockRows.map Prod.snd) ∧ v ≤ m → 1 ≤ v ∧ v ≤ m := fun hy h => ⟨h.1.resolve_right fun hn => hn hy, h.2⟩
  have hlow' : ∀ {v m : Nat} {y : TimerName} {p : Prop}, y ∈ clockRows.map Prod.snd →
      (1 ≤ v ∨ y ∉ clockRows.map Prod.snd) ∧ v ≤ m ∧ p → 1 ≤ v ∧ v ≤ m ∧ p :=
    fun hy h => ⟨h.1.resolve_right fun hn => hn hy, h.2⟩
  refine ⟨fun o ho => hlow (by simp [clockRows]) (hs.timed.resolver.holds o ho),
    fun x hx => hlow (by simp [clockRows]) (hs.timed.resolver.window x hx), fun l v hv => ?_,
    fun v hv => hlow (by simp [clockRows]) (hs.timed.time.half v hv),
    fun v hv => hlow' (by simp [clockRows]) (hs.timed.time.loss v hv),
    fun v hv => hlow' (by simp [clockRows]) (hs.timed.time.second v hv),
    fun v hv => hlow (by simp [clockRows]) (hs.timed.silence v hv),
    fun e v hv => hlow' (y := .answer e) (by cases e <;> simp [clockRows]) (hs.timed.link.answers e v hv),
    hs.timed.link.reprobes⟩
  have hl6 : s.l ≤ 6 := (Tunnel.legal_ranges hs.lanes.settings.tunnel).1.1
  have hl : l < 6 := by
    by_contra hge
    rw [hs.lanes.lanes.outside l (by omega)] at hv
    cases hv
  exact hlow (y := .lane l) (by simpa [clockRows] using hl) (hs.lanes.timer l v hv)

/-- A millisecond takes the timers down by one, each to 0 at the least. -/
theorem tick_ticking {s : State} (hs : s.Ticking fun _ => False) : s.tick.Ticking fun _ => True := by
  have hdown : ∀ {v m : Nat}, v ≤ m → (1 ≤ v - 1 ∨ True) ∧ v - 1 ≤ m := fun h => ⟨.inr trivial, by omega⟩
  have htimer : ∀ {v : Nat} {o : Option Nat}, timerTick o = some v → ∃ w, o = some w ∧ v = w - 1 := by
    intro v o hv
    obtain ⟨w, hw, rfl⟩ := Option.map_eq_some_iff.1 hv
    exact ⟨w, hw, rfl⟩
  have hstation : ∀ k, s.tick.station k = (s.station k).tick := fun k =>
    (Tab.get_mapWhere s.link.stations (fun _ => true) StationRec.tick rfl hs.timed.link.stations k).trans (if_pos rfl)
  refine ⟨hs.lanes.tick_as fun l v hv => hdown hv.2, ⟨fun o ho => ?_, fun x hx => ?_⟩, ⟨?_, ?_, ?_⟩, ?_,
    ⟨hs.timed.link.strings, Tab.wf_mapWhere _ _ hs.timed.link.stations, ?_, ?_⟩⟩
  · obtain ⟨p, hp, rfl⟩ := List.mem_map.1 ho
    exact hdown (hs.timed.resolver.holds p hp).2
  · obtain ⟨y, hy, rfl⟩ := Option.map_eq_some_iff.1 hx
    exact hdown (hs.timed.resolver.window y hy).2
  · intro v hv
    obtain ⟨w, hw, rfl⟩ := htimer hv
    exact hdown (hs.timed.time.half w hw).2
  · intro v hv
    obtain ⟨w, hw, rfl⟩ := htimer hv
    obtain ⟨-, hhigh, hline⟩ := hs.timed.time.loss w hw
    exact ⟨.inr trivial, by omega, hline⟩
  · intro v hv
    obtain ⟨w, hw, rfl⟩ := htimer hv
    obtain ⟨-, hhigh, hclock⟩ := hs.timed.time.second w hw
    exact ⟨.inr trivial, by omega, hclock⟩
  · intro v hv
    obtain ⟨w, hw, rfl⟩ := htimer hv
    exact hdown (hs.timed.silence w hw).2
  · intro e v hv
    obtain ⟨w, hw, rfl⟩ : ∃ w, (s.poller e).answerTimer = some w ∧ v = w - 1 := by cases e <;> exact htimer hv
    obtain ⟨-, hhigh, hx⟩ := hs.timed.link.answers e w hw
    exact ⟨.inr trivial, by omega, by cases e <;> exact hx⟩
  · intro k v hv
    rw [hstation] at hv
    obtain ⟨w, hw, rfl⟩ := htimer hv
    exact Nat.le_trans (Nat.sub_le w 1) (hs.timed.link.reprobes k w hw)

/-- Settles O12: a row keeps every timer within its range and above 0; a millisecond takes some to 0, and the expiries that it
makes due take each of those off 0 again. -/
theorem timersLegalKept : Obligations.TimersLegalKept := by
  intro s t hg hs h
  have hticking := ticking_of_timersLegal hg hs
  have hlegal : ∀ {u : State}, u.Ticking (fun _ => False) → u.TimersLegal := fun hu =>
    timersLegal_of_ticking ⟨⟨hu.lanes.settings, hu.lanes.table, hu.lanes.lanes, fun l v hv =>
      ⟨(hu.lanes.timer l v hv).1.imp id False.elim, (hu.lanes.timer l v hv).2⟩⟩,
      hu.timed.sharpen fun x hx => hx.elim⟩
  unfold step at h
  split at h
  · rename_i c rest _
    have hq : ({ s with pending := rest } : State).Ticking fun _ => False :=
      ⟨hticking.lanes.outside rfl rfl rfl rfl, hticking.timed.same rfl rfl rfl rfl rfl⟩
    exact hlegal (ticking_exec hq h)
  · rcases idle_cases h with ⟨-, rfl⟩ | ⟨c, -, -, hc⟩ | ⟨hl, -, hd⟩
    · exact hs
    · exact hlegal (ticking_exec hticking hc)
    · rw [dueRows_eq] at hd
      obtain ⟨u, hu, hd⟩ := runDue_append _ _ _ _ hd
      obtain ⟨-, hoff⟩ := runDue_takesOff clockRows clockRows_takeOff _ _ u (by exact hl) (tick_ticking hticking) hu
      refine timersLegal_of_ticking (runDue_keeps (p := State.Ticking _) (fun c a b ha hb => ticking_exec ha hb) _ _ _ ?_ hd)
      simpa using hoff

end Sys2Proof.Machine
end

