-- ==== Sys2Proof/Proofs/LaneRefusals.lean ====
section
/-! PROOFS. What the lane commands do, by the lane's kind and projected state, and their refusals (O34). -/

namespace Sys2Proof.Machine

theorem octet_toNat (x : Octet) : octet x.toNat = x := by
  apply BitVec.eq_of_toNat_eq
  simp [octet]

/-- The face a direction octet names is the one the statements of the lane commands name. -/
theorem faceOf_eq {n : Nat} (h : n < 2) : faceOf n = if n = 0 then .a else .b := by
  match n, h with
  | 0, _ => rfl
  | 1, _ => rfl

section Acts

variable {s : State} {l : Nat} {lane dir : Octet} {e : Face}

/-- The direction that a lane's kind bars is the one its kind is not fixed in (R43). -/
theorem State.barredDirection_iff (f : Face) :
    s.barredDirection l = some f ↔ ∃ c, s.laneCfg l = some c ∧ c.kind = match f.other with
      | .a => .fixedA
      | .b => .fixedB := by
  unfold State.barredDirection
  cases s.laneCfg l with
  | none => simp
  | some c =>
    obtain ⟨kind, _, _⟩ := c
    cases f <;> cases kind <;> simp [Face.other]

/-! ### The branches of the lane commands -/

theorem laneField (hl : lane.toNat < s.l) : firstBad [(s.okLane lane.toNat, 0)] = none := by simp [firstBad_cons, hl]

theorem actCloseLane_shut (hl : lane.toNat < s.l) (hp : s.project s.engine.queue lane.toNat = none) :
    actCloseLane s [lane] = refuse s 23 lane.toNat 0 := by
  simp only [actCloseLane, oct_cons_zero, withFields_good (laneField hl), hp]

theorem actCloseLane_run (hl : lane.toNat < s.l) (hp : s.project s.engine.queue lane.toNat = some e) :
    actCloseLane s [lane] = s.addTasks lane.toNat [s.hostTask lane.toNat .close] := by
  simp only [actCloseLane, oct_cons_zero, withFields_good (laneField hl), hp]

theorem openLaneFields (hl : lane.toNat < s.l) (hd : dir.toNat < 2) :
    firstBad [(s.okLane lane.toNat, 0), (okBit dir.toNat, 1)] = none := by simp [firstBad_cons, hl, hd]

theorem actOpenLane_barred (hl : lane.toNat < s.l) (hd : dir.toNat < 2)
    (hb : s.barredDirection lane.toNat = some (faceOf dir.toNat)) : actOpenLane s [lane, dir] = refuse s 26 lane.toNat 0 := by
  simp only [actOpenLane, oct_cons_zero, oct_cons_succ, withFields_good (openLaneFields hl hd), if_pos hb]

theorem actOpenLane_shut (hl : lane.toNat < s.l) (hd : dir.toNat < 2)
    (hb : s.barredDirection lane.toNat ≠ some (faceOf dir.toNat)) (hp : s.project s.engine.queue lane.toNat = none) :
    actOpenLane s [lane, dir] = s.addTasks lane.toNat [s.hostTask lane.toNat (.opn (faceOf dir.toNat))] := by
  simp only [actOpenLane, oct_cons_zero, oct_cons_succ, withFields_good (openLaneFields hl hd), if_neg hb, hp]

theorem actOpenLane_run (hl : lane.toNat < s.l) (hd : dir.toNat < 2)
    (hb : s.barredDirection lane.toNat ≠ some (faceOf dir.toNat)) (hp : s.project s.engine.queue lane.toNat = some e) :
    actOpenLane s [lane, dir] =
      if e = faceOf dir.toNat then refuse s 23 lane.toNat 0 else s.wrongLaneState lane.toNat := by
  simp only [actOpenLane, oct_cons_zero, oct_cons_succ, withFields_good (openLaneFields hl hd), if_neg hb, hp]

theorem actReverseLane_fixed (hl : lane.toNat < s.l) (hb : (s.barredDirection lane.toNat).isSome = true) :
    actReverseLane s [lane] = refuse s 26 lane.toNat 0 := by
  simp only [actReverseLane, oct_cons_zero, withFields_good (laneField hl)]
  exact if_pos hb

theorem actReverseLane_shut (hl : lane.toNat < s.l) (hb : s.barredDirection lane.toNat = none)
    (hp : s.project s.engine.queue lane.toNat = none) : actReverseLane s [lane] = s.wrongLaneState lane.toNat := by
  simp only [actReverseLane, oct_cons_zero, withFields_good (laneField hl), hb, hp]
  rfl

theorem actReverseLane_run (hl : lane.toNat < s.l) (hb : s.barredDirection lane.toNat = none)
    (hp : s.project s.engine.queue lane.toNat = some e) :
    actReverseLane s [lane] =
      s.addTasks lane.toNat [s.hostTask lane.toNat .close, s.hostTask lane.toNat (.opn e.other)] := by
  simp only [actReverseLane, oct_cons_zero, withFields_good (laneField hl), hb, hp]
  rfl

/-! ### Refusals -/

/-- A command that RUN accepts and that its own checks refuse is answered so. -/
theorem answers_refused {row : Octet → List Octet → Instr} {kind len c x y : Nat} {modes : Modes}
    {act : State → List Octet → CmdResult} {b : List Octet}
    (hrow : ∀ tag, exec (row tag b) s = runCommand kind len modes act tag b s) (hlen : b.length = len)
    (hm : modes.accept s.config.mode = true) (ha : act s b = refuse s c x y) :
    s.answers row kind b c [octet x, octet y] := answers_of hrow hlen hm ha

theorem runOnly_accept (hm : s.config.mode = .run) : Modes.runOnly.accept s.config.mode = true := by rw [hm]; rfl

theorem answers_closeLane {c x : Nat} {y : Octet} (hy : octet x = y) (hm : s.config.mode = .run) (ha : actCloseLane s [lane] = refuse s c x 0) :
    s.answers .closeLane 20 [lane] c [y, 0] :=
  hy ▸ answers_refused (fun _ => rfl) rfl (runOnly_accept hm) ha

theorem answers_openLane {c x : Nat} {y : Octet} (hy : octet x = y) (hm : s.config.mode = .run) (ha : actOpenLane s [lane, dir] = refuse s c x 0) :
    s.answers .openLane 21 [lane, dir] c [y, 0] :=
  hy ▸ answers_refused (fun _ => rfl) rfl (runOnly_accept hm) ha

theorem answers_reverseLane {c x : Nat} {y : Octet} (hy : octet x = y) (hm : s.config.mode = .run) (ha : actReverseLane s [lane] = refuse s c x 0) :
    s.answers .reverseLane 22 [lane] c [y, 0] :=
  hy ▸ answers_refused (fun _ => rfl) rfl (runOnly_accept hm) ha

theorem answers_openLane_badField (hm : s.config.mode = .run) (hl : lane.toNat < s.l) (hd : 2 ≤ dir.toNat) :
    s.answers .openLane 21 [lane, dir] 18 [1, 0] := by
  refine answers_badField (len := 2) (act := actOpenLane) (fun _ => rfl) rfl (runOnly_accept hm) rfl ?_
  have hbad : ¬okBit dir.toNat = true := by rw [okBit_iff]; omega
  rw [oct_cons_zero, firstBad_cons, if_pos (by simpa using hl)]
  exact if_neg hbad

end Acts

/-- Settles O34: each refusal is the branch that the lane's kind or its projected state selects. -/
theorem laneTasksRefused : Obligations.LaneTasksRefused := by
  intro s lane dir hm hl
  have hbar := fun f => State.barredDirection_iff (s := s) (l := lane.toNat) f
  have hlane : octet lane.toNat = lane := octet_toNat lane
  refine ⟨hbar, fun hp => ?_, answers_openLane_badField hm hl, fun hd hf => ?_, fun hd hf hp => ?_, fun hd hf hp => ?_,
    fun hf => ?_, fun hfa hfb hp => ?_⟩
  · exact answers_closeLane hlane hm (actCloseLane_shut hl hp)
  · exact answers_openLane hlane hm (actOpenLane_barred hl hd (by rw [faceOf_eq hd]; exact (hbar _).2 hf))
  · have hb : s.barredDirection lane.toNat ≠ some (faceOf dir.toNat) := by
      rw [faceOf_eq hd]; exact fun hb => hf ((hbar _).1 hb)
    exact answers_openLane hlane hm ((actOpenLane_run hl hd hb hp).trans (if_pos (faceOf_eq hd).symm))
  · have hb : s.barredDirection lane.toNat ≠ some (faceOf dir.toNat) := by
      rw [faceOf_eq hd]; exact fun hb => hf ((hbar _).1 hb)
    refine answers_openLane rfl hm ((actOpenLane_run hl hd hb hp).trans (if_neg ?_))
    rw [faceOf_eq hd]
    split <;> simp [Face.other]
  · have hb : (s.barredDirection lane.toNat).isSome = true := by
      rcases hf with hf | hf
      · rw [(hbar .b).2 hf]; rfl
      · rw [(hbar .a).2 hf]; rfl
    exact answers_reverseLane hlane hm (actReverseLane_fixed hl hb)
  · have hb : s.barredDirection lane.toNat = none := by
      cases h : s.barredDirection lane.toNat with
      | none => rfl
      | some f => cases f with
        | a => exact absurd ((hbar .a).1 h) hfb
        | b => exact absurd ((hbar .b).1 h) hfa
    exact answers_reverseLane rfl hm (actReverseLane_shut hl hb hp)

end Sys2Proof.Machine
end

