-- ==== Sys2Proof/Proofs/ResolvedHeads.lean ====
section
/-! PROOFS. The record of each head of the section, and what follows of its aspects (O16). -/

namespace Sys2Proof.Machine

/-! ### The record at a position of a chain -/

/-- The cascade demand that the last `j` positions of a lane's face place upstream (R76, R77). -/
def State.cascadeFrom (s : State) (lane : Nat) (f : Face) (j : Nat) : Bool :=
  match s.resolveChain lane f j with
  | [] => false
  | r :: _ => r.closureLost

/-- A chain holds the record of each of its positions, resolved under the cascade demand of the positions behind it. -/
theorem State.resolveChain_getElem (s : State) (lane : Nat) (f : Face) {j p : Nat} (hj : j ≤ s.n) (hp : p < j) :
    (s.resolveChain lane f j)[p]? =
      some (s.resolveHead ⟨stationAt s.n f (s.n - j + p), lane, f⟩ (s.cascadeFrom lane f (j - 1 - p))) := by
  induction j generalizing p with
  | zero => omega
  | succ j ih =>
    cases p with
    | zero =>
      have hpos : s.n - (j + 1) + 0 = s.n - 1 - j := by omega
      rw [hpos]
      rfl
    | succ p =>
      have hpos : s.n - (j + 1) + (p + 1) = s.n - j + p := by omega
      have hrest : j + 1 - 1 - (p + 1) = j - 1 - p := by omega
      rw [hpos, hrest]
      exact ih (by omega) (by omega)

theorem State.hasHead_iff (s : State) (h : HeadRef) : s.hasHead h = true ↔ h.station < s.n ∧ h.lane < s.l := by
  simp [State.hasHead]

/-- The place of a head in the head table that the present state calls for (R66). -/
theorem State.resolveTable_chain (s : State) {h : HeadRef} (hl : h.lane < s.l) :
    tableAt s.resolveTable s.n h = (s.resolveChain h.lane h.face s.n)[positionOf s.n h.face h.station]? := by
  obtain ⟨hf, hlane⟩ := faceOfPlace_place h.lane h.face
  have hcode : h.face.code < 2 := by cases h.face <;> decide
  unfold tableAt State.resolveTable
  rw [List.getD_eq_getElem?_getD, List.getElem?_map, List.getElem?_range (by omega), Option.map_some, Option.getD_some,
    hf, hlane]

/-- The record of each head of the section in that table (R66). -/
theorem State.resolveTable_head (s : State) {h : HeadRef} (hh : s.hasHead h = true) :
    tableAt s.resolveTable s.n h =
      some (s.resolveHead h (s.cascadeFrom h.lane h.face (s.n - 1 - positionOf s.n h.face h.station))) := by
  obtain ⟨hk, hl⟩ := (s.hasHead_iff h).1 hh
  have hpos : positionOf s.n h.face h.station < s.n := stationAt_lt _ hk
  have hback : stationAt s.n h.face (s.n - s.n + positionOf s.n h.face h.station) = h.station := by
    rw [Nat.sub_self, Nat.zero_add]
    exact stationAt_stationAt _ hk
  rw [s.resolveTable_chain hl, s.resolveChain_getElem _ _ (Nat.le_refl _) hpos, hback]

theorem State.Settled.headRec {s : State} (hs : s.Settled) {h : HeadRef} (hh : s.hasHead h = true) :
    s.headRec h =
      some (s.resolveHead h (s.cascadeFrom h.lane h.face (s.n - 1 - positionOf s.n h.face h.station))) := by
  unfold State.headRec
  rw [hs.heads, s.resolveTable_head hh]

/-! ### The parts of a record -/

section Parts

variable (s : State) (h : HeadRef) (c : Bool)

theorem laneDemand_eq (p : LanePhase) (f : Face) (pos : Nat) :
    laneDemand p f pos = match p with
      | .run d => if f = d then .opn else .shut
      | .closing d front merge _ =>
        if f ≠ d ∨ pos < front then .shut else if pos = front then merge else .opn
      | .clearance _ _ _ _ => .shut
      | .shut => .shut
      | .opening d front _ _ => if f = d ∧ front ≤ pos then .opn else .shut := by
  unfold laneDemand
  cases p with
  | closing d front merge t => by_cases hf : f = d <;> simp [hf]
  | opening d front r t => by_cases hf : f = d <;> simp [hf]
  | _ => rfl

theorem State.overrideOf_none : s.overrideOf h = none ↔ ∀ o ∈ s.resolver.overrides, o.head ≠ h := by
  simp [State.overrideOf, List.find?_eq_none]

theorem State.overrideOf_some {o : Override} (ho : s.overrideOf h = some o) : o ∈ s.resolver.overrides ∧ o.head = h :=
  ⟨List.mem_of_find?_eq_some ho, by simpa using List.find?_some ho⟩

/-- In STANDBY the effective demand is that of the lamp test, or SHUT (R71). -/
theorem State.effective_standby (hm : s.config.mode = .standby) (l : Aspect) (o : Option Aspect) :
    effectiveDemand s.config.mode l c o (s.lampTestDemand h) = match s.resolver.lampTest with
      | some x => if x.station = h.station ∧ x.face = h.face then x.aspect else .shut
      | none => .shut := by
  rw [hm]
  unfold effectiveDemand State.lampTestDemand
  cases s.resolver.lampTest with
  | none => rfl
  | some x =>
    by_cases hx : x.station = h.station ∧ x.face = h.face
    · simp [hm, hx]
    · simp [hx]

theorem moreRestrictive_shut (a : Aspect) : moreRestrictive a .shut = .shut := by cases a <;> rfl
theorem shut_moreRestrictive (a : Aspect) : moreRestrictive .shut a = .shut := by cases a <;> rfl

/-- The most restrictive of the demands present on a head (R70). -/
theorem effective_run (l : Aspect) (o x : Option Aspect) (ds : List Aspect)
    (hd : ds = l :: ((if c then [Aspect.shut] else []) ++ o.toList)) :
    (.shut ∈ ds → effectiveDemand .run l c o x = .shut) ∧
      (.divertL ∈ ds → .divertR ∈ ds → effectiveDemand .run l c o x = .shut) ∧
      (∀ a, (a = .divertL ∨ a = .divertR) → a ∈ ds → (∀ b ∈ ds, b = a ∨ b = .slow ∨ b = .opn) →
        effectiveDemand .run l c o x = a) ∧
      (.slow ∈ ds → (∀ b ∈ ds, b = .slow ∨ b = .opn) → effectiveDemand .run l c o x = .slow) ∧
      ((∀ b ∈ ds, b = .opn) → effectiveDemand .run l c o x = .opn) := by
  subst hd
  cases c with
  | true =>
    have he : effectiveDemand .run l true o x = .shut := by
      cases o with
      | none => exact moreRestrictive_shut l
      | some o => exact (congrArg (moreRestrictive · o) (moreRestrictive_shut l)).trans (shut_moreRestrictive o)
    have hin : Aspect.shut ∈ l :: ((if true then [Aspect.shut] else []) ++ o.toList) := by simp
    rw [he]
    refine ⟨fun _ => rfl, fun _ _ => rfl, fun a ha _ hall => ?_, fun _ hall => ?_, fun hall => ?_⟩
    · rcases hall _ hin with rfl | hb | hb
      · rfl
      · cases hb
      · cases hb
    · rcases hall _ hin with hb | hb <;> cases hb
    · cases hall _ hin
  | false =>
    cases o with
    | none =>
      have he : effectiveDemand .run l false none x = l := rfl
      have hds : l :: ((if false then [Aspect.shut] else []) ++ (none : Option Aspect).toList) = [l] := rfl
      rw [he, hds]
      simp only [List.mem_singleton]
      exact ⟨fun h => h.symm, fun h1 h2 => (by cases h1.trans h2.symm), fun a _ h _ => h.symm, fun h _ => h.symm,
        fun h => h l rfl⟩
    | some o =>
      have he : effectiveDemand .run l false (some o) x = moreRestrictive l o := rfl
      rw [he]
      cases l <;> cases o <;> simp [moreRestrictive, Aspect.rank]

/-- A record holds the availability of each aspect that can be lit. -/
theorem State.resolveHead_availOf {a : Aspect} (ha : a ≠ .dark) :
    (s.resolveHead h c).availOf a = s.availability h a := by
  cases a with
  | dark => exact absurd rfl ha
  | _ => rfl

theorem State.stationDown_iff (k : Nat) :
    s.stationDown k = true ↔ (s.station k).state = .lost ∨ (s.station k).state = .cut := by
  unfold State.stationDown
  cases (s.station k).state <;> simp

theorem State.headUnavailable_iff :
    s.headUnavailable h = true ↔ (s.station h.station).state = .lost ∨ (s.station h.station).state = .cut ∨
      (s.proving h).condition ≠ .normal := by
  simp [State.headUnavailable, State.stationDown_iff, or_assoc]

theorem State.faulty_iff (i : Nat) : s.faulty h i = true ↔ (s.string (stringKey h i)).state = .fault := by
  simp [State.faulty]

/-- The resolved aspect, by the availabilities that the record holds (R74). -/
theorem State.resolveHead_resolved (r : HeadRec) (hr : r = s.resolveHead h c) :
    (r.availOf r.effective ≠ .failed → r.resolved = r.effective) ∧
      (r.availOf r.effective = .failed →
        ((r.effective = .divertL ∨ r.effective = .divertR ∨ r.effective = .slow) → r.availOf .shut ≠ .failed →
          r.resolved = .shut) ∧
        ((r.effective = .shut ∨ r.effective = .opn ∨ r.availOf .shut = .failed) → r.resolved = .dark)) := by
  have hav : ∀ a, a ≠ .dark → r.availOf a = s.availability h a := fun a ha => hr ▸ s.resolveHead_availOf h c ha
  have hres : r.resolved = resolvedAspect r.effective (s.availability h) := hr ▸ rfl
  rw [hres]
  by_cases hd : r.effective = .dark
  · have hdark : r.availOf .dark = .failed := hr ▸ rfl
    rw [hd]
    simp [hdark, resolvedAspect]
  · rw [hav _ hd, hav .shut (by decide)]
    generalize r.effective = e
    unfold resolvedAspect
    cases e <;> simp +contextual

end Parts

/-- Settles O16: the record that the settled table holds is the one resolution makes, and each clause is of one part of it. -/
theorem resolvedAspects : Obligations.ResolvedAspects := by
  intro s h r hs hh hr
  rw [hs.headRec hh] at hr
  obtain rfl := Option.some.inj hr
  generalize s.cascadeFrom h.lane h.face (s.n - 1 - positionOf s.n h.face h.station) = c
  refine ⟨laneDemand_eq _ _ _, ?_, fun a ha => ?_, fun hm => s.effective_standby h c hm _ _, fun hm => ?_, fun a ha => ?_,
    s.resolveHead_resolved h c _ rfl⟩
  · rw [← s.overrideOf_none h]
    exact Option.map_eq_none_iff
  · obtain ⟨o, ho, rfl⟩ := Option.map_eq_some_iff.1 ha
    obtain ⟨hmem, hhead⟩ := s.overrideOf_some h ho
    exact ⟨o, hmem, hhead, rfl⟩
  · have he : (s.resolveHead h c).effective = effectiveDemand .run (s.resolveHead h c).laneDemand c
        (s.resolveHead h c).override (s.lampTestDemand h) := by rw [← hm]; rfl
    rw [he]
    exact effective_run c _ _ _ _ rfl
  · rw [s.resolveHead_availOf h c ha]
    unfold State.availability
    simp only [Bool.and_eq_true, Bool.or_eq_true, s.headUnavailable_iff, s.faulty_iff]
    refine ⟨fun hd => ?_, fun hn hx => ?_, fun hn h1 h2 => ?_⟩
    · rcases hd with hd | hd
      · exact if_pos hd
      · rw [if_pos hd, ite_self]
    · rw [if_neg hn]
      by_cases h1 : (s.string (stringKey h (stringIndex a 1))).state = .fault
      · simp [h1, hx.1 h1]
      · have h2 : (s.string (stringKey h (stringIndex a 2))).state = .fault := by
          by_contra h2; exact h1 (hx.2 h2)
        simp [h1, h2]
    · rw [if_neg hn, if_neg fun hb => h1 hb.1, if_neg fun hb => hb.elim h1 h2]

end Sys2Proof.Machine
end

