-- ==== Sys2Proof/Proofs/SweepStart.lean ====
section
/-! PROOFS. What a sweep start reads: the merge aspect and the opening start check (O35). -/

namespace Sys2Proof.Machine

section Merge

variable {s : State} {lane : Nat} {d : Face}

theorem State.runsIn_some (l : Nat) : s.runsIn (some l) d = true ↔ l < s.l ∧ (s.lane l).phase = .run d := by
  simp [State.runsIn]

theorem State.runsIn_lower :
    s.runsIn (lowerLane lane) d = true ↔ 0 < lane ∧ lane - 1 < s.l ∧ (s.lane (lane - 1)).phase = .run d := by
  unfold lowerLane
  split
  · rename_i h
    subst h
    simp [State.runsIn]
  · rw [State.runsIn_some]
    exact ⟨fun h => ⟨by omega, h⟩, fun h => h.2⟩

/-- The merge aspect a closing sweep chooses, by the neighbours that run in its direction (R26). -/
theorem State.mergeAspect_eq {c : LaneCfg} (hc : s.laneCfg lane = some c) :
    s.mergeAspect lane d =
      if c.merge = .lower then
        (if s.runsIn (lowerLane lane) d = true then mergeToward d true
        else if s.runsIn (some (lane + 1)) d = true then mergeToward d false else .slow)
      else
        (if s.runsIn (some (lane + 1)) d = true then mergeToward d false
        else if s.runsIn (lowerLane lane) d = true then mergeToward d true else .slow) := by
  unfold State.mergeAspect
  simp only [hc, beq_iff_eq]

end Merge

section Check

variable {s : State} {lane : Nat}

/-- A head is proven SHUT for an opening: it is resolved SHUT, shows SHUT, and one of its SHUT strings is OK (R33). -/
def State.provenShut (s : State) (h : HeadRef) : Prop :=
  s.resolved h = .shut ∧ s.displayed h = some .shut ∧
    ((s.string (stringKey h (stringIndex .shut 1))).state = .ok ∨
      (s.string (stringKey h (stringIndex .shut 2))).state = .ok)

theorem State.anyStationDown_iff :
    s.stationNumbers.any s.stationDown = true ↔
      ∃ k, k < s.n ∧ ((s.station k).state = .lost ∨ (s.station k).state = .cut) := by
  simp [State.stationNumbers, State.stationDown_iff]

theorem State.startCheck_down (h : s.stationNumbers.any s.stationDown = true) :
    s.startCheck lane = some .stationUnavailable := by
  unfold State.startCheck
  rw [if_pos h]

/-- The resolved aspect that the settled head table holds is the one of the present state's chain (R81). -/
theorem State.Settled.resolved_chain (hs : s.Settled) {h : HeadRef} (hl : h.lane < s.l) :
    recHas (fun r => r.resolved == .shut) (s.resolveChain h.lane h.face s.n)[positionOf s.n h.face h.station]? =
      decide (s.resolved h = .shut) := by
  have hr : s.headRec h = (s.resolveChain h.lane h.face s.n)[positionOf s.n h.face h.station]? := by
    unfold State.headRec
    rw [hs.heads, s.resolveTable_chain hl]
  unfold State.resolved
  rw [← hr]
  cases s.headRec h with
  | none => rfl
  | some r => exact beq_eq_decide _ _

/-- With every station up the check passes exactly where every head of the lane is proven SHUT (R33). -/
theorem State.startCheck_up (hs : s.Settled) (hl : lane < s.l) (h : ¬s.stationNumbers.any s.stationDown = true) :
    s.startCheck lane = none ∧ (∀ h, s.hasHead h = true → h.lane = lane → s.provenShut h) ∨
      s.startCheck lane = some .shutNotProven ∧ ∃ h, s.hasHead h = true ∧ h.lane = lane ∧ ¬s.provenShut h := by
  have hchain : ∀ f, (s.stationNumbers.all fun k =>
      recHas (fun r => r.resolved == .shut) (s.resolveChain lane f s.n)[positionOf s.n f k]? &&
        (s.displayed ⟨k, lane, f⟩ == some .shut && s.shutProven ⟨k, lane, f⟩)) = true ↔
      ∀ k, k < s.n → s.provenShut ⟨k, lane, f⟩ := by
    intro f
    simp only [State.stationNumbers, List.all_eq_true, List.mem_range, Bool.and_eq_true, beq_iff_eq, State.shutProven_iff]
    refine forall_congr' fun k => imp_congr_right fun _ => ?_
    have hres := hs.resolved_chain (h := ⟨k, lane, f⟩) hl
    dsimp only at hres
    rw [hres, decide_eq_true_iff]
    exact Iff.rfl
  have hall : (∀ f k, k < s.n → s.provenShut ⟨k, lane, f⟩) ↔ ∀ h, s.hasHead h = true → h.lane = lane → s.provenShut h := by
    refine ⟨fun hp h hh hl => ?_, fun hp f k hk => hp _ ((s.hasHead_iff _).2 ⟨hk, hl⟩) rfl⟩
    obtain ⟨k, l, f⟩ := h
    obtain rfl : l = lane := hl
    exact hp f k ((s.hasHead_iff _).1 hh).1
  unfold State.startCheck
  rw [if_neg h]
  dsimp only
  split
  · rename_i hc
    rw [Bool.and_eq_true, hchain .a, hchain .b] at hc
    exact .inl ⟨rfl, hall.1 fun f => by cases f; exacts [hc.1, hc.2]⟩
  · rename_i hc
    rw [Bool.and_eq_true, hchain .a, hchain .b] at hc
    refine .inr ⟨rfl, ?_⟩
    by_contra hn
    have hp := hall.2 fun h hh hl => by_contra fun hc => hn ⟨h, hh, hl, hc⟩
    exact hc ⟨hp .a, hp .b⟩

end Check

/-- Settles O35: the merge aspect by the neighbours that run in the direction, the start check by its two branches. -/
theorem sweepStartRules : Obligations.SweepStartRules := by
  refine ⟨fun s lane d c _ hc => ?_, fun s lane hs hl => ?_⟩
  · have hlow := State.runsIn_lower (s := s) (lane := lane) (d := d)
    have hhigh := State.runsIn_some (s := s) (d := d) (lane + 1)
    refine ⟨fun hb hm => ?_, fun ha hm => ?_, fun hb ha => ?_⟩
    · have hd : mergeToward d true = if d = .a then .divertL else .divertR := by cases d <;> rfl
      rw [State.mergeAspect_eq hc, ← hd]
      split
      · exact if_pos (hlow.2 hb)
      · rename_i hne
        exact (if_neg fun ha => (hm.resolve_left hne) (hhigh.1 ha)).trans (if_pos (hlow.2 hb))
    · have hd : mergeToward d false = if d = .a then .divertR else .divertL := by cases d <;> rfl
      rw [State.mergeAspect_eq hc, ← hd]
      split
      · rename_i he
        exact (if_neg fun hb => (hm.resolve_left (by rw [he]; decide)) (hlow.1 hb)).trans (if_pos (hhigh.2 ha))
      · exact if_pos (hhigh.2 ha)
    · have hb' : ¬s.runsIn (lowerLane lane) d = true := fun h => hb (hlow.1 h)
      have ha' : ¬s.runsIn (some (lane + 1)) d = true := fun h => ha (hhigh.1 h)
      rw [State.mergeAspect_eq hc, if_neg hb', if_neg ha', if_neg ha', if_neg hb', ite_self]
  · refine ⟨fun hd => State.startCheck_down (State.anyStationDown_iff.2 hd), fun hd hp => ?_, fun hd hp => ?_,
      fun hlegal hc h hh hlane => ?_⟩
    · rcases State.startCheck_up hs hl (fun h => hd (State.anyStationDown_iff.1 h)) with ⟨-, hall⟩ | ⟨h, -⟩
      · obtain ⟨h, hh, hlane, hn⟩ := hp
        exact absurd (hall h hh hlane) hn
      · exact h
    · rcases State.startCheck_up hs hl (fun h => hd (State.anyStationDown_iff.1 h)) with ⟨h, -⟩ | ⟨-, h, hh, hlane, hn⟩
      · exact h
      · exact absurd (hp h hh hlane) hn
    · have hup : ¬s.stationNumbers.any s.stationDown = true := fun hdown => by
        rw [State.startCheck_down hdown] at hc; cases hc
      rcases State.startCheck_up hs hl hup with ⟨-, hall⟩ | ⟨hbar, -⟩
      · have hproved : ∀ i, (s.string (stringKey h (stringIndex .shut i))).state = .ok →
            (s.string (stringKey h (stringIndex .shut i))).proved = true := by
          intro i hi
          have hfit := hlegal.1 (stringKey h (stringIndex .shut i))
          unfold StringRec.fits at hfit
          rw [hi] at hfit
          exact (Bool.and_eq_true_iff.1 hfit).2
        obtain ⟨-, -, hok | hok⟩ := hall h hh hlane
        · exact ⟨1, by omega, by omega, hok, hproved 1 hok⟩
        · exact ⟨2, by omega, by omega, hok, hproved 2 hok⟩
      · rw [hbar] at hc; cases hc

end Sys2Proof.Machine
end

