-- ==== Sys2Proof/Proofs/Scan.lean ====
section
/-! PROOFS. The scan of the changeover queue: what it reads, the walk it makes while the sweep is free, and what that walk
leaves (R56, R57). -/

namespace Sys2Proof.Machine

/-! ### What a scan reads -/

/-- The two states give the scan the same to read, but for the lanes and the queue. -/
structure SameReads (v w : State) : Prop where
  config : w.config = v.config
  stamp : w.stamp = v.stamp
  override : ∀ h, (w.overrideOf h).map (·.aspect) = (v.overrideOf h).map (·.aspect)
  lampTest : ∀ h, w.lampTestDemand h = v.lampTestDemand h
  station : ∀ k, (w.station k).state = (v.station k).state
  condition : ∀ h, (w.proving h).condition = (v.proving h).condition
  string : ∀ key, (w.string key).state = (v.string key).state
  displayed : ∀ h, w.displayed h = v.displayed h

namespace SameReads

variable {v w x : State}

theorem n (h : SameReads v w) : w.n = v.n := by unfold State.n; rw [h.config]
theorem l (h : SameReads v w) : w.l = v.l := by unfold State.l; rw [h.config]
theorem stepMs (h : SameReads v w) : w.stepMs = v.stepMs := by unfold State.stepMs; rw [h.config]

theorem trans (h : SameReads v w) (k : SameReads w x) : SameReads v x :=
  ⟨k.config.trans h.config, k.stamp.trans h.stamp, fun y => (k.override y).trans (h.override y),
    fun y => (k.lampTest y).trans (h.lampTest y), fun y => (k.station y).trans (h.station y),
    fun y => (k.condition y).trans (h.condition y), fun y => (k.string y).trans (h.string y),
    fun y => (k.displayed y).trans (h.displayed y)⟩

theorem symm (h : SameReads v w) : SameReads w v :=
  ⟨h.config.symm, h.stamp.symm, fun y => (h.override y).symm, fun y => (h.lampTest y).symm, fun y => (h.station y).symm,
    fun y => (h.condition y).symm, fun y => (h.string y).symm, fun y => (h.displayed y).symm⟩

/-- With the lanes' states the same, the demands and the availabilities are. -/
theorem sameDemands (h : SameReads v w) (hp : ∀ l, (w.lane l).phase = (v.lane l).phase) : SameDemands v w where
  n := h.n
  l := h.l
  mode := by rw [h.config]
  lane l f pos := by rw [hp]
  override := h.override
  lampTest := h.lampTest
  station := h.station
  condition := h.condition
  fault x i := by unfold State.faulty; rw [h.string]

end SameReads

theorem EngineStep.symm {v w : State} (h : EngineStep v w) : EngineStep w v := by
  unfold EngineStep at h ⊢
  rw [h]

/-- A step of the engine leaves what the scan reads besides the lanes. -/
theorem EngineStep.sameReads {v w : State} (h : EngineStep v w) : SameReads v w := by
  unfold EngineStep at h
  rw [h]
  exact ⟨rfl, rfl, fun _ => rfl, fun _ => rfl, fun _ => rfl, fun _ => rfl, fun _ => rfl, fun _ => rfl⟩

/-- The two states give the scan the same to read, but for the queue and the lanes' timers and outcomes. -/
structure SameSweeps (v w : State) : Prop where
  reads : SameReads v w
  phase : ∀ l, (w.lane l).phase = (v.lane l).phase
  emergency : ∀ l, (w.lane l).emergency = (v.lane l).emergency

namespace SameSweeps

variable {v w x : State}

theorem refl (v : State) : SameSweeps v v := ⟨(EngineStep.refl v).sameReads, fun _ => rfl, fun _ => rfl⟩

theorem trans (h : SameSweeps v w) (k : SameSweeps w x) : SameSweeps v x :=
  ⟨h.reads.trans k.reads, fun l => (k.phase l).trans (h.phase l), fun l => (k.emergency l).trans (h.emergency l)⟩

/-- A task's ending writes a last outcome and raises a kind (R44). -/
theorem endTask (v : State) (t : Task) (o : TaskOutcome) (r : Option Reason) : SameSweeps v (v.endTask t o r) := by
  refine ⟨(endTask_step v t o r).sameReads, State.endTask_phase v t o r, fun l => ?_⟩
  rw [State.endTask_lane]
  split
  · rename_i h; rw [h]
  · rfl

theorem setQueue (v : State) (q : List Task) : SameSweeps v (v.setQueue q) :=
  ⟨(setQueue_step v q).sameReads, fun _ => rfl, fun _ => rfl⟩

theorem laneCfg (h : SameSweeps v w) (l : Nat) : w.laneCfg l = v.laneCfg l := by unfold State.laneCfg; rw [h.reads.config]

theorem mergeAspect (h : SameSweeps v w) (l : Nat) (d : Face) : w.mergeAspect l d = v.mergeAspect l d := by
  have hrun : ∀ m, w.runsIn m d = v.runsIn m d := fun m => by
    unfold State.runsIn; simp only [h.reads.l, h.phase]
  unfold State.mergeAspect
  simp only [h.laneCfg, hrun]

theorem startCheck (h : SameSweeps v w) (l : Nat) : w.startCheck l = v.startCheck l := by
  have hd := h.reads.sameDemands h.phase
  have hdown : w.stationDown = v.stationDown := funext hd.stationDown
  have hnum : w.stationNumbers = v.stationNumbers := by unfold State.stationNumbers; rw [hd.n]
  have hproven : ∀ x, w.shutProven x = v.shutProven x := fun x => by
    unfold State.shutProven; simp only [h.reads.string]
  unfold State.startCheck
  simp only [hdown, hnum, hd.n, hd.resolveChain, h.reads.displayed, hproven]

theorem openBar (h : SameSweeps v w) (t : Task) : w.openBar t = v.openBar t := by
  unfold State.openBar
  rw [h.emergency, h.startCheck]

theorem stepMs (h : SameSweeps v w) : w.stepMs = v.stepMs := h.reads.stepMs

theorem sweepFree (h : SameSweeps v w) : w.sweepFree = v.sweepFree := by
  unfold State.sweepFree State.laneNumbers
  simp only [h.reads.l, h.phase]

theorem sweeps (h : SameSweeps v w) (l : Nat) : w.sweeps l ↔ v.sweeps l := by unfold State.sweeps; rw [h.phase]

end SameSweeps

/-- The record of a lane whose CLOSE starts (R25). -/
theorem State.startClose_eq (v : State) (q : List Task) (t : Task) (d : Face) :
    (v.setQueue q).startClose t d =
      (v.setQueue q).setLane t.lane
        { v.lane t.lane with phase := .closing d 0 (v.mergeAspect t.lane d) t, timer := some v.stepMs } := by
  unfold State.startClose State.putPhase
  rw [(SameSweeps.setQueue v q).mergeAspect]
  rfl

/-- The record of a lane whose OPEN starts (R34). -/
theorem State.startOpen_eq (v : State) (q : List Task) (t : Task) (d : Face) :
    (v.setQueue q).startOpen t d =
      (v.setQueue q).setLane t.lane
        { v.lane t.lane with
          phase := .opening d (v.n - 1) false (some t), timer := some v.stepMs
          emergency := if t.origin = .host then false else (v.lane t.lane).emergency } := rfl

/-! ### Scans of states that differ in flags alone -/

/-- The two states give the scan the same to read, and hold the same lanes and plans. -/
structure SameLanes (v w : State) : Prop where
  reads : SameReads v w
  lanes : w.engine.lanes = v.engine.lanes
  plans : w.engine.plans = v.engine.plans

namespace SameLanes

variable {v w : State}

theorem lane (h : SameLanes v w) (l : Nat) : w.lane l = v.lane l := by unfold State.lane; rw [h.lanes]

theorem sameSweeps (h : SameLanes v w) : SameSweeps v w :=
  ⟨h.reads, fun l => by rw [h.lane], fun l => by rw [h.lane]⟩

theorem setQueue (h : SameLanes v w) (q : List Task) : (w.setQueue q).engine = (v.setQueue q).engine := by
  show { w.engine with queue := q } = { v.engine with queue := q }
  rw [show w.engine = { v.engine with queue := w.engine.queue } from by
    cases hw : w.engine; cases hv : v.engine
    have := h.lanes; have := h.plans
    simp_all]

theorem endTask (h : SameLanes v w) (t : Task) (o : TaskOutcome) (r : Option Reason) :
    SameLanes (v.endTask t o r) (w.endTask t o r) := by
  refine ⟨((endTask_step v t o r).sameReads.symm.trans h.reads).trans (endTask_step w t o r).sameReads, ?_, h.plans⟩
  show Tab.set _ w.engine.lanes t.lane { w.lane t.lane with last := some ⟨t.kind, t.origin, t.plan, o, r, w.stamp⟩ } =
    Tab.set _ v.engine.lanes t.lane { v.lane t.lane with last := some ⟨t.kind, t.origin, t.plan, o, r, v.stamp⟩ }
  rw [h.lanes, h.lane, h.reads.stamp]

/-- Writing the same record to the same queue. -/
theorem setLane_setQueue (h : SameLanes v w) (q : List Task) (l : Nat) (r : LaneRec) :
    ((w.setQueue q).setLane l r).engine = ((v.setQueue q).setLane l r).engine :=
  congrArg (fun e : Engine => { e with lanes := Tab.set LaneRec.reset e.lanes l r }) (h.setQueue q)

/-- The walk of the scan reads nothing of the flags, and nothing of the queue but the tasks it is given. -/
theorem scanQueue (h : SameLanes v w) (kept rest : List Task) :
    (w.scanQueue kept rest).engine = (v.scanQueue kept rest).engine := by
  induction rest generalizing v w kept with
  | nil => exact h.setQueue kept
  | cons t rest ih =>
    have hs := h.sameSweeps
    have hclose : ∀ d, ((w.setQueue (kept ++ rest)).startClose t d).engine =
        ((v.setQueue (kept ++ rest)).startClose t d).engine := fun d => by
      rw [State.startClose_eq, State.startClose_eq, hs.mergeAspect, h.lane, hs.stepMs]
      exact h.setLane_setQueue _ _ _
    have hopen : ∀ d, ((w.setQueue (kept ++ rest)).startOpen t d).engine =
        ((v.setQueue (kept ++ rest)).startOpen t d).engine := fun d => by
      rw [State.startOpen_eq, State.startOpen_eq, h.reads.n, h.lane, hs.stepMs]
      exact h.setLane_setQueue _ _ _
    unfold State.scanQueue
    rw [hs.phase, hs.openBar]
    split
    · exact ih h _
    · split
      · exact hclose _
      · exact ih (h.endTask t _ _) _
      · exact ih (h.endTask t _ _) _
      · split
        · exact ih (h.endTask t _ _) _
        · exact hopen _
      all_goals exact ih h _

theorem scan (h : SameLanes v w) (hq : w.engine.queue = v.engine.queue) : w.scan.engine = v.scan.engine := by
  unfold State.scan
  rw [h.sameSweeps.sweepFree, hq]
  split
  · exact h.scanQueue _ _
  · have he := h.setQueue v.engine.queue
    rw [← hq] at he
    exact he.trans (by rw [hq]; rfl)

end SameLanes

/-! ### The walk of the scan -/

/-- A task's lane is in CLEARANCE: the scan passes the task, and it keeps its place (R57). -/
def State.clearing (s : State) (t : Task) : Prop := ∃ d c w u, (s.lane t.lane).phase = .clearance d c w u

/-- The endings of a scan: a stale task is CANCELLED, a barred OPEN is FAILED (R34, R57). -/
def scanEnding (o : TaskOutcome) (why : Option Reason) : Prop :=
  (o = .cancelled ∧ why = none) ∨ (o = .failed ∧ ∃ r, why = some r)

/-- The walk of the scan from a state, with the tasks passed so far and those to come, to the state it leaves. -/
inductive ScanWalk : State → List Task → List Task → State → Prop
  | done (v : State) (kept : List Task) : ScanWalk v kept [] (v.setQueue kept)
  | stays {v r : State} {kept rest : List Task} {t : Task} (hc : v.clearing t) (h : ScanWalk v (kept ++ [t]) rest r) :
      ScanWalk v kept (t :: rest) r
  | ends {v r : State} {kept rest : List Task} {t : Task} {o : TaskOutcome} {why : Option Reason} (he : scanEnding o why)
      (h : ScanWalk (v.endTask t o why) kept rest r) : ScanWalk v kept (t :: rest) r
  | closes {v : State} {kept rest : List Task} {t : Task} {d : Face} (hp : (v.lane t.lane).phase = .run d)
      (hk : t.kind = .close) : ScanWalk v kept (t :: rest) ((v.setQueue (kept ++ rest)).startClose t d)
  | opens {v : State} {kept rest : List Task} {t : Task} {d : Face} (hp : (v.lane t.lane).phase = .shut)
      (hk : t.kind = .opn d) (hb : v.openBar t = none) :
      ScanWalk v kept (t :: rest) ((v.setQueue (kept ++ rest)).startOpen t d)

theorem State.clearing_endTask {v : State} {t u : Task} {o : TaskOutcome} {r : Option Reason} :
    (v.endTask t o r).clearing u ↔ v.clearing u := by unfold State.clearing; rw [State.endTask_phase]

/-- With the sweep free, and only tasks of lanes in CLEARANCE passed, the scan makes such a walk. -/
theorem scanQueue_walk {v : State} {kept : List Task} (rest : List Task) (hfree : ∀ m, ¬v.sweeps m)
    (hk : ∀ t ∈ kept, v.clearing t) : ScanWalk v kept rest (v.scanQueue kept rest) := by
  induction rest generalizing v kept with
  | nil => exact .done v kept
  | cons t rest ih =>
    have hstays : v.clearing t → ScanWalk v kept (t :: rest) (v.scanQueue (kept ++ [t]) rest) := fun hc => by
      refine .stays hc (ih hfree fun u hu => ?_)
      rcases List.mem_append.1 hu with hu | hu
      · exact hk u hu
      · exact List.mem_singleton.1 hu ▸ hc
    have hends : ∀ {o why}, scanEnding o why → ScanWalk v kept (t :: rest) ((v.endTask t o why).scanQueue kept rest) :=
      fun he => .ends he (ih (fun m hs => hfree m (((SameSweeps.endTask v t _ _).sweeps m).1 hs))
        fun u hu => State.clearing_endTask.2 (hk u hu))
    have hsweep : (v.lane t.lane).phase.sweeping ≠ true := hfree t.lane
    unfold State.scanQueue
    split
    · rename_i hany
      obtain ⟨u, hu, hl⟩ := List.any_eq_true.1 hany
      have hc := hk u hu
      unfold State.clearing at hc
      rw [beq_iff_eq.1 hl] at hc
      exact hstays hc
    · split
      · rename_i hp hkind; exact .closes hp hkind
      · exact hends (.inl ⟨rfl, rfl⟩)
      · exact hends (.inl ⟨rfl, rfl⟩)
      · rename_i hp hkind
        split
        · exact hends (.inr ⟨rfl, _, rfl⟩)
        · rename_i hb; exact .opens hp hkind hb
      · rename_i hp; rw [hp] at hsweep; exact absurd rfl hsweep
      · rename_i hp; exact hstays ⟨_, _, _, _, hp⟩
      · rename_i hp; rw [hp] at hsweep; exact absurd rfl hsweep

/-- The scan of a lawful state makes a walk over the queue, or finds the sweep held. -/
theorem scan_walk {v : State} (hl : v.LanesLegal) (hf : v.sweepFree = true) : ScanWalk v [] v.engine.queue v.scan := by
  unfold State.scan
  rw [if_pos hf]
  exact scanQueue_walk _ ((State.Lawful.sweepFree_iff hl).1 hf) fun _ h => by cases h

/-- A lane took the sweep in a walk from `v` that ended in `r`: it was in RUN and its CLOSE started, or it was SHUT and its
OPEN passed its checks and started (R25, R34). -/
def StartsIn (v r : State) (t : Task) : Prop :=
  (r.lane t.lane).timer = some v.stepMs ∧
    ((∃ d, (v.lane t.lane).phase = .run d ∧ t.kind = .close ∧
        (r.lane t.lane).phase = .closing d 0 (v.mergeAspect t.lane d) t) ∨
      ∃ d, (v.lane t.lane).phase = .shut ∧ t.kind = .opn d ∧ v.startCheck t.lane = none ∧
        ((v.lane t.lane).emergency = true → t.origin = .host) ∧ (r.lane t.lane).emergency = false ∧
        (r.lane t.lane).phase = .opening d (v.n - 1) false (some t))

theorem SameSweeps.startsIn {v w r : State} {t : Task} (h : SameSweeps v w) (hs : StartsIn w r t) : StartsIn v r t := by
  unfold StartsIn at hs ⊢
  simpa only [h.stepMs, h.phase, h.mergeAspect, h.startCheck, h.emergency, h.reads.n] using hs

/-- The record read back from a lane that has just taken the sweep. -/
theorem State.setLane_sweeping {v : State} {l : Nat} {r : LaneRec} (h : r.phase ≠ .shut) : (v.setLane l r).lane l = r :=
  Tab.get_set_self _ _ (by rintro rfl; exact h rfl)

theorem openBar_none {v : State} {t : Task} (h : v.openBar t = none) :
    v.startCheck t.lane = none ∧ ((v.lane t.lane).emergency = true → t.origin = .host) := by
  unfold State.openBar at h
  split at h
  · cases h
  · rename_i hc
    exact ⟨h, fun he => by_contra fun ho => hc ⟨he, ho⟩⟩

namespace ScanWalk

variable {v r : State} {kept rest : List Task}

/-- The walk raises TASK_UNSUCCESSFUL alone (R44). -/
theorem raises (h : ScanWalk v kept rest r) : Raises v r [.taskUnsuccessful] := by
  have hsame : ∀ (v : State) (l : Nat) (x : LaneRec) (q : List Task), Raises v ((v.setQueue q).setLane l x) [.taskUnsuccessful] :=
    fun _ _ _ _ => .of_same rfl rfl rfl
  induction h with
  | done v kept => exact .of_same rfl rfl rfl
  | stays _ _ ih => exact ih
  | @ends v r kept rest t o why he _ ih =>
    refine Raises.trans ?_ ih
    have hout : Raises v (v.writeOutcome t.lane ⟨t.kind, t.origin, t.plan, o, why, v.stamp⟩) [.taskUnsuccessful] :=
      .of_same rfl rfl rfl
    have hne : o ≠ .done := by rcases he with ⟨rfl, -⟩ | ⟨rfl, -⟩ <;> decide
    have hend : v.endTask t o why =
        (v.writeOutcome t.lane ⟨t.kind, t.origin, t.plan, o, why, v.stamp⟩).raise .taskUnsuccessful := by
      unfold State.endTask
      rw [if_neg hne]
    rw [hend]
    exact hout.trans (.raise _ (by simp))
  | @closes v kept rest t d hp hk => rw [State.startClose_eq]; exact hsame _ _ _ _
  | @opens v kept rest t d hp hk hb => rw [State.startOpen_eq]; exact hsame _ _ _ _

/-- A lane without a task to come is left alone. -/
theorem lane_other (h : ScanWalk v kept rest r) {l : Nat} (hl : ∀ t ∈ rest, t.lane ≠ l) : r.lane l = v.lane l := by
  induction h with
  | done v kept => rfl
  | stays _ _ ih => exact ih fun t ht => hl t (List.mem_cons_of_mem _ ht)
  | @ends v r kept rest t o why he _ ih =>
    rw [ih fun t ht => hl t (List.mem_cons_of_mem _ ht), State.endTask_lane,
      if_neg (hl t (List.mem_cons_self ..)).symm]
  | @closes v kept rest t d hp hk =>
    rw [State.startClose_eq]
    exact State.setLane_lane_ne _ _ (hl t (List.mem_cons_self ..)).symm
  | @opens v kept rest t d hp hk hb =>
    rw [State.startOpen_eq]
    exact State.setLane_lane_ne _ _ (hl t (List.mem_cons_self ..)).symm

theorem plans (h : ScanWalk v kept rest r) : r.engine.plans = v.engine.plans := by
  induction h with
  | ends _ _ ih => exact ih
  | stays _ _ ih => exact ih
  | _ => rfl

/-- The tasks that stay keep their order. -/
theorem sublist (h : ScanWalk v kept rest r) : r.engine.queue.Sublist (kept ++ rest) := by
  induction h with
  | done v kept => rw [List.append_nil]; exact .refl _
  | @stays v r kept rest t _ _ ih => rwa [List.append_assoc] at ih
  | ends _ _ ih => exact ih.trans (List.Sublist.append (.refl _) (List.sublist_cons_self ..))
  | closes => exact List.Sublist.append (.refl _) (List.sublist_cons_self ..)
  | opens => exact List.Sublist.append (.refl _) (List.sublist_cons_self ..)

/-- Where no task starts, every task that stays is of a lane in CLEARANCE; where one starts, it takes the sweep (R23, R25, R34,
R57). -/
theorem started (h : ScanWalk v kept rest r) (hk : ∀ t ∈ kept, v.clearing t) :
    ((∀ l, (r.lane l).phase = (v.lane l).phase) ∧ ∀ t ∈ r.engine.queue, v.clearing t) ∨
      ∃ t ∈ rest, (∀ l, l ≠ t.lane → (r.lane l).phase = (v.lane l).phase) ∧ StartsIn v r t := by
  induction h with
  | done v kept => exact .inl ⟨fun _ => rfl, hk⟩
  | @stays v r kept rest t hc _ ih =>
    refine (ih fun u hu => ?_).imp id fun ⟨u, hu, h⟩ => ⟨u, List.mem_cons_of_mem _ hu, h⟩
    rcases List.mem_append.1 hu with hu | hu
    · exact hk u hu
    · exact List.mem_singleton.1 hu ▸ hc
  | @ends v r kept rest t o why he _ ih =>
    have hs := SameSweeps.endTask v t o why
    rcases ih fun u hu => State.clearing_endTask.2 (hk u hu) with ⟨hp, hq⟩ | ⟨u, hu, hp, hst⟩
    · exact .inl ⟨fun l => (hp l).trans (hs.phase l), fun u hu => State.clearing_endTask.1 (hq u hu)⟩
    · exact .inr ⟨u, List.mem_cons_of_mem _ hu, fun l hl => (hp l hl).trans (hs.phase l), hs.startsIn hst⟩
  | @closes v kept rest t d hp hkind =>
    rw [State.startClose_eq]
    refine .inr ⟨t, List.mem_cons_self .., fun l hl => by rw [State.setLane_lane_ne _ _ hl]; rfl, ?_⟩
    unfold StartsIn
    rw [State.setLane_sweeping (by simp)]
    exact ⟨rfl, .inl ⟨d, hp, hkind, rfl⟩⟩
  | @opens v kept rest t d hp hkind hb =>
    rw [State.startOpen_eq]
    obtain ⟨hcheck, hem⟩ := openBar_none hb
    refine .inr ⟨t, List.mem_cons_self .., fun l hl => by rw [State.setLane_lane_ne _ _ hl]; rfl, ?_⟩
    unfold StartsIn
    rw [State.setLane_sweeping (by simp)]
    refine ⟨rfl, .inr ⟨d, hp, hkind, hcheck, hem, ?_, rfl⟩⟩
    dsimp only
    split
    · rfl
    · rename_i ho
      exact Bool.eq_false_iff.2 fun he => ho (hem he)

/-- Every task that leaves the queue without starting raises TASK_UNSUCCESSFUL once (R44). -/
theorem counts (h : ScanWalk v kept rest r) (hfree : ∀ m, ¬v.sweeps m) (hl : ∀ t ∈ rest, t.lane < v.l) :
    ∃ n, v.RaisedTimes r .taskUnsuccessful n ∧
      r.engine.queue.length + n + (if r.sweepFree = true then 0 else 1) = kept.length + rest.length := by
  have hheld : ∀ (v : State) (q : List Task) (x : LaneRec) (l : Nat), l < v.l → x.phase.sweeping = true →
      ((v.setQueue q).setLane l x).sweepFree = false := by
    intro v q x l hl hx
    unfold State.sweepFree
    rw [List.all_eq_false]
    refine ⟨l, List.mem_range.2 hl, ?_⟩
    rw [State.setLane_sweeping (by rintro h; rw [h] at hx; cases hx), hx]
    simp
  induction h with
  | done v kept =>
    refine ⟨0, .of_attn rfl, ?_⟩
    have hf : (v.setQueue kept).sweepFree = true := by
      unfold State.sweepFree
      rw [List.all_eq_true]
      exact fun l _ => by simpa [State.sweeps] using hfree l
    rw [if_pos hf]
    simp
  | @stays v r kept rest t hc _ ih =>
    obtain ⟨n, hn, hlen⟩ := ih hfree fun u hu => hl u (List.mem_cons_of_mem _ hu)
    refine ⟨n, hn, ?_⟩
    simp only [List.length_append, List.length_cons, List.length_nil] at hlen ⊢
    omega
  | @ends v r kept rest t o why he _ ih =>
    have hs := SameSweeps.endTask v t o why
    obtain ⟨n, hn, hlen⟩ := ih (fun m hm => hfree m ((hs.sweeps m).1 hm))
      fun u hu => hs.reads.l ▸ hl u (List.mem_cons_of_mem _ hu)
    have hone := endTask_raisedTimes v t o why
    have hne : o ≠ .done := by rcases he with ⟨rfl, -⟩ | ⟨rfl, -⟩ <;> decide
    rw [if_neg hne] at hone
    refine ⟨1 + n, hone.trans hn, ?_⟩
    rw [List.length_cons]
    omega
  | @closes v kept rest t d hp hk =>
    rw [State.startClose_eq]
    refine ⟨0, .of_attn rfl, ?_⟩
    rw [hheld _ _ _ _ (hl t (List.mem_cons_self ..)) rfl, if_neg Bool.false_ne_true]
    simp [Nat.add_assoc]
  | @opens v kept rest t d hp hk hb =>
    rw [State.startOpen_eq]
    refine ⟨0, .of_attn rfl, ?_⟩
    rw [hheld _ _ _ _ (hl t (List.mem_cons_self ..)) rfl, if_neg Bool.false_ne_true]
    simp [Nat.add_assoc]

/-- A lane's last outcome stays, or is that of one of its tasks that the walk has ended (R44). -/
theorem lasts (h : ScanWalk v kept rest r) (l : Nat) :
    (r.lane l).last = (v.lane l).last ∨
      ∃ t ∈ rest, t.lane = l ∧ ((r.lane l).last = some (v.outcomeOf t .cancelled none) ∨
        ∃ why, (r.lane l).last = some (v.outcomeOf t .failed (some why))) := by
  have hset : ∀ (v : State) (q : List Task) (m : Nat) (x : LaneRec), x.phase ≠ .shut → x.last = (v.lane m).last →
      (((v.setQueue q).setLane m x).lane l).last = (v.lane l).last := by
    intro v q m x hx hlast
    by_cases hl : l = m
    · subst hl; rw [State.setLane_sweeping hx, hlast]
    · rw [State.setLane_lane_ne _ _ hl]; rfl
  induction h with
  | done v kept => exact .inl rfl
  | stays _ _ ih => exact ih.imp id fun ⟨t, ht, h⟩ => ⟨t, List.mem_cons_of_mem _ ht, h⟩
  | @ends v r kept rest t o why he _ ih =>
    have hout : ∀ u a b, (v.endTask t o why).outcomeOf u a b = v.outcomeOf u a b := fun _ _ _ => rfl
    simp only [hout] at ih
    rcases ih with hlast | ⟨u, hu, h⟩
    · rw [State.endTask_lane] at hlast
      split at hlast
      · rename_i hlane
        refine .inr ⟨t, List.mem_cons_self .., hlane.symm, ?_⟩
        rcases he with ⟨rfl, rfl⟩ | ⟨rfl, x, rfl⟩
        · exact .inl hlast
        · exact .inr ⟨x, hlast⟩
      · exact .inl hlast
    · exact .inr ⟨u, List.mem_cons_of_mem _ hu, h⟩
  | @closes v kept rest t d hp hk => rw [State.startClose_eq]; exact .inl (hset _ _ _ _ (by simp) rfl)
  | @opens v kept rest t d hp hk hb => rw [State.startOpen_eq]; exact .inl (hset _ _ _ _ (by simp) rfl)

end ScanWalk

end Sys2Proof.Machine
end

