-- ==== Sys2Proof/Proofs/ScanRule.lean ====
section
/-! PROOFS. What the scan takes and what becomes of it: obligation O36 (R57). -/

namespace Sys2Proof.Machine

/-- What was raised stays raised. -/
theorem Raises.keepsAtLeast {s v r : State} {kinds : List AttnKind} {k : AttnKind} {n : Nat} (h : Raises v r kinds)
    (hv : s.RaisedAtLeast v k n) : s.RaisedAtLeast r k n :=
  ⟨fun hn => h.latched k (hv.1 hn), fun hn hr => h.rep k (hv.2 hn hr)⟩

/-- The scan passes the tasks of lanes in CLEARANCE, which keep their places (R57). -/
theorem scanQueue_passes {v : State} {older : List Task} (kept rest : List Task) (h : ∀ t ∈ older, v.clearing t) :
    v.scanQueue kept (older ++ rest) = v.scanQueue (kept ++ older) rest := by
  induction older generalizing kept with
  | nil => rw [List.append_nil, List.nil_append]
  | cons t older ih =>
    obtain ⟨d, c, w, u, hp⟩ := h t (List.mem_cons_self ..)
    have hstep : v.scanQueue kept (t :: (older ++ rest)) = v.scanQueue (kept ++ [t]) (older ++ rest) := by
      rw [State.scanQueue]
      split
      · rfl
      · simp only [hp]
    rw [List.cons_append, hstep, ih _ fun x hx => h x (List.mem_cons_of_mem _ hx), List.append_assoc]
    rfl

theorem State.clearing_not {v : State} {older : List Task} {u : Task} (h : ∀ t ∈ older, v.clearing t)
    (hu : ¬v.clearing u) : (older.any fun t => t.lane == u.lane) = false := by
  rw [List.any_eq_false]
  intro t ht he
  have := h t ht
  unfold State.clearing at this hu
  rw [beq_iff_eq.1 he] at this
  exact hu this

section Taken

variable {s : State} {older newer : List Task} {u : Task}

/-- The scan takes the oldest task of a lane that is not in CLEARANCE (R57). -/
theorem scan_takes (hf : s.sweepFree = true) (hq : s.engine.queue = older ++ u :: newer)
    (ho : ∀ t ∈ older, s.clearing t) : s.scan = s.scanQueue older (u :: newer) := by
  unfold State.scan
  rw [if_pos hf, hq, scanQueue_passes _ _ ho, List.nil_append]

theorem scan_closes (hf : s.sweepFree = true) (hq : s.engine.queue = older ++ u :: newer)
    (ho : ∀ t ∈ older, s.clearing t) {d : Face} (hp : (s.lane u.lane).phase = .run d) (hk : u.kind = .close) :
    s.scan = (s.setQueue (older ++ newer)).setLane u.lane
      { s.lane u.lane with phase := .closing d 0 (s.mergeAspect u.lane d) u, timer := some s.stepMs } := by
  rw [scan_takes hf hq ho, State.scanQueue, State.clearing_not ho (by simp [State.clearing, hp]), if_neg Bool.false_ne_true]
  simp only [hp, hk]
  exact State.startClose_eq s _ u d

theorem scan_opens (hf : s.sweepFree = true) (hq : s.engine.queue = older ++ u :: newer)
    (ho : ∀ t ∈ older, s.clearing t) (hp : (s.lane u.lane).phase = .shut) {d : Face} (hk : u.kind = .opn d)
    (he : (s.lane u.lane).emergency = false ∨ u.origin = .host) (hc : s.startCheck u.lane = none) :
    s.scan = (s.setQueue (older ++ newer)).setLane u.lane
      { s.lane u.lane with
        phase := .opening d (s.n - 1) false (some u), timer := some s.stepMs, emergency := false } := by
  have hbar : s.openBar u = none := by
    unfold State.openBar
    rw [if_neg fun h => he.elim (fun hf => by rw [hf] at h; exact absurd h.1 Bool.false_ne_true) h.2]
    exact hc
  have hem : (if u.origin = .host then false else (s.lane u.lane).emergency) = false := by
    split
    · rfl
    · rename_i h; exact he.resolve_right h
  rw [scan_takes hf hq ho, State.scanQueue, State.clearing_not ho (by simp [State.clearing, hp]), if_neg Bool.false_ne_true]
  simp only [hp, hk, hbar]
  rw [State.startOpen_eq, hem]

/-- An ending of the scan's first task: its last outcome, TASK_UNSUCCESSFUL, and the scan of the rest (R44, R57). -/
theorem scan_ends (hl : s.LanesLegal) (hf : s.sweepFree = true) (ho : ∀ t ∈ older, s.clearing t) {o : TaskOutcome}
    {why : Option Reason} (hs : s.scan = (s.endTask u o why).scanQueue older newer) (hne : o ≠ .done) :
    s.scan.engine =
        (((s.setQueue (older ++ newer)).setLane u.lane { s.lane u.lane with last := some (s.outcomeOf u o why) }).scan).engine ∧
      s.RaisedAtLeast s.scan .taskUnsuccessful 1 := by
  have hsweeps := SameSweeps.endTask s u o why
  have hfree : ∀ m, ¬(s.endTask u o why).sweeps m := fun m hm =>
    (State.Lawful.sweepFree_iff hl).1 hf m ((hsweeps.sweeps m).1 hm)
  have hclear : ∀ t ∈ older, (s.endTask u o why).clearing t := fun t ht => State.clearing_endTask.2 (ho t ht)
  have hsame : SameLanes (s.endTask u o why)
      ((s.setQueue (older ++ newer)).setLane u.lane { s.lane u.lane with last := some (s.outcomeOf u o why) }) :=
    ⟨hsweeps.reads.symm.trans ((setQueue_step s _).trans (setLane_step _ _ _)).sameReads, rfl, rfl⟩
  constructor
  · rw [hs, ← hsame.scanQueue]
    have hsf := (hsame.sameSweeps.sweepFree.trans hsweeps.sweepFree).trans hf
    unfold State.scan
    rw [if_pos hsf]
    refine congrArg State.engine (Eq.symm ?_)
    refine scanQueue_passes (older := older) [] newer fun t ht => ?_
    obtain ⟨d, c, w, x, hp⟩ := hclear t ht
    exact ⟨d, c, w, x, (hsame.sameSweeps.phase _).trans hp⟩
  · rw [hs]
    have hone := endTask_raisedTimes s u o why
    rw [if_neg hne] at hone
    exact (scanQueue_walk newer hfree hclear).raises.keepsAtLeast (hone.atLeast (le_refl 1))

end Taken

/-- Settles O36, from the walk of the scan and what it does with the first task of a lane in RUN or SHUT. -/
theorem scanRule : Obligations.ScanRule := by
  unfold Obligations.ScanRule
  refine fun s => ⟨fun hf => by unfold State.scan; rw [hf]; rfl, fun hl _ hf => ⟨fun hall => ?_, ?_⟩, fun hl _ hf => ?_⟩
  · have hpass := scanQueue_passes (v := s) [] [] hall
    rw [List.append_nil] at hpass
    unfold State.scan
    rw [if_pos hf, hpass]
    rfl
  · intro older u newer hq ho
    have htake := scan_takes hf hq ho
    refine ⟨fun d hp => ⟨scan_closes hf hq ho hp, fun hk => ?_⟩, fun hp => ⟨fun hk => ?_, fun d hk => ⟨fun he hor => ?_, fun he => ⟨fun why hc => ?_, scan_opens hf hq ho hp hk he⟩⟩⟩⟩
    · refine scan_ends hl hf ho ?_ (by decide)
      obtain ⟨x, hx⟩ : ∃ x, u.kind = .opn x := by
        cases hk' : u.kind with
        | close => rw [hk'] at hk; cases hk
        | opn x => exact ⟨x, rfl⟩
      rw [htake, State.scanQueue, State.clearing_not ho (by simp [State.clearing, hp]), if_neg Bool.false_ne_true]
      simp only [hp, hx]
    · refine scan_ends hl hf ho ?_ (by decide)
      rw [htake, State.scanQueue, State.clearing_not ho (by simp [State.clearing, hp]), if_neg Bool.false_ne_true]
      simp only [hp, hk]
    · refine scan_ends hl hf ho ?_ (by decide)
      have hbar : s.openBar u = some .emergencyHold := if_pos ⟨he, hor⟩
      rw [htake, State.scanQueue, State.clearing_not ho (by simp [State.clearing, hp]), if_neg Bool.false_ne_true]
      simp only [hp, hk, hbar]
    · refine scan_ends hl hf ho ?_ (by decide)
      have hbar : s.openBar u = some why := by
        unfold State.openBar
        rw [if_neg fun h => he.elim (fun hf => by rw [hf] at h; exact absurd h.1 Bool.false_ne_true) h.2]
        exact hc
      rw [htake, State.scanQueue, State.clearing_not ho (by simp [State.clearing, hp]), if_neg Bool.false_ne_true]
      simp only [hp, hk, hbar]
  · have hwalk := scan_walk hl hf
    have hfree := (State.Lawful.sweepFree_iff hl).1 hf
    obtain ⟨n, hn, hlen⟩ := hwalk.counts hfree hl.queued
    have hstart := hwalk.started fun t h => by cases h
    refine ⟨hwalk.sublist, ?_, fun k hk => hwalk.raises.others k (by simpa using hk), ?_, fun hafter l u rest hfil => ?_, hwalk.lasts⟩
    · convert hn using 1
      rw [List.length_nil] at hlen
      omega
    · exact hstart.imp (·.1) id
    · have hmem : u ∈ s.scan.engine.queue ∧ u.lane = l := by
        have hu : u ∈ s.scan.engine.queue.filter fun t => t.lane == l := by rw [hfil]; exact List.mem_cons_self ..
        simpa using hu
      rcases hstart with ⟨-, hclear⟩ | ⟨t, ht, -, -, hsweep⟩
      · have hc := hclear u hmem.1
        unfold State.clearing at hc
        rwa [hmem.2] at hc
      · have hall := List.all_eq_true.1 hafter t.lane (List.mem_range.2 ((scan_step s).l.symm ▸ hl.queued t ht))
        rcases hsweep with ⟨d, -, -, hp⟩ | ⟨d, -, -, -, -, -, hp⟩
        · rw [hp] at hall; cases hall
        · rw [hp] at hall; cases hall

end Sys2Proof.Machine
end

