-- ==== Sys2Proof/Proofs/EngineMoves.lean ====
section
/-! PROOFS. An event of the Changeover Engine fails no fresh opening: what it opens, it opens where SHUT can be shown (R33,
R36). -/

namespace Sys2Proof.Machine

/-! ### SHUT can be shown on every head of a lane -/

/-- No head of the lane has its SHUT availability FAILED. -/
def State.shutShown (s : State) (l : Nat) : Prop :=
  ∀ h : HeadRef, h.station < s.n → h.lane = l → s.availability h .shut ≠ .failed

theorem EngineStep.availability {s u : State} (h : EngineStep s u) (x : HeadRef) (a : Aspect) :
    u.availability x a = s.availability x a := by
  rw [h]
  rfl

theorem EngineStep.shutShown {s u : State} (h : EngineStep s u) {l : Nat} (hs : u.shutShown l) : s.shutShown l :=
  fun x hx hl => h.availability x .shut ▸ hs x (h.n.symm ▸ hx) hl

/-- An aspect resolves to SHUT, or is not DARK, only where SHUT can be shown (R74). -/
theorem resolvedAspect_shut {e : Aspect} {av : Aspect → Avail} (h : resolvedAspect e av = .shut) : av .shut ≠ .failed := by
  unfold resolvedAspect at h
  split at h
  · subst h; assumption
  · split at h
    any_goals cases h
    all_goals split at h
    any_goals cases h
    all_goals assumption

theorem resolvedAspect_dark {e : Aspect} {av : Aspect → Avail} (he : e ≠ .opn) (hd : e ≠ .dark)
    (h : resolvedAspect e av = .dark) : av .shut = .failed := by
  unfold resolvedAspect at h
  cases e <;> simp_all [ite_eq_iff]

theorem resolvedAspect_shut_failed {av : Aspect → Avail} (h : av .shut = .failed) : resolvedAspect .shut av = .dark := by
  unfold resolvedAspect
  simp [h]

/-- A lane that passes the opening start check can show SHUT on every head (R33). -/
theorem State.shutShown_of_startCheck {s : State} {l : Nat} (h : s.startCheck l = none) : s.shutShown l := by
  unfold State.startCheck at h
  split at h
  · cases h
  · dsimp only at h
    split at h
    · rename_i hall
      intro x hx hl
      have hchain : recHas (fun r => r.resolved == .shut)
          (s.resolveChain l x.face s.n)[positionOf s.n x.face x.station]? = true := by
        rw [Bool.and_eq_true, List.all_eq_true, List.all_eq_true] at hall
        have hk : x.station ∈ s.stationNumbers := List.mem_range.2 hx
        cases hf : x.face
        · exact (Bool.and_eq_true_iff.1 (hall.1 _ hk)).1
        · exact (Bool.and_eq_true_iff.1 (hall.2 _ hk)).1
      have hpos : positionOf s.n x.face x.station < s.n := stationAt_lt _ hx
      have hback : stationAt s.n x.face (s.n - s.n + positionOf s.n x.face x.station) = x.station := by
        rw [Nat.sub_self, Nat.zero_add]
        exact stationAt_stationAt _ hx
      rw [s.resolveChain_getElem _ _ (Nat.le_refl _) hpos, hback, ← hl] at hchain
      exact resolvedAspect_shut (beq_iff_eq.1 hchain)
    · cases h

/-! ### Openings of an event -/

/-- What an event makes of a fresh opening of a lane: it went on toward the entry, or it starts where SHUT can be shown. -/
def SafeOpening (s u : State) (l : Nat) : Prop :=
  (u.lane l).phase.freshOpening = true →
    ((s.lane l).phase.freshOpening = true ∧ ∀ f pos, laneDemand (s.lane l).phase f pos = .shut ∨
      laneDemand (s.lane l).phase f pos = laneDemand (u.lane l).phase f pos) ∨ s.shutShown l

namespace SafeOpening

variable {s v u : State} {l : Nat}

theorem of_phase (h : (u.lane l).phase = (s.lane l).phase) : SafeOpening s u l := fun hf =>
  .inl ⟨h ▸ hf, fun _ _ => .inr (by rw [h])⟩

theorem trans (hstep : EngineStep s v) (h : SafeOpening s v l) (k : SafeOpening v u l) : SafeOpening s u l := by
  intro hf
  rcases k hf with ⟨hv, hd⟩ | hs
  · rcases h hv with ⟨hs, he⟩ | hs
    · refine .inl ⟨hs, fun f pos => ?_⟩
      rcases he f pos with he | he
      · exact .inl he
      · exact (hd f pos).imp he.trans he.trans
    · exact .inr hs
  · exact .inr (hstep.shutShown hs)

end SafeOpening

/-- What the Changeover Engine does in an event: it writes its own state, raises kinds of a list, keeps the table of lanes in
canonical form, and starts fresh openings only where SHUT can be shown. -/
structure EngineMove (s u : State) (kinds : List AttnKind) : Prop where
  step : EngineStep s u
  raises : Raises s u kinds
  table : Tab.wf LaneRec.reset s.engine.lanes = true → Tab.wf LaneRec.reset u.engine.lanes = true
  opens : Tab.wf LaneRec.reset s.engine.lanes = true → ∀ l, SafeOpening s u l

namespace EngineMove

variable {s v u : State} {kinds : List AttnKind}

theorem refl (s : State) : EngineMove s s kinds := ⟨.refl s, .refl s, id, fun _ _ => .of_phase rfl⟩

theorem trans (h : EngineMove s v kinds) (k : EngineMove v u kinds) : EngineMove s u kinds :=
  ⟨h.step.trans k.step, h.raises.trans k.raises, k.table ∘ h.table,
    fun hw l => .trans h.step (h.opens hw l) (k.opens (h.table hw) l)⟩

theorem mono {more : List AttnKind} (h : EngineMove s u kinds) (hm : ∀ k ∈ kinds, k ∈ more) : EngineMove s u more :=
  ⟨h.step, h.raises.mono hm, h.table, h.opens⟩

/-- The queue and the plans are no part of the lane records. -/
theorem of_lanes (hstep : EngineStep s u) (hr : Raises s u kinds) (hl : u.engine.lanes = s.engine.lanes) :
    EngineMove s u kinds :=
  ⟨hstep, hr, fun hw => hl ▸ hw, fun _ _ => .of_phase (by unfold State.lane; rw [hl])⟩

theorem setQueue (s : State) (q : List Task) : EngineMove s (s.setQueue q) kinds :=
  .of_lanes (setQueue_step s q) (.of_same rfl rfl rfl) rfl

theorem raise (s : State) {k : AttnKind} (hk : k ∈ kinds) : EngineMove s (s.raise k) kinds :=
  .of_lanes (raise_step s k) (.raise s hk) rfl

/-- A lane record is written whose opening is safe. -/
theorem setLane {l : Nat} {r : LaneRec}
    (h : r.phase.freshOpening = true → ((s.lane l).phase.freshOpening = true ∧ ∀ f pos,
      laneDemand (s.lane l).phase f pos = .shut ∨ laneDemand (s.lane l).phase f pos = laneDemand r.phase f pos) ∨
        s.shutShown l) : EngineMove s (s.setLane l r) kinds := by
  refine ⟨setLane_step s l r, .of_same rfl rfl rfl, Tab.wf_set, fun hw m => ?_⟩
  unfold SafeOpening
  rw [State.setLane_lane _ _ _ _ hw]
  by_cases hm : m = l
  · subst hm
    rwa [if_pos rfl]
  · rw [if_neg hm]
    exact fun hf => .inl ⟨hf, fun _ _ => .inr rfl⟩

/-- A lane record is written that is no fresh opening. -/
theorem setLane_stale {l : Nat} {r : LaneRec} (h : r.phase.freshOpening = false) : EngineMove s (s.setLane l r) kinds :=
  setLane fun hf => by rw [h] at hf; cases hf

/-- A lane record is written that keeps the lane's state. -/
theorem setLane_phase {l : Nat} {r : LaneRec} (h : r.phase = (s.lane l).phase) : EngineMove s (s.setLane l r) kinds :=
  setLane fun hf => .inl ⟨h ▸ hf, fun _ _ => .inr (by rw [h])⟩

theorem writeOutcome (s : State) (l : Nat) (o : LastOutcome) : EngineMove s (s.writeOutcome l o) kinds := setLane_phase rfl

/-- A task ends, DONE or not (R44). -/
theorem endTask (s : State) (t : Task) (o : TaskOutcome) (r : Option Reason)
    (hk : (if o = .done then AttnKind.taskDone else .taskUnsuccessful) ∈ kinds) : EngineMove s (s.endTask t o r) kinds :=
  (writeOutcome s _ _).trans (.raise _ hk)

theorem endOpening (s : State) (l : Nat) (d : Face) (t : Option Task) (o : TaskOutcome) (r : Option Reason) (ho : o ≠ .done)
    (hk : AttnKind.taskUnsuccessful ∈ kinds) : EngineMove s (s.endOpening l d t o r) kinds := by
  cases t with
  | none => exact (writeOutcome s _ _).trans (.raise _ hk)
  | some t => exact endTask s t o r (by rwa [if_neg ho])

theorem removeQueued (s : State) (p : Task → Bool) (o : TaskOutcome) (ho : o ≠ .done)
    (hk : AttnKind.taskUnsuccessful ∈ kinds) : EngineMove s (s.removeQueued p o) kinds := by
  have h : ∀ (ts : List Task) (v : State), EngineMove v (ts.foldl (fun s t => s.endTask t o none) v) kinds := by
    intro ts
    induction ts with
    | nil => exact refl
    | cons t ts ih => exact fun v => (endTask v t o none (by rwa [if_neg ho])).trans (ih _)
  exact (setQueue s _).trans (h _ _)

theorem cancelOpens (s : State) (l : Nat) (hk : AttnKind.taskUnsuccessful ∈ kinds) :
    EngineMove s (s.cancelOpens l) kinds := removeQueued s _ _ (by decide) hk

/-- The scan starts an opening only after its start check (R34, R57). -/
theorem scanQueue (hk : AttnKind.taskUnsuccessful ∈ kinds) (rest kept : List Task) (s : State) :
    EngineMove s (s.scanQueue kept rest) kinds := by
  induction rest generalizing s kept with
  | nil => exact setQueue s kept
  | cons t rest ih =>
    unfold State.scanQueue
    split
    · exact ih _ s
    · split
      · exact (setQueue s _).trans (setLane_stale rfl)
      · exact (endTask s t _ _ (by rwa [if_neg (by decide)])).trans (ih _ _)
      · exact (endTask s t _ _ (by rwa [if_neg (by decide)])).trans (ih _ _)
      · split
        · exact (endTask s t _ _ (by rwa [if_neg (by decide)])).trans (ih _ _)
        · rename_i hb
          have hcheck := (SameSweeps.setQueue s (kept ++ rest)).startCheck t.lane
          exact (setQueue s _).trans
            (setLane fun _ => .inr (State.shutShown_of_startCheck (hcheck.trans (openBar_none hb).1)))
      all_goals exact ih _ s

theorem scan (hk : AttnKind.taskUnsuccessful ∈ kinds) (s : State) : EngineMove s s.scan kinds := by
  unfold State.scan
  split
  · exact scanQueue hk _ _ s
  · exact refl s

end EngineMove

/-! ### No fresh opening fails -/

theorem moreRestrictive_ne_dark {a : Aspect} (h : a ≠ .dark) (b : Aspect) : moreRestrictive a b ≠ .dark := by
  cases a with
  | dark => exact absurd rfl h
  | _ => cases b <;> decide

theorem effectiveDemand_ne_dark {a : Aspect} (h : a ≠ .dark) (c : Bool) (o x : Option Aspect) :
    effectiveDemand .run a c o x ≠ .dark := by
  have hc : (if c = true then moreRestrictive a .shut else a) ≠ .dark := by
    split
    · exact moreRestrictive_ne_dark h _
    · exact h
  cases o with
  | none => exact hc
  | some o => exact moreRestrictive_ne_dark hc o

section NoFailure

variable {s : State} {h : HeadRef} {c : Bool}

theorem State.resolveHead_effective (hm : s.config.mode = .run) :
    (s.resolveHead h c).effective =
      effectiveDemand .run (laneDemand (s.lane h.lane).phase h.face (positionOf s.n h.face h.station)) c
        ((s.overrideOf h).map (·.aspect)) (s.lampTestDemand h) := by rw [← hm]; rfl

theorem State.closureLost_iff :
    (s.resolveHead h c).closureLost = true ↔
      (s.resolveHead h c).effective ≠ .opn ∧ resolvedAspect (s.resolveHead h c).effective (s.availability h) = .dark := by
  show (decide _ && decide _) = true ↔ _
  rw [Bool.and_eq_true, decide_eq_true_iff, decide_eq_true_iff]
  rfl

/-- In RUN a head of a lane that is no closing one is closure-lost only where SHUT cannot be shown. -/
theorem State.shut_failed_of_closureLost (hm : s.config.mode = .run)
    (hd : laneDemand (s.lane h.lane).phase h.face (positionOf s.n h.face h.station) ≠ .dark)
    (hl : (s.resolveHead h c).closureLost = true) : s.availability h .shut = .failed := by
  obtain ⟨hne, hdark⟩ := State.closureLost_iff.1 hl
  exact resolvedAspect_dark hne (by rw [State.resolveHead_effective hm]; exact effectiveDemand_ne_dark hd _ _ _) hdark

/-- In RUN a head with a SHUT demand is closure-lost where SHUT cannot be shown (R76). -/
theorem State.closureLost_of_shut (hm : s.config.mode = .run)
    (hd : c = true ∨ laneDemand (s.lane h.lane).phase h.face (positionOf s.n h.face h.station) = .shut)
    (hf : s.availability h .shut = .failed) : (s.resolveHead h c).closureLost = true := by
  have he : (s.resolveHead h c).effective = .shut := by
    rw [State.resolveHead_effective hm]
    refine (effective_run c _ _ _ _ rfl).1 ?_
    rcases hd with rfl | hd
    · simp
    · rw [hd]; exact List.mem_cons_self ..
  rw [State.closureLost_iff, he]
  exact ⟨by decide, resolvedAspect_shut_failed hf⟩

variable {e : Engine} {l : Nat}

theorem laneDemand_fresh {p : LanePhase} (hp : p.freshOpening = true) (f : Face) (pos : Nat) : laneDemand p f pos ≠ .dark := by
  cases p with
  | opening d front r t =>
    unfold laneDemand
    dsimp only
    split
    · split <;> decide
    · decide
  | _ => cases hp

/-- A head of a lane with a safe opening is closure-lost only if it was (R36, R76). -/
theorem SafeOpening.closureLost (hm : s.config.mode = .run) (hs : SafeOpening s { s with engine := e } h.lane)
    (hfresh : (({ s with engine := e } : State).lane h.lane).phase.freshOpening = true) (hk : h.station < s.n) {b : Bool}
    (hcb : c = true → b = true)
    (hl : (({ s with engine := e } : State).resolveHead h c).closureLost = true) : (s.resolveHead h b).closureLost = true := by
  have hfailed : s.availability h .shut = .failed :=
    State.shut_failed_of_closureLost (s := { s with engine := e }) hm (laneDemand_fresh hfresh _ _) hl
  rcases hs hfresh with ⟨-, hd⟩ | hshown
  · rcases hd h.face (positionOf s.n h.face h.station) with hd | hd
    · exact State.closureLost_of_shut hm (.inr hd) hfailed
    · cases b with
      | true => exact State.closureLost_of_shut hm (.inl rfl) hfailed
      | false =>
        obtain rfl : c = false := Bool.eq_false_iff.2 fun hc => Bool.false_ne_true (hcb hc)
        have hrec : s.resolveHead h false = ({ s with engine := e } : State).resolveHead h false := by
          unfold State.resolveHead
          dsimp only
          rw [hd]
          rfl
        rw [hrec]
        exact hl
  · exact absurd hfailed (hshown h hk rfl)

/-- The cascade demands of a lane with a safe opening are among those it had (R77). -/
theorem SafeOpening.cascadeFrom (hm : s.config.mode = .run) (hs : SafeOpening s { s with engine := e } l)
    (hfresh : (({ s with engine := e } : State).lane l).phase.freshOpening = true) (f : Face) {j : Nat} (hj : j ≤ s.n) :
    ({ s with engine := e } : State).cascadeFrom l f j = true → s.cascadeFrom l f j = true := by
  induction j with
  | zero => exact id
  | succ j ih =>
    have hk : stationAt s.n f (s.n - 1 - j) < s.n := stationAt_lt _ (by omega)
    exact SafeOpening.closureLost (h := ⟨stationAt s.n f (s.n - 1 - j), l, f⟩) hm hs hfresh hk (ih (by omega))

/-- No head of a lane with a safe opening becomes closure-lost (R36, R76). -/
theorem SafeOpening.laneBecameLost (hm : s.config.mode = .run) (hs : SafeOpening s { s with engine := e } l) (hl : l < s.l)
    (hfresh : (({ s with engine := e } : State).lane l).phase.freshOpening = true) :
    laneBecameLost s.resolveTable ({ s with engine := e } : State).resolveTable l = false := by
  have hface : ∀ f : Face, ((pairsAt s.resolveTable ({ s with engine := e } : State).resolveTable
      (2 * l + f.code)).any becameLost) = false := by
    intro f
    obtain ⟨hplace, hlane⟩ := faceOfPlace_place l f
    have hcode : f.code < 2 := by cases f <;> decide
    have hrow : ∀ v : State, v.l = s.l → v.n = s.n → v.resolveTable.getD (2 * l + f.code) [] = v.resolveChain l f s.n := by
      intro v hvl hvn
      unfold State.resolveTable
      rw [List.getD_eq_getElem?_getD, List.getElem?_map, List.getElem?_range (by omega), Option.map_some,
        Option.getD_some, hplace, hlane, hvn]
    rw [List.any_eq_false]
    intro p hp hlost
    obtain ⟨j, hj⟩ := List.getElem?_of_mem hp
    rw [pairsAt_getElem, hrow s rfl rfl, hrow { s with engine := e } rfl rfl] at hj
    by_cases hjn : j < s.n
    · have hthen := State.resolveChain_getElem { s with engine := e } l f (Nat.le_refl s.n) hjn
      change (({ s with engine := e } : State).resolveChain l f s.n)[j]? = _ at hthen
      rw [State.resolveChain_getElem s _ _ (Nat.le_refl _) hjn, hthen, Option.map_some, Option.some.injEq] at hj
      subst hj
      obtain ⟨hnew, hold⟩ := Bool.and_eq_true_iff.1 hlost
      have hk : stationAt s.n f (s.n - s.n + j) < s.n := stationAt_lt _ (by omega)
      have hwas := SafeOpening.closureLost (h := ⟨stationAt s.n f (s.n - s.n + j), l, f⟩) hm hs hfresh hk
        (SafeOpening.cascadeFrom hm hs hfresh f (by omega)) hnew
      rw [recHas, hwas] at hold
      cases hold
    · have hnone : (({ s with engine := e } : State).resolveChain l f s.n)[j]? = none :=
        List.getElem?_eq_none (by rw [State.resolveChain_length]; exact Nat.le_of_not_lt hjn)
      rw [hnone] at hj
      cases hj
  unfold Machine.laneBecameLost
  rw [show (2 * l) = 2 * l + Face.a.code from rfl, hface .a, show 2 * l + Face.a.code + 1 = 2 * l + Face.b.code from rfl,
    hface .b]
  rfl

end NoFailure

end Sys2Proof.Machine
end

