-- ==== Sys2Proof/Proofs/EngineEvents.lean ====
section
/-! PROOFS. What settling makes of an event of the Changeover Engine, with a reply and without. -/

namespace Sys2Proof.Machine

/-! ### An event that queues no reply -/

theorem noticeOf_eq {a : Attention} (h : a.alert = alertLevel a) : noticeOf a = noticeBody a := by
  unfold noticeOf
  rw [h]
  rfl

theorem noticeBody_congr {a b : Attention} (h : b = { a with alert := b.alert }) : noticeBody b = noticeBody a := by
  rw [h]
  rfl

section Unreplied

variable {s a : State}

theorem chosen_port (hu : ∃ p, a.host = { s.host with noticePending := p }) :
    ∃ p, (chosen s a).host = { s.host with noticePending := p } := by
  obtain ⟨p, hu⟩ := hu
  exact ⟨_, by rw [chosen_host, settleHeads_host, hu]⟩

theorem settle_keepsPort_unreplied (hu : ∃ p, a.host = { s.host with noticePending := p }) : s.KeepsPort (settle s a) := by
  obtain ⟨p, hc⟩ := chosen_port hu
  unfold State.KeepsPort
  rw [settle_hostPort, State.driveTransmitter_port, hc]

/-- The transmitter of an event that queues no reply begins a notice or nothing (R186, R187). -/
theorem settle_unreplied (hs : s.Settled) (hu : ∃ p, a.host = { s.host with noticePending := p }) :
    s.Unreplied (settle s a) := by
  obtain ⟨p, hc⟩ := chosen_port hu
  have hattn : (settle s a).attn = { (chosen s a).attn with alert := (settle s a).attn.alert } := by
    rw [settle_chosen, driveAlert_attn, driveTransmitter_attn]
  have hnotice : noticeOf (settle s a).attn = noticeBody (chosen s a).attn :=
    (noticeOf_eq (settle_alert s a)).trans (noticeBody_congr hattn)
  have hport := settle_hostPort s a
  unfold State.driveTransmitter at hport
  cases htx : s.host.tx with
  | some g =>
    have htx' : (chosen s a).host.tx = some g := by rw [hc]; exact htx
    rw [htx'] at hport
    dsimp only at hport
    rw [hc] at hport
    exact ⟨by rw [hport], by rw [hport], fun f hf => (congrArg (·.tx) hport).trans hf,
      fun hn => (by rw [hn] at htx; cases htx)⟩
  | none =>
    have htx' : (chosen s a).host.tx = none := by rw [hc]; exact htx
    have hrep' : (chosen s a).host.replies = [] := by rw [hc]; exact State.replies_of_idle hs.line htx
    have hrep := State.replies_of_idle hs.line htx
    rw [htx', hrep'] at hport
    dsimp only at hport
    refine ⟨?_, ?_, fun f hf => (by rw [hf] at htx; cases htx), fun _ => ?_⟩
    · rw [hport]; split_ifs <;> rw [hc]
    · rw [hport, hrep]; split_ifs <;> exact hrep'
    · rw [hnotice, hport]
      split_ifs
      · exact .inl htx'
      · exact .inr ⟨by rw [hc], rfl⟩
      · exact .inl htx'

theorem chosen_notice_unreplied (hs : s.Settled) (hu : ∃ p, a.host = { s.host with noticePending := p })
    (h : (chosen s a).driveTransmitter.noticed) : (chosen s a).noticed := by
  obtain ⟨p, hc⟩ := chosen_port hu
  cases htx : s.host.tx with
  | some g =>
    have : (chosen s a).driveTransmitter = chosen s a := by
      unfold State.driveTransmitter; rw [hc, htx]
    rwa [this] at h
  | none =>
    refine State.noticed_of_driveTransmitter (fun q hq => ?_) h
    rw [hc] at hq
    rw [State.replies_of_idle hs.line htx] at hq
    cases hq

end Unreplied

/-! ### Events of the engine -/

/-- What an event of the engine leaves, and what it does to the flags: its own raisings, and those of the resolver's reports. -/
structure EngineOutcome (s u t : State) (kinds : List AttnKind) : Prop where
  event : s.EngineEvent t kinds
  engine : t.engine = u.engine
  settled : t.Settled
  same : ∀ k, k ≠ .entryClosureLost → k ≠ .aspectFailed →
    hasFlag t.attn.latched k = hasFlag u.attn.latched k ∧ hasFlag t.attn.rep k = hasFlag u.attn.rep k

/-- The raisings of a move are those of its event. -/
theorem EngineOutcome.raised {s u t : State} {kinds : List AttnKind} (h : EngineOutcome s u t kinds) (k : AttnKind) (n : Nat)
    (hc : k ≠ .entryClosureLost) (hf : k ≠ .aspectFailed) (hr : s.RaisedTimes u k n) : s.RaisedTimes t k n := by
  obtain ⟨hl, hrep⟩ := h.same k hc hf
  exact ⟨hl.trans hr.1, hrep.trans hr.2⟩

theorem EngineOutcome.raisedAtLeast {s u t : State} {kinds : List AttnKind} (h : EngineOutcome s u t kinds) {k : AttnKind}
    {n : Nat} (hr : s.RaisedAtLeast u k n) (hc : k ≠ .entryClosureLost) (hf : k ≠ .aspectFailed) :
    s.RaisedAtLeast t k n := by
  obtain ⟨hl, hrep⟩ := h.same k hc hf
  exact ⟨fun hn => hl.trans (hr.1 hn), fun hn h2 => hrep.trans (hr.2 hn h2)⟩

section Moves

variable {s u a : State} {kinds : List AttnKind}

/-- `a` is what the engine's move leaves, but for the Host Link Port and the Time Base. -/
def SameButPort (u a : State) : Prop := a = { u with host := a.host, time := a.time }

theorem sameButPort_complete (u : State) (f : HostFrame) (r : Reply) : SameButPort u (u.complete f r) := rfl

/-- What an event whose engine part is the move to `u` leaves of the state, but for the Time Base and the flags. -/
theorem SameButPort.eq {x : TimeBase} (h : EngineStep { s with time := x } u) (ha : SameButPort u a) :
    a = { s with engine := u.engine, attn := a.attn, host := a.host, time := a.time } := by
  unfold EngineStep at h
  rw [ha, h]

/-- A move of the engine fails no fresh opening (R36). -/
theorem EngineMove.settledFailures {x : TimeBase} (hg : s.Good) (hs : s.Settled) (hm : s.config.mode = .run)
    (h : EngineMove { s with time := x } u kinds) (ha : SameButPort u a) : settledFailures s a = [] := by
  have hstep := ha.eq h.step
  have hn : a.n = s.n := by rw [hstep]; rfl
  have hl : a.l = s.l := by rw [hstep]; rfl
  have htable : a.resolveTable = ({ s with engine := u.engine } : State).resolveTable := by
    refine SameDemands.resolveTable ?_
    rw [hstep]
    exact ⟨rfl, rfl, rfl, fun _ _ _ => rfl, fun _ => rfl, fun _ => rfl, fun _ => rfl, fun _ => rfl, fun _ _ => rfl⟩
  have hfell : stationFell s a = false := by
    unfold stationFell
    rw [List.any_eq_false]
    intro k _
    have hk : a.station k = s.station k := by rw [hstep]; rfl
    rw [hk]
    cases (s.station k).state <;> simp
  unfold Machine.settledFailures failingLanes
  rw [List.filter_eq_nil_iff, comparedTable_kept hn hl, hs.heads, htable]
  intro l hmem
  have hls : l < s.l := hl ▸ List.mem_range.1 hmem
  have hlane : a.lane l = ({ s with engine := u.engine } : State).lane l := by rw [hstep]; rfl
  rw [hfell, hlane, Bool.false_or, Bool.and_eq_true]
  rintro ⟨hfresh, hlost⟩
  have hsafe : SafeOpening s { s with engine := u.engine } l := h.opens hg.lanes_wf l
  rw [hsafe.laneBecameLost hm hls hfresh] at hlost
  cases hlost

theorem EngineStep.port (h : EngineStep s u) : ∃ p, u.host = { s.host with noticePending := p } := ⟨_, by rw [h]⟩

/-- What the settling of a move leaves, but for the Host Link Port and the Time Base. -/
structure EngineRest (s u t : State) (kinds : List AttnKind) : Prop where
  store : s.KeepsStore t
  resolver : s.KeepsResolver t
  lamps : s.KeepsLamps t
  link : t.link = s.link
  flags : s.KeepsFlags t kinds
  engine : t.engine = u.engine
  settled : t.Settled
  same : ∀ k, k ≠ .entryClosureLost → k ≠ .aspectFailed →
    hasFlag t.attn.latched k = hasFlag u.attn.latched k ∧ hasFlag t.attn.rep k = hasFlag u.attn.rep k

theorem EngineMove.settles {x : TimeBase} (hg : s.Good) (hs : s.Settled) (hm : s.config.mode = .run)
    (h : EngineMove { s with time := x } u kinds)
    (hc : AttnKind.entryClosureLost ∉ kinds) (hf : AttnKind.aspectFailed ∉ kinds)
    (ha : SameButPort u a) (hr : Raises s a kinds)
    (hnotice : (chosen s a).driveTransmitter.noticed → (chosen s a).noticed) : EngineRest s u (settle s a) kinds := by
  have hnil := h.settledFailures hg hs hm ha
  have hstep := ha.eq h.step
  have hn : a.n = s.n := by rw [hstep]; rfl
  have hl : a.l = s.l := by rw [hstep]; rfl
  have hstrings : Tab.wf StringRec.reset a.lamps.strings = true := by rw [hstep]; exact hg.strings_wf
  have hstations : Tab.wf (StationRec.reset .west) a.link.stations = true := by rw [hstep]; exact hg.stations_wf
  refine ⟨⟨?_, ?_, ?_, ?_⟩, ?_, ?_, ?_, ?_, ?_, settle_settled s a hstrings hstations, fun k hk hk' => ?_⟩
  · rw [settle_config, hstep]
  · rw [settle_sigs, hstep]
  · rw [settle_power, hstep]
  · rw [settle_pending, hstep]
  · have hdem : SameDemands a (settle s a) := by
      have hd := settle_demands s a hstrings hstations
      rwa [settledEngine_of_nil hnil] at hd
    have hres : a.resolver = s.resolver := by rw [hstep]
    unfold State.KeepsResolver
    rw [hdem.resolveTable, settle_resolver_kept hnil, hres]
  · exact settle_keepsLamps hs hn hl hnil hg.l_le hg.strings_wf (by rw [hstep])
  · exact settle_link_kept hs hn (by rw [hstep])
  · exact settle_keepsFlags hs hn hl hnil hr hc hf hnotice
  · rw [settle_engine, settledEngine_of_nil hnil, hstep]
  · have h0 : a.RaisedTimes (settleHeads s a) k 0 := by
      rw [settleHeads_kept hn hl hnil]
      exact (Raises.takeTable a _ _ []).others k (by simp [hk, hk'])
    have hattn : a.attn = u.attn := by rw [ha]
    rw [settle_attn, ← hattn]
    exact h0.eq_of_zero

theorem EngineRest.outcome {t : State} (h : EngineRest s u t kinds) (ht : t.time = s.time) (hp : s.KeepsPort t) :
    EngineOutcome s u t kinds :=
  ⟨⟨h.store, ht, h.resolver, h.lamps, h.link, hp, h.flags⟩, h.engine, h.settled, h.same⟩

/-- A move of the engine in a command that is taken with one reply. -/
theorem EngineMove.replies (hg : s.Good) (hs : s.Settled) (hm : s.config.mode = .run) (h : EngineMove s u kinds)
    (hc : AttnKind.entryClosureLost ∉ kinds) (hf : AttnKind.aspectFailed ∉ kinds) (f : HostFrame) (r : Reply) :
    EngineOutcome s u (settle s (u.complete f r)) kinds :=
  (h.settles (x := s.time) hg hs hm hc hf (sameButPort_complete u f r) (h.raises.complete f r)
    (chosen_notice hs h.step.port f r)).outcome ((settle_time s _).trans h.step.time) (settle_keepsPort h.step.port f r)

/-- A move of the engine in an event that queues no reply. -/
theorem EngineMove.unreplied (hg : s.Good) (hs : s.Settled) (hm : s.config.mode = .run) (h : EngineMove s u kinds)
    (hc : AttnKind.entryClosureLost ∉ kinds) (hf : AttnKind.aspectFailed ∉ kinds) :
    EngineOutcome s u (settle s u) kinds ∧ s.Unreplied (settle s u) :=
  ⟨(h.settles (x := s.time) hg hs hm hc hf (show SameButPort u u from rfl) h.raises (chosen_notice_unreplied hs h.step.port)).outcome
    ((settle_time s u).trans h.step.time) (settle_keepsPort_unreplied h.step.port), settle_unreplied hs h.step.port⟩

/-- What `performs` says of a row whose act is a move of the engine. -/
theorem EngineMove.performs {kind len : Nat} {modes : Modes} {act : State → List Octet → CmdResult} {body : List Octet}
    {row : Octet → List Octet → Instr} {status : Nat} {reply : List Octet} {p : State → Prop}
    (hrow : ∀ tag, exec (row tag body) s = runCommand kind len modes act tag body s) (hlen : body.length = len)
    (hm : s.config.mode = .run) (hmodes : modes.accept .run = true) (ha : act s body = ⟨u, ⟨status, reply⟩⟩)
    (h : EngineMove s u kinds) (hc : AttnKind.entryClosureLost ∉ kinds) (hf : AttnKind.aspectFailed ∉ kinds)
    (hp : s.Good → ∀ t, EngineOutcome s u t kinds → p t) : s.performs row kind body status reply p :=
  performs_of_settle hrow hlen (hm ▸ hmodes) ha h.step.port fun hg hs f r => hp hg _ (h.replies hg hs hm hc hf f r)

end Moves

end Sys2Proof.Machine
end

