-- ==== Sys2Proof/Proofs/LaneStarts.lean ====
section
/-! PROOFS. The lane commands with the sweep free and the queue empty: obligation O33. -/

namespace Sys2Proof.Machine

section Starts

variable {s t u : State} {l : Nat} {lane dir : Octet} {d : Face} {ts : List Task}

theorem State.lane_of_engine (h : t.engine = u.engine) (m : Nat) : t.lane m = u.lane m := by unfold State.lane; rw [h]

/-- A lane record written by a move of the engine is what the event writes. -/
theorem writesLane_of_engine {r : LaneRec} (hr : r.phase ≠ .shut ∨ ∃ o, r.last = some o) {q : List Task}
    (hq : q = s.engine.queue) (h : t.engine = ((s.setQueue q).setLane l r).engine) : s.WritesLane t l r := by
  refine ⟨?_, fun m hm => ?_, by rw [h]; exact hq, by rw [h]; rfl⟩
  · rw [State.lane_of_engine h]
    rcases hr with hr | ⟨o, ho⟩
    · exact State.setLane_sweeping hr
    · exact State.setLane_lane_last _ ho
  · rw [State.lane_of_engine h, State.setLane_lane_ne _ _ hm]
    rfl

/-- The tasks of a lane command join an empty queue, and the scan runs (R48, R49, R51). -/
theorem State.addTasks_empty (hq : s.engine.queue = []) (h : ts.length ≤ 8) (l : Nat) :
    s.addTasks l ts = acceptedWith (s.setQueue ts).scan [octet ts.length, octet ts.length] := by
  have hnone : (ts.any (holdsTask s.engine.queue)) = false := by
    rw [hq, List.any_eq_false]
    intro t _ ht
    cases ht
  unfold State.addTasks
  rw [hnone, if_neg Bool.false_ne_true, hq, if_neg (by simpa [Config.queuePlaces] using h)]
  unfold State.enqueue
  rw [hq]
  rfl

theorem State.project_empty (hq : s.engine.queue = []) (hp : (s.lane l).phase = .run d) :
    s.project s.engine.queue l = some d := by
  simp [State.project, hq, hp, LanePhase.projected]

theorem State.project_shut (hq : s.engine.queue = []) (hp : (s.lane l).phase = .shut) :
    s.project s.engine.queue l = none := by
  simp [State.project, hq, hp, LanePhase.projected]

/-! ### What starts -/

/-- A CLOSE of a lane in RUN that stands alone, or first, in the queue starts (R25). -/
theorem scan_first_closes (hf : s.sweepFree = true) {u : Task} {rest : List Task} (hp : (s.lane u.lane).phase = .run d)
    (hk : u.kind = .close) :
    (s.setQueue (u :: rest)).scan = (s.setQueue rest).setLane u.lane
      { s.lane u.lane with phase := .closing d 0 (s.mergeAspect u.lane d) u, timer := some s.stepMs } := by
  have hsame := SameSweeps.setQueue s (u :: rest)
  rw [scan_closes (s := s.setQueue (u :: rest)) (older := []) (hsame.sweepFree.trans hf) rfl (fun _ h => by cases h) hp hk,
    hsame.mergeAspect, hsame.stepMs]
  rfl

/-- A HOST task's OPEN of a SHUT lane that passes the start check starts (R34). -/
theorem scan_first_opens (hf : s.sweepFree = true) {u : Task} {rest : List Task} (hp : (s.lane u.lane).phase = .shut)
    (hk : u.kind = .opn d) (ho : u.origin = .host) (hc : s.startCheck u.lane = none) :
    (s.setQueue (u :: rest)).scan = (s.setQueue rest).setLane u.lane
      { s.lane u.lane with
        phase := .opening d (s.n - 1) false (some u), timer := some s.stepMs, emergency := false } := by
  have hsame := SameSweeps.setQueue s (u :: rest)
  rw [scan_opens (s := s.setQueue (u :: rest)) (older := []) (hsame.sweepFree.trans hf) rfl (fun _ h => by cases h) hp hk
    (.inr ho) ((hsame.startCheck _).trans hc), hsame.stepMs]
  rfl

/-- A HOST task's OPEN of a SHUT lane that fails the start check ends FAILED (R34, R57). -/
theorem scan_only_fails (hf : s.sweepFree = true) {u : Task} (hp : (s.lane u.lane).phase = .shut) (hk : u.kind = .opn d)
    (ho : u.origin = .host) {why : Reason} (hc : s.startCheck u.lane = some why) :
    (s.setQueue [u]).scan = ((s.setQueue [u]).endTask u .failed (some why)).setQueue [] := by
  have hsame := SameSweeps.setQueue s [u]
  have hbar : (s.setQueue [u]).openBar u = some why := by
    unfold State.openBar
    rw [if_neg fun h => h.2 ho]
    exact (hsame.startCheck _).trans hc
  rw [scan_takes (older := []) (newer := []) (hsame.sweepFree.trans hf) rfl (fun _ h => by cases h), State.scanQueue]
  have hp' : ((s.setQueue [u]).lane u.lane).phase = .shut := hp
  simp only [List.any_nil, Bool.false_eq_true, if_false, hp', hk, hbar]
  rfl

end Starts

/-- Settles O33: the task that the command adds is the one the scan takes. -/
theorem laneTasksStart : Obligations.LaneTasksStart := by
  intro s lane dir hm hl hf hq
  have hmove : ∀ {q : List Task} {r : LaneRec}, r.phase.freshOpening = false →
      EngineMove s ((s.setQueue q).setLane lane.toNat r) [] := fun hr => (EngineMove.setQueue s _).trans (.setLane_stale hr)
  refine ⟨fun d hp => ⟨?_, fun hb => ?_⟩, fun d hd hdir hp hb => ⟨fun hc => ?_, fun why hc => ?_⟩⟩
  · have hact : actCloseLane s [lane] = _ :=
      (actCloseLane_run hl (State.project_empty hq hp)).trans (State.addTasks_empty hq (by simp) _)
    rw [scan_first_closes (u := s.hostTask lane.toNat .close) hf hp rfl] at hact
    exact (hmove rfl).performs (fun _ => rfl) rfl hm rfl hact (by decide) (by decide) fun _ t ht =>
      ⟨ht.event, writesLane_of_engine (.inl (by simp)) hq.symm ht.engine⟩
  · have hact : actReverseLane s [lane] = _ :=
      (actReverseLane_run hl hb (State.project_empty hq hp)).trans (State.addTasks_empty hq (by simp) _)
    rw [scan_first_closes (u := s.hostTask lane.toNat .close) hf hp rfl] at hact
    refine (hmove rfl).performs (fun _ => rfl) rfl hm rfl hact (by decide) (by decide) fun _ t ht => ?_
    refine ⟨ht.event, ?_, fun m hne => ?_, by rw [ht.engine]; rfl, by rw [ht.engine]; rfl⟩
    · rw [State.lane_of_engine ht.engine]
      exact State.setLane_sweeping (by simp)
    · rw [State.lane_of_engine ht.engine]
      exact State.setLane_lane_ne _ _ hne
  · rw [← faceOf_eq hdir] at hd
    subst hd
    have hact : actOpenLane s [lane, dir] = _ :=
      (actOpenLane_shut hl hdir hb (State.project_shut hq hp)).trans (State.addTasks_empty hq (by simp) _)
    rw [scan_first_opens (u := s.hostTask lane.toNat (.opn (faceOf dir.toNat))) hf hp rfl rfl hc] at hact
    have hopen : ∀ r, EngineMove s ((s.setQueue []).setLane lane.toNat r) [] := fun r => (EngineMove.setQueue s []).trans
      (EngineMove.setLane fun _ => .inr ((setQueue_step s []).symm.shutShown (State.shutShown_of_startCheck hc)))
    exact (hopen _).performs (fun _ => rfl) rfl hm rfl hact (by decide) (by decide) fun _ t ht =>
      ⟨ht.event, writesLane_of_engine (.inl (by simp)) hq.symm ht.engine⟩
  · rw [← faceOf_eq hdir] at hd
    subst hd
    have hact : actOpenLane s [lane, dir] = _ :=
      (actOpenLane_shut hl hdir hb (State.project_shut hq hp)).trans (State.addTasks_empty hq (by simp) _)
    rw [scan_only_fails (u := s.hostTask lane.toNat (.opn (faceOf dir.toNat))) hf hp rfl rfl hc] at hact
    have hfails : ∀ u, EngineMove s (((s.setQueue [u]).endTask u .failed (some why)).setQueue []) [.taskUnsuccessful] :=
      fun u => ((EngineMove.setQueue s [u]).trans (.endTask _ u .failed (some why) (by decide))).trans (.setQueue _ [])
    refine (hfails _).performs (fun _ => rfl) rfl hm rfl hact (by decide) (by decide) fun _ t ht => ⟨ht.event, ?_, ?_⟩
    · have hone : ∀ u, s.RaisedTimes (((s.setQueue [u]).endTask u .failed (some why)).setQueue []) .taskUnsuccessful 1 :=
        fun u => endTask_raisedTimes (s.setQueue [u]) u .failed (some why)
      exact (ht.raised _ 1 (by decide) (by decide) (hone _)).atLeast (Nat.le_refl 1)
    · exact writesLane_of_engine (.inr ⟨_, rfl⟩) hq.symm ht.engine

end Sys2Proof.Machine
end

