-- ==== Sys2Proof/Proofs/LaneTables.lean ====
section
/-! PROOFS. Tables of lanes that read alike, and what the endings of several tasks make of them. -/

namespace Sys2Proof.Machine

/-- Canonical tables that read alike are equal. -/
theorem Tab.ext {α : Type} [DecidableEq α] {d : α} {t u : Tab α} (ht : Tab.wf d t = true) (hu : Tab.wf d u = true)
    (h : ∀ i, Tab.get d t i = Tab.get d u i) : t = u := by
  suffices hs : ∀ b, Tab.wfAbove d b t = true → Tab.wfAbove d b u = true → t = u from hs none ht hu
  clear ht hu
  induction t generalizing u with
  | nil =>
    intro b _ hu
    cases u with
    | nil => rfl
    | cons e u =>
      obtain ⟨k, v⟩ := e
      obtain ⟨-, hv, -⟩ := Tab.wfAbove_cons.1 hu
      have := h k
      rw [Tab.get_nil, Tab.get, if_pos rfl] at this
      exact absurd this.symm hv
  | cons e t ih =>
    intro b ht hu
    obtain ⟨k, v⟩ := e
    obtain ⟨-, hv, ht⟩ := Tab.wfAbove_cons.1 ht
    cases u with
    | nil =>
      have := h k
      rw [Tab.get_nil, Tab.get, if_pos rfl] at this
      exact absurd this hv
    | cons e u =>
      obtain ⟨j, w⟩ := e
      obtain ⟨-, hw, hu⟩ := Tab.wfAbove_cons.1 hu
      have hkj : k = j := by
        rcases Nat.lt_trichotomy k j with hlt | heq | hgt
        · have := h k
          rw [Tab.get, if_pos rfl, Tab.get, if_neg (Nat.ne_of_lt hlt), Tab.get_of_le hu (Nat.le_of_lt hlt)] at this
          exact absurd this hv
        · exact heq
        · have := h j
          rw [Tab.get, if_neg (Nat.ne_of_lt hgt), Tab.get_of_le ht (Nat.le_of_lt hgt), Tab.get, if_pos rfl] at this
          exact absurd this.symm hw
      subst hkj
      have hvw := h k
      rw [Tab.get, if_pos rfl, Tab.get, if_pos rfl] at hvw
      rw [hvw, ih (fun i => ?_) (some k) ht hu]
      by_cases hi : i ≤ k
      · rw [Tab.get_of_le ht hi, Tab.get_of_le hu hi]
      · have hne : i ≠ k := by omega
        simpa only [Tab.get, if_neg hne] using h i

theorem SameLanes.engine {v w : State} (h : SameLanes v w) (hq : w.engine.queue = v.engine.queue) :
    w.engine = v.engine := by
  have hlanes := h.lanes
  have hplans := h.plans
  cases hw : w.engine
  cases hv : v.engine
  simp_all

/-! ### Tasks that leave the queue -/

section Removed

variable (s : State) (p : Task → Bool) (o : TaskOutcome)

theorem State.removeQueued_eq : s.removeQueued p o =
    (s.setQueue (s.engine.queue.filter fun t => !p t)).endTasks (s.engine.queue.filter p) o := rfl

/-- The last outcome of a lane whose tasks leave the queue is that of its newest one (R44). -/
theorem State.removeQueued_lane (l : Nat) :
    (s.removeQueued p o).lane l =
      { s.lane l with
        last := match ((s.engine.queue.filter p).filter fun u => u.lane == l).getLast? with
          | some u => some (s.outcomeOf u o none)
          | none => (s.lane l).last } := by
  rw [State.removeQueued_eq, State.endTasks_lane]
  rfl

theorem State.endTasks_plans (ts : List Task) : (s.endTasks ts o).engine.plans = s.engine.plans := by
  unfold State.endTasks
  induction ts generalizing s with
  | nil => rfl
  | cons t ts ih => exact (ih _).trans (s.endTask_plans t o none)

theorem State.removeQueued_plans : (s.removeQueued p o).engine.plans = s.engine.plans := State.endTasks_plans _ _ _

theorem State.removeQueued_raisedTimes (ho : o ≠ .done) :
    s.RaisedTimes (s.removeQueued p o) .taskUnsuccessful (s.engine.queue.filter p).length :=
  State.RaisedTimes.after (.of_attn (t := s.setQueue _) rfl) (State.endTasks_raisedTimes _ _ ho _)

/-- The last outcome of a lane whose queued OPEN tasks end CANCELLED (R46). -/
def State.cancelledLast (s : State) (q : List Task) (l : Nat) (last : Option LastOutcome) : Option LastOutcome :=
  match (q.filter fun u => u.lane == l && u.kind != .close).getLast? with
  | some u => some (s.outcomeOf u .cancelled none)
  | none => last

theorem TaskKind.isOpen_eq (k : TaskKind) : k.isOpen = (k != .close) := by cases k <;> rfl

theorem State.cancelOpens_queue (l : Nat) :
    (s.cancelOpens l).engine.queue = s.engine.queue.filter fun u => !(u.lane == l && u.kind != .close) := by
  unfold State.cancelOpens
  rw [State.removeQueued_queue]
  simp only [TaskKind.isOpen_eq]

theorem State.cancelOpens_lane (l m : Nat) :
    (s.cancelOpens l).lane m =
      if m = l then { s.lane l with last := s.cancelledLast s.engine.queue l (s.lane l).last } else s.lane m := by
  unfold State.cancelOpens
  rw [State.removeQueued_lane, List.filter_filter]
  by_cases hm : m = l
  · subst hm
    rw [if_pos rfl]
    unfold State.cancelledLast
    simp only [TaskKind.isOpen_eq, ← Bool.and_assoc, Bool.and_self]
  · have hnone : (s.engine.queue.filter fun a => a.lane == m && (a.lane == l && a.kind.isOpen)) = [] := by
      rw [List.filter_eq_nil_iff]
      intro u _ hu
      simp only [Bool.and_eq_true, beq_iff_eq] at hu
      exact hm (hu.1.symm.trans hu.2.1)
    rw [hnone, if_neg hm]
    rfl

theorem State.cancelOpens_raisedTimes (l : Nat) :
    s.RaisedTimes (s.cancelOpens l) .taskUnsuccessful
      (s.engine.queue.filter fun u => u.lane == l && u.kind != .close).length := by
  have h : s.RaisedTimes (s.cancelOpens l) _ _ :=
    State.removeQueued_raisedTimes s (fun t => t.lane == l && t.kind.isOpen) .cancelled (by decide)
  simpa only [TaskKind.isOpen_eq] using h

end Removed

/-! ### Moves that write one lane record and the queue -/

/-- `v` is what a move of the engine makes of `s`: a record of one lane and a queue are written. -/
structure Rewrites (s v : State) (kinds : List AttnKind) (q : List Task) (l : Nat) (r : LaneRec) : Prop where
  table : Tab.wf LaneRec.reset s.engine.lanes = true
  move : EngineMove s v kinds
  self : v.lane l = r
  other : ∀ m, m ≠ l → v.lane m = s.lane m
  queue : v.engine.queue = q
  plans : v.engine.plans = s.engine.plans

namespace Rewrites

variable {s v : State} {kinds : List AttnKind} {q : List Task} {l : Nat} {r : LaneRec}

/-- A lane's state and timer are written. -/
theorem putPhase (hw : Tab.wf LaneRec.reset s.engine.lanes = true) {p : LanePhase} (x : Option Nat)
    (h : p.freshOpening = true → ((s.lane l).phase.freshOpening = true ∧ ∀ f pos,
      laneDemand (s.lane l).phase f pos = .shut ∨ laneDemand (s.lane l).phase f pos = laneDemand p f pos) ∨
        s.shutShown l) :
    Rewrites s (s.putPhase l p x) kinds s.engine.queue l { s.lane l with phase := p, timer := x } where
  table := hw
  move := .setLane h
  self := (State.setLane_lane _ _ _ _ hw).trans (if_pos rfl)
  other _ hm := State.setLane_lane_ne _ _ hm
  queue := rfl
  plans := rfl

theorem putPhase_stale (hw : Tab.wf LaneRec.reset s.engine.lanes = true) {p : LanePhase} (x : Option Nat)
    (h : p.freshOpening = false) :
    Rewrites s (s.putPhase l p x) kinds s.engine.queue l { s.lane l with phase := p, timer := x } :=
  putPhase hw x fun hf => by rw [h] at hf; cases hf

/-- The lane's task ends (R44). -/
theorem endTask (h : Rewrites s v kinds q l r) {t : Task} (hl : t.lane = l) (o : TaskOutcome) (why : Option Reason)
    (hk : (if o = .done then AttnKind.taskDone else .taskUnsuccessful) ∈ kinds) :
    Rewrites s (v.endTask t o why) kinds q l { r with last := some (s.outcomeOf t o why) } where
  table := h.table
  move := h.move.trans (.endTask v t o why hk)
  self := by
    subst hl
    rw [State.endTask_lane, if_pos rfl, h.self]
    unfold State.outcomeOf
    rw [h.move.step.stamp]
  other m hm := by rw [State.endTask_lane, if_neg (hl ▸ hm), h.other m hm]
  queue := h.queue
  plans := h.plans

/-- The lane's queued OPEN tasks end CANCELLED (R46). -/
theorem cancelOpens (h : Rewrites s v kinds q l r) (hk : AttnKind.taskUnsuccessful ∈ kinds) :
    Rewrites s (v.cancelOpens l) kinds (q.filter fun u => !(u.lane == l && u.kind != .close)) l
      { r with last := s.cancelledLast q l r.last } where
  table := h.table
  move := h.move.trans (.cancelOpens v l hk)
  self := by
    rw [State.cancelOpens_lane, if_pos rfl, h.self, h.queue]
    unfold State.cancelledLast State.outcomeOf
    rw [h.move.step.stamp]
  other m hm := by rw [State.cancelOpens_lane, if_neg hm, h.other m hm]
  queue := by rw [State.cancelOpens_queue, h.queue]
  plans := (State.removeQueued_plans v _ _).trans h.plans

theorem sameLanes (h : Rewrites s v kinds q l r) : SameLanes ((s.setQueue q).setLane l r) v where
  reads := (((setQueue_step s q).trans (setLane_step _ l r)).symm.trans h.move.step).sameReads
  lanes := by
    refine Tab.ext (h.move.table h.table) (Tab.wf_set h.table) fun m => ?_
    show v.lane m = ((s.setQueue q).setLane l r).lane m
    rw [State.setLane_lane _ _ _ _ (by exact h.table)]
    split
    · rename_i hm; rw [hm, h.self]
    · rename_i hm; exact h.other m hm
  plans := h.plans

theorem engine (h : Rewrites s v kinds q l r) : v.engine = ((s.setQueue q).setLane l r).engine :=
  h.sameLanes.engine h.queue

/-- The scan after it reads no more than the record and the queue (R57). -/
theorem scan (h : Rewrites s v kinds q l r) : v.scan.engine = (((s.setQueue q).setLane l r).scan).engine :=
  h.sameLanes.scan h.queue

end Rewrites

end Sys2Proof.Machine
end

