-- ==== Sys2Proof/Proofs/LaneSteps.lean ====
section
/-! PROOFS. The lane timers' expiries and CONFIRM-CLEAR: obligations O40, O43 and O44. -/

namespace Sys2Proof.Machine

section Expiries

variable {s u : State} {kinds : List AttnKind} {l : Nat}

/-- A lane that is not SHUT is one of a part in RUN (R21). -/
theorem State.Good.run_of_phase (hg : s.Good) (hp : (s.lane l).phase ≠ .shut) : s.config.mode = .run := by
  cases hm : s.config.mode with
  | run => rfl
  | standby => exact absurd ((hg.lanes.standby hm).1 l) hp

/-- An expiry whose act is a move of the engine. -/
theorem EngineMove.expires (hg : s.Good) (hl : s.live = true) (hm : s.config.mode = .run) {c : Instr} {allowed : Bool}
    {act : State → State} (hc : exec c s = eventIf s allowed act) (ha : allowed = true) (hu : act s = u)
    (h : EngineMove s u kinds) (hclo : AttnKind.entryClosureLost ∉ kinds) (hfail : AttnKind.aspectFailed ∉ kinds) :
    ∃ t, exec c s = .next t ∧ EngineOutcome s u t kinds ∧ s.Unreplied t := by
  obtain ⟨hout, hun⟩ := h.unreplied hg (hg.settled hl) hm hclo hfail
  refine ⟨settle s u, ?_, hout, hun⟩
  rw [hc, eventIf, hl, ha, hu]
  rfl

/-- An event that the engine's writing of one lane record ends in. -/
theorem Rewrites.writesLane {q : List Task} {r : LaneRec} {t : State} (h : Rewrites s u kinds q l r)
    (hq : q = s.engine.queue) (ht : t.engine = u.engine) : s.WritesLane t l r :=
  ⟨(State.lane_of_engine ht l).trans h.self, fun m hm => (State.lane_of_engine ht m).trans (h.other m hm),
    (congrArg (·.queue) ht).trans (h.queue.trans hq), (congrArg (·.plans) ht).trans h.plans⟩

end Expiries

/-! ### Sweep steps (R28, R29, R35) -/

section Steps

variable {s : State} {l f : Nat} {d : Face}

theorem exec_closingStep (s : State) (l : Nat) :
    exec (.closingStepExpiry l) s = eventIf s (s.isClosing l) fun s => s.closingStep l := rfl

theorem exec_openingStep (s : State) (l : Nat) :
    exec (.openingStepExpiry l) s = eventIf s (s.isOpening l) fun s => s.openingStep l := rfl

theorem State.isClosing_of {m : Aspect} {task : Task} (hl : l < s.l) (hp : (s.lane l).phase = .closing d f m task) :
    s.isClosing l = true := by simp [State.isClosing, hl, hp]

theorem State.isOpening_of {r : Bool} {task : Option Task} (hl : l < s.l) (hp : (s.lane l).phase = .opening d f r task) :
    s.isOpening l = true := by simp [State.isOpening, hl, hp]

theorem closingStep_advances {m : Aspect} {task : Task} (hp : (s.lane l).phase = .closing d f m task) (hf : f < s.n - 1) :
    s.closingStep l = s.putPhase l (.closing d (f + 1) m task) (some s.stepMs) := by
  unfold State.closingStep
  rw [hp]
  exact if_pos hf

theorem closingStep_clears {m : Aspect} {task : Task} (hp : (s.lane l).phase = .closing d f m task) (hf : s.n - 1 ≤ f) :
    s.closingStep l = (s.putPhase l (.clearance d false false task) (some s.clearanceMs)).scan := by
  unfold State.closingStep
  rw [hp]
  exact if_neg (Nat.not_lt.2 hf)

theorem openingStep_advances {r : Bool} {task : Option Task} (hp : (s.lane l).phase = .opening d f r task) (hf : 1 < f) :
    s.openingStep l = s.putPhase l (.opening d (f - 1) r task) (some s.stepMs) := by
  unfold State.openingStep
  rw [hp]
  exact if_pos (by omega)

theorem openingStep_runs {r : Bool} {task : Option Task} (hp : (s.lane l).phase = .opening d f r task) (hf : f ≤ 1) :
    s.openingStep l = ((s.putPhase l (.run d) none).openingDone task).scan := by
  unfold State.openingStep
  rw [hp]
  exact if_neg (by omega)

/-- The front of an opening moves toward the entry: a head's demand stays, or SHUT gives way (R22, R35). -/
theorem laneDemand_opening_step (d : Face) (f : Nat) (r : Bool) (t : Option Task) (x : Face) (pos : Nat) :
    laneDemand (.opening d f r t) x pos = .shut ∨
      laneDemand (.opening d f r t) x pos = laneDemand (.opening d (f - 1) r t) x pos := by
  rw [laneDemand_eq, laneDemand_eq]
  dsimp only
  by_cases h : x = d ∧ f ≤ pos
  · exact .inr (by rw [if_pos h, if_pos ⟨h.1, by omega⟩])
  · exact .inl (if_neg h)

/-- The last outcome of a lane whose opening, with its task or untasked, reaches RUN (R35, R44). -/
def State.doneLast (s : State) (task : Option Task) (last : Option LastOutcome) : Option LastOutcome :=
  match task with
  | some u => some (s.outcomeOf u .done none)
  | none => last

/-- The task of an opening that reaches RUN ends DONE; an untasked one ends without an outcome (R35, R44). -/
theorem Rewrites.openingDone {v : State} {kinds : List AttnKind} {q : List Task} {r : LaneRec} {task : Option Task}
    (h : Rewrites s v kinds q l r) (ht : ∀ u, task = some u → u.lane = l) (hk : AttnKind.taskDone ∈ kinds) :
    Rewrites s (v.openingDone task) kinds q l { r with last := s.doneLast task r.last } := by
  cases task with
  | none => exact h
  | some u => exact h.endTask (ht u rfl) .done none hk

theorem openingDone_raisedTimes (s : State) (task : Option Task) :
    s.RaisedTimes (s.openingDone task) .taskDone task.toList.length := by
  cases task with
  | none => exact .refl s _
  | some u => exact endTask_raisedTimes s u .done none

end Steps

/-- Raisings before a scan, of a kind that a scan does not raise. -/
theorem State.RaisedTimes.scan {s v : State} {k : AttnKind} {n : Nat} (h : s.RaisedTimes v k n)
    (hk : k ≠ .taskUnsuccessful) : s.RaisedTimes v.scan k n :=
  h.before ((EngineMove.scan (kinds := [.taskUnsuccessful]) (by simp) v).raises.others k (by simpa using hk))

/-- Settles O43: each expiry is one move of the engine, by the front's distance from the end of the sweep. -/
theorem sweepSteps : Obligations.SweepSteps := by
  intro s l hg hlive hl
  have hw := hg.lanes_wf
  refine ⟨rfl, fun d f m task hp => ?_, fun d f r task hp => ?_⟩
  · have hm := hg.run_of_phase (l := l) (by rw [hp]; simp)
    have hal := State.isClosing_of hl hp
    refine ⟨fun hf => ?_, fun hf => ?_⟩
    · have hrew : Rewrites s _ [] _ l _ := .putPhase_stale (p := .closing d (f + 1) m task) hw (some s.stepMs) rfl
      obtain ⟨t, ht, hout, hun⟩ :=
        hrew.move.expires hg hlive hm (exec_closingStep s l) hal (closingStep_advances hp hf) (by decide) (by decide)
      exact ⟨t, ht, hout.event, hun, hrew.writesLane rfl hout.engine⟩
    · have hrew : Rewrites s _ [.taskUnsuccessful] _ l _ :=
        .putPhase_stale (p := .clearance d false false task) hw (some s.clearanceMs) rfl
      obtain ⟨t, ht, hout, hun⟩ := (hrew.move.trans (.scan (by simp) _)).expires hg hlive hm (exec_closingStep s l)
        hal (closingStep_clears hp hf) (by decide) (by decide)
      exact ⟨t, ht, hout.event, hun, hout.engine.trans hrew.scan⟩
  · have hm := hg.run_of_phase (l := l) (by rw [hp]; simp)
    have hal := State.isOpening_of hl hp
    refine ⟨fun hf => ?_, fun hf => ?_⟩
    · have hrew : Rewrites s _ [] _ l _ := .putPhase (p := .opening d (f - 1) r task) hw (some s.stepMs) fun hfresh =>
        .inl (by rw [hp]; exact ⟨hfresh, laneDemand_opening_step d f r task⟩)
      obtain ⟨t, ht, hout, hun⟩ :=
        hrew.move.expires hg hlive hm (exec_openingStep s l) hal (openingStep_advances hp hf) (by decide) (by decide)
      exact ⟨t, ht, hout.event, hun, hrew.writesLane rfl hout.engine⟩
    · have hcarried : ∀ u, task = some u → u.lane = l := fun u hu => hg.lanes.carried l u (by rw [hp]; exact hu)
      have hrew : Rewrites s _ [.taskDone, .taskUnsuccessful] _ l _ :=
        (Rewrites.putPhase_stale (p := .run d) hw none rfl).openingDone hcarried (by simp)
      obtain ⟨t, ht, hout, hun⟩ := (hrew.move.trans (.scan (by simp) _)).expires hg hlive hm (exec_openingStep s l)
        hal (openingStep_runs hp hf) (by decide) (by decide)
      refine ⟨t, ht, hout.event, hun, ?_, hout.engine.trans hrew.scan⟩
      have hdone : s.RaisedTimes ((s.putPhase l (.run d) none).openingDone task) .taskDone task.toList.length :=
        openingDone_raisedTimes (s.putPhase l (.run d) none) task
      exact hout.raised _ _ (by decide) (by decide) (hdone.scan (by decide))

end Sys2Proof.Machine
end

