-- ==== Sys2Proof/Proofs/LaneClearance.lean ====
section
/-! PROOFS. The clearance of a lane, its confirm window, and CONFIRM-CLEAR: obligations O40 and O44. -/

namespace Sys2Proof.Machine

/-! ### The condition CLEARANCE_CONFIRM_DUE -/

/-- A settled part has CLEARANCE_CONFIRM_DUE active while a confirm window is open (R30, R190). -/
theorem State.Settled.confirmDue {t : State} (hs : t.Settled) :
    hasFlag t.attn.active .clearanceConfirmDue = t.anyWindow := by
  have h : t.reportConditions.attn.active.getLsbD 2 = t.attn.active.getLsbD 2 := by rw [hs.conditions]
  rw [State.reportConditions_active] at h
  exact h.symm

theorem State.anyWindow_iff (s : State) :
    s.anyWindow = true ↔ ∃ m, m < s.l ∧ ∃ d c task, (s.lane m).phase = .clearance d c true task := by
  unfold State.anyWindow
  simp only [State.laneNumbers, List.any_eq_true, List.mem_range]
  refine exists_congr fun m => and_congr_right fun _ => ?_
  cases (s.lane m).phase with
  | clearance d c w task => simp [LanePhase.windowOpen]
  | _ => simp [LanePhase.windowOpen]

/-- A scan opens and closes no confirm window. -/
theorem scanQueue_window (rest kept : List Task) (v : State) (m : Nat) :
    ((v.scanQueue kept rest).lane m).phase.windowOpen = (v.lane m).phase.windowOpen := by
  induction rest generalizing v kept with
  | nil => rfl
  | cons t rest ih =>
    have hset : ∀ (r : LaneRec), r.phase ≠ .shut → r.phase.windowOpen = (v.lane t.lane).phase.windowOpen →
        (((v.setQueue (kept ++ rest)).setLane t.lane r).lane m).phase.windowOpen = (v.lane m).phase.windowOpen := by
      intro r hr hwin
      by_cases hm : m = t.lane
      · subst hm; rw [State.setLane_sweeping hr, hwin]
      · rw [State.setLane_lane_ne _ _ hm]; rfl
    have hend : ∀ o why, (((v.endTask t o why).scanQueue kept rest).lane m).phase.windowOpen =
        (v.lane m).phase.windowOpen := fun o why => by rw [ih, State.endTask_phase]
    unfold State.scanQueue
    split
    · exact ih _ v
    · split
      · rename_i hp _
        exact hset _ (by simp) (by rw [hp]; rfl)
      · exact hend _ _
      · exact hend _ _
      · split
        · exact hend _ _
        · rename_i hp _ _ _
          exact hset _ (by simp) (by rw [hp]; rfl)
      all_goals exact ih _ v

theorem scan_window (v : State) (m : Nat) : (v.scan.lane m).phase.windowOpen = (v.lane m).phase.windowOpen := by
  unfold State.scan
  split
  · exact scanQueue_window _ _ v m
  · rfl

/-! ### The expiries in CLEARANCE (R30, R31) -/

section Expiries

variable {s : State} {l : Nat} {d : Face} {c w : Bool} {task : Task}

theorem exec_clearanceTimer (s : State) (l : Nat) :
    exec (.clearanceTimerExpiry l) s = eventIf s (s.inClearance l false) fun s => s.clearanceEnds l := rfl

theorem exec_confirmWindow (s : State) (l : Nat) :
    exec (.confirmWindowExpiry l) s = eventIf s (s.inClearance l true) fun s => s.windowEnds l := rfl

theorem State.inClearance_of (hl : l < s.l) (hp : (s.lane l).phase = .clearance d c w task) : s.inClearance l w = true := by
  simp [State.inClearance, hl, hp]

theorem State.needsConfirm_iff (s : State) (l : Nat) :
    s.needsConfirm l = true ↔ ∃ k, s.laneCfg l = some k ∧ k.clearance = .confirmed := by
  unfold State.needsConfirm
  cases s.laneCfg l <;> simp

theorem clearanceEnds_opens (hp : (s.lane l).phase = .clearance d false w task) (hc : s.needsConfirm l = true) :
    s.clearanceEnds l =
      (s.putPhase l (.clearance d false true task) (some s.confirmMs)).raise .clearanceConfirmDue := by
  unfold State.clearanceEnds
  rw [hp]
  exact if_pos (by rw [hc]; rfl)

theorem clearanceEnds_shuts (hp : (s.lane l).phase = .clearance d c w task) (hc : ¬s.needsConfirm l = true ∨ c = true) :
    s.clearanceEnds l = ((s.putPhase l .shut none).endTask task .done none).scan := by
  unfold State.clearanceEnds
  rw [hp]
  refine if_neg fun h => ?_
  rw [Bool.and_eq_true, Bool.not_eq_true'] at h
  rcases hc with hc | hc
  · exact hc h.1
  · rw [hc] at h; cases h.2

theorem windowEnds_shuts (hp : (s.lane l).phase = .clearance d c w task) :
    s.windowEnds l = (((s.putPhase l .shut none).endTask task .stalled none).cancelOpens l).scan := by
  unfold State.windowEnds
  rw [hp]

/-- A lane that becomes SHUT as its task ends (R30, R31, R32, R39). -/
theorem Rewrites.shuts {kinds : List AttnKind} (hg : s.Good) (hp : (s.lane l).phase.task = some task) (o : TaskOutcome)
    (hk : (if o = .done then AttnKind.taskDone else .taskUnsuccessful) ∈ kinds) :
    Rewrites s ((s.putPhase l .shut none).endTask task o none) kinds s.engine.queue l
      { s.lane l with phase := .shut, timer := none, last := some (s.outcomeOf task o none) } :=
  (Rewrites.putPhase_stale hg.lanes_wf none rfl).endTask (hg.lanes.carried l task hp) o none hk

/-- Raisings of the engine's own, and of the scan that follows. -/
theorem EngineOutcome.atLeast_scan {u v t : State} {kinds : List AttnKind} {n : Nat} (h : EngineOutcome s u t kinds)
    (hu : u = v.scan) (hr : s.RaisedTimes v .taskUnsuccessful n) : s.RaisedAtLeast t .taskUnsuccessful n := by
  subst hu
  exact h.raisedAtLeast ((EngineMove.scan (kinds := [.taskUnsuccessful]) (by simp) v).raises.keepsAtLeast (hr.atLeast (Nat.le_refl n)))
    (by decide) (by decide)

/-- A kind is raised besides. -/
theorem Rewrites.raise {v : State} {kinds : List AttnKind} {q : List Task} {r : LaneRec} (h : Rewrites s v kinds q l r)
    {k : AttnKind} (hk : k ∈ kinds) : Rewrites s (v.raise k) kinds q l r :=
  ⟨h.table, h.move.trans (.raise v hk), h.self, h.other, h.queue, h.plans⟩

/-- CLEARANCE_CONFIRM_DUE after an event in which the engine has shut a lane and run the scan (R31, R190). -/
theorem Rewrites.confirmDue {v t : State} {kinds : List AttnKind} {q : List Task} {r : LaneRec} (hg : s.Good)
    (h : Rewrites s v kinds q l r) (hr : r.phase = .shut) (hs : t.Settled) (hl : t.l = s.l) (he : t.engine = v.scan.engine) :
    hasFlag t.attn.active .clearanceConfirmDue = true ↔
      ∃ m, m ≠ l ∧ ∃ d c task, (s.lane m).phase = .clearance d c true task := by
  have hwin : ∀ m, (t.lane m).phase.windowOpen = (v.lane m).phase.windowOpen := fun m => by
    rw [State.lane_of_engine he, scan_window]
  have hopen : ∀ p : LanePhase, (∃ d c task, p = .clearance d c true task) ↔ p.windowOpen = true := fun p => by
    cases p with
    | clearance d c w task => simp [LanePhase.windowOpen]
    | _ => simp [LanePhase.windowOpen]
  rw [hs.confirmDue, State.anyWindow_iff]
  simp only [hopen, hwin, hl]
  refine exists_congr fun m => ⟨fun ⟨_, hm⟩ => ?_, fun ⟨hne, hm⟩ => ?_⟩
  · by_cases hml : m = l
    · rw [hml, h.self, hr] at hm; cases hm
    · exact ⟨hml, h.other m hml ▸ hm⟩
  · refine ⟨?_, by rwa [h.other m hne]⟩
    by_contra hlt
    rw [hg.lanes.outside m (Nat.le_of_not_lt hlt)] at hm
    cases hm

end Expiries

/-- Settles O44: each expiry is one move of the engine, and a scan but where the confirm window opens. -/
theorem clearanceExpiries : Obligations.ClearanceExpiries := by
  intro s l d c task hg hlive hl
  refine ⟨fun hp => ⟨fun hconf hc => ?_, fun hn => ?_⟩, fun hp => ?_⟩
  · subst hc
    have hm := hg.run_of_phase (l := l) (by rw [hp]; simp)
    have hrew : Rewrites s _ [.clearanceConfirmDue] _ l _ :=
      (Rewrites.putPhase_stale (p := .clearance d false true task) hg.lanes_wf (some s.confirmMs) rfl).raise
        (k := .clearanceConfirmDue) (by simp)
    obtain ⟨t, ht, hout, hun⟩ := hrew.move.expires hg hlive hm (exec_clearanceTimer s l) (State.inClearance_of hl hp)
      (clearanceEnds_opens hp ((s.needsConfirm_iff l).2 hconf)) (by decide) (by decide)
    have hwrites := hrew.writesLane rfl hout.engine
    have hone : s.RaisedTimes _ .clearanceConfirmDue 1 :=
      raise_raisedTimes (s.putPhase l (.clearance d false true task) (some s.confirmMs)) .clearanceConfirmDue
    refine ⟨t, ht, hout.event, hun, hout.raised _ 1 (by decide) (by decide) hone, ?_, hwrites⟩
    rw [hout.settled.confirmDue, State.anyWindow_iff]
    have htl : t.l = s.l := by unfold State.l; rw [hout.event.store.1]
    exact ⟨l, htl ▸ hl, d, false, task, by rw [hwrites.1]⟩
  · have hm := hg.run_of_phase (l := l) (by rw [hp]; simp)
    have hrew : Rewrites s _ [.taskDone, .taskUnsuccessful] _ l _ :=
      .shuts (task := task) hg (by rw [hp]; rfl) .done (by simp)
    obtain ⟨t, ht, hout, hun⟩ := (hrew.move.trans (.scan (by simp) _)).expires hg hlive hm (exec_clearanceTimer s l)
      (State.inClearance_of hl hp)
      (clearanceEnds_shuts hp (hn.imp_left fun h hc => h ((s.needsConfirm_iff l).1 hc))) (by decide) (by decide)
    have hone : s.RaisedTimes ((s.putPhase l .shut none).endTask task .done none) .taskDone 1 :=
      endTask_raisedTimes (s.putPhase l .shut none) task .done none
    exact ⟨t, ht, hout.event, hun, hout.raised _ 1 (by decide) (by decide) (hone.scan (by decide)),
      hout.engine.trans hrew.scan⟩
  · have hm := hg.run_of_phase (l := l) (by rw [hp]; simp)
    have hrew : Rewrites s _ [.taskUnsuccessful] _ l _ :=
      (Rewrites.shuts (task := task) hg (by rw [hp]; rfl) .stalled (by simp)).cancelOpens (by simp)
    obtain ⟨t, ht, hout, hun⟩ := (hrew.move.trans (.scan (by simp) _)).expires hg hlive hm (exec_confirmWindow s l)
      (State.inClearance_of hl hp) (windowEnds_shuts hp) (by decide) (by decide)
    have htl : t.l = s.l := by unfold State.l; rw [hout.event.store.1]
    have hone : s.RaisedTimes ((s.putPhase l .shut none).endTask task .stalled none) .taskUnsuccessful 1 :=
      endTask_raisedTimes (s.putPhase l .shut none) task .stalled none
    exact ⟨t, ht, hout.event, hun, hout.atLeast_scan rfl (hone.trans (State.cancelOpens_raisedTimes _ l)),
      hrew.confirmDue hg rfl hout.settled htl hout.engine, hout.engine.trans hrew.scan⟩

end Sys2Proof.Machine
end

