-- ==== Sys2Proof/Proofs/ConfirmAbort.lean ====
section
/-! PROOFS. CONFIRM-CLEAR and ABORT-LANE: obligations O40 and O41. -/

namespace Sys2Proof.Machine

section Acts

variable {s : State} {lane : Octet} {d : Face} {c w : Bool} {task : Task}

/-- A lane's clearance notes that it is confirmed: no demand and no condition follows (R32). -/
theorem quiet_confirm (hp : (s.lane lane.toNat).phase = .clearance d c false task) :
    Quiet s (s.setLane lane.toNat { s.lane lane.toNat with phase := .clearance d true false task }) := by
  have hlane : ∀ m, (s.setLane lane.toNat { s.lane lane.toNat with phase := .clearance d true false task }).lane m =
      if m = lane.toNat then { s.lane lane.toNat with phase := .clearance d true false task } else s.lane m := fun m => by
    split
    · rename_i hm; rw [hm]; exact State.setLane_sweeping (by simp)
    · rename_i hm; exact State.setLane_lane_ne _ _ hm
  refine ⟨⟨rfl, rfl, rfl, fun m f pos => ?_, fun _ => rfl, fun _ => rfl, fun _ => rfl, fun _ => rfl, fun _ _ => rfl⟩, rfl,
    rfl, rfl, rfl, rfl, rfl, ?_, rfl, rfl⟩
  · rw [hlane]
    split
    · rename_i hm; rw [hm, hp]; rfl
    · rfl
  · have hwin : ∀ m, ((s.setLane lane.toNat { s.lane lane.toNat with phase := .clearance d true false task }).lane
        m).phase.windowOpen = (s.lane m).phase.windowOpen := fun m => by
      rw [hlane]
      split
      · rename_i hm; rw [hm, hp]; rfl
      · rfl
    unfold State.anyWindow
    simp only [hwin]
    rfl

theorem actConfirmClear_notes (hl : lane.toNat < s.l) (hp : (s.lane lane.toNat).phase = .clearance d c false task) :
    actConfirmClear s [lane] =
      okWith (s.setLane lane.toNat { s.lane lane.toNat with phase := .clearance d true false task }) [] := by
  simp only [actConfirmClear, oct_cons_zero, withFields_good (laneField hl), hp]
  rfl

theorem actConfirmClear_shuts (hl : lane.toNat < s.l) (hp : (s.lane lane.toNat).phase = .clearance d c true task) :
    actConfirmClear s [lane] = okWith ((s.putPhase lane.toNat .shut none).endTask task .done none).scan [] := by
  simp only [actConfirmClear, oct_cons_zero, withFields_good (laneField hl), hp]
  rfl

theorem actConfirmClear_refused (hl : lane.toNat < s.l)
    (hp : ∀ d c w task, (s.lane lane.toNat).phase ≠ .clearance d c w task) :
    actConfirmClear s [lane] = s.wrongLaneState lane.toNat := by
  simp only [actConfirmClear, oct_cons_zero, withFields_good (laneField hl)]
  split
  · rename_i h; exact absurd h (hp _ _ _ _)
  · rename_i h; exact absurd h (hp _ _ _ _)
  all_goals rfl

/-! ### ABORT-LANE (R37 to R40) -/

theorem actAbortLane_eq (hl : lane.toNat < s.l) : actAbortLane s [lane] =
    match (s.lane lane.toNat).phase with
    | .run _ => refuse s 27 0 0
    | .shut => refuse s 27 3 0
    | .closing d f _ t => s.abortClosing lane.toNat d f t
    | .clearance d _ _ t => s.abortClearance lane.toNat d t
    | .opening d _ false t => s.abortOpening lane.toNat d t
    | .opening _ _ true _ => refuse s 28 0 0 := by
  simp only [actAbortLane, oct_cons_zero, withFields_good (laneField hl)] <;> rfl

end Acts

section Aborts

variable {s : State} {l : Nat} {kinds : List AttnKind} {d : Face} {task : Task}

/-- A lane takes a new state as its task ends ABORTED, and its queued OPEN tasks end CANCELLED (R38, R39). -/
theorem Rewrites.aborts (hg : s.Good) (ht : (s.lane l).phase.task = some task) {p : LanePhase} (x : Option Nat)
    (hp : p.freshOpening = false) :
    Rewrites s (((s.putPhase l p x).endTask task .aborted none).cancelOpens l) [.taskUnsuccessful]
      (s.engine.queue.filter fun u => !(u.lane == l && u.kind != .close)) l
      { s.lane l with
        phase := p, timer := x
        last := s.cancelledLast s.engine.queue l (some (s.outcomeOf task .aborted none)) } :=
  ((Rewrites.putPhase_stale hg.lanes_wf x hp).endTask (hg.lanes.carried l task ht) .aborted none (by simp)).cancelOpens
    (by simp)

theorem aborts_raisedTimes (s : State) (l : Nat) (p : LanePhase) (x : Option Nat) (task : Task) :
    s.RaisedTimes (((s.putPhase l p x).endTask task .aborted none).cancelOpens l) .taskUnsuccessful
      (1 + (s.engine.queue.filter fun u => u.lane == l && u.kind != .close).length) := by
  have hone : s.RaisedTimes ((s.putPhase l p x).endTask task .aborted none) .taskUnsuccessful 1 :=
    endTask_raisedTimes (s.putPhase l p x) task .aborted none
  exact hone.trans (State.cancelOpens_raisedTimes _ l)

/-- A lane record is written that is no fresh opening. -/
theorem Rewrites.record (hw : Tab.wf LaneRec.reset s.engine.lanes = true) (q : List Task) {r : LaneRec}
    (hr : r.phase.freshOpening = false) : Rewrites s ((s.setQueue q).setLane l r) kinds q l r where
  table := hw
  move := (EngineMove.setQueue s q).trans (.setLane_stale hr)
  self := (State.setLane_lane _ _ _ _ (by exact hw)).trans (if_pos rfl)
  other _ hm := State.setLane_lane_ne _ _ hm
  queue := rfl
  plans := rfl

/-- The lane opens anew after a start check that it passes (R33, R39). -/
theorem Rewrites.opens {v : State} {q : List Task} {r : LaneRec} (h : Rewrites s v kinds q l r) (p : LanePhase)
    (x : Option Nat) (hc : v.startCheck l = none) :
    Rewrites s (v.putPhase l p x) kinds q l { r with phase := p, timer := x } where
  table := h.table
  move := h.move.trans (.setLane fun _ => .inr (State.shutShown_of_startCheck hc))
  self := by
    show (v.setLane l _).lane l = _
    rw [State.setLane_lane _ _ _ _ (h.move.table h.table), if_pos rfl, h.self]
  other m hm := (State.setLane_lane_ne _ _ hm).trans (h.other m hm)
  queue := h.queue
  plans := h.plans

/-- Whether the sweep is free is as before where a lane holds it neither before nor after (R23). -/
theorem Rewrites.sweepFree {v : State} {q : List Task} {r : LaneRec} (h : Rewrites s v kinds q l r)
    (hr : r.phase.sweeping = (s.lane l).phase.sweeping) : v.sweepFree = s.sweepFree := by
  have hsweep : ∀ m, (v.lane m).phase.sweeping = (s.lane m).phase.sweeping := fun m => by
    by_cases hm : m = l
    · rw [hm, h.self, hr]
    · rw [h.other m hm]
  unfold State.sweepFree State.laneNumbers
  simp only [hsweep, h.move.step.l]

theorem abortClearance_opens {v : State} (hv : v = ((s.putPhase l .shut none).endTask task .aborted none).cancelOpens l)
    (hf : v.sweepFree = true) (hc : v.startCheck l = none) :
    s.abortClearance l d task =
      okWith (v.putPhase l (.opening d (v.n - 1) false none) (some v.stepMs)) [octet 4] := by
  subst hv
  exact if_pos ⟨hf, hc⟩

theorem abortClearance_shuts {v : State} (hv : v = ((s.putPhase l .shut none).endTask task .aborted none).cancelOpens l)
    (hb : ¬(v.sweepFree = true ∧ v.startCheck l = none)) : s.abortClearance l d task = okWith v.scan [octet 3] := by
  subst hv
  exact if_neg hb

/-- The task that an opening, tasked or not, leaves its outcome for (R36, R40). -/
theorem Rewrites.endOpening {v : State} {q : List Task} {r : LaneRec} (h : Rewrites s v kinds q l r) {u : Option Task}
    (hu : ∀ t, u = some t → t.lane = l) {o : TaskOutcome} (ho : o ≠ .done) (why : Option Reason)
    (hk : AttnKind.taskUnsuccessful ∈ kinds) :
    Rewrites s (v.endOpening l d u o why) kinds q l
      { r with last := some (s.outcomeOf (u.getD ⟨l, .opn d, .host, none, none⟩) o why) } := by
  cases u with
  | some t => exact h.endTask (hu t rfl) o why (by rwa [if_neg ho])
  | none =>
    have hout := h.endTask (t := ⟨l, .opn d, .host, none, none⟩) rfl o why (by rwa [if_neg ho])
    have he : v.endTask ⟨l, .opn d, .host, none, none⟩ o why = v.endOpening l d none o why := by
      unfold State.endTask
      rw [if_neg ho]
      rfl
    exact he ▸ hout

theorem endOpening_raisedTimes (s : State) (u : Option Task) {o : TaskOutcome} (ho : o ≠ .done) (why : Option Reason) :
    s.RaisedTimes (s.endOpening l d u o why) .taskUnsuccessful 1 := by
  cases u with
  | some t =>
    have h := endTask_raisedTimes s t o why
    rwa [if_neg ho] at h
  | none =>
    have h := endTask_raisedTimes s ⟨l, .opn d, .host, none, none⟩ o why
    rw [if_neg ho] at h
    unfold State.endTask at h
    rw [if_neg ho] at h
    exact h

end Aborts

/-- Settles O40. -/
theorem confirmClear : Obligations.ConfirmClear := by
  intro s lane hm hl
  refine ⟨fun d c task hp tag ht => ?_, fun d c task hp => ?_, fun hp => ?_⟩
  · exact runCommand_of_quiet ht rfl (runOnly_accept hm) (actConfirmClear_notes hl hp) (quiet_confirm hp)
  · intro tag ht
    have hrew : Rewrites s _ [.taskDone, .taskUnsuccessful] _ lane.toNat _ :=
      .shuts (task := task) ht.1 (by rw [hp]; rfl) .done (by simp)
    have hone : s.RaisedTimes ((s.putPhase lane.toNat .shut none).endTask task .done none) .taskDone 1 :=
      endTask_raisedTimes (s.putPhase lane.toNat .shut none) task .done none
    exact (hrew.move.trans (.scan (by simp) _)).performs (fun _ => rfl) rfl hm rfl (actConfirmClear_shuts hl hp) (by decide)
      (by decide) (fun _ t hout =>
        ⟨hout.event, hout.raised _ 1 (by decide) (by decide) (hone.scan (by decide)), hout.engine.trans hrew.scan⟩) tag ht
  · exact answers_refused (fun _ => rfl) rfl (runOnly_accept hm) (actConfirmClear_refused hl hp)

/-- Settles O41: the branches of the lane's state. -/
theorem abortLane : Obligations.AbortLane := by
  intro s lane hm hl
  have hrow := fun tag => (rfl : exec (.abortLane tag [lane]) s = runCommand 25 1 .runOnly actAbortLane tag [lane] s)
  refine ⟨fun d hp => ?_, fun hp => ?_, fun d f task hp => ?_, fun d m task hp => ?_, fun d f m task hp hf => ?_,
    fun d c w task hp => ⟨fun hfree hcheck => ?_, fun hbar => ?_⟩, fun d f task hp => ?_⟩
  · exact answers_refused hrow rfl (runOnly_accept hm) ((actAbortLane_eq hl).trans (by rw [hp]))
  · exact answers_refused hrow rfl (runOnly_accept hm) ((actAbortLane_eq hl).trans (by rw [hp]))
  · exact answers_refused hrow rfl (runOnly_accept hm) ((actAbortLane_eq hl).trans (by rw [hp]))
  · intro tag ht
    have hrew := Rewrites.aborts (p := .run d) ht.1 (l := lane.toNat) (task := task) (by rw [hp]; rfl) none rfl
    exact (hrew.move.trans (.scan (by simp) _)).performs hrow rfl hm rfl
      ((actAbortLane_eq hl).trans (by rw [hp]; exact if_pos rfl)) (by decide) (by decide) (fun _ t hout =>
        ⟨hout.event, hout.atLeast_scan rfl (aborts_raisedTimes s _ _ _ task), hout.engine.trans hrew.scan⟩) tag ht
  · intro tag ht
    have hrew := Rewrites.aborts (p := .opening d f true none) ht.1 (l := lane.toNat) (task := task) (by rw [hp]; rfl)
      (some s.stepMs) rfl
    exact hrew.move.performs hrow rfl hm rfl ((actAbortLane_eq hl).trans (by rw [hp]; exact if_neg (by omega)))
      (by decide) (by decide) (fun _ t hout =>
        ⟨hout.event, hout.raisedAtLeast ((aborts_raisedTimes s _ _ _ task).atLeast (Nat.le_refl _)) (by decide) (by decide),
          hout.engine.trans hrew.engine⟩) tag ht
  · intro tag ht
    have hrew := Rewrites.aborts (p := .shut) ht.1 (l := lane.toNat) (task := task) (by rw [hp]; rfl) none rfl
    have hf := (hrew.sweepFree (by rw [hp]; rfl)).trans hfree
    have hc := (hrew.sameLanes.sameSweeps.startCheck _).trans hcheck
    have hopen := hrew.opens (.opening d (s.n - 1) false none) (some s.stepMs) hc
    have hact : s.abortClearance lane.toNat d task = _ := abortClearance_opens rfl hf hc
    rw [hrew.move.step.n, hrew.move.step.stepMs] at hact
    refine hopen.move.performs hrow rfl hm rfl ((actAbortLane_eq hl).trans (by rw [hp]; exact hact))
      (by decide) (by decide) (fun _ t hout =>
        ⟨hout.event, hout.raisedAtLeast ((aborts_raisedTimes s _ _ _ task).atLeast (Nat.le_refl _)) (by decide) (by decide),
          hout.engine.trans (hopen.engine.trans ?_)⟩) tag ht
    exact ((Rewrites.record (kinds := []) ht.1.lanes_wf _ rfl).opens _ _ hcheck).engine.symm
  · intro tag ht
    have hrew := Rewrites.aborts (p := .shut) ht.1 (l := lane.toNat) (task := task) (by rw [hp]; rfl) none rfl
    have hf := hrew.sweepFree (by rw [hp]; rfl)
    have hb : ¬(_ ∧ _) := fun h => hbar.elim
      (fun hs => Bool.false_ne_true (hs.symm.trans (hf.symm.trans h.1)))
      fun hc => hc ((hrew.sameLanes.sameSweeps.startCheck _).symm.trans h.2)
    exact (hrew.move.trans (.scan (by simp) _)).performs hrow rfl hm rfl
      ((actAbortLane_eq hl).trans (by rw [hp]; exact abortClearance_shuts rfl hb)) (by decide) (by decide) (fun _ t hout =>
        ⟨hout.event, hout.atLeast_scan rfl (aborts_raisedTimes s _ _ _ task), hout.engine.trans hrew.scan⟩) tag ht
  · intro tag ht
    have hcarried : ∀ t, task = some t → t.lane = lane.toNat := fun t h => ht.1.lanes.carried _ t (by rw [hp]; exact h)
    have hrew : Rewrites s _ [.taskUnsuccessful] _ lane.toNat _ :=
      (Rewrites.putPhase_stale (p := .shut) ht.1.lanes_wf none rfl).endOpening (d := d) hcarried (o := .aborted) (by decide)
        none (by simp)
    have hone : s.RaisedTimes ((s.putPhase lane.toNat .shut none).endOpening lane.toNat d task .aborted none)
        .taskUnsuccessful 1 := endOpening_raisedTimes (s.putPhase lane.toNat .shut none) task (by decide) none
    exact (hrew.move.trans (.scan (by simp) _)).performs hrow rfl hm rfl
      ((actAbortLane_eq hl).trans (by rw [hp]; rfl)) (by decide) (by decide) (fun _ t hout =>
        ⟨hout.event, hout.atLeast_scan rfl hone, hout.engine.trans hrew.scan⟩) tag ht

end Sys2Proof.Machine
end

