-- ==== Sys2Proof/Proofs/CloseNowCommand.lean ====
section
/-! PROOFS. CLOSE-NOW: obligation O42 (R27, R41, R42). -/

namespace Sys2Proof.Machine

/-! ### The merge fallback (R27) -/

section Merge

variable {s v : State} {l : Nat}

theorem State.putPhase_lane (hw : Tab.wf LaneRec.reset v.engine.lanes = true) (p : LanePhase) (x : Option Nat) (m : Nat) :
    (v.putPhase l p x).lane m = if m = l then { v.lane l with phase := p, timer := x } else v.lane m :=
  State.setLane_lane _ _ _ _ hw

/-- The merge fallback over the first `k` lanes. -/
theorem mergeFold_lane (hw : Tab.wf LaneRec.reset v.engine.lanes = true) (target k m : Nat) :
    let u := (List.range k).foldl
      (fun s l => s.putPhase l ((s.lane l).phase.unmerge l target) (s.lane l).timer) v
    Tab.wf LaneRec.reset u.engine.lanes = true ∧ u.engine.queue = v.engine.queue ∧ u.engine.plans = v.engine.plans ∧
      u.lane m = if m < k then { v.lane m with phase := (v.lane m).phase.unmerge m target } else v.lane m := by
  induction k generalizing m with
  | zero => exact ⟨hw, rfl, rfl, rfl⟩
  | succ k ih =>
    rw [List.range_succ, List.foldl_append]
    dsimp only [List.foldl_cons, List.foldl_nil]
    obtain ⟨hwf, hq, hp, hm⟩ := ih m
    obtain ⟨-, -, -, hk⟩ := ih k
    refine ⟨Tab.wf_set hwf, hq, hp, ?_⟩
    rw [State.putPhase_lane hwf, hm, hk]
    by_cases hmk : m = k
    · subst hmk
      simp
    · rw [if_neg hmk]
      have : m < k + 1 ↔ m < k := by omega
      simp only [this]

theorem mergeFallback_lane (hw : Tab.wf LaneRec.reset v.engine.lanes = true) (target m : Nat) :
    (v.mergeFallback target).lane m =
      if m < v.l then { v.lane m with phase := (v.lane m).phase.unmerge m target } else v.lane m :=
  (mergeFold_lane hw target v.l m).2.2.2

theorem mergeFallback_queue (hw : Tab.wf LaneRec.reset v.engine.lanes = true) (target : Nat) :
    (v.mergeFallback target).engine.queue = v.engine.queue := (mergeFold_lane hw target v.l 0).2.1

theorem mergeFallback_plans (hw : Tab.wf LaneRec.reset v.engine.lanes = true) (target : Nat) :
    (v.mergeFallback target).engine.plans = v.engine.plans := (mergeFold_lane hw target v.l 0).2.2.1

theorem LanePhase.unmerge_eq {p : LanePhase} (hp : ∀ d f a t, p ≠ .closing d f a t) (m target : Nat) :
    p.unmerge m target = p := by
  cases p with
  | closing d f a t => exact absurd rfl (hp d f a t)
  | _ => rfl

/-- The merge fallback takes SLOW, and starts nothing. -/
theorem EngineMove.mergeFallback {kinds : List AttnKind} (v : State) (target : Nat) :
    EngineMove v (v.mergeFallback target) kinds := by
  have h : ∀ (ls : List Nat) (u : State), EngineMove u
      (ls.foldl (fun s l => s.putPhase l ((s.lane l).phase.unmerge l target) (s.lane l).timer) u) kinds := by
    intro ls
    induction ls with
    | nil => exact .refl
    | cons l ls ih =>
      refine fun u => .trans (.setLane fun hf => .inl ?_) (ih _)
      have hsame : (u.lane l).phase.unmerge l target = (u.lane l).phase := by
        refine LanePhase.unmerge_eq (fun d f a t hp => ?_) _ _
        dsimp only at hf
        rw [hp] at hf
        cases hf
      dsimp only at hf ⊢
      rw [hsame] at hf ⊢
      exact ⟨hf, fun _ _ => .inr rfl⟩
  exact h _ v

/-- The merge aspect of lane `m` points toward lane `l`: for face A DIVERT_L points to the lane below, for face B DIVERT_R
(R26). -/
def mergesToward (l m : Nat) (d : Face) (a : Aspect) : Bool :=
  match d, a with
  | .a, .divertL => m == l + 1
  | .a, .divertR => l == m + 1
  | .b, .divertL => l == m + 1
  | .b, .divertR => m == l + 1
  | _, _ => false

theorem mergeTarget_iff (m l : Nat) (d : Face) (a : Aspect) :
    mergeTarget m d a = some l ↔ mergesToward l m d a = true := by
  have hlow : lowerLane m = some l ↔ m = l + 1 := by
    unfold lowerLane
    split
    · simp; omega
    · simp only [Option.some.injEq]; omega
  have hhigh : m + 1 = l ↔ l = m + 1 := eq_comm
  cases d <;> cases a <;> simp [mergeTarget, mergeToward, mergesToward, hlow, hhigh]

end Merge

/-! ### The lane that is closed at once (R41) -/

section Closed

variable {s v : State} {l : Nat} {kinds : List AttnKind} {q : List Task} {r : LaneRec}

/-- The last outcome of a task that is pre-empted, where the lane carries one (R41). -/
def State.preEmptedLast (s : State) (task : Option Task) (last : Option LastOutcome) : Option LastOutcome :=
  match task with
  | some u => some (s.outcomeOf u .preEmpted none)
  | none => last

theorem Rewrites.preEmpt (h : Rewrites s v kinds q l r) {task : Option Task} (ht : ∀ u, task = some u → u.lane = l)
    (hk : AttnKind.taskUnsuccessful ∈ kinds) :
    Rewrites s (v.preEmpt task) kinds q l { r with last := s.preEmptedLast task r.last } := by
  cases task with
  | none => exact h
  | some u => exact h.endTask (ht u rfl) .preEmpted none hk

theorem preEmpt_raisedTimes (s : State) (task : Option Task) :
    s.RaisedTimes (s.preEmpt task) .taskUnsuccessful task.toList.length := by
  cases task with
  | none => exact .refl s _
  | some u => exact endTask_raisedTimes s u .preEmpted none

/-- The last outcome of a lane whose queued tasks all end CANCELLED (R42). -/
def State.emptiedLast (s : State) (q : List Task) (l : Nat) (last : Option LastOutcome) : Option LastOutcome :=
  match (q.filter fun u => u.lane == l).getLast? with
  | some u => some (s.outcomeOf u .cancelled none)
  | none => last

/-- Every queued task of the lane ends CANCELLED (R42). -/
theorem Rewrites.empties (h : Rewrites s v kinds q l r) (hk : AttnKind.taskUnsuccessful ∈ kinds) :
    Rewrites s (v.removeQueued (fun t => t.lane == l) .cancelled) kinds (q.filter fun u => u.lane != l) l
      { r with last := s.emptiedLast q l r.last } where
  table := h.table
  move := h.move.trans (.removeQueued v _ _ (by decide) hk)
  self := by
    rw [State.removeQueued_lane, List.filter_filter, h.self, h.queue]
    unfold State.emptiedLast State.outcomeOf
    simp only [Bool.and_self, h.move.step.stamp] <;> rfl
  other m hm := by
    have hnone : (v.engine.queue.filter fun a => a.lane == m && a.lane == l) = [] := by
      rw [List.filter_eq_nil_iff]
      intro u _ hu
      simp only [Bool.and_eq_true, beq_iff_eq] at hu
      exact hm (hu.1.symm.trans hu.2)
    rw [State.removeQueued_lane, List.filter_filter, hnone, ← h.other m hm]
    rfl
  queue := by rw [State.removeQueued_queue, h.queue]; rfl
  plans := (State.removeQueued_plans v _ _).trans h.plans

/-- The record of a lane that CLOSE-NOW has closed. -/
def State.closedRec (s : State) (l : Nat) : LaneRec :=
  { phase := .shut, timer := none, emergency := true
    last := s.emptiedLast s.engine.queue l (s.preEmptedLast (s.lane l).phase.task (s.lane l).last) }

/-- The state in which CLOSE-NOW has closed its lane, the other lanes being as they were. -/
def State.closed (s : State) (l : Nat) : State :=
  ((s.setLane l { s.lane l with phase := .shut, timer := none, emergency := true }).preEmpt
    (s.lane l).phase.task).removeQueued (fun t => t.lane == l) .cancelled

theorem State.closeNow_eq (s : State) (l : Nat) : s.closeNow l = ((s.closed l).mergeFallback l).scan := rfl

theorem Rewrites.closed (hg : s.Good) (l : Nat) :
    Rewrites s (s.closed l) [.taskUnsuccessful] (s.engine.queue.filter fun u => u.lane != l) l (s.closedRec l) := by
  have hset : Rewrites s (s.setLane l { s.lane l with phase := .shut, timer := none, emergency := true })
      [.taskUnsuccessful] s.engine.queue l { s.lane l with phase := .shut, timer := none, emergency := true } :=
    .record hg.lanes_wf s.engine.queue rfl
  exact (hset.preEmpt (hg.lanes.carried l) (by simp)).empties (by simp)

theorem closed_raisedTimes (s : State) (l : Nat) :
    s.RaisedTimes ((s.closed l).mergeFallback l) .taskUnsuccessful
      ((s.lane l).phase.task.toList.length + (s.engine.queue.filter fun u => u.lane == l).length) := by
  have hpre : s.RaisedTimes ((s.setLane l { s.lane l with phase := .shut, timer := none, emergency := true }).preEmpt
      (s.lane l).phase.task) .taskUnsuccessful (s.lane l).phase.task.toList.length :=
    preEmpt_raisedTimes (s.setLane l _) (s.lane l).phase.task
  have hqueue : ((s.setLane l { s.lane l with phase := .shut, timer := none, emergency := true }).preEmpt
      (s.lane l).phase.task).engine.queue = s.engine.queue := by
    cases (s.lane l).phase.task <;> rfl
  have hrem := hpre.trans (State.removeQueued_raisedTimes _ (fun t => t.lane == l) .cancelled (by decide))
  rw [hqueue] at hrem
  exact hrem.before ((EngineMove.mergeFallback (kinds := []) _ l).raises.others _ (by simp))

/-- The lanes after the merge fallback: the closed lane, and closing lanes that merge toward it with SLOW (R27). -/
theorem merged_lane (hg : s.Good) (hl : l < s.l) (m : Nat) :
    ((s.closed l).mergeFallback l).lane m =
      if m = l then s.closedRec l else { s.lane m with phase := (s.lane m).phase.unmerge m l } := by
  have hrew := Rewrites.closed hg l
  rw [mergeFallback_lane (hrew.move.table hrew.table), hrew.move.step.l]
  by_cases hm : m = l
  · subst hm
    rw [if_pos hl, if_pos rfl, hrew.self]
    rfl
  · rw [if_neg hm, hrew.other m hm]
    by_cases hms : m < s.l
    · rw [if_pos hms]
    · rw [if_neg hms, hg.lanes.outside m (Nat.le_of_not_lt hms)]
      rfl

theorem merged_sweeps (hg : s.Good) (hl : l < s.l) (m : Nat) :
    ((s.closed l).mergeFallback l).sweeps m ↔ m ≠ l ∧ s.sweeps m := by
  unfold State.sweeps
  rw [merged_lane hg hl]
  by_cases hm : m = l
  · rw [if_pos hm]
    exact ⟨fun h => (by cases h), fun h => absurd hm h.1⟩
  · rw [if_neg hm]
    simp only [LanePhase.unmerge_sweeping]
    exact ⟨fun h => ⟨hm, h⟩, fun h => h.2⟩

/-- While another lane holds the sweep the scan does nothing (R56). -/
theorem closeNow_held (hg : s.Good) (hl : l < s.l) {m : Nat} (hm : m ≠ l) (hs : s.sweeps m) :
    s.closeNow l = (s.closed l).mergeFallback l := by
  rw [State.closeNow_eq]
  refine State.scan_held _ ?_
  unfold State.sweepFree
  rw [List.all_eq_false]
  have hml : m < s.l := by
    by_contra hn
    unfold State.sweeps at hs
    rw [hg.lanes.outside m (Nat.le_of_not_lt hn)] at hs
    cases hs
  have hlen : ((s.closed l).mergeFallback l).l = s.l :=
    ((Rewrites.closed hg l).move.trans (.mergeFallback _ l)).step.l
  refine ⟨m, List.mem_range.2 (hlen ▸ hml), ?_⟩
  have := (merged_sweeps hg hl m).2 ⟨hm, hs⟩
  unfold State.sweeps at this
  rw [this]
  simp

/-- The closed lane and the tasks of others are all that the scan can leave (R41, R42, R57). -/
theorem closeNow_scan (hg : s.Good) (hl : l < s.l) :
    (s.closeNow l).lane l = s.closedRec l ∧ (s.closeNow l).engine.plans = s.engine.plans ∧
      ∀ u ∈ (s.closeNow l).engine.queue, u.lane ≠ l := by
  have hrew := Rewrites.closed hg l
  have hw := hrew.move.table hrew.table
  have hqueue : ((s.closed l).mergeFallback l).engine.queue = s.engine.queue.filter fun u => u.lane != l :=
    (mergeFallback_queue hw l).trans hrew.queue
  have hplans := (mergeFallback_plans hw l).trans hrew.plans
  have hlane := (merged_lane hg hl l).trans (if_pos rfl)
  have hother : ∀ u ∈ ((s.closed l).mergeFallback l).engine.queue, u.lane ≠ l := fun u hu => by
    rw [hqueue, List.mem_filter] at hu
    simpa using hu.2
  rw [State.closeNow_eq]
  by_cases hex : ∃ m, m ≠ l ∧ s.sweeps m
  · obtain ⟨m, hm, hs⟩ := hex
    have hheld := closeNow_held hg hl hm hs
    rw [State.closeNow_eq] at hheld
    rw [hheld]
    exact ⟨hlane, hplans, hother⟩
  · unfold State.scan
    split
    · have hwalk := scanQueue_walk (kept := []) ((s.closed l).mergeFallback l).engine.queue
        (fun m hm => hex ⟨m, (merged_sweeps hg hl m).1 hm⟩) fun _ h => by cases h
      exact ⟨(hwalk.lane_other hother).trans hlane, hwalk.plans.trans hplans, fun u hu => hother u (hwalk.sublist.subset hu)⟩
    · exact ⟨hlane, hplans, hother⟩

end Closed

/-- Settles O42. -/
theorem closeNow : Obligations.CloseNow := by
  intro s lane hm hl l toward
  have hact : actCloseNow s [lane] = okWith (s.closeNow lane.toNat) [] := by
    simp only [actCloseNow, oct_cons_zero, withFields_good (laneField hl)]
  intro tag ht
  have hg := ht.1
  have hrew := Rewrites.closed hg lane.toNat
  have hw := hrew.move.table hrew.table
  have hmerged := hrew.move.trans (.mergeFallback _ lane.toNat)
  have hqueue := (mergeFallback_queue hw lane.toNat).trans hrew.queue
  refine (hmerged.trans (.scan (by simp) _)).performs (fun _ => rfl) rfl hm rfl hact (by decide) (by decide)
    (fun _ t hout => ?_) tag ht
  obtain ⟨hself, hplans, hother⟩ := closeNow_scan hg hl
  have hlane : ∀ m, t.lane m = (s.closeNow lane.toNat).lane m := State.lane_of_engine hout.engine
  have hheld : ∀ m, m ≠ lane.toNat → s.sweeps m → t.engine.queue = (s.engine.queue.filter fun u => u.lane != lane.toNat) ∧
      ∀ j, j ≠ lane.toNat → t.lane j = { s.lane j with phase := (s.lane j).phase.unmerge j lane.toNat } := fun m hml hs => by
    have hsame := closeNow_held hg hl hml hs
    refine ⟨?_, fun j hj => ?_⟩
    · rw [hout.engine, hsame]; exact hqueue
    · rw [hlane, hsame, merged_lane hg hl, if_neg hj]
  have hkeeps : ∀ m, m ≠ lane.toNat → s.sweeps m → ∀ j, j ≠ m → ∀ k, (s.lane j).phase.unmerge j k = (s.lane j).phase :=
    fun m _ hs j hj k => LanePhase.unmerge_eq (fun d f a task hp => hj (hg.lanes.oneSweep j m (by
      unfold State.sweeps; rw [hp]; rfl) hs)) j k
  refine ⟨hout.event, hout.atLeast_scan rfl (closed_raisedTimes s lane.toNat), ?_, ?_, ?_, ?_, ?_, ?_, ?_, ?_, ?_⟩
  · rw [hout.engine]; exact hplans
  · rw [hlane, hself]; rfl
  · rw [hlane, hself]; rfl
  · rw [hlane, hself]; rfl
  · rw [hlane, hself]; rfl
  · intro u hu
    rw [hout.engine] at hu
    exact hother u hu
  · intro m d f a task hml hp
    have hs : s.sweeps m := by unfold State.sweeps; rw [hp]; rfl
    obtain ⟨hq, hl'⟩ := hheld m hml hs
    refine ⟨hq, fun j hj hjm => ?_, ?_⟩
    · rw [hl' j hj, hkeeps m hml hs j hjm]
    · rw [hl' m hml, hp]
      exact congrArg (fun x => ({ s.lane m with phase := .closing d f x task } : LaneRec))
        (if_congr (mergeTarget_iff m lane.toNat d a) rfl rfl)
  · intro m d f r task hml hp
    have hs : s.sweeps m := by unfold State.sweeps; rw [hp]; rfl
    obtain ⟨hq, hl'⟩ := hheld m hml hs
    refine ⟨hq, fun j hj => ?_⟩
    rw [hl' j hj]
    by_cases hjm : j = m
    · subst hjm
      rw [LanePhase.unmerge_eq (fun d f a task hc => by rw [hc] at hp; cases hp)]
    · rw [hkeeps m hml hs j hjm]
  · intro hfree
    have hlast : (t.lane lane.toNat).last = (s.closedRec lane.toNat).last := by rw [hlane, hself]
    have hnone : ∀ m, m ≠ lane.toNat → ∀ k, (s.lane m).phase.unmerge m k = (s.lane m).phase := fun m hml k =>
      LanePhase.unmerge_eq (fun d f a task hp => by have := hfree m hml; rw [hp] at this; cases this) m k
    have hall : Rewrites s ((s.closed lane.toNat).mergeFallback lane.toNat) [.taskUnsuccessful]
        (s.engine.queue.filter fun u => u.lane != lane.toNat) lane.toNat (s.closedRec lane.toNat) :=
      ⟨hrew.table, hmerged, (merged_lane hg hl _).trans (if_pos rfl),
        fun m hml => by rw [merged_lane hg hl, if_neg hml, hnone m hml], hqueue, (mergeFallback_plans hw _).trans hrew.plans⟩
    show t.engine = (((s.setQueue _).setLane lane.toNat
      { s.lane lane.toNat with
        phase := .shut, timer := none, emergency := true, last := (t.lane lane.toNat).last }).scan).engine
    rw [hlast]
    exact hout.engine.trans hall.scan

end Sys2Proof.Machine
end

