-- ==== Sys2Proof/Proofs/PlanCommands.lean ====
section
/-! PROOFS. SELECT-PLAN and SET-PLAN: obligation O39 (R60 to R63). -/

namespace Sys2Proof.Machine

/-! ### The two tests of R63 -/

section Selection

variable {s : State} {new : List Task} {l : Nat}

theorem foldl_min_eq {ns : List Nat} {a : Nat} (hb : ∀ n ∈ ns, l ≤ n) (ha : l ≤ a) (hmem : a = l ∨ l ∈ ns) :
    ns.foldl min a = l := by
  induction ns generalizing a with
  | nil => exact hmem.resolve_right (by simp)
  | cons n ns ih =>
    have hn := hb n (List.mem_cons_self ..)
    refine ih (fun m hm => hb m (List.mem_cons_of_mem _ hm)) (by omega) ?_
    rcases hmem with hal | hmem
    · exact .inl (by omega)
    · rcases List.mem_cons.1 hmem with hln | hmem
      · exact .inl (by omega)
      · exact .inr hmem

theorem leastOf_eq {ns : List Nat} (hmem : l ∈ ns) (hb : ∀ n ∈ ns, l ≤ n) : leastOf ns = l := by
  cases ns with
  | nil => cases hmem
  | cons n ns => exact foldl_min_eq hb (hb n (List.mem_cons_self ..)) (.inr hmem)

theorem TaskKind.same_iff (k m : TaskKind) : k.same m = true ↔ (k = .close ↔ m = .close) := by
  cases k <;> cases m <;> simp [TaskKind.same]

/-- A new task that a queued HOST task forestalls is one of a lane that clashes (R63). -/
theorem planClashes_iff : s.PlanClashes new l ↔ l ∈ (new.filter (holdsTask s.unmarked)).map (·.lane) := by
  simp only [State.PlanClashes, List.mem_map, List.mem_filter, holdsTask, List.any_eq_true, Bool.and_eq_true,
    beq_iff_eq, TaskKind.same_iff]
  exact ⟨fun ⟨t, ht, hl, u, hu⟩ => ⟨t, ⟨ht, u, hu⟩, hl⟩, fun ⟨t, ⟨ht, u, hu⟩, hl⟩ => ⟨t, ht, hl, u, hu⟩⟩

theorem planClashes_none (h : ∀ l, ¬s.PlanClashes new l) : new.filter (holdsTask s.unmarked) = [] :=
  List.map_eq_nil_iff.1 (List.eq_nil_iff_forall_not_mem.2 fun l hl => h l (planClashes_iff.2 hl))

/-- New tasks take the place of the queued PLAN and SCHEDULE tasks (R63). -/
def State.supersede (s : State) (new : List Task) : State :=
  (s.removeQueued (fun t => t.origin != .host) .superseded).enqueue new

theorem markedTasks_length (s : State) : s.engine.queue.length - s.unmarked.length = s.markedTasks.length := by
  have h := List.length_eq_length_filter_add (l := s.engine.queue) fun t => t.origin == .host
  unfold State.unmarked State.markedTasks
  have hne : (fun t : Task => t.origin != .host) = fun t => !(t.origin == .host) := rfl
  rw [hne]
  omega

variable (o : Origin) (id : Nat)

theorem selectPlan_duplicate (hl : s.PlanClashes (s.expandPlan o id) l)
    (hb : ∀ m, m < l → ¬s.PlanClashes (s.expandPlan o id) m) : s.selectPlan o id = .duplicate l := by
  have hmem := planClashes_iff.1 hl
  have hne : (s.expandPlan o id).filter (holdsTask s.unmarked) ≠ [] := fun h => by rw [h] at hmem; cases hmem
  have hleast := leastOf_eq hmem fun n hn => Nat.le_of_not_lt fun hlt => hb n hlt (planClashes_iff.2 hn)
  unfold State.selectPlan
  dsimp only
  rw [if_pos hne, hleast]

theorem selectPlan_full (h : ∀ l, ¬s.PlanClashes (s.expandPlan o id) l)
    (hf : 8 < s.hostTasks.length + (s.expandPlan o id).length) :
    s.selectPlan o id = .queueFull s.hostTasks.length (s.expandPlan o id).length := by
  unfold State.selectPlan
  dsimp only
  rw [if_neg (fun hne => hne (planClashes_none h))]
  exact if_pos hf

theorem selectPlan_applied (h : ∀ l, ¬s.PlanClashes (s.expandPlan o id) l)
    (hf : s.hostTasks.length + (s.expandPlan o id).length ≤ 8) :
    s.selectPlan o id = .applied (s.supersede (s.expandPlan o id)).scan s.markedTasks.length (s.expandPlan o id).length := by
  unfold State.selectPlan
  dsimp only
  rw [if_neg (fun hne => hne (planClashes_none h)), ← markedTasks_length]
  exact if_neg (Nat.not_lt.2 hf)

variable {id : Octet}

theorem planField (hid : okPlan id.toNat = true) : firstBad [(okPlan id.toNat, 0)] = none := by
  rw [firstBad_cons, if_pos hid]
  rfl

theorem actSelectPlan_duplicate (hid : okPlan id.toNat = true) (h : s.selectPlan .plan id.toNat = .duplicate l) :
    actSelectPlan s [id] = refuse s 24 l 0 := by
  simp only [actSelectPlan, oct_cons_zero, withFields_good (planField hid), h]

theorem actSelectPlan_full (hid : okPlan id.toNat = true) {m n : Nat} (h : s.selectPlan .plan id.toNat = .queueFull m n) :
    actSelectPlan s [id] = refuse s 25 m n := by
  simp only [actSelectPlan, oct_cons_zero, withFields_good (planField hid), h]

theorem actSelectPlan_applied (hid : okPlan id.toNat = true) {u : State} {m n : Nat}
    (h : s.selectPlan .plan id.toNat = .applied u m n) : actSelectPlan s [id] = acceptedWith u (o1 m ++ o1 n) := by
  simp only [actSelectPlan, oct_cons_zero, withFields_good (planField hid), h]

end Selection

/-! ### What the new tasks supersede -/

section Supersede

variable {s t : State} {new : List Task}

theorem EngineMove.supersede {kinds : List AttnKind} (hk : AttnKind.taskUnsuccessful ∈ kinds) (s : State) (new : List Task) :
    EngineMove s (s.supersede new) kinds := (EngineMove.removeQueued s _ _ (by decide) hk).trans (.setQueue _ _)

theorem supersede_raisedTimes (s : State) (new : List Task) :
    s.RaisedTimes (s.supersede new) .taskUnsuccessful s.markedTasks.length :=
  (State.removeQueued_raisedTimes s _ .superseded (by decide)).before (.of_attn rfl)

theorem supersede_queue (s : State) (new : List Task) : (s.supersede new).engine.queue = s.hostTasks ++ new := by
  have hne : (fun t : Task => !(t.origin != .host)) = fun t => t.origin == .host := by
    funext t; simp [bne]
  show (s.removeQueued _ _).engine.queue ++ new = _
  rw [State.removeQueued_queue, hne]
  rfl

/-- States that two moves of the engine leave, and whose lane records read alike. -/
theorem SameLanes.of_reads {v w : State} {kinds : List AttnKind} (hv : EngineMove s v kinds) (hw : EngineMove s w kinds)
    (ht : Tab.wf LaneRec.reset s.engine.lanes = true) (hl : ∀ l, w.lane l = v.lane l)
    (hp : w.engine.plans = v.engine.plans) : SameLanes v w :=
  ⟨(hv.step.symm.trans hw.step).sameReads, Tab.ext (hw.table ht) (hv.table ht) hl, hp⟩

/-- What the applied tasks of a plan leave of the engine (R63). -/
theorem planApplied_of (he : t.engine = (s.supersede new).scan.engine)
    (hr : s.RaisedAtLeast t .taskUnsuccessful s.markedTasks.length) : s.PlanApplied t new := by
  have hmove := EngineMove.supersede (kinds := [.taskUnsuccessful]) (by simp) s new
  have hsame : SameLanes { s with engine := (s.supersede new).engine } (s.supersede new) :=
    ⟨(show EngineStep { s with engine := (s.supersede new).engine } _ from hmove.step).sameReads, rfl, rfl⟩
  refine ⟨hr, { s with engine := (s.supersede new).engine }, rfl,
    State.removeQueued_plans s _ _, supersede_queue s new, fun l => ?_, ?_, fun hf => ?_⟩
  · exact State.removeQueued_lane s (fun t => t.origin != .host) .superseded l
  · rw [he]
    exact hsame.scan rfl
  · have hfree : (s.supersede new).sweepFree = false := by
      unfold State.sweepFree at hf ⊢
      have hphase : ∀ l, ((s.supersede new).lane l).phase = (s.lane l).phase := State.removeQueued_phase s _ _
      unfold State.laneNumbers at hf ⊢
      simpa only [hphase, hmove.step.l] using hf
    rw [he, State.scan_held _ hfree]

end Supersede

/-! ### SET-PLAN (R61) -/

section SetPlan

variable {s : State} {b : List Octet}

/-- A target contradicts the kind of its lane (R12, R61). -/
theorem State.contradicts_target (t : Target) (l : Nat) : s.contradicts t l = true ↔ ∃ c, s.laneCfg l = some c ∧
    ((c.kind = .fixedA ∧ t = .dir .b) ∨ (c.kind = .fixedB ∧ t = .dir .a)) := by
  unfold State.contradicts State.barredDirection
  cases s.laneCfg l with
  | none => cases t <;> simp
  | some c =>
    obtain ⟨kind, _, _⟩ := c
    cases t with
    | dir d => cases kind <;> cases d <;> simp
    | shut => cases kind <;> simp
    | keep => cases kind <;> simp

/-- The first number of a run whose test fails. -/
theorem firstBad_range {p : Nat → Bool} {a n i : Nat} (hi : a ≤ i) (hn : i < a + n) (h : p i = false)
    (hb : ∀ j, a ≤ j → j < i → p j = true) : firstBad ((List.range' a n).map fun j => (p j, j)) = some i := by
  induction n generalizing a with
  | zero => omega
  | succ n ih =>
    rw [List.range'_succ, List.map_cons, firstBad_cons]
    by_cases ha : a = i
    · subst ha
      rw [if_neg (by rw [h]; exact Bool.false_ne_true)]
    · rw [if_pos (hb a (Nat.le_refl a) (by omega))]
      exact ih (by omega) (by omega) fun j hj => hb j (by omega)

theorem firstBad_range_none {p : Nat → Bool} {a n : Nat} (h : ∀ j, a ≤ j → j < a + n → p j = true) :
    firstBad ((List.range' a n).map fun j => (p j, j)) = none := by
  induction n generalizing a with
  | zero => rfl
  | succ n ih =>
    rw [List.range'_succ, List.map_cons, firstBad_cons, if_pos (h a (Nat.le_refl a) (by omega))]
    exact ih fun j hj hjn => h j (by omega) (by omega)

/-- The structural tests of SET-PLAN: the identifier, then the six targets (R61). -/
def planTests (b : List Octet) : List (Bool × Nat) :=
  (okPlan (oct b 0), 0) :: (List.range' 1 6).map fun i => (decide (oct b i < 4), i)

theorem planTests_id (h : oct b 0 = 0 ∨ 8 < oct b 0) : firstBad (planTests b) = some 0 := by
  unfold planTests
  rw [firstBad_cons, if_neg]
  rw [okPlan_iff]
  omega

theorem planTests_target (h1 : 1 ≤ oct b 0) (h8 : oct b 0 ≤ 8) {i : Nat} (hi : 1 ≤ i) (hi6 : i ≤ 6) (h : 4 ≤ oct b i)
    (hb : ∀ j, 1 ≤ j → j < i → oct b j < 4) : firstBad (planTests b) = some i := by
  unfold planTests
  rw [firstBad_cons, if_pos ((okPlan_iff _).2 ⟨h1, h8⟩)]
  exact firstBad_range hi (by omega) (decide_eq_false (Nat.not_lt.2 h)) fun j hj hji => decide_eq_true (hb j hj hji)

theorem planTests_none (h1 : 1 ≤ oct b 0) (h8 : oct b 0 ≤ 8) (h : ∀ i, 1 ≤ i → i ≤ 6 → oct b i < 4) :
    firstBad (planTests b) = none := by
  unfold planTests
  rw [firstBad_cons, if_pos ((okPlan_iff _).2 ⟨h1, h8⟩)]
  exact firstBad_range_none fun j hj hj7 => decide_eq_true (h j hj (by omega))

theorem actSetPlan_eq (s : State) (b : List Octet) : actSetPlan s b =
    withFields s (planTests b)
      (match s.firstContradicted (planOf b) with
       | some lane => refuse s 26 lane 0
       | none => okWith { s with engine.plans := s.engine.plans.set (oct b 0 - 1) (planOf b) } []) := rfl

/-- The target that a SET-PLAN body gives a lane (R199). -/
def bodyTarget (b : List Octet) (l : Nat) : Target :=
  if oct b (l + 1) = 0 then .dir .a else if oct b (l + 1) = 1 then .dir .b else if oct b (l + 1) = 2 then .shut else .keep

theorem targetOf_eq (n : Nat) :
    targetOf n = if n = 0 then .dir .a else if n = 1 then .dir .b else if n = 2 then .shut else .keep := by
  match n with
  | 0 => rfl
  | 1 => rfl
  | 2 => rfl
  | n + 3 => simp [targetOf]

theorem planOf_getD {l : Nat} (hl : l < 6) : (planOf b).getD l .keep = bodyTarget b l := by
  unfold planOf bodyTarget
  rw [List.getD_eq_getElem?_getD, List.getElem?_map, List.getElem?_range hl, Option.map_some, Option.getD_some, targetOf_eq]

/-- A lane's kind bars the target that the body gives it (R61). -/
def State.bodyBarred (s : State) (b : List Octet) (l : Nat) : Prop :=
  l < s.l ∧ ∃ c, s.laneCfg l = some c ∧
    ((c.kind = .fixedA ∧ bodyTarget b l = .dir .b) ∨ (c.kind = .fixedB ∧ bodyTarget b l = .dir .a))

theorem bodyBarred_iff (hl6 : s.l ≤ 6) {l : Nat} (hl : l < s.l) :
    s.bodyBarred b l ↔ s.contradicts ((planOf b).getD l .keep) l = true := by
  unfold State.bodyBarred
  rw [planOf_getD (by omega), State.contradicts_target]
  exact and_iff_right hl

theorem firstContradicted_some (hl6 : s.l ≤ 6) {l : Nat} (h : s.bodyBarred b l) (hb : ∀ m, m < l → ¬s.bodyBarred b m) :
    s.firstContradicted (planOf b) = some l := by
  unfold State.firstContradicted State.laneNumbers
  rw [List.find?_range_eq_some]
  refine ⟨(bodyBarred_iff hl6 h.1).1 h, List.mem_range.2 h.1, fun j hj => ?_⟩
  have hjl : j < s.l := Nat.lt_trans hj h.1
  rw [Bool.not_eq_true', Bool.eq_false_iff]
  exact fun hc => hb j hj ((bodyBarred_iff hl6 hjl).2 hc)

theorem firstContradicted_none (hl6 : s.l ≤ 6) (h : ∀ l, ¬s.bodyBarred b l) : s.firstContradicted (planOf b) = none := by
  unfold State.firstContradicted State.laneNumbers
  rw [List.find?_eq_none]
  intro l hl hc
  exact h l ((bodyBarred_iff hl6 (List.mem_range.1 hl)).2 hc)

/-- A plan is written whole, and no other (R61). -/
theorem target_set (hlen : s.engine.plans.length = 8) {id p l : Nat} (h1 : 1 ≤ id) (h8 : id ≤ 8) (hp : 1 ≤ p) (hl : l < 6) :
    ({ s with engine.plans := s.engine.plans.set (id - 1) (planOf b) } : State).target p l =
      if p = id then bodyTarget b l else s.target p l := by
  unfold State.target
  dsimp only
  have hget : (s.engine.plans.set (id - 1) (planOf b)).getD (p - 1) keepPlan =
      if p = id then planOf b else s.engine.plans.getD (p - 1) keepPlan := by
    rw [List.getD_eq_getElem?_getD, List.getElem?_set]
    by_cases h : p = id
    · subst h
      rw [if_pos rfl, if_pos rfl, if_pos (by omega), Option.getD_some]
    · rw [if_neg h, if_neg (by omega), List.getD_eq_getElem?_getD]
  rw [hget]
  split
  · exact planOf_getD hl
  · rfl

end SetPlan

/-- Settles O39. -/
theorem selectAndSetPlan : Obligations.SelectAndSetPlan := by
  intro s id
  refine ⟨fun hm => ⟨fun hbad => ?_, fun h1 h8 => ?_⟩, fun s b hlen hbad => ?_, fun s b hlen h1 h8 => ⟨?_, fun hgood => ⟨?_, ?_⟩⟩⟩
  · refine answers_badField (len := 1) (act := actSelectPlan) (fun _ => rfl) rfl (runOnly_accept hm) rfl ?_
    rw [oct_cons_zero, firstBad_cons, if_neg]
    rw [okPlan_iff]
    omega
  · have hid : okPlan id.toNat = true := (okPlan_iff _).2 ⟨h1, h8⟩
    refine ⟨fun l hl hb => ?_, fun hno hfull => ?_, fun hno hfit => ?_⟩
    · exact answers_refused (fun _ => rfl) rfl (runOnly_accept hm) (actSelectPlan_duplicate hid (selectPlan_duplicate .plan _ hl hb))
    · exact answers_refused (fun _ => rfl) rfl (runOnly_accept hm) (actSelectPlan_full hid (selectPlan_full .plan _ hno hfull))
    · exact ((EngineMove.supersede (by simp) s _).trans (.scan (by simp) _)).performs (fun _ => rfl) rfl hm rfl
        (actSelectPlan_applied hid (selectPlan_applied .plan _ hno hfit)) (kinds := [.taskUnsuccessful]) (by decide) (by decide)
        fun _ t hout =>
          ⟨hout.event, planApplied_of hout.engine (hout.atLeast_scan rfl (supersede_raisedTimes s _))⟩
  · exact answers_badField (len := 7) (act := actSetPlan) (fun _ => rfl) hlen rfl (actSetPlan_eq s b) (planTests_id hbad)
  · intro i hi hi6 h4 hb
    exact answers_badField (len := 7) (act := actSetPlan) (fun _ => rfl) hlen rfl (actSetPlan_eq s b)
      (planTests_target h1 h8 hi hi6 h4 hb)
  · intro l hl hb tag ht
    have hact : actSetPlan s b = refuse s 26 l 0 := by
      rw [actSetPlan_eq, withFields_good (planTests_none h1 h8 hgood), firstContradicted_some ht.1.l_le hl hb]
    exact answers_refused (len := 7) (fun _ => rfl) hlen rfl hact tag ht
  · intro hno tag ht
    have hact : actSetPlan s b = okWith { s with engine.plans := s.engine.plans.set (oct b 0 - 1) (planOf b) } [] := by
      rw [actSetPlan_eq, withFields_good (planTests_none h1 h8 hgood), firstContradicted_none ht.1.l_le hno]
    refine performs_of_quiet (len := 7) (fun _ => rfl) hlen rfl hact (fun _ => .of_same rfl rfl rfl rfl rfl rfl rfl rfl) rfl
      (fun hg port hport => ⟨rfl, hport, fun p hp _ l hl => ?_⟩) tag ht
    obtain ⟨-, -, -, -, -, ⟨hplans, -⟩, -⟩ := (ConfigImage.legal_iff _).1 hg.config.1
    exact target_set hplans h1 h8 hp hl

end Sys2Proof.Machine
end

