-- ==== Sys2Proof/Proofs/SecondTimer.lean ====
section
/-! PROOFS. The second timer and the schedule: obligation O59 (R174, R178 to R180). -/

namespace Sys2Proof.Machine

/-- The next second of the week (R174). -/
theorem Time.weekSecond_next {u : Time} (h : u.legal) : u.next.weekSecond = (u.weekSecond + 1) % 604800 := by
  obtain ⟨⟨h1, h7⟩, hh, hm, hs⟩ := h
  unfold Time.next Time.weekSecond
  split_ifs <;> simp only [] <;> omega

/-! ### The entries that name a minute (R178) -/

section Matching

variable {s : State} {now : Time}

/-- Entry `i` of the schedule names the minute, for this plan. -/
def State.namedAt (s : State) (now : Time) (i plan : Nat) : Prop :=
  ∃ e, s.time.schedule[i]? = some (some e) ∧ e.plan = plan ∧ e.weekdays.getLsbD (now.weekday - 1) = true ∧
    e.hour = now.hour ∧ e.minute = now.minute

theorem ScheduleEntry.names_iff (e : ScheduleEntry) : e.names now = true ↔
    e.weekdays.getLsbD (now.weekday - 1) = true ∧ e.hour = now.hour ∧ e.minute = now.minute := by
  simp [ScheduleEntry.names, hasWeekday, and_assoc]

/-- What an entry of the schedule, with its index, gives the minute (R178). -/
def matched (now : Time) (p : Option ScheduleEntry × Nat) : Option (Nat × Nat) :=
  match p.1 with
  | none => none
  | some e => if e.names now then some (p.2, e.plan) else none

theorem matching_eq (s : State) (now : Time) : s.matching now = s.time.schedule.zipIdx.filterMap (matched now) := rfl

theorem matched_iff {p : Option ScheduleEntry × Nat} {i plan : Nat} : matched now p = some (i, plan) ↔
    p.2 = i ∧ ∃ e, p.1 = some e ∧ e.plan = plan ∧ e.names now = true := by
  obtain ⟨e, j⟩ := p
  cases e with
  | none => simp [matched]
  | some e => simp [matched, and_comm, and_assoc, and_left_comm]

theorem mem_matching {i plan : Nat} : (i, plan) ∈ s.matching now ↔ s.namedAt now i plan := by
  rw [matching_eq]
  simp only [State.namedAt, List.mem_filterMap, Prod.exists, List.mk_mem_zipIdx_iff_getElem?, matched_iff,
    ScheduleEntry.names_iff]
  constructor
  · rintro ⟨_, _, hj, rfl, e, rfl, h⟩
    exact ⟨e, hj, h⟩
  · rintro ⟨e, hi, h⟩
    exact ⟨some e, i, hi, rfl, e, rfl, h⟩

/-- The matching entries stand in ascending index (R178). -/
theorem matching_pairwise (s : State) (now : Time) : ((s.matching now).map Prod.fst).Pairwise (· < ·) := by
  have hidx : (s.time.schedule.zipIdx.map Prod.snd).Pairwise (· < ·) := by
    rw [List.zipIdx_map_snd]
    exact List.pairwise_lt_range'
  refine List.Pairwise.map _ (fun _ _ h => h) ?_
  refine List.Pairwise.filterMap (matched now) (R := fun p q : Option ScheduleEntry × Nat => p.2 < q.2) ?_
    (List.pairwise_map.1 hidx)
  intro p q hpq a ha b hb
  rw [← (matched_iff.1 ha).1, ← (matched_iff.1 hb).1]
  exact hpq

/-- In a list of ascending indices the last one is the highest. -/
theorem getLast_of_max {xs : List (Nat × Nat)} {i p : Nat} (hx : (xs.map Prod.fst).Pairwise (· < ·)) (hm : (i, p) ∈ xs)
    (hb : ∀ j q, (j, q) ∈ xs → j ≤ i) : xs.getLast? = some (i, p) := by
  obtain ⟨ys, zs, rfl⟩ := List.append_of_mem hm
  cases zs with
  | nil => exact List.getLast?_concat
  | cons z zs =>
    have hz : z ∈ ys ++ (i, p) :: z :: zs := by simp
    have hle := hb z.1 z.2 hz
    rw [List.pairwise_map, List.pairwise_append] at hx
    have hlt := (List.pairwise_cons.1 hx.2.1).1 z (List.mem_cons_self ..)
    omega

theorem matching_last {i plan : Nat} (hn : s.namedAt now i plan) (hb : ∀ j p, s.namedAt now j p → j ≤ i) :
    (s.matching now).getLast? = some (i, plan) :=
  getLast_of_max (matching_pairwise s now) (mem_matching.2 hn) fun j p hj => hb j p (mem_matching.1 hj)

theorem matching_none (h : ∀ i plan, ¬s.namedAt now i plan) : s.matching now = [] :=
  List.eq_nil_iff_forall_not_mem.2 fun ⟨i, plan⟩ hm => h i plan (mem_matching.1 hm)

end Matching

/-! ### The candidate's plan (R179) -/

section Firing

variable {s v : State} {plan : Nat} {n : Nat}

theorem raiseTimes_only (s : State) (k : AttnKind) (n : Nat) :
    ∃ (a b : BitVec 22) (h : HostPort), s.raiseTimes k n = { s with attn := { s.attn with latched := a, rep := b }, host := h } := by
  induction n generalizing s with
  | zero => exact ⟨s.attn.latched, s.attn.rep, s.host, rfl⟩
  | succ n ih =>
    obtain ⟨a, b, h, hn⟩ := ih (s.raise k)
    refine ⟨a, b, h, ?_⟩
    show (s.raise k).raiseTimes k n = _
    rw [hn]
    unfold State.raise
    split <;> rfl

/-- The raisings of the shadowed entries change nothing that the candidate's plan reads. -/
theorem fire_silenced (h : s.suppressed = true) : s.fire plan = (s.raise .scheduleNotApplied, .hostSilent) := by
  unfold State.fire
  rw [if_pos h]

theorem fire_duplicate (h : s.suppressed = false) {l : Nat} (hl : s.selectPlan .schedule plan = .duplicate l) :
    s.fire plan = (s.raise .scheduleNotApplied, .duplicate) := by
  unfold State.fire
  rw [h, if_neg Bool.false_ne_true, hl]

theorem fire_full (h : s.suppressed = false) {j m : Nat} (hl : s.selectPlan .schedule plan = .queueFull j m) :
    s.fire plan = (s.raise .scheduleNotApplied, .queueFull) := by
  unfold State.fire
  rw [h, if_neg Bool.false_ne_true, hl]

theorem fire_applied (h : s.suppressed = false) {u : State} {j m : Nat}
    (hl : s.selectPlan .schedule plan = .applied u j m) : s.fire plan = (u.raise .scheduleFired, .fired j m) := by
  unfold State.fire
  rw [h, if_neg Bool.false_ne_true, hl]

theorem EngineMove.fire {kinds : List AttnKind} (hk : ∀ k ∈ [AttnKind.scheduleFired, .scheduleNotApplied, .taskUnsuccessful],
    k ∈ kinds) (s : State) (plan : Nat) : EngineMove s (s.fire plan).1 kinds := by
  unfold State.fire
  split
  · exact .raise s (hk _ (by simp))
  · split
    · rename_i hsel
      unfold State.selectPlan at hsel
      dsimp only at hsel
      split_ifs at hsel
      obtain ⟨rfl, -, -⟩ := PlanResult.applied.inj hsel
      exact ((EngineMove.supersede (hk _ (by simp)) s _).trans (.scan (hk _ (by simp)) _)).trans (.raise _ (hk _ (by simp)))
    · exact .raise s (hk _ (by simp))
    · exact .raise s (hk _ (by simp))

/-- The plan's tasks are the same whatever raisings came before (R179). -/
theorem supersede_scan_engine {x : Attention} {y : HostPort} (hw : Tab.wf LaneRec.reset s.engine.lanes = true)
    (hstep : EngineMove s { s with attn := x, host := y } [.scheduleNotApplied, .taskUnsuccessful]) (new : List Task) :
    (({ s with attn := x, host := y } : State).supersede new).scan.engine = (s.supersede new).scan.engine := by
  refine SameLanes.scan (SameLanes.of_reads (kinds := [.scheduleNotApplied, .taskUnsuccessful]) (.supersede (by simp) s new)
    (hstep.trans (.supersede (by simp) _ new)) hw (fun l => ?_) ?_) ?_
  · exact (State.removeQueued_lane { s with attn := x, host := y } _ _ l).trans (State.removeQueued_lane s _ _ l).symm
  · exact (State.removeQueued_plans { s with attn := x, host := y } _ _).trans (State.removeQueued_plans s _ _).symm
  · exact (supersede_queue { s with attn := x, host := y } new).trans (supersede_queue s new).symm

end Firing

/-! ### The minute event (R178 to R180) -/

section Minute

variable {s : State} {u : Time}

/-- The second timer has restarted, and the clock holds the next second (R174). -/
def State.ticked (s : State) (now : Time) : State := { s with time.clock := some now, time.secondTimer := some 1000 }

/-- The state in which the shadowed entries have raised SCHEDULE_NOT_APPLIED (R178). -/
def State.shadowed (s : State) (now : Time) : State :=
  (s.ticked now).raiseTimes .scheduleNotApplied ((s.matching now).length - 1)

theorem exec_secondTimer (s : State) : exec .secondTimerExpiry s = eventIf s s.time.clock.isSome State.secondEnds := rfl

theorem minuteEvent_none (h : s.config.mode = .standby ∨ s.matching u = []) : s.minuteEvent u = s := by
  unfold State.minuteEvent
  rcases h with h | h
  · simp only [h]
  · simp only [h, List.getLast?_nil]
    cases s.config.mode <;> rfl

theorem minuteEvent_some (hm : s.config.mode = .run) {i plan : Nat} (h : (s.matching u).getLast? = some (i, plan)) :
    s.minuteEvent u =
      { ((s.raiseTimes .scheduleNotApplied ((s.matching u).length - 1)).fire plan).1 with
        time.lastFiring := some
          ⟨u, (s.matching u).map Prod.fst, i, plan,
            ((s.raiseTimes .scheduleNotApplied ((s.matching u).length - 1)).fire plan).2⟩ } := by
  unfold State.minuteEvent
  simp only [hm, h]

theorem secondEnds_eq (hc : s.time.clock = some u) :
    s.secondEnds = if u.next.second = 0 then (s.ticked u.next).minuteEvent u.next else s.ticked u.next := by
  unfold State.secondEnds
  rw [hc]
  rfl

theorem secondEnds_quiet (hc : s.time.clock = some u)
    (h : u.next.second ≠ 0 ∨ s.config.mode = .standby ∨ ∀ i plan, ¬s.namedAt u.next i plan) :
    s.secondEnds = s.ticked u.next := by
  rw [secondEnds_eq hc]
  split
  · rename_i hz
    exact minuteEvent_none ((h.resolve_left fun hne => hne hz).imp id matching_none)
  · rfl

theorem ticked_line (hs : s.driveTransmitter = s) (now : Time) : (s.ticked now).driveTransmitter = s.ticked now := by
  have hcomm : (s.ticked now).driveTransmitter = s.driveTransmitter.ticked now := by
    unfold State.driveTransmitter State.ticked
    dsimp only
    split
    · rfl
    · rfl
    · split
      · split <;> rfl
      · rfl
  rw [hcomm, hs]

theorem ticked_next (hs : s.Settled) (hl : s.live = true) (hc : s.time.clock = some u)
    (h : u.next.second ≠ 0 ∨ s.config.mode = .standby ∨ ∀ i plan, ¬s.namedAt u.next i plan) :
    exec .secondTimerExpiry s = .next (s.ticked u.next) :=
  (exec_secondTimer s).trans (eventIf_quiet hl (by rw [hc]; rfl) (secondEnds_quiet hc h) hs
    (.of_same rfl rfl rfl rfl rfl rfl rfl rfl) (ticked_line hs.line _))

/-- The kinds that a minute event can raise (R178, R179). -/
abbrev minuteKinds : List AttnKind := [.scheduleFired, .scheduleNotApplied, .taskUnsuccessful]

theorem EngineMove.raiseTimes {kinds : List AttnKind} (s : State) {k : AttnKind} (hk : k ∈ kinds) (n : Nat) :
    EngineMove s (s.raiseTimes k n) kinds := by
  induction n generalizing s with
  | zero => exact .refl s
  | succ n ih => exact (EngineMove.raise s hk).trans (ih _)

/-- A minute event with a candidate, as it ends (R178 to R180). -/
theorem minute_fires (hg : s.Good) (hl : s.live = true) (hc : s.time.clock = some u) (hz : u.next.second = 0)
    (hm : s.config.mode = .run) {i plan : Nat} (hlast : (s.matching u.next).getLast? = some (i, plan)) :
    ∃ t, exec .secondTimerExpiry s = .next t ∧
      t.time = { (s.ticked u.next).time with
        lastFiring := some
          ⟨u.next, (s.matching u.next).map Prod.fst, i, plan, ((s.shadowed u.next).fire plan).2⟩ } ∧
      EngineRest s ((s.shadowed u.next).fire plan).1 t minuteKinds ∧ s.KeepsPort t ∧ s.Unreplied t := by
  have hmove : EngineMove (s.ticked u.next) ((s.shadowed u.next).fire plan).1 minuteKinds :=
    (EngineMove.raiseTimes _ (by simp) _).trans (.fire (fun _ h => h) _ plan)
  have hport := hmove.step.port
  have hends : s.secondEnds = { ((s.shadowed u.next).fire plan).1 with
      time.lastFiring := some
        ⟨u.next, (s.matching u.next).map Prod.fst, i, plan, ((s.shadowed u.next).fire plan).2⟩ } := by
    rw [secondEnds_eq hc, if_pos hz]
    exact minuteEvent_some (s := s.ticked u.next) hm hlast
  have hr : Raises s (s.ticked u.next) minuteKinds := .of_same rfl rfl rfl
  refine ⟨settle s s.secondEnds, ?_, ?_, ?_, ?_, ?_⟩
  · rw [exec_secondTimer, hc, eventIf, hl]
    rfl
  · rw [settle_time, hends, ← hmove.step.time]
  · rw [hends]
    exact EngineMove.settles (x := (s.ticked u.next).time) hg (hg.settled hl) hm hmove (by decide) (by decide) rfl
      ((hr.trans hmove.raises).trans (.of_same rfl rfl rfl))
      (chosen_notice_unreplied (hg.settled hl) hport)
  · rw [hends]
    exact settle_keepsPort_unreplied hport
  · rw [hends]
    exact settle_unreplied (hg.settled hl) hport

end Minute

section Results

variable {s t : State} {now : Time} {plan : Nat}

theorem EngineRest.raised {u : State} {kinds : List AttnKind} (h : EngineRest s u t kinds) {k : AttnKind} {n : Nat}
    (hr : s.RaisedTimes u k n) (hc : k ≠ .entryClosureLost) (hf : k ≠ .aspectFailed) : s.RaisedTimes t k n := by
  obtain ⟨hl, hrep⟩ := h.same k hc hf
  exact ⟨hl.trans hr.1, hrep.trans hr.2⟩

theorem EngineRest.raisedAtLeast {u : State} {kinds : List AttnKind} (h : EngineRest s u t kinds) {k : AttnKind} {n : Nat}
    (hr : s.RaisedAtLeast u k n) (hc : k ≠ .entryClosureLost) (hf : k ≠ .aspectFailed) : s.RaisedAtLeast t k n := by
  obtain ⟨hl, hrep⟩ := h.same k hc hf
  exact ⟨fun hn => hl.trans (hr.1 hn), fun hn h2 => hrep.trans (hr.2 hn h2)⟩

/-- The raisings of the shadowed entries (R178). -/
theorem shadowed_raised (s : State) (now : Time) :
    s.RaisedTimes (s.shadowed now) .scheduleNotApplied ((s.matching now).length - 1) ∧
      ∀ k, k ≠ .scheduleNotApplied → s.RaisedTimes (s.shadowed now) k 0 :=
  ⟨raiseTimes_raisedTimes (s.ticked now) _ _, fun _ hk => raiseTimes_raisedTimes_ne (s.ticked now) hk _⟩

/-- A candidate that is not applied raises once more, and does nothing else (R179). -/
theorem candidate_not_applied {r : FiringResult} (h : (s.shadowed now).fire plan = ((s.shadowed now).raise .scheduleNotApplied, r))
    (ht : EngineRest s ((s.shadowed now).fire plan).1 t minuteKinds) :
    ((s.shadowed now).fire plan).2 = r ∧ t.engine = s.engine ∧
      s.RaisedTimes t .scheduleNotApplied ((s.matching now).length - 1 + 1) ∧ s.RaisedTimes t .scheduleFired 0 ∧
      s.RaisedTimes t .taskUnsuccessful 0 := by
  rw [h] at ht ⊢
  obtain ⟨hmany, hnone⟩ := shadowed_raised s now
  obtain ⟨a, b, p, hv⟩ := raiseTimes_only (s.ticked now) .scheduleNotApplied ((s.matching now).length - 1)
  refine ⟨rfl, ?_, ?_, ?_, ?_⟩
  · have he : (s.shadowed now).engine = s.engine := by unfold State.shadowed; rw [hv]; rfl
    exact ht.engine.trans he
  · exact ht.raised (hmany.trans (raise_raisedTimes _ _)) (by decide) (by decide)
  · exact ht.raised ((hnone _ (by decide)).before (raise_raisedTimes_ne _ (by decide))) (by decide) (by decide)
  · exact ht.raised ((hnone _ (by decide)).before (raise_raisedTimes_ne _ (by decide))) (by decide) (by decide)

/-- Whether the candidate is held back (R179). -/
theorem shadowed_suppressed (s : State) (now : Time) : (s.shadowed now).suppressed = true ↔
    hasFlag s.attn.active .hostSilent = true ∧ s.config.records.tunnel.autoSchedule = false := by
  obtain ⟨a, b, p, hv⟩ := raiseTimes_only (s.ticked now) .scheduleNotApplied ((s.matching now).length - 1)
  unfold State.shadowed
  rw [hv]
  unfold State.suppressed
  rw [Bool.and_eq_true, Bool.not_eq_true']
  rfl

/-- The candidate's plan is tested and expanded in the state of the minute (R63, R179). -/
theorem shadowed_duplicate (h : ∃ l, (s.ticked now).PlanClashes ((s.ticked now).expandPlan .schedule plan) l) :
    ∃ l, (s.shadowed now).selectPlan .schedule plan = .duplicate l := by
  classical
  obtain ⟨a, b, q, hv⟩ := raiseTimes_only (s.ticked now) .scheduleNotApplied ((s.matching now).length - 1)
  unfold State.shadowed
  rw [hv]
  exact ⟨Nat.find h, selectPlan_duplicate .schedule plan (Nat.find_spec h) fun _ hm => Nat.find_min h hm⟩

theorem shadowed_full (h : ∀ l, ¬(s.ticked now).PlanClashes ((s.ticked now).expandPlan .schedule plan) l)
    (hf : 8 < (s.ticked now).hostTasks.length + ((s.ticked now).expandPlan .schedule plan).length) :
    ∃ j m, (s.shadowed now).selectPlan .schedule plan = .queueFull j m := by
  obtain ⟨a, b, q, hv⟩ := raiseTimes_only (s.ticked now) .scheduleNotApplied ((s.matching now).length - 1)
  unfold State.shadowed
  rw [hv]
  exact ⟨_, _, selectPlan_full .schedule plan h hf⟩

theorem shadowed_applies (h : ∀ l, ¬(s.ticked now).PlanClashes ((s.ticked now).expandPlan .schedule plan) l)
    (hf : (s.ticked now).hostTasks.length + ((s.ticked now).expandPlan .schedule plan).length ≤ 8) :
    (s.shadowed now).selectPlan .schedule plan =
      .applied ((s.shadowed now).supersede ((s.ticked now).expandPlan .schedule plan)).scan (s.ticked now).markedTasks.length
        ((s.ticked now).expandPlan .schedule plan).length := by
  obtain ⟨a, b, q, hv⟩ := raiseTimes_only (s.ticked now) .scheduleNotApplied ((s.matching now).length - 1)
  unfold State.shadowed
  rw [hv]
  exact selectPlan_applied .schedule plan h hf

/-- A candidate that is applied (R63, R179). -/
theorem candidate_applied {m n : Nat} {new : List Task} (hw : Tab.wf LaneRec.reset s.engine.lanes = true)
    (h : (s.shadowed now).fire plan = (((s.shadowed now).supersede new).scan.raise .scheduleFired, .fired m n))
    (ht : EngineRest s ((s.shadowed now).fire plan).1 t minuteKinds) :
    ((s.shadowed now).fire plan).2 = .fired m n ∧ (s.ticked now).PlanApplied t new ∧
      s.RaisedTimes t .scheduleNotApplied ((s.matching now).length - 1) ∧ s.RaisedTimes t .scheduleFired 1 := by
  rw [h] at ht ⊢
  obtain ⟨hmany, hnone⟩ := shadowed_raised s now
  obtain ⟨a, b, q, hv⟩ := raiseTimes_only (s.ticked now) .scheduleNotApplied ((s.matching now).length - 1)
  have hplan : EngineMove (s.shadowed now) ((s.shadowed now).supersede new).scan [.taskUnsuccessful] :=
    (EngineMove.supersede (by simp) _ new).trans (.scan (by simp) _)
  have hfired : Raises _ (((s.shadowed now).supersede new).scan.raise .scheduleFired) [.scheduleFired] :=
    .raise _ (by simp)
  refine ⟨rfl, planApplied_of ?_ ?_, ?_, ?_⟩
  · refine ht.engine.trans ?_
    show ((s.shadowed now).supersede new).scan.engine = _
    have hmove := EngineMove.raiseTimes (kinds := [.scheduleNotApplied, .taskUnsuccessful]) (s.ticked now)
      (k := .scheduleNotApplied) (by simp) ((s.matching now).length - 1)
    unfold State.shadowed
    rw [hv] at hmove ⊢
    exact supersede_scan_engine (s := s.ticked now) hw hmove new
  · have hmarked : (s.shadowed now).markedTasks = (s.ticked now).markedTasks := by
      unfold State.shadowed; rw [hv]; rfl
    have hrem := (hnone _ (by decide)).after (supersede_raisedTimes (s.shadowed now) new)
    rw [hmarked] at hrem
    exact ht.raisedAtLeast (hfired.keepsAtLeast ((EngineMove.scan (kinds := [.taskUnsuccessful]) (by simp) _).raises.keepsAtLeast
      (hrem.atLeast (Nat.le_refl _)))) (by decide) (by decide)
  · exact ht.raised ((hmany.before (hplan.raises.others _ (by simp))).before (hfired.others _ (by simp))) (by decide) (by decide)
  · exact ht.raised (((hnone _ (by decide)).before (hplan.raises.others _ (by simp))).after (raise_raisedTimes _ _))
      (by decide) (by decide)

end Results

/-- Settles O59. -/
theorem secondTimer : Obligations.SecondTimer := by
  intro s u hg hl hc
  have hlegal := hg.clock u hc
  refine ⟨Time.weekSecond_next hlegal, fun h => ticked_next (hg.settled hl) hl hc h, fun hz hm i plan hn hb => ?_⟩
  obtain ⟨t, ht, htime, hrest, hport, hun⟩ := minute_fires hg hl hc hz hm (matching_last hn hb)
  refine ⟨t, _, ht, htime, rfl, rfl, rfl, fun j => ?_, matching_pairwise s u.next, hrest.store.1, hrest.store.2.1,
    hrest.resolver, hrest.lamps, hrest.link, hport, hun, hrest.flags, ?_⟩
  · simp only [List.mem_map, Prod.exists, exists_and_right, exists_eq_right, mem_matching]
    rfl
  · have hlen : ((s.matching u.next).map Prod.fst).length = (s.matching u.next).length := List.length_map ..
    dsimp only
    rw [hlen]
    have hsil := shadowed_suppressed s u.next
    refine ⟨fun h => candidate_not_applied (fire_silenced (hsil.2 h)) hrest, fun h => ?_⟩
    have hfree : (s.shadowed u.next).suppressed = false := Bool.eq_false_iff.2 fun hc => h (hsil.1 hc)
    refine ⟨fun hdup => ?_, fun hno hfull => ?_, fun hno hfit => ?_⟩
    · obtain ⟨l, hsel⟩ := shadowed_duplicate hdup
      exact candidate_not_applied (fire_duplicate hfree hsel) hrest
    · obtain ⟨j, m, hsel⟩ := shadowed_full hno hfull
      exact candidate_not_applied (fire_full hfree hsel) hrest
    · exact candidate_applied hg.lanes_wf (fire_applied hfree (shadowed_applies hno hfit)) hrest

end Sys2Proof.Machine
end

