-- ==== Sys2Proof/Proofs/ResolverEvents.lean ====
section
/-! PROOFS. What settling makes of an event of the Aspect Resolver, in which fresh openings may fail (R36). -/

namespace Sys2Proof.Machine

/-! ### The openings that an event fails -/

namespace EngineMove

variable {kinds : List AttnKind}

theorem failOpening (hk : AttnKind.taskUnsuccessful ∈ kinds) (s : State) (l : Nat) :
    EngineMove s (s.failOpening l) kinds := by
  unfold State.failOpening
  split
  · exact (setLane_stale rfl).trans (endOpening _ _ _ _ _ _ (by decide) hk)
  · exact refl s

theorem failOpenings (hk : AttnKind.taskUnsuccessful ∈ kinds) (s : State) (ls : List Nat) :
    EngineMove s (s.failOpenings ls) kinds := by
  have hall : ∀ (ms : List Nat) (u : State), EngineMove u (ms.foldl State.failOpening u) kinds := by
    intro ms
    induction ms with
    | nil => exact refl
    | cons m ms ih => exact fun u => (failOpening hk u m).trans (ih _)
  cases ls with
  | nil => exact refl s
  | cons m ms => exact (hall _ s).trans (scan hk _)

end EngineMove

/-! ### The end of an event that keeps the section -/

section Settling

variable {s a : State} (hs : s.Settled) (hn : a.n = s.n) (hl : a.l = s.l)

include hn hl

/-- The head table is compared with the one before the event, and settled once the failed openings are known (R81). -/
theorem settleHeads_compared :
    settleHeads s a = (settledEngine s a).takeTable s.resolver.heads (settledEngine s a).resolveTable := by
  rw [settleHeads_frame, comparedTable_kept hn hl]

omit hl in
theorem settledEngine_n : (settledEngine s a).n = s.n := (failOpenings_step a _).n.trans hn

omit hn in
theorem settledEngine_l : (settledEngine s a).l = s.l := (failOpenings_step a _).l.trans hl

theorem settled_covers : Covers s.n s.l (settle s a).resolver.heads := by
  have h := (settledEngine s a).resolveTable_covers
  rw [settle_resolver]
  rwa [settledEngine_n hn, settledEngine_l hl] at h

omit hn hl in
/-- The failed openings raise TASK_UNSUCCESSFUL beside what the event raised itself (R36, R44). -/
theorem settledEngine_raises {kinds : List AttnKind} (hk : AttnKind.taskUnsuccessful ∈ kinds) (hr : Raises s a kinds) :
    Raises s (settledEngine s a) kinds := hr.trans (EngineMove.failOpenings hk a _).raises

/-- Each pair that joins the entry-closure set raises ENTRY_CLOSURE_LOST (R79). -/
theorem settled_closures (h : s.RaisedTimes (settledEngine s a) .entryClosureLost 0) :
    s.RaisedTimes (settleHeads s a) .entryClosureLost (s.joined (settle s a)).length := by
  rw [settleHeads_compared hn hl, ← joiningEntries_joined ((settle_l s a).trans hl), settle_resolver,
    ← settledEngine_l hl]
  exact State.RaisedTimes.after h (takeTable_closures _ _ _)

include hs

/-- ASPECT_FAILED is raised once where some head's E availability becomes FAILED (R80). -/
theorem settled_failures (h : s.RaisedTimes (settledEngine s a) .aspectFailed 0) [Decidable (s.newlyFailed (settle s a))] :
    s.RaisedTimes (settleHeads s a) .aspectFailed (if s.newlyFailed (settle s a) then 1 else 0) := by
  have hi := someBecameFailed_iff rfl ((settle_n s a).trans hn) (before_covers hs) (settled_covers hn hl)
  rw [settleHeads_compared hn hl]
  rw [settle_resolver] at hi
  simp only [← hi, ← settledEngine_l hl]
  exact State.RaisedTimes.after h (takeTable_failures _ _ _)

/-- What an event that keeps the section does to the attention flags, where it and its failed openings raise kinds of a list
(R79, R80, R189, R190). -/
theorem settle_flagsFollow {kinds : List AttnKind} (hr : Raises s (settledEngine s a) kinds)
    (hc : AttnKind.entryClosureLost ∉ kinds) (ha : AttnKind.aspectFailed ∉ kinds)
    (hnotice : (chosen s a).driveTransmitter.noticed → (chosen s a).noticed) : s.KeepsFlags (settle s a) kinds := by
  classical
  have hall : Raises s (settleHeads s a) (.entryClosureLost :: .aspectFailed :: kinds) := by
    rw [settleHeads_compared hn hl]
    exact (hr.mono fun k hk => by simp [hk]).trans (.takeTable _ _ _ kinds)
  have hclo := settled_closures hn hl (hr.others _ hc)
  have hfai := settled_failures hs hn hl (hr.others _ ha)
  have hlat : (settle s a).attn.latched = (settleHeads s a).attn.latched := by rw [settle_attn]
  have hrep : (settle s a).attn.rep = (settleHeads s a).attn.rep := by rw [settle_attn]
  have hch : (chosen s a).attn.latched = (settleHeads s a).attn.latched := by rw [chosen_attn]
  refine ⟨?enabled, fun k hk hk1 hk2 => ?kept, fun k => ?uncleared, ?closures, ?failures, fun k hk => ?active,
    fun k hk hd => ?notice, fun h => ?cause⟩
  case enabled => rw [settle_attn]; exact hall.enabled
  case kept => rw [hlat, hrep]; exact (hall.others k (by simp [hk, hk1, hk2])).eq_of_zero
  case uncleared => rw [hlat, hrep]; exact ⟨hall.latched k, hall.rep k⟩
  case closures =>
    rw [hlat, hrep, hclo.1, hclo.2]
    simp [Nat.one_le_iff_ne_zero, and_comm]
  case failures =>
    rw [hlat, hrep, hfai.1, hfai.2]
    by_cases h : s.newlyFailed (settle s a) <;> simp [h]
  case active => rw [settle_attn]; exact (reportConditions_active _ hk).trans (hall.active k hk)
  case notice =>
    rw [hlat, hrep] at hd
    obtain ⟨hp, hlatched⟩ := hall.marked k hk hd
    rw [State.noticed, settle_hostPort]
    exact State.noticed_driveTransmitter (by rw [chosen_host]; exact hp) (by rw [hch]; exact hlatched)
  case cause =>
    rw [State.noticed, settle_hostPort] at h
    rcases hnotice h with h | ⟨f, hf, hk⟩
    · rw [chosen_host] at h
      rcases hall.cause h with h | ⟨k, hk, hlatched⟩
      · exact .inl (.inl h)
      · exact .inr ⟨k, hk, by rw [hlat]; exact hlatched⟩
    · rw [chosen_host, hall.tx] at hf
      exact .inl (.inr ⟨f, hf, hk⟩)

omit hs in
/-- The accumulators of exactly the heads whose resolved aspect changes are emptied (R83). -/
theorem settle_string (hw : Tab.wf StringRec.reset a.lamps.strings = true) (key : Nat) :
    (settle s a).string key =
      if (changedHeads s.n s.l s.resolver.heads (settle s a).resolver.heads).contains (key / 10) = true then
        (a.string key).emptied else a.string key := by
  unfold State.string
  rw [settle_lamps, comparedTable_kept hn hl, hn, hl, settle_resolver]
  exact Tab.get_mapWhere _ _ StringRec.emptied rfl hw key

/-- What settling makes of the strings of a head of the section (R83). -/
theorem settle_keepsStringsOf (hl6 : s.l ≤ 6) (hw : Tab.wf StringRec.reset a.lamps.strings = true) {h : HeadRef}
    (hh : s.hasHead h = true) {i : Nat} (hi : i < 10) :
    (settle s a).string (stringKey h i) =
      if (settle s a).resolved h = s.resolved h then a.string (stringKey h i) else (a.string (stringKey h i)).emptied := by
  obtain ⟨hk, hlane⟩ : h.station < s.n ∧ h.lane < s.l := by simpa [State.hasHead] using hh
  have hc := changedHeads_key rfl ((settle_n s a).trans hn) hl6 (before_covers hs) (settled_covers hn hl) hk hlane
  have hkey : stringKey h i / 10 = h.key := by unfold stringKey; omega
  rw [settle_string hn hl hw, hkey]
  by_cases he : (settle s a).resolved h = s.resolved h
  · rw [if_pos he, if_neg fun hcon => hc.1 hcon he]
  · rw [if_neg he, if_pos (hc.2 he)]

omit hs in
/-- The strings outside the section stay (R83). -/
theorem settle_string_outside (hl6 : s.l ≤ 6) (hw : Tab.wf StringRec.reset a.lamps.strings = true) {key : Nat}
    (hk : s.stringKeyIn key = false) : (settle s a).string key = a.string key := by
  rw [settle_string hn hl hw, if_neg]
  intro hcon
  obtain ⟨h1, h2⟩ := changedHeads_section hl6 (settled_covers hn hl) hcon
  simp [State.stringKeyIn, State.headKeyIn, h1, h2] at hk

/-- The Lamp Proving Unit after an event that keeps its records and the section (R83). -/
theorem settle_lampsFollow (hl6 : s.l ≤ 6) (hw : Tab.wf StringRec.reset s.lamps.strings = true) (hp : a.lamps = s.lamps) :
    s.KeepsLamps (settle s a) := by
  have hwa : Tab.wf StringRec.reset a.lamps.strings = true := hp ▸ hw
  have hstring : ∀ key, a.string key = s.string key := fun key => by unfold State.string; rw [hp]
  refine ⟨by rw [settle_lamps, hp], by rw [settle_lamps, hp], fun h hh i hi => ?_, fun key hk => ?_⟩
  · rw [settle_keepsStringsOf hs hn hl hl6 hwa hh hi, hstring]
    rfl
  · rw [settle_string_outside hn hl hl6 hwa hk, hstring]

end Settling

/-! ### Events of the resolver -/

/-- An event writes the resolver's tables, raises kinds, and marks the pending notice; no other block changes. -/
structure ResolverStep (s u : State) (kinds : List AttnKind) : Prop where
  frame : u = { s with resolver := u.resolver, attn := u.attn, host := u.host }
  displayed : u.resolver.displayed = s.resolver.displayed
  raises : Raises s u kinds
  port : ∃ p, u.host = { s.host with noticePending := p }

/-- What an event of the resolver leaves: its own writes, and the openings it fails. -/
structure ResolverOutcome (s u t : State) (kinds : List AttnKind) : Prop where
  event : s.ResolverEvent t kinds
  resolver : t.resolver = { u.resolver with heads := t.resolveTable }
  engine : (∀ l, (s.lane l).phase.freshOpening = false) → t.engine = s.engine
  same : ∀ k n, k ∉ [AttnKind.entryClosureLost, .aspectFailed, .taskUnsuccessful] → s.RaisedTimes u k n →
    s.RaisedTimes t k n

section Steps

variable {s u a : State} {kinds : List AttnKind}

/-- The raisings of an event's own are those of the settled state, but for the kinds that settling itself raises. -/
theorem settle_raisedOwn (hn : a.n = s.n) (hl : a.l = s.l) {k : AttnKind} {n : Nat} (h : s.RaisedTimes a k n)
    (hk : k ∉ [AttnKind.entryClosureLost, .aspectFailed, .taskUnsuccessful]) : s.RaisedTimes (settle s a) k n := by
  simp only [List.mem_cons, List.not_mem_nil, or_false, not_or] at hk
  obtain ⟨hk1, hk2, hk3⟩ := hk
  have hfails : a.RaisedTimes (settledEngine s a) k 0 :=
    (EngineMove.failOpenings (List.mem_singleton_self _) a _).raises.others k (by simp [hk3])
  have htable : (settledEngine s a).RaisedTimes (settleHeads s a) k 0 := by
    rw [settleHeads_compared hn hl]
    exact (Raises.takeTable _ _ _ []).others k (by simp [hk1, hk2])
  have hall := State.RaisedTimes.before (State.RaisedTimes.before h hfails) htable
  unfold State.RaisedTimes at hall ⊢
  rw [settle_attn]
  exact hall

/-- `a` is what a step of the resolver leaves, but for the Host Link Port. -/
theorem ResolverStep.settles (h : ResolverStep s u kinds) (hg : s.Good) (hs : s.Settled)
    (hk : AttnKind.taskUnsuccessful ∈ kinds) (hc : AttnKind.entryClosureLost ∉ kinds) (hf : AttnKind.aspectFailed ∉ kinds)
    (ha : a = { u with host := a.host }) (hr : Raises s a kinds)
    (hnotice : (chosen s a).driveTransmitter.noticed → (chosen s a).noticed) (hport : s.KeepsPort (settle s a)) :
    ResolverOutcome s u (settle s a) kinds := by
  have hframe : a = { s with resolver := u.resolver, attn := u.attn, host := a.host } := by
    rw [ha]
    exact congrArg (fun v : State => { v with host := a.host }) h.frame
  have hn : a.n = s.n := by rw [hframe]; rfl
  have hl : a.l = s.l := by rw [hframe]; rfl
  have hstrings : Tab.wf StringRec.reset a.lamps.strings = true := by rw [hframe]; exact hg.strings_wf
  have hstations : Tab.wf (StationRec.reset .west) a.link.stations = true := by rw [hframe]; exact hg.stations_wf
  have hheads := (settle_settled s a hstrings hstations).heads
  have hresolver : (settle s a).resolver = { u.resolver with heads := (settle s a).resolveTable } := by
    rw [← hheads, settle_resolver, hframe]
  have hraises := settledEngine_raises hk hr
  refine ⟨⟨⟨?_, ?_, ?_, ?_⟩, ?_, hheads, ?_, ?_, ?_, hport, ?_⟩, hresolver, fun hfresh => ?_, fun k n hk' hu => ?_⟩
  · rw [settle_config, hframe]
  · rw [settle_sigs, hframe]
  · rw [settle_power, hframe]
  · rw [settle_pending, hframe]
  · rw [settle_time, hframe]
  · rw [hresolver]; exact h.displayed
  · exact settle_lampsFollow hs hn hl hg.l_le hg.strings_wf (by rw [hframe])
  · exact settle_link_kept hs hn (by rw [hframe])
  · exact settle_flagsFollow hs hn hl hraises hc hf hnotice
  · have hnil : settledFailures s a = [] := settledFailures_nil fun l => by rw [hframe]; exact hfresh l
    rw [settle_engine, settledEngine_of_nil hnil, hframe]
  · have hattn : a.attn = u.attn := by rw [ha]
    refine settle_raisedOwn hn hl ?_ hk'
    unfold State.RaisedTimes at hu ⊢
    rwa [hattn]

/-- A step of the resolver in an event that queues no reply. -/
theorem ResolverStep.unreplied (h : ResolverStep s u kinds) (hg : s.Good) (hs : s.Settled)
    (hk : AttnKind.taskUnsuccessful ∈ kinds) (hc : AttnKind.entryClosureLost ∉ kinds)
    (hf : AttnKind.aspectFailed ∉ kinds) : ResolverOutcome s u (settle s u) kinds ∧ s.Unreplied (settle s u) :=
  ⟨h.settles hg hs hk hc hf rfl h.raises (chosen_notice_unreplied hs h.port) (settle_keepsPort_unreplied h.port),
    settle_unreplied hs h.port⟩

/-- What `performs` says of a row whose act is a step of the resolver. -/
theorem ResolverStep.performs {kind len : Nat} {modes : Modes} {act : State → List Octet → CmdResult} {body : List Octet}
    {row : Octet → List Octet → Instr} {status : Nat} {reply : List Octet} {p : State → Prop}
    (hrow : ∀ tag, exec (row tag body) s = runCommand kind len modes act tag body s) (hlen : body.length = len)
    (hm : modes.accept s.config.mode = true) (ha : act s body = ⟨u, ⟨status, reply⟩⟩) (h : ResolverStep s u kinds)
    (hk : AttnKind.taskUnsuccessful ∈ kinds) (hc : AttnKind.entryClosureLost ∉ kinds) (hf : AttnKind.aspectFailed ∉ kinds)
    (hp : ∀ t, ResolverOutcome s u t kinds → p t) : s.performs row kind body status reply p :=
  performs_of_settle hrow hlen hm ha h.port fun hg hs f r =>
    hp _ (h.settles hg hs hk hc hf rfl (h.raises.complete f r) (chosen_notice hs h.port f r) (settle_keepsPort h.port f r))

end Steps

end Sys2Proof.Machine
end

