-- ==== Sys2Proof/Proofs/OverrideEvents.lean ====
section
/-! PROOFS. OVERRIDE, RELEASE and the expiry of override holds (O46). -/

namespace Sys2Proof.Machine

/-- An event of the override table, which can raise these kinds: the lamp test and the engine stay, but for failed openings. -/
def State.KeepsLampTest (s : State) (kinds : List AttnKind) (t : State) : Prop :=
  s.ResolverEvent t kinds ∧ t.resolver.lampTest = s.resolver.lampTest ∧ t.resolver.lampLast = s.resolver.lampLast ∧
    ((∀ l, (s.lane l).phase.freshOpening = false) → t.engine = s.engine)

section Heads

variable {s : State} {k l f : Octet}

/-- The head that three octets of the section name. -/
theorem headAt_eq (hf : f.toNat < 2) (b : List Octet) :
    headAt (k :: l :: f :: b) 0 = ⟨k.toNat, l.toNat, if f.toNat = 0 then .a else .b⟩ := by
  unfold headAt
  simp only [Nat.zero_add, oct_cons_zero, oct_cons_succ, faceOf_eq hf]

theorem State.okHead_octets (hk : k.toNat < s.n) (hl : l.toNat < s.l) (hf : f.toNat < 2) (b : List Octet) :
    s.okHead (k :: l :: f :: b) 0 = true := by
  simp [State.okHead, hk, hl, hf]

theorem State.overrideOf_isSome (h : HeadRef) :
    (s.overrideOf h).isSome = true ↔ ∃ o ∈ s.resolver.overrides, o.head = h := by
  simp [State.overrideOf, List.find?_isSome]

end Heads

/-! ### The acts -/

section Acts

variable {s : State} {h : HeadRef}

/-- The table is shorter without the entry of a head that has one (R90). -/
theorem State.dropOverride_length :
    (s.resolver.overrides.filter fun o => o.head != h).length < s.resolver.overrides.length ↔
      ∃ o ∈ s.resolver.overrides, o.head = h := by
  simp [List.length_filter_lt_length_iff_exists]

theorem ResolverStep.of_overrides {u : State} {os : List Override} (hu : u = { s with resolver.overrides := os })
    (kinds : List AttnKind) : ResolverStep s u kinds := by
  subst hu
  exact ⟨rfl, rfl, .of_same rfl rfl rfl, ⟨_, rfl⟩⟩

theorem ResolverOutcome.overrides {u t : State} {kinds : List AttnKind} {os : List Override}
    (h : ResolverOutcome s u t kinds) (hu : u.resolver = { s.resolver with overrides := os }) :
    s.KeepsLampTest kinds t ∧ t.resolver.overrides = os := by
  have hr := h.resolver
  rw [hu] at hr
  exact ⟨⟨h.event, by rw [hr], by rw [hr], h.engine⟩, by rw [hr]⟩

theorem placeOverride_step (a : Aspect) (minutes : Nat) (kinds : List AttnKind) :
    ResolverStep s (s.placeOverride h a minutes) kinds :=
  .of_overrides (os := (s.dropOverride h).resolver.overrides ++ [⟨h, a, minutes * 60000, s.stamp⟩]) rfl _

theorem dropOverride_step (kinds : List AttnKind) : ResolverStep s (s.dropOverride h) kinds :=
  .of_overrides (os := s.resolver.overrides.filter fun o => o.head != h) rfl _

/-- Without the expiry of a hold OVERRIDE_EXPIRED stays as it was (R91, R92). -/
theorem ResolverOutcome.expired {u t : State} (h : ResolverOutcome s u t [.taskUnsuccessful]) :
    t.attn.latched.getLsbD 13 = s.attn.latched.getLsbD 13 :=
  (h.event.flags.kept .overrideExpired (by decide) (by decide) (by decide)).1

/-- A head's entry joins the newest end of the table, or takes the place of the head's own (R89, R90). -/
theorem actOverride_placed {b : List Octet} {asp : Aspect} (hok : s.okHead b 0 = true) (ha1 : 1 ≤ oct b 3)
    (ha4 : oct b 3 ≤ 4) (hasp : Aspect.ofCode (oct b 3) = some asp)
    (hroom : s.resolver.overrides.length < 32 ∨ ∃ o ∈ s.resolver.overrides, o.head = headAt b 0) :
    actOverride s b =
      okOrClamped (max 1 (min 240 (oct b 4)) != oct b 4) (s.placeOverride (headAt b 0) asp (max 1 (min 240 (oct b 4))))
        (flagOctets (s.overrideOf (headAt b 0)).isSome ++
          o1 ((s.resolver.overrides.filter fun o => o.head != headAt b 0).length + 1)) := by
  have haspect : aspectOf (oct b 3) = asp := by unfold aspectOf; rw [hasp]; rfl
  have hrestricts : asp.restricts = true := by
    rw [← haspect]
    interval_cases oct b 3 <;> rfl
  have hfull : (!(s.overrideOf (headAt b 0)).isSome && decide (Config.overridePlaces ≤ s.resolver.overrides.length)) = false := by
    rcases hroom with hroom | hroom
    · rw [Bool.and_eq_false_iff]
      exact .inr (decide_eq_false (Nat.not_le.2 hroom))
    · rw [(s.overrideOf_isSome _).2 hroom]; rfl
  unfold actOverride
  dsimp only
  rw [haspect, withFields_good (by simp [firstBad_cons, hok, hrestricts]; omega), hfull]
  simp [State.placeOverride, State.dropOverride, clamp]

theorem actOverride_full {b : List Octet} (hok : s.okHead b 0 = true) (ha1 : 1 ≤ oct b 3) (ha4 : oct b 3 ≤ 4)
    (hlen : s.resolver.overrides.length = 32) (hno : ∀ o ∈ s.resolver.overrides, o.head ≠ headAt b 0) :
    actOverride s b = refuse s 29 32 0 := by
  have hrestricts : (aspectOf (oct b 3)).restricts = true := by interval_cases oct b 3 <;> rfl
  have hnone := (s.overrideOf_none _).2 hno
  unfold actOverride
  dsimp only
  rw [withFields_good (by simp [firstBad_cons, hok, hrestricts]; omega), hnone, hlen]
  rfl

/-- The first bad field of an OVERRIDE that asks for OPEN, DARK or no aspect (R89). -/
theorem actOverride_barred {b : List Octet} (hok : s.okHead b 0 = true) (ha : oct b 3 = 0 ∨ 5 ≤ oct b 3) :
    firstBad [(s.okHead b 0, 0), (decide (oct b 3 < 6), 3), ((aspectOf (oct b 3)).restricts, 3)] = some 3 := by
  rw [firstBad_cons, if_pos hok, firstBad_cons, firstBad_cons]
  split
  · have h6 : oct b 3 < 6 := of_decide_eq_true ‹_›
    have hc : oct b 3 = 0 ∨ oct b 3 = 5 := by omega
    rcases hc with hc | hc <;> rw [hc] <;> rfl
  · rfl

end Acts

/-! ### The expiry of holds -/

section Expiry

variable {s : State} {heads : List HeadRef}

theorem overridesExpire_step (s : State) (heads : List HeadRef) :
    ResolverStep s (s.overridesExpire heads) [.overrideExpired, .taskUnsuccessful] := by
  refine ⟨?_, ?_, ?_, ?_⟩
  · unfold State.overridesExpire
    rw [State.raiseTimes_frame]
  · unfold State.overridesExpire
    rw [State.raiseTimes_frame]
  · have htable : Raises s { s with resolver.overrides := s.resolver.overrides.filter fun o => !heads.contains o.head }
        [.overrideExpired, .taskUnsuccessful] := .of_same rfl rfl rfl
    exact htable.trans (.raiseTimes _ (by simp) _)
  · unfold State.overridesExpire
    rw [State.raiseTimes_frame]
    exact ⟨_, rfl⟩

theorem overridesExpire_resolver (s : State) (heads : List HeadRef) :
    (s.overridesExpire heads).resolver =
      { s.resolver with overrides := s.resolver.overrides.filter fun o => decide (o.head ∉ heads) } := by
  unfold State.overridesExpire
  rw [State.raiseTimes_frame]
  simp

/-- Different heads expire by as many entries, or more (R91). -/
theorem expiring_length (hnd : heads.Nodup) (hall : ∀ h ∈ heads, ∃ o ∈ s.resolver.overrides, o.head = h) :
    heads.length ≤ countWhere (fun o => heads.contains o.head) s.resolver.overrides := by
  have hsub : heads ⊆ (s.resolver.overrides.filter fun o => heads.contains o.head).map (·.head) := by
    intro h hh
    obtain ⟨o, ho, rfl⟩ := hall h hh
    exact List.mem_map.2 ⟨o, List.mem_filter.2 ⟨ho, by simpa using hh⟩, rfl⟩
  have hlen := (hnd.subperm hsub).length_le
  rwa [List.length_map] at hlen

/-- Each expiry raises OVERRIDE_EXPIRED (R91). -/
theorem overridesExpire_raised (hnd : heads.Nodup) (hall : ∀ h ∈ heads, ∃ o ∈ s.resolver.overrides, o.head = h) {t : State}
    {kinds : List AttnKind} (h : ResolverOutcome s (s.overridesExpire heads) t kinds) :
    s.RaisedAtLeast t .overrideExpired heads.length := by
  have hr : s.RaisedTimes (s.overridesExpire heads) .overrideExpired
      (countWhere (fun o => heads.contains o.head) s.resolver.overrides) := raiseTimes_raisedTimes _ _ _
  exact (h.same _ _ (by decide) hr).atLeast (expiring_length hnd hall)

theorem exec_overrideHoldExpiry (hl : s.live = true) (hne : heads ≠ [])
    (hall : ∀ h ∈ heads, ∃ o ∈ s.resolver.overrides, o.head = h) :
    exec (.overrideHoldExpiry heads) s = .next (settle s (s.overridesExpire heads)) := by
  have hallowed : (s.live && (!heads.isEmpty && heads.all fun h => (s.overrideOf h).isSome)) = true := by
    simp only [hl, Bool.true_and, Bool.and_eq_true, Bool.not_eq_true', List.isEmpty_eq_false_iff, List.all_eq_true]
    exact ⟨hne, fun h hh => (s.overrideOf_isSome h).2 (hall h hh)⟩
  have hrow : exec (.overrideHoldExpiry heads) s = execOverrideHoldExpiry heads s := rfl
  rw [hrow, execOverrideHoldExpiry, eventIf, if_pos hallowed, answer]

end Expiry

/-- Settles O46: each event is a step of the resolver, which changes the engine only by the openings that it fails. -/
theorem overrides : Obligations.Overrides := by
  intro s
  refine ⟨fun k l f a m hk hl hf hm => ⟨fun ha => ?barred, fun asp ha1 ha4 hasp => ⟨fun hlen hno => ?full,
    fun hroom => ?placed⟩⟩, fun k l f hk hl hf => ⟨fun hno => ?absent, fun hown => ?released⟩,
    fun heads hg hlive hne hnd hall => ?expired⟩
  case barred =>
    exact answers_badField (act := actOverride) (fun _ => rfl) rfl (runOnly_accept hm) rfl
      (actOverride_barred (s.okHead_octets hk hl hf _) ha)
  case full =>
    rw [← headAt_eq hf [a, m]] at hno
    exact answers_refused (fun _ => rfl) rfl (runOnly_accept hm)
      (actOverride_full (s.okHead_octets hk hl hf _) ha1 ha4 hlen hno)
  case placed =>
    rw [← headAt_eq hf [a, m]] at hroom ⊢
    have hact := actOverride_placed (b := [k, l, f, a, m]) (s.okHead_octets hk hl hf _) ha1 ha4 hasp hroom
    have hstatus : (if (max 1 (min 240 m.toNat) != m.toNat) = true then 1 else 0) =
        if m.toNat = max 1 (min 240 m.toNat) then 0 else 1 := by
      by_cases hc : m.toNat = max 1 (min 240 m.toNat)
      · rw [if_pos hc, if_neg (by rw [← hc]; simp)]
      · rw [if_neg hc, if_pos (bne_iff_ne.2 (Ne.symm hc))]
    have hreply : flagOctets (s.overrideOf (headAt [k, l, f, a, m] 0)).isSome =
        [if (s.resolver.overrides.filter fun o => o.head != headAt [k, l, f, a, m] 0).length <
            s.resolver.overrides.length then 1 else 0] := by
      unfold flagOctets
      simp only [s.overrideOf_isSome, State.dropOverride_length]
      rfl
    rw [← hstatus]
    refine ResolverStep.performs (fun _ => rfl) rfl (runOnly_accept hm) (hact.trans ?_)
      (placeOverride_step (h := headAt [k, l, f, a, m] 0) asp (max 1 (min 240 m.toNat)) _) (List.mem_singleton_self _) (by decide) (by decide) fun t h => ?_
    · rw [hreply]
      rfl
    · obtain ⟨hkeeps, htable⟩ := h.overrides rfl
      exact ⟨hkeeps, h.expired, htable⟩
  case absent =>
    rw [← headAt_eq hf []] at hno
    have hact : actRelease s [k, l, f] = refuse s 22 0 0 := by
      rw [actRelease, withFields_good (by simp [firstBad_cons, s.okHead_octets hk hl hf]), (s.overrideOf_none _).2 hno]
      rfl
    exact answers_refused (modes := .both) (fun _ => rfl) rfl rfl hact
  case released =>
    rw [← headAt_eq hf []] at hown ⊢
    have hact : actRelease s [k, l, f] = okWith (s.dropOverride (headAt [k, l, f] 0)) [] := by
      rw [actRelease, withFields_good (by simp [firstBad_cons, s.okHead_octets hk hl hf]),
        if_pos ((s.overrideOf_isSome _).2 hown)]
    refine ResolverStep.performs (modes := .both) (fun _ => rfl) rfl rfl hact (dropOverride_step _)
      (List.mem_singleton_self _) (by decide) (by decide) fun t h => ?_
    obtain ⟨hkeeps, htable⟩ := h.overrides rfl
    exact ⟨hkeeps, h.expired, htable⟩
  case expired =>
    obtain ⟨hout, hport⟩ := (overridesExpire_step s heads).unreplied hg (hg.settled hlive) (by simp) (by decide) (by decide)
    obtain ⟨hkeeps, htable⟩ := hout.overrides (overridesExpire_resolver s heads)
    exact ⟨_, exec_overrideHoldExpiry hlive hne hall, hkeeps, hport, htable, overridesExpire_raised hnd hall hout⟩

end Sys2Proof.Machine
end

