-- ==== Sys2Proof/Proofs/FailedOpenings.lean ====
section
/-! PROOFS. The fresh openings that an event of the resolver, the lamps or the link fails (O45). -/

namespace Sys2Proof.Machine

/-! ### Events outside the engine -/

/-- An event's own writes leave the engine, the configuration, the Time Base and TASK_UNSUCCESSFUL, and keep the tables of
strings and stations canonical. -/
structure OutsideEngine (s a : State) : Prop where
  engine : a.engine = s.engine
  config : a.config = s.config
  time : a.time = s.time
  strings : Tab.wf StringRec.reset a.lamps.strings = true
  stations : Tab.wf (StationRec.reset .west) a.link.stations = true
  raised : s.RaisedTimes a .taskUnsuccessful 0

namespace OutsideEngine

variable {s a : State}

theorem n (h : OutsideEngine s a) : a.n = s.n := by unfold State.n; rw [h.config]
theorem l (h : OutsideEngine s a) : a.l = s.l := by unfold State.l; rw [h.config]
theorem lane (h : OutsideEngine s a) (l : Nat) : a.lane l = s.lane l := by unfold State.lane; rw [h.engine]

theorem refl (hg : s.Good) : OutsideEngine s s := ⟨rfl, rfl, rfl, hg.strings_wf, hg.stations_wf, .of_attn rfl⟩

/-- A step of the resolver writes no table of strings or stations. -/
theorem of_resolver {kinds : List AttnKind} (hg : s.Good) (h : ResolverStep s a kinds)
    (hr : s.RaisedTimes a .taskUnsuccessful 0) : OutsideEngine s a := by
  have hf := h.frame
  exact ⟨by rw [hf], by rw [hf], by rw [hf], by rw [hf]; exact hg.strings_wf, by rw [hf]; exact hg.stations_wf, hr⟩

/-- A step of the link or of the lamps raises no TASK_UNSUCCESSFUL. -/
theorem of_link (hg : s.Good) (h : LinkStep linkKinds s a) : OutsideEngine s a := by
  exact ⟨h.engine, h.config, h.time, h.strings hg.strings_wf, h.stations hg.stations_wf, h.raises.others _ (by decide)⟩

theorem complete (h : OutsideEngine s a) (f : HostFrame) (r : Reply) : OutsideEngine s (a.complete f r) :=
  ⟨h.engine, h.config, h.time, h.strings, h.stations, h.raised⟩

end OutsideEngine

/-! ### The lanes whose openings fail -/

/-- Some station of the section becomes LOST or CUT. -/
def State.StationFalls (s t : State) : Prop :=
  ∃ k, k < s.n ∧ (((t.station k).state = .lost ∧ (s.station k).state ≠ .lost) ∨
    ((t.station k).state = .cut ∧ (s.station k).state ≠ .cut))

theorem laneBecameLost_iff {n l lane : Nat} {old new : List (List HeadRec)} (hs : Covers n l old) (ht : Covers n l new)
    (hl : lane < l) :
    laneBecameLost old new lane = true ↔ ∃ h q r, (h.station < n ∧ h.lane = lane) ∧ tableAt old n h = some q ∧
      tableAt new n h = some r ∧ q.closureLost = false ∧ r.closureLost = true := by
  have hfaces : laneBecameLost old new lane = true ↔
      ∃ f : Face, (pairsAt old new (2 * lane + f.code)).any becameLost = true := by
    unfold laneBecameLost
    rw [Bool.or_eq_true]
    constructor
    · rintro (h | h)
      exacts [⟨.a, h⟩, ⟨.b, h⟩]
    · rintro ⟨f, h⟩
      cases f
      exacts [.inl h, .inr h]
  have hplace : ∀ f : Face, 2 * lane + f.code < 2 * l := fun f => by
    have : f.code < 2 := by cases f <;> decide
    omega
  rw [hfaces]
  constructor
  · rintro ⟨f, h⟩
    obtain ⟨p, hp, hb⟩ := List.any_eq_true.1 h
    obtain ⟨j, hj⟩ := List.mem_iff_getElem?.1 hp
    rw [pairsAt_getElem] at hj
    obtain ⟨r, hr, rfl⟩ := Option.map_eq_some_iff.1 hj
    have hjn : j < n := by
      have := (List.getElem?_eq_some_iff.1 hr).1
      rwa [ht.getD_length (hplace f)] at this
    obtain ⟨q, hq⟩ := hs.record (hplace f) hjn
    have hback : positionOf n f (stationAt n f j) = j := stationAt_stationAt _ hjn
    have hlost : r.closureLost = true ∧ q.closureLost = false := by
      rw [hq] at hb
      simpa [becameLost, recHas] using hb
    refine ⟨⟨stationAt n f j, lane, f⟩, q, r, ⟨stationAt_lt _ hjn, rfl⟩, ?_, ?_, hlost.2, hlost.1⟩
    · unfold tableAt; dsimp only; rw [hback, hq]
    · unfold tableAt; dsimp only; rw [hback, hr]
  · rintro ⟨h, q, r, ⟨-, rfl⟩, hq, hr, hqf, hrt⟩
    unfold tableAt at hq hr
    refine ⟨h.face, List.any_eq_true.2 ⟨(some q, r), List.mem_iff_getElem?.2 ⟨positionOf n h.face h.station, ?_⟩, ?_⟩⟩
    · rw [pairsAt_getElem, hr, hq]; rfl
    · simp [becameLost, recHas, hqf, hrt]

section Settled

variable {s a : State}

theorem stationFell_iff (hn : a.n = s.n) (hw : Tab.wf (StationRec.reset .west) a.link.stations = true) :
    stationFell s a = true ↔ s.StationFalls (settle s a) := by
  unfold stationFell State.StationFalls State.stationNumbers
  simp only [List.any_eq_true, List.mem_range, hn, settle_station_state s a hw, Bool.or_eq_true, Bool.and_eq_true,
    beq_iff_eq, bne_iff_ne]

/-- The lanes and the queue are no part of what else the scan reads. -/
theorem SameReads.withEngine {v w : State} (h : SameReads v w) (e : Engine) : SameReads v { w with engine := e } :=
  ⟨h.config, h.stamp, h.override, h.lampTest, h.station, h.condition, h.string, h.displayed⟩

/-- The settled state gives the scan the same to read as the event's own writes, but for the lanes and the queue. -/
theorem settle_sameReads (hs : Tab.wf StringRec.reset a.lamps.strings = true)
    (hw : Tab.wf (StationRec.reset .west) a.link.stations = true) : SameReads a (settle s a) := by
  have hd := settle_demands s a hs hw
  have he := (failOpenings_step a (settledFailures s a)).sameReads
  refine ⟨settle_config s a, ?_, fun x => (hd.override x).trans (he.override x),
    fun x => (hd.lampTest x).trans (he.lampTest x), fun k => (hd.station k).trans (he.station k),
    fun x => (hd.condition x).trans (he.condition x), fun key => ?_, fun x => ?_⟩
  · unfold State.stamp; rw [settle_time]
  · unfold State.string
    rw [settle_lamps]
    dsimp only
    rw [Tab.get_mapWhere _ _ _ rfl hs]
    split <;> rfl
  · unfold State.displayed; rw [settle_resolver]

theorem OutsideEngine.sameReads (h : OutsideEngine s a) :
    SameReads a { settle s a with engine := s.engine } :=
  (settle_sameReads h.strings h.stations).withEngine s.engine

/-- The head table that the event's reports are compared with the one before. -/
theorem OutsideEngine.resolveTable (h : OutsideEngine s a) :
    ({ settle s a with engine := s.engine } : State).resolveTable = a.resolveTable :=
  (h.sameReads.sameDemands fun l => by rw [h.lane]; rfl).resolveTable

end Settled

/-- A head of a lane becomes closure-lost, as the event leaves the demands and the availabilities, the engine apart (R36). -/
def State.LaneLoses (s t : State) (l : Nat) : Prop :=
  ∃ h q r, s.hasHead h = true ∧ h.lane = l ∧ s.headRec h = some q ∧
    tableAt ({ t with engine := s.engine } : State).resolveTable t.n h = some r ∧ q.closureLost = false ∧
    r.closureLost = true

/-- The record of a lane whose fresh opening has failed (R36). -/
def State.failedLane (s : State) (l : Nat) (d : Face) (task : Option Task) : LaneRec :=
  { s.lane l with
    phase := .shut, timer := none
    last := some (s.outcomeOf (task.getD ⟨l, .opn d, .host, none, none⟩) .failed (some .closureLost)) }

/-- Writing the same record into the same engine leaves the scan the same to read. -/
theorem SameReads.setLane {v w : State} (h : SameReads v w) (he : w.engine = v.engine) (l : Nat) (r : LaneRec) :
    SameLanes (v.setLane l r) (w.setLane l r) where
  reads := ((setLane_step v l r).sameReads.symm.trans h).trans (setLane_step w l r).sameReads
  lanes := by
    show Tab.set _ w.engine.lanes l r = Tab.set _ v.engine.lanes l r
    rw [he]
  plans := congrArg (·.plans) he

section Failures

variable {s a t : State} {l : Nat} (h : OutsideEngine s a) (hg : s.Good) (hs : s.Settled) (ht : t = settle s a)
include h hg hs ht

omit hg in
theorem OutsideEngine.laneBecameLost_iff (hl : l < s.l) :
    laneBecameLost s.resolver.heads a.resolveTable l = true ↔ s.LaneLoses t l := by
  have hcover := a.resolveTable_covers
  rw [h.n, h.l] at hcover
  have htable : ({ t with engine := s.engine } : State).resolveTable = a.resolveTable := ht ▸ h.resolveTable
  have hn : t.n = s.n := by rw [ht, settle_n, h.n]
  rw [Machine.laneBecameLost_iff (before_covers hs) hcover hl]
  unfold State.LaneLoses State.headRec
  rw [htable, hn]
  constructor
  · rintro ⟨x, q, r, ⟨hk, rfl⟩, hrest⟩
    exact ⟨x, q, r, (s.hasHead_iff x).2 ⟨hk, hl⟩, rfl, hrest⟩
  · rintro ⟨x, q, r, hx, rfl, hrest⟩
    exact ⟨x, q, r, ⟨((s.hasHead_iff x).1 hx).1, rfl⟩, hrest⟩

omit hg in
/-- The lanes whose opening fails are those of the fresh openings that the event's reports meet (R36). -/
theorem OutsideEngine.mem_settledFailures :
    l ∈ settledFailures s a ↔ (s.lane l).phase.freshOpening = true ∧ l < s.l ∧ (s.StationFalls t ∨ s.LaneLoses t l) := by
  have hfell := stationFell_iff h.n h.stations
  rw [← ht] at hfell
  unfold settledFailures failingLanes State.laneNumbers
  rw [List.mem_filter, List.mem_range, h.l, h.lane, Bool.and_eq_true, Bool.or_eq_true, hfell,
    comparedTable_kept h.n h.l]
  constructor
  · rintro ⟨hl, hfresh, hfails⟩
    exact ⟨hfresh, hl, hfails.imp id (h.laneBecameLost_iff hs ht hl).1⟩
  · rintro ⟨hfresh, hl, hfails⟩
    exact ⟨hl, hfresh, hfails.imp id (h.laneBecameLost_iff hs ht hl).2⟩

omit h hs ht in
theorem State.Good.fresh_lt (hfresh : (s.lane l).phase.freshOpening = true) : l < s.l := by
  by_contra hl
  rw [hg.lanes.outside l (by omega)] at hfresh
  cases hfresh

omit h hg hs ht in
theorem LanePhase.sweeping_of_fresh {p : LanePhase} (hp : p.freshOpening = true) : p.sweeping = true := by
  cases p <;> first | rfl | cases hp

/-- One lane alone can fail, for one lane alone holds the sweep (R23, R36). -/
theorem OutsideEngine.settledFailures_single (hfresh : (s.lane l).phase.freshOpening = true)
    (hfails : s.StationFalls t ∨ s.LaneLoses t l) : settledFailures s a = [l] := by
  have hone : ∀ m, m ∈ settledFailures s a ↔ m ∈ [l] := fun m => by
    rw [h.mem_settledFailures hs ht, List.mem_singleton]
    constructor
    · rintro ⟨hm, -, -⟩
      exact hg.lanes.oneSweep m l (LanePhase.sweeping_of_fresh hm) (LanePhase.sweeping_of_fresh hfresh)
    · rintro rfl
      exact ⟨hfresh, hg.fresh_lt hfresh, hfails⟩
  have hnodup : (settledFailures s a).Nodup := List.nodup_range.filter _
  exact List.perm_singleton.1 ((List.perm_ext_iff_of_nodup hnodup (List.nodup_singleton l)).2 hone)

omit hg in
/-- Where the reports meet no fresh opening, the event leaves the engine (R36). -/
theorem OutsideEngine.unfailed (hno : ∀ l, (s.lane l).phase.freshOpening = true → ¬(s.StationFalls t ∨ s.LaneLoses t l)) :
    t.engine = s.engine ∧ s.RaisedTimes t .taskUnsuccessful 0 := by
  have hnil : settledFailures s a = [] := List.eq_nil_iff_forall_not_mem.2 fun l hl => by
    obtain ⟨hfresh, -, hfails⟩ := (h.mem_settledFailures hs ht).1 hl
    exact hno l hfresh hfails
  subst ht
  exact ⟨by rw [settle_engine, settledEngine_of_nil hnil, h.engine],
    settle_raisedTimes h.n h.l hnil h.raised (by decide) (by decide)⟩

/-- A fresh opening that the reports meet fails: its lane is SHUT, its task ends FAILED, and the scan runs (R36). -/
theorem OutsideEngine.failed {d : Face} {f : Nat} {task : Option Task} (hp : (s.lane l).phase = .opening d f false task)
    (hfails : s.StationFalls t ∨ s.LaneLoses t l) :
    t.engine = (({ t with engine := s.engine } : State).setLane l (s.failedLane l d task)).scan.engine ∧
      s.RaisedAtLeast t .taskUnsuccessful 1 := by
  have hsingle := h.settledFailures_single hg hs ht (by rw [hp]; rfl) hfails
  have hlane : a.lane l = s.lane l := h.lane l
  have hwf : Tab.wf LaneRec.reset a.engine.lanes = true := h.engine ▸ hg.lanes_wf
  have hcarried : ∀ u, task = some u → u.lane = l := fun u hu => hg.lanes.carried l u (by rw [hp]; exact hu)
  have hengine : settledEngine s a =
      ((a.putPhase l .shut none).endOpening l d task .failed (some .closureLost)).scan := by
    unfold settledEngine
    rw [hsingle]
    show (a.failOpening l).scan = _
    unfold State.failOpening
    rw [hlane, hp]
  have hrew := (Rewrites.putPhase_stale (l := l) (kinds := [.taskUnsuccessful]) (p := .shut) hwf none rfl).endOpening
    (d := d) hcarried (o := .failed) (by decide) (some .closureLost) (List.mem_singleton_self _)
  have hrecord : { { a.lane l with phase := .shut, timer := none } with
      last := some (a.outcomeOf (task.getD ⟨l, .opn d, .host, none, none⟩) .failed (some .closureLost)) } =
        s.failedLane l d task := by
    unfold State.failedLane State.outcomeOf State.stamp
    rw [hlane, h.time]
  have hreads : SameReads a { t with engine := s.engine } := ht ▸ h.sameReads
  have hscan := hrew.scan
  rw [hrecord] at hscan
  refine ⟨?_, ?_⟩
  · rw [ht, settle_engine, hengine, ← ht, hscan]
    exact ((hreads.setLane h.engine.symm l (s.failedLane l d task)).scan
      (congrArg (·.queue) h.engine.symm)).symm
  · have hone : s.RaisedTimes ((a.putPhase l .shut none).endOpening l d task .failed (some .closureLost))
        .taskUnsuccessful 1 := h.raised.after (endOpening_raisedTimes (a.putPhase l .shut none) task (by decide) _)
    have hkept := (EngineMove.scan (kinds := [.taskUnsuccessful]) (by simp) _).raises.keepsAtLeast (hone.atLeast le_rfl)
    rw [← hengine] at hkept
    have htable := (Raises.takeTable (settledEngine s a) s.resolver.heads (settledEngine s a).resolveTable []).keepsAtLeast hkept
    rw [← settleHeads_compared h.n h.l] at htable
    unfold State.RaisedAtLeast at htable ⊢
    rw [ht, settle_attn]
    exact htable

end Failures

/-! ### The events -/

theorem OutsideEngine.withFields {s : State} {tests : List (Bool × Nat)} {act : CmdResult} (hg : s.Good)
    (h : OutsideEngine s act.state) : OutsideEngine s (withFields s tests act).state := by
  unfold Machine.withFields
  split
  · exact .refl hg
  · exact h

section Events

variable {s t : State}

/-- An event leaves a part as it was, or settles a state whose engine is the one before. -/
def State.SettlesOutside (s t : State) : Prop := t = s ∨ ∃ a, OutsideEngine s a ∧ t = settle s a

theorem runCommand_outside {kind len : Nat} {modes : Modes} {act : State → List Octet → CmdResult} {tag : Octet}
    {body : List Octet} (hg : s.Good) (h : runCommand kind len modes act tag body s = .next t)
    (ha : OutsideEngine s (act s body).state) : s.SettlesOutside t := by
  rcases runCommand_cases h with h | ⟨r, h, hr⟩
  · exact .inl h
  · have hstate : OutsideEngine s r.state := by
      rcases hr with rfl | rfl | rfl
      exacts [.refl hg, .refl hg, ha]
    exact .inr ⟨_, hstate.complete _ _, h⟩

theorem event_outside {f : State → State} (h : event s f = .next t) (ha : OutsideEngine s (f s)) : s.SettlesOutside t :=
  (event_cases h).imp id fun ⟨_, h⟩ => ⟨_, ha, h⟩

theorem eventIf_outside {allowed : Bool} {f : State → State} (h : eventIf s allowed f = .next t)
    (ha : OutsideEngine s (f s)) : s.SettlesOutside t := (eventIf_cases h).imp id fun ⟨_, _, h⟩ => ⟨_, ha, h⟩

theorem actOverride_outside (hg : s.Good) (b : List Octet) : OutsideEngine s (actOverride s b).state := by
  refine .withFields hg ?_
  split
  · exact .refl hg
  · exact .of_resolver hg (placeOverride_step (kinds := []) _ _) (.of_attn rfl)

theorem actRelease_outside (hg : s.Good) (b : List Octet) : OutsideEngine s (actRelease s b).state := by
  refine .withFields hg ?_
  split
  · exact .of_resolver hg (dropOverride_step []) (.of_attn rfl)
  · exact .refl hg

theorem actClearFault_outside (hg : s.Good) (b : List Octet) : OutsideEngine s (actClearFault s b).state :=
  .withFields hg (.of_link hg (.clearLamps s _))

theorem actRestoreStation_outside (hg : s.Good) (b : List Octet) : OutsideEngine s (actRestoreStation s b).state := by
  refine .withFields hg ?_
  split
  · exact .of_link hg (.restoreStation s _)
  · exact .refl hg

theorem overridesExpire_outside (hg : s.Good) (hs : List HeadRef) : OutsideEngine s (s.overridesExpire hs) :=
  .of_resolver hg (overridesExpire_step s hs) (raiseTimes_raisedTimes_ne _ (by decide) _)

/-- The link's events write nothing of the engine. -/
theorem gantryEvent_outside (hg : s.Good) {c : Instr} {e : LinkEnd} {os : List Octet}
    (hc : c = .gantryAnswer e os ∨ c = .gantryBadAnswer e os true ∨ c = .gantryBadAnswer e os false ∨
      c = .gantryGapTimeout e os ∨ c = .pollTimeout e) (h : exec c s = .next t) : s.SettlesOutside t := by
  have hoctets := LinkStep.gantryOctets s e os
  have hshort := hoctets.trans (.gantryCutShort _ e)
  rcases hc with rfl | rfl | rfl | rfl | rfl
  · exact event_outside (f := fun s => s.gantryOctets e os) h (.of_link hg hoctets)
  · exact event_outside (f := fun s => (s.gantryOctets e os).gantryCutShort e) h (.of_link hg hshort)
  · exact event_outside (f := fun s => s.gantryOctets e os) h (.of_link hg hoctets)
  · exact event_outside (f := fun s => (s.gantryOctets e os).gantryCutShort e) h (.of_link hg hshort)
  · exact eventIf_outside (f := fun s => s.timeOut e) h (.of_link hg (.timeOut s e))

theorem command_outside (hg : s.Good) {c : Instr} {tag : Octet} {b : List Octet}
    (hc : c = .override tag b ∨ c = .release tag b ∨ c = .clearFault tag b ∨ c = .restoreStation tag b)
    (h : exec c s = .next t) : s.SettlesOutside t := by
  rcases hc with rfl | rfl | rfl | rfl
  · exact runCommand_outside hg h (actOverride_outside hg b)
  · exact runCommand_outside hg h (actRelease_outside hg b)
  · exact runCommand_outside hg h (actClearFault_outside hg b)
  · exact runCommand_outside hg h (actRestoreStation_outside hg b)

/-- An event without effect makes no station fall and no head closure-lost. -/
theorem State.unfailed_self (hs : s.Settled) (l : Nat) : ¬(s.StationFalls s ∨ s.LaneLoses s l) := by
  rintro (⟨k, -, ⟨h, hn⟩ | ⟨h, hn⟩⟩ | ⟨x, q, r, -, -, hq, hr, hqf, hrt⟩)
  · exact hn h
  · exact hn h
  · unfold State.headRec at hq
    rw [hs.heads] at hq
    change tableAt s.resolveTable s.n x = some r at hr
    rw [hq] at hr
    cases hr
    rw [hqf] at hrt
    cases hrt

theorem LanePhase.freshOpening_iff {p : LanePhase} :
    p.freshOpening = true ↔ ∃ d f task, p = .opening d f false task := by
  cases p <;> simp [LanePhase.freshOpening]

end Events

/-- Settles O45: each of these events settles a state whose engine is the one before, so that the engine moves only where the
event's reports meet the one lane that holds the sweep. -/
theorem freshOpeningFails : Obligations.FreshOpeningFails := by
  intro s t c hg hlive hc hexec
  have hs := hg.settled hlive
  have houtside : s.SettlesOutside t := by
    rcases hc with ⟨e, os, hc⟩ | ⟨tag, b, hc⟩ | ⟨heads, rfl⟩
    · exact gantryEvent_outside hg hc hexec
    · exact command_outside hg hc hexec
    · exact eventIf_outside (f := fun s => s.overridesExpire heads) hexec (overridesExpire_outside hg heads)
  rcases houtside with rfl | ⟨a, ha, ht⟩
  · exact ⟨fun l d f task _ hfails => absurd hfails (State.unfailed_self hs l), fun _ => ⟨rfl, .refl t _⟩⟩
  · refine ⟨fun l d f task hp hfails => ha.failed hg hs ht hp hfails, fun hno => ha.unfailed hs ht fun l hfresh => ?_⟩
    obtain ⟨d, f, task, hp⟩ := LanePhase.freshOpening_iff.1 hfresh
    exact hno l d f task hp

end Sys2Proof.Machine
end

