-- ==== Sys2Proof/Proofs/GantryReception.lean ====
section
/-! PROOFS. The octets of a SAMPLE frame are received whole as the answer of an exchange, and read back (R145, R149). -/

namespace Sys2Proof.Machine

/-! ### A sample frame is read back -/

/-- The bounds of a sample record that a driver sends (R104, R200). -/
def Sample.sendable (r : Sample) : Prop :=
  r.shown < 256 ∧ r.dim < 256 ∧ r.phase < 256 ∧ r.lit1 ≤ 1023 ∧ r.lit2 ≤ 1023 ∧ r.leakOpen ≤ 1023 ∧ r.leakOther ≤ 1023

theorem toNat_octet (n : Nat) : (octet n).toNat = n % 256 := BitVec.toNat_ofNat n 8

theorem oct_append_right (pre b : List Octet) (i : Nat) : oct (pre ++ b) (pre.length + i) = oct b i := by
  unfold oct
  rw [List.getD_append_right _ _ _ _ (Nat.le_add_right _ _), Nat.add_sub_cancel_left]

theorem sampleAt_octets {r : Sample} (hr : r.sendable) (pre suf : List Octet) :
    sampleAt (pre ++ (r.octets ++ suf)) pre.length = r := by
  obtain ⟨h1, h2, h3, h4, h5, h6, h7⟩ := hr
  have h0 := oct_append_right pre (r.octets ++ suf) 0
  rw [Nat.add_zero] at h0
  unfold sampleAt oct2
  simp only [Nat.add_assoc, Nat.reduceAdd, oct_append_right, h0]
  simp only [Sample.octets, be16, List.cons_append, List.nil_append, oct_cons_zero, oct_cons_succ, toNat_octet]
  obtain ⟨shown, dim, phase, lit1, lit2, leakOpen, leakOther⟩ := r
  simp only [Sample.mk.injEq, clampCurrent, Config.maxCurrent]
  dsimp only at h1 h2 h3 h4 h5 h6 h7
  refine ⟨?_, ?_, ?_, ?_, ?_, ?_, ?_⟩ <;> omega

theorem Sample.octets_length (r : Sample) : r.octets.length = 11 := rfl

theorem sampleAt_records {rs : List Sample} (hr : ∀ r ∈ rs, r.sendable) (pre suf : List Octet) :
    (List.range rs.length).map (fun j => sampleAt (pre ++ (rs.flatMap Sample.octets ++ suf)) (pre.length + 11 * j)) = rs := by
  induction rs generalizing pre with
  | nil => rfl
  | cons r rs ih =>
    have htail := ih (fun x hx => hr x (List.mem_cons_of_mem _ hx)) (pre ++ r.octets)
    have hlen : (pre ++ r.octets).length = pre.length + 11 := by rw [List.length_append, r.octets_length]
    rw [List.length_cons, List.range_succ_eq_map, List.map_cons, List.map_map, List.flatMap_cons, List.append_assoc,
      Nat.mul_zero, Nat.add_zero, sampleAt_octets (hr r (List.mem_cons_self ..))]
    refine congrArg _ (Eq.trans (List.map_congr_left fun j _ => ?_) htail)
    rw [Function.comp, hlen, List.append_assoc]
    congr 1
    omega

theorem ident_octets (i : BitVec 32) :
    octet (i.toNat / 16777216) ++ octet (i.toNat / 65536) ++ octet (i.toNat / 256) ++ octet i.toNat = i := by
  have hdiv : ∀ a j, (i.toNat / 2 ^ a).testBit j = i.getLsbD (a + j) := fun a j => by
    rw [Nat.testBit_div_two_pow, Nat.add_comm]
    rfl
  have h24 := hdiv 24
  have h16 := hdiv 16
  have h8 := hdiv 8
  have h0 : ∀ j, i.toNat.testBit j = i.getLsbD j := fun _ => rfl
  norm_num at h24 h16 h8
  refine BitVec.eq_of_getLsbD_eq fun j hj => ?_
  simp only [octet, BitVec.getLsbD_append, BitVec.getLsbD_ofNat, h24, h16, h8, h0]
  split_ifs with h1 h2 h3
  · rw [decide_eq_true h1, Bool.true_and]
  · rw [decide_eq_true h2, Bool.true_and, Nat.add_sub_of_le (by omega)]
  · rw [decide_eq_true h3, Bool.true_and, show 16 + (j - 8 - 8) = j by omega]
  · rw [decide_eq_true (by omega), Bool.true_and, show 24 + (j - 8 - 8 - 8) = j by omega]

section Frame

variable {k lanes : Nat} {f : SampleFrame}

/-- What a receiver holds of a SAMPLE frame once it is whole: all but the start octet. -/
def sampleOctets (k : Nat) (f : SampleFrame) : List Octet := (sampleFrame k f).checked ++ crcOctets (sampleFrame k f).checked

theorem sampleFrame_octets (k : Nat) (f : SampleFrame) : (sampleFrame k f).octets = gantryStart :: sampleOctets k f := rfl

theorem checked_length (k : Nat) (f : SampleFrame) : (sampleFrame k f).checked.length = 8 + 11 * f.records.length := by
  have hrecords : (f.records.flatMap Sample.octets).length = 11 * f.records.length := by
    rw [List.length_flatMap]
    simp [Sample.octets_length, Nat.mul_comm]
  simp only [GantryFrame.checked, sampleFrame, be32, List.length_cons, List.length_append, List.length_nil, hrecords]
  omega

theorem sampleOctets_length (k : Nat) (f : SampleFrame) : (sampleOctets k f).length = 10 + 11 * f.records.length := by
  rw [sampleOctets, List.length_append, checked_length]
  show 8 + 11 * f.records.length + 2 = _
  omega

theorem sampleOctets_count (hc : f.records.length ≤ 12) : oct (sampleOctets k f) 7 = f.records.length := by
  show (octet f.records.length).toNat = _
  rw [toNat_octet]
  omega

theorem answerFault_sample (hk : k < 16) (hl : lanes ≤ 6) (hc : f.records.length = 2 * lanes) :
    answerFault k lanes (sampleOctets k f) = none := by
  have hlen : (sampleOctets k f).length - 2 = (sampleFrame k f).checked.length := by
    rw [sampleOctets_length, checked_length]; omega
  have hcrc : (sampleOctets k f).drop (sampleFrame k f).checked.length =
      crcOctets ((sampleOctets k f).take (sampleFrame k f).checked.length) := by
    unfold sampleOctets
    rw [List.drop_left, List.take_left]
  have haddress : oct (sampleOctets k f) 0 = k := by
    show (octet k).toNat = k
    rw [toNat_octet]; omega
  unfold answerFault
  dsimp only
  have hkind : (sampleOctets k f).getD 1 0 = kindSample := rfl
  rw [hlen, if_neg (not_not.2 hcrc), if_neg (not_not.2 hkind), if_neg (not_not.2 haddress),
    if_neg (not_not.2 ((sampleOctets_count (by omega)).trans hc))]

theorem readSample_sample (hc : f.records.length ≤ 12) (hr : ∀ r ∈ f.records, r.sendable) :
    readSample (sampleOctets k f) = f := by
  have hsupply : (oct (sampleOctets k f) 6 != 0) = f.supplyOpen := by
    show ((if f.supplyOpen then 1#8 else 0#8 : Octet).toNat != 0) = _
    cases f.supplyOpen <;> rfl
  have hrecords : (List.range (oct (sampleOctets k f) 7)).map (fun j => sampleAt (sampleOctets k f) (8 + 11 * j)) =
      f.records := by
    rw [sampleOctets_count hc]
    exact sampleAt_records hr [octet k, kindSample, octet (f.ident.toNat / 16777216), octet (f.ident.toNat / 65536),
      octet (f.ident.toNat / 256), octet f.ident.toNat, if f.supplyOpen then 1#8 else 0#8, octet f.records.length]
      (crcOctets (sampleFrame k f).checked)
  have hident := ident_octets f.ident
  unfold readSample
  rw [hsupply, hrecords]
  obtain ⟨ident, supplyOpen, records⟩ := f
  congr 1

/-- A SAMPLE frame is whole with its last octet (R200). -/
theorem gantryProgress_sample (hc : f.records.length ≤ 12) : gantryProgress (sampleOctets k f) = .whole := by
  have hlayout : gantryLayout ((sampleOctets k f).getD 1 0) = some (some 7, 11, 6) := rfl
  have hlen := sampleOctets_length k f
  unfold gantryProgress
  rw [if_neg (by omega), hlayout]
  dsimp only
  rw [if_neg (by omega), sampleOctets_count hc, if_neg (by omega), if_neg (by omega)]

/-- A SAMPLE frame is not whole before its last octet (R200). -/
theorem gantryProgress_prefix (hc : f.records.length ≤ 12) {m : Nat} (hm : m < (sampleOctets k f).length) :
    gantryProgress ((sampleOctets k f).take m) = .partly := by
  have hlen := sampleOctets_length k f
  have htake : ((sampleOctets k f).take m).length = m := by rw [List.length_take]; omega
  have hget : ∀ i, i < m → ((sampleOctets k f).take m).getD i 0 = (sampleOctets k f).getD i 0 := fun i hi => by
    rw [List.getD_eq_getElem?_getD, List.getD_eq_getElem?_getD, List.getElem?_take_of_lt hi]
  unfold gantryProgress
  rw [htake]
  by_cases h2 : m < 2
  · rw [if_pos h2]
  · have hlayout : gantryLayout (((sampleOctets k f).take m).getD 1 0) = some (some 7, 11, 6) := by
      rw [hget 1 (by omega)]; rfl
    rw [if_neg h2, hlayout]
    dsimp only
    by_cases h7 : m ≤ 7
    · rw [if_pos h7]
    · have hcount : oct ((sampleOctets k f).take m) 7 = f.records.length := by
        unfold oct
        rw [hget 7 (by omega)]
        exact sampleOctets_count hc
      rw [if_neg h7, hcount, if_neg (by omega), if_pos (by omega)]

end Frame

/-! ### Reception of a frame -/

section Reception

variable {s : State} {e : LinkEnd} {x : Exchange}

@[simp] theorem State.setPoller_setPoller (s : State) (e : LinkEnd) (p q : Poller) :
    (s.setPoller e p).setPoller e q = s.setPoller e q := by cases e <;> rfl

/-- An octet of a frame that answers an exchange stops the answer timeout (R153). -/
theorem gantryReceived_partly (s : State) (e : LinkEnd) (got : List Octet) :
    s.gantryReceived e (.inFrame true got, none) =
      s.setPoller e { s.poller e with rx := .inFrame true got, answerTimer := none } := rfl

theorem gantryReceived_ended (s : State) (e : LinkEnd) (ev : GantryRxEvent) :
    s.gantryReceived e (.hunting, some ev) = (s.setPoller e { s.poller e with rx := .hunting }).gantryEvent e ev := rfl

theorem gantryEvent_good {got : List Octet} (hx : (s.poller e).exchange = some x)
    (ha : answerFault x.station s.l got = none) :
    s.gantryEvent e (.whole true got) = (s.endExchange e).takeAnswer e x.station (readSample got) := by
  unfold State.gantryEvent
  rw [hx]
  dsimp only
  rw [ha]

/-- The octets of a frame inside an exchange are taken one by one, and the last one ends the frame (R145). -/
theorem gantryOctets_inFrame {rest pre : List Octet} (hne : rest ≠ []) (hx : (s.poller e).exchange = some x)
    (hrx : (s.poller e).rx = .inFrame true pre) (ht : (s.poller e).answerTimer = none)
    (hpartly : ∀ m, pre.length < m → m < (pre ++ rest).length → gantryProgress ((pre ++ rest).take m) = .partly)
    (hwhole : gantryProgress (pre ++ rest) = .whole) :
    s.gantryOctets e rest = (s.setPoller e { s.poller e with rx := .hunting }).gantryEvent e (.whole true (pre ++ rest)) := by
  induction rest generalizing s pre with
  | nil => exact absurd rfl hne
  | cons o rest ih =>
    have hstep : ∀ u : State, u.gantryOctets e (o :: rest) = (u.gantryOctet e o).gantryOctets e rest := fun _ => rfl
    cases rest with
    | nil =>
      have hrecv : s.gantryOctet e o =
          (s.setPoller e { s.poller e with rx := .hunting }).gantryEvent e (.whole true (pre ++ [o])) := by
        unfold State.gantryOctet
        rw [hrx, GantryRx.octet]
        dsimp only
        rw [hwhole]
        exact gantryReceived_ended s e _
      exact hrecv
    | cons o' rest =>
      have hprogress : gantryProgress (pre ++ [o]) = .partly := by
        have h := hpartly (pre.length + 1) (by omega) (by simp)
        rwa [List.take_length_add_append, List.take_one] at h
      have hrecv : s.gantryOctet e o =
          s.setPoller e { s.poller e with rx := .inFrame true (pre ++ [o]) } := by
        unfold State.gantryOctet
        rw [hrx, GantryRx.octet]
        dsimp only
        rw [hprogress]
        exact (gantryReceived_partly s e _).trans (by rw [← ht])
      have happend : pre ++ o :: o' :: rest = (pre ++ [o]) ++ o' :: rest := by simp
      rw [hstep, hrecv]
      rw [happend] at hpartly hwhole ⊢
      rw [ih (List.cons_ne_nil _ _) (by rw [State.setPoller_poller]; exact hx) (by rw [State.setPoller_poller])
        (by rw [State.setPoller_poller]; exact ht) (fun m hm => hpartly m (by simp at hm ⊢; omega)) hwhole,
        State.setPoller_setPoller, State.setPoller_poller]

/-- A driver's SAMPLE frame that answers the exchange in flight ends the exchange and is taken (R149, R153, R155). -/
theorem gantryOctets_sample {f : SampleFrame} (hx : (s.poller e).exchange = some x) (hrx : (s.poller e).rx = .hunting)
    (hk : x.station < 16) (hl : s.l ≤ 6) (hc : f.records.length = 2 * s.l) (hr : ∀ r ∈ f.records, r.sendable) :
    s.gantryOctets e (sampleFrame x.station f).octets = (s.endExchange e).takeAnswer e x.station f := by
  have hstart : s.gantryOctet e gantryStart =
      s.setPoller e { s.poller e with rx := .inFrame true [], answerTimer := none } := by
    unfold State.gantryOctet
    rw [hrx, hx]
    rfl
  have hframe : ∀ u : State, u = s.setPoller e { s.poller e with rx := .inFrame true [], answerTimer := none } →
      u.gantryOctets e (sampleOctets x.station f) =
        (s.setPoller e { s.poller e with answerTimer := none }).gantryEvent e (.whole true (sampleOctets x.station f)) := by
    rintro u rfl
    have hall := gantryOctets_inFrame (s := s.setPoller e { s.poller e with rx := .inFrame true [], answerTimer := none })
      (e := e) (x := x) (pre := []) (rest := sampleOctets x.station f) (List.cons_ne_nil _ _)
      (by rw [State.setPoller_poller]; exact hx) (by rw [State.setPoller_poller]) (by rw [State.setPoller_poller])
      (fun m _ hm => gantryProgress_prefix (by omega) hm) (gantryProgress_sample (by omega))
    rw [State.setPoller_setPoller, State.setPoller_poller, List.nil_append] at hall
    rw [hall, ← hrx]
  have hlanes : (s.setPoller e { s.poller e with answerTimer := none }).l = s.l := by cases e <;> rfl
  have hgood : answerFault x.station (s.setPoller e { s.poller e with answerTimer := none }).l
      (sampleOctets x.station f) = none := by rw [hlanes, answerFault_sample hk hl hc]
  have hended : (s.setPoller e { s.poller e with answerTimer := none }).endExchange e = s.endExchange e := by
    unfold State.endExchange
    rw [State.setPoller_setPoller, State.setPoller_poller]
  rw [sampleFrame_octets]
  show (s.gantryOctet e gantryStart).gantryOctets e (sampleOctets x.station f) = _
  rw [hframe _ hstart, gantryEvent_good (by rw [State.setPoller_poller]; exact hx) hgood, hended,
    readSample_sample (by omega) hr]

end Reception

end Sys2Proof.Machine
end

