-- ==== Sys2Proof/Proofs/PollerChoice.lean ====
section
/-! PROOFS. What the pollers' choice at the end of an event leaves of the stations and of the pollers (R147, R152, R153). -/

namespace Sys2Proof.Machine

/-- The pollers have chosen: a station's RESTORE-pending mark goes only with a RESTORE frame to it, what is being sent stays,
the receivers and answer timeouts stay, and no reprobe becomes due. -/
structure PollerStep (s t : State) : Prop where
  station : ∀ j, t.station j = s.station j ∨ ((s.station j).restorePending = true ∧
    t.station j = { s.station j with restorePending := false } ∧ ∃ e, (t.poller e).sending = some ⟨octet j, 3#8, []⟩)
  sending : ∀ e f, (s.poller e).sending = some f → (t.poller e).sending = some f
  rx : ∀ e, (t.poller e).rx = (s.poller e).rx
  answerTimer : ∀ e, (t.poller e).answerTimer = (s.poller e).answerTimer
  due : ∀ e k, k ∈ (t.poller e).due → k ∈ (s.poller e).due
  committed : ∀ e k, (t.poller e).committed = some ⟨k, true⟩ →
    (s.poller e).committed = some ⟨k, true⟩ ∨ k ∈ (s.poller e).due

namespace PollerStep

variable {s t u : State}

theorem refl (s : State) : PollerStep s s :=
  ⟨fun _ => .inl rfl, fun _ _ => id, fun _ => rfl, fun _ => rfl, fun _ _ => id, fun _ _ => .inl⟩

theorem trans (h : PollerStep s t) (k : PollerStep t u) : PollerStep s u := by
  refine ⟨fun j => ?_, fun e f hf => k.sending e f (h.sending e f hf), fun e => (k.rx e).trans (h.rx e),
    fun e => (k.answerTimer e).trans (h.answerTimer e), fun e i hi => h.due e i (k.due e i hi), fun e i hi => ?_⟩
  · rcases h.station j with h1 | ⟨hp, h1, e, hsend⟩
    · rcases k.station j with h2 | ⟨hp, h2, hsend⟩
      · exact .inl (h2.trans h1)
      · exact .inr ⟨h1 ▸ hp, by rw [h2, h1], hsend⟩
    · rcases k.station j with h2 | ⟨hp2, -, -⟩
      · exact .inr ⟨hp, h2.trans h1, e, k.sending e _ hsend⟩
      · rw [h1] at hp2
        cases hp2
  · rcases k.committed e i hi with h1 | h1
    · exact h.committed e i h1
    · exact .inr (h.due e i h1)

/-- The poller of one end is written, and no station record. -/
theorem of_poller {e : LinkEnd} {p : Poller} (hsend : (s.poller e).sending = none) (hrx : p.rx = (s.poller e).rx)
    (ht : p.answerTimer = (s.poller e).answerTimer) (hd : ∀ k, k ∈ p.due → k ∈ (s.poller e).due)
    (hc : ∀ k, p.committed = some ⟨k, true⟩ → (s.poller e).committed = some ⟨k, true⟩ ∨ k ∈ (s.poller e).due) :
    PollerStep s (s.setPoller e p) := by
  have hpoller : ∀ f, (s.setPoller e p).poller f = if f = e then p else s.poller f := fun f => by
    cases e <;> cases f <;> rfl
  have hself : (s.setPoller e p).poller e = p := by rw [hpoller, if_pos rfl]
  have hother : ∀ f, f ≠ e → (s.setPoller e p).poller f = s.poller f := fun f hf => by rw [hpoller, if_neg hf]
  refine ⟨fun j => .inl (State.setPoller_station s e p j), fun f g hg => ?_, fun f => ?_, fun f => ?_, fun f k hk => ?_,
    fun f k hk => ?_⟩ <;> rcases eq_or_ne f e with rfl | hf
  · rw [hsend] at hg; cases hg
  · rw [hother f hf]; exact hg
  · rw [hself]; exact hrx
  · rw [hother f hf]
  · rw [hself]; exact ht
  · rw [hother f hf]
  · rw [hself] at hk; exact hd k hk
  · rw [hother f hf] at hk; exact hk
  · rw [hself] at hk; exact hc k hk
  · rw [hother f hf] at hk; exact .inl hk

end PollerStep

/-- The exchange that an end turns to is no new reprobe (R153). -/
theorem State.nextExchange_reprobe {s : State} {e : LinkEnd} {k : Nat} (h : s.nextExchange e = some ⟨k, true⟩) :
    (s.poller e).committed = some ⟨k, true⟩ ∨ k ∈ (s.poller e).due := by
  unfold State.nextExchange at h
  split at h
  · cases h
  · rename_i next _
    have hrule : ∀ x, (some (match (s.poller e).due with
        | k :: _ => (⟨k, true⟩ : Exchange)
        | [] => ⟨next, false⟩) = some x) → x = ⟨k, true⟩ → k ∈ (s.poller e).due := by
      rintro x hx rfl
      cases hd : (s.poller e).due with
      | nil => rw [hd] at hx; cases hx
      | cons j due =>
        rw [hd] at hx
        cases hx
        exact List.mem_cons_self ..
    dsimp only at h
    split at h
    · rename_i x hx
      split at h
      · exact .inl (hx.trans h)
      · exact .inr (hrule _ h rfl)
    · exact .inr (hrule _ h rfl)

/-- An end's choice is a step of the pollers (R147, R153). -/
theorem drivePoller_pollerStep (s : State) (e : LinkEnd) (hw : Tab.wf (StationRec.reset .west) s.link.stations = true) :
    PollerStep s (s.drivePoller e) := by
  unfold State.drivePoller
  dsimp only
  split
  · exact .refl s
  · rename_i hidle
    have hsend : (s.poller e).sending = none := by
      simp only [Bool.or_eq_true, not_or, Bool.not_eq_true, Option.isSome_eq_false_iff, Option.isNone_iff_eq_none] at hidle
      exact hidle.1.2
    split
    · exact .of_poller hsend rfl rfl (fun _ => id) fun _ => .inl
    · cases hx : s.nextExchange e with
      | none => exact .refl s
      | some x =>
        have hreprobe : ∀ k, x = ⟨k, true⟩ → (s.poller e).committed = some ⟨k, true⟩ ∨ k ∈ (s.poller e).due :=
          fun k hk => State.nextExchange_reprobe (hx.trans (congrArg some hk))
        show PollerStep s (s.beginExchange e x)
        unfold State.beginExchange
        dsimp only
        split
        · rename_i hpending
          have hpoll : PollerStep s (s.setPoller e
              { s.poller e with sending := some (restoreFrame x.station), committed := some x }) :=
            .of_poller hsend rfl rfl (fun _ => id) fun k hk => hreprobe k (Option.some.inj hk)
          have hsame : ∀ f, ((s.setStation x.station { s.station x.station with restorePending := false }).setPoller e
              { s.poller e with sending := some (restoreFrame x.station), committed := some x }).poller f =
              (s.setPoller e { s.poller e with sending := some (restoreFrame x.station), committed := some x }).poller f :=
            fun f => by cases e <;> cases f <;> rfl
          refine ⟨fun j => ?_, ?_, ?_, ?_, ?_, ?_⟩
          · rw [State.setPoller_station, State.setStation_station _ _ _ _ hw]
            split
            · rename_i hj
              subst hj
              exact .inr ⟨hpending, rfl, e, by rw [State.setPoller_poller]; rfl⟩
            · exact .inl rfl
          · simpa only [hsame] using hpoll.sending
          · simpa only [hsame] using hpoll.rx
          · simpa only [hsame] using hpoll.answerTimer
          · simpa only [hsame] using hpoll.due
          · simpa only [hsame] using hpoll.committed
        · refine .of_poller hsend rfl rfl (fun k hk => ?_) fun k hk => (by cases hk)
          split at hk
          · exact List.mem_of_mem_filter hk
          · exact hk

/-- The end of an event changes of the stations and of the pollers what both choices change (R153). -/
theorem settle_pollerStep (s a : State) (hw : Tab.wf (StationRec.reset .west) a.link.stations = true) :
    PollerStep a (settle s a) := by
  have hlink : (settleHeads s a).reportConditions.link = a.link := by
    rw [State.reportConditions_frame]; exact settleHeads_link s a
  have hwest := drivePoller_pollerStep (settleHeads s a).reportConditions .west (by rw [hlink]; exact hw)
  have heast := drivePoller_pollerStep ((settleHeads s a).reportConditions.drivePoller .west) .east
    (State.drivePoller_wf _ _ (by rw [hlink]; exact hw))
  have hboth := hwest.trans heast
  have hst : ∀ j, (settleHeads s a).reportConditions.station j = a.station j := fun j => by
    unfold State.station; rw [hlink]
  have hpl : ∀ e, (settleHeads s a).reportConditions.poller e = a.poller e := fun e => by unfold State.poller; rw [hlink]
  have hst' : ∀ j, (settle s a).station j =
      (((settleHeads s a).reportConditions.drivePoller .west).drivePoller .east).station j := fun j => by
    unfold State.station; rw [settle_link]
  have hpl' : ∀ e, (settle s a).poller e =
      (((settleHeads s a).reportConditions.drivePoller .west).drivePoller .east).poller e := fun e => by
    unfold State.poller; rw [settle_link]
  obtain ⟨h1, h2, h3, h4, h5, h6⟩ := hboth
  simp only [hst, hpl, ← hst', ← hpl'] at h1 h2 h3 h4 h5 h6
  exact ⟨h1, h2, h3, h4, h5, h6⟩

end Sys2Proof.Machine
end

