-- ==== Sys2Proof/Proofs/AnswerSignatures.lean ====
section
/-! PROOFS. What a good answer makes of the identities and the entries of the Signature Table (R130, R138, R139, R140). -/

namespace Sys2Proof.Machine

/-! ### The LEARNED entries of a station -/

/-- The numbers of the LEARNED entries of a station's heads, in order (R137, R139). -/
def State.learnedOf (s : State) (k : Nat) : List Nat :=
  (stationHeads s.l k).flatMap fun h => ((List.range 10).map (stringKey h)).filter fun j => (s.entry j).isLearned

theorem mem_stationHeads {l k : Nat} {h : HeadRef} : h ∈ stationHeads l k ↔ h.station = k ∧ h.lane < l := by
  obtain ⟨hk, hl, hf⟩ := h
  unfold stationHeads
  rw [List.mem_flatMap]
  constructor
  · rintro ⟨i, hi, hm⟩
    rw [List.mem_range] at hi
    simp only [List.mem_cons, List.not_mem_nil, or_false, HeadRef.mk.injEq] at hm
    rcases hm with ⟨rfl, rfl, -⟩ | ⟨rfl, rfl, -⟩ <;> exact ⟨rfl, hi⟩
  · rintro ⟨rfl, hl⟩
    refine ⟨_, List.mem_range.2 hl, ?_⟩
    cases hf <;> simp

/-- The numbers of a station's heads, in head order (R2). -/
theorem stationHeads_keys (l k : Nat) : (stationHeads l k).map HeadRef.key = (List.range (2 * l)).map (12 * k + ·) := by
  induction l with
  | zero => rfl
  | succ l ih =>
    have hlast : stationHeads (l + 1) k = stationHeads l k ++ [⟨k, l, .a⟩, ⟨k, l, .b⟩] := by
      unfold stationHeads
      rw [List.range_succ, List.flatMap_append, List.flatMap_singleton]
    rw [hlast, List.map_append, ih, show 2 * (l + 1) = 2 * l + 1 + 1 by ring, List.range_succ, List.range_succ]
    simp [HeadRef.key, Face.code, Nat.add_assoc]

theorem stationHeads_keys_nodup (l k : Nat) : ((stationHeads l k).map HeadRef.key).Nodup := by
  rw [stationHeads_keys]
  exact List.nodup_range.map fun _ _ h => Nat.add_left_cancel h

theorem mem_headKeys {h : HeadRef} {j : Nat} : j ∈ headKeys h ↔ j / 10 = h.key := by
  unfold headKeys stringKey
  rw [List.mem_map]
  constructor
  · rintro ⟨i, hi, rfl⟩
    rw [List.mem_range] at hi
    omega
  · intro hj
    exact ⟨j % 10, List.mem_range.2 (Nat.mod_lt _ (by decide)), by omega⟩

theorem headKeys_nodup (h : HeadRef) : (headKeys h).Nodup := List.nodup_range.map fun i j hij => by
  unfold stringKey at hij
  omega

/-- Heads of different numbers have different strings (R2). -/
theorem flatMap_headKeys_nodup {α : Type} {f : α → HeadRef} {xs : List α} (hx : (xs.map fun a => (f a).key).Nodup) :
    (xs.flatMap fun a => headKeys (f a)).Nodup := by
  rw [List.nodup_flatMap]
  refine ⟨fun a _ => headKeys_nodup _, ?_⟩
  have hp := List.pairwise_map.1 hx
  exact hp.imp fun hne j ha hb => hne ((mem_headKeys.1 ha).symm.trans (mem_headKeys.1 hb))

/-- A string of the section is of a station where it is of one of the station's heads (R2). -/
theorem State.stringOfStation_iff {s : State} {k j : Nat} (hk : k < s.n) (hl : s.l ≤ 6) :
    s.stringOfStation k j = true ↔ ∃ h ∈ stationHeads s.l k, j ∈ headKeys h := by
  simp only [State.stringOfStation, State.stringKeyIn, State.headKeyIn, Bool.and_eq_true, decide_eq_true_eq, mem_headKeys]
  constructor
  · rintro ⟨hjk, -, hlane⟩
    refine ⟨⟨k, j / 10 % 12 / 2, if j / 10 % 2 = 0 then .a else .b⟩, mem_stationHeads.2 ⟨rfl, hlane⟩, ?_⟩
    unfold HeadRef.key
    dsimp only
    split <;> simp only [Face.code] <;> omega
  · rintro ⟨h, hh, hj⟩
    obtain ⟨rfl, hlane⟩ := mem_stationHeads.1 hh
    have hcode : h.face.code < 2 := by cases h.face <;> decide
    unfold HeadRef.key at hj
    omega

/-- The numbers of a canonical table rise. -/
theorem Tab.keys_sorted {α : Type} [DecidableEq α] {d : α} {b : Option Nat} {t : Tab α} (hw : Tab.wfAbove d b t = true) :
    (t.map Prod.fst).Pairwise (· < ·) ∧ ∀ p ∈ t, Tab.above b p.1 := by
  induction t generalizing b with
  | nil => exact ⟨List.Pairwise.nil, fun p hp => nomatch hp⟩
  | cons q t ih =>
    obtain ⟨hb, -, hrest⟩ := Tab.wfAbove_cons.1 hw
    obtain ⟨hsorted, habove⟩ := ih hrest
    refine ⟨List.pairwise_cons.2 ⟨fun i hi => ?_, hsorted⟩, fun p hp => ?_⟩
    · obtain ⟨p, hp, rfl⟩ := List.mem_map.1 hi
      exact habove p hp q.1 rfl
    · rcases List.mem_cons.1 hp with rfl | hp
      · exact hb
      · exact fun j hj => (hb j hj).trans (habove p hp q.1 rfl)

/-- A canonical table reads as the records that it lists. -/
theorem Tab.get_of_mem {α : Type} [DecidableEq α] {d : α} {b : Option Nat} {t : Tab α} (hw : Tab.wfAbove d b t = true)
    {p : Nat × α} (hp : p ∈ t) : Tab.get d t p.1 = p.2 := by
  induction t generalizing b with
  | nil => cases hp
  | cons q t ih =>
    obtain ⟨-, -, hrest⟩ := Tab.wfAbove_cons.1 hw
    rcases List.mem_cons.1 hp with rfl | hp
    · exact if_pos rfl
    · have hlt : q.1 < p.1 := (Tab.keys_sorted hrest).2 p hp q.1 rfl
      exact (if_neg (Nat.ne_of_gt hlt)).trans (ih hrest hp)

/-- What a driver change counts: the LEARNED entries of the station's heads (R139). -/
theorem State.learnedKeys_length {s : State} {k : Nat} (hw : Tab.wf .unlearned s.sigs.entries = true) (hk : k < s.n)
    (hl : s.l ≤ 6) : (s.learnedKeys k).length = (s.learnedOf k).length := by
  have hlisted : (s.learnedKeys k).Nodup :=
    ((Tab.keys_sorted hw).1.sublist (List.filter_sublist.map Prod.fst)).imp Nat.ne_of_lt
  have heads : (s.learnedOf k).Nodup := by
    have hall : ((stationHeads s.l k).flatMap headKeys).Nodup := flatMap_headKeys_nodup (stationHeads_keys_nodup s.l k)
    have hfilter : s.learnedOf k = ((stationHeads s.l k).flatMap headKeys).filter fun j => (s.entry j).isLearned := by
      unfold State.learnedOf headKeys
      rw [List.filter_flatMap]
    rw [hfilter]
    exact hall.filter _
  refine ((List.perm_ext_iff_of_nodup hlisted heads).2 fun j => ?_).length_eq
  have hleft : j ∈ s.learnedKeys k ↔ s.stringOfStation k j = true ∧ (s.entry j).isLearned = true := by
    unfold State.learnedKeys State.entry
    simp only [List.mem_map, List.mem_filter, Bool.and_eq_true]
    constructor
    · rintro ⟨p, ⟨hp, hst, hlearned⟩, rfl⟩
      exact ⟨hst, by rw [Tab.get_of_mem hw hp]; exact hlearned⟩
    · rintro ⟨hst, hlearned⟩
      rcases Tab.get_cases SigEntry.unlearned s.sigs.entries j with hd | hm
      · rw [hd] at hlearned; cases hlearned
      · exact ⟨_, ⟨hm, hst, hlearned⟩, rfl⟩
  have hright : j ∈ s.learnedOf k ↔ (∃ h ∈ stationHeads s.l k, j ∈ headKeys h) ∧ (s.entry j).isLearned = true := by
    unfold State.learnedOf headKeys
    simp only [List.mem_flatMap, List.mem_filter]
    constructor
    · rintro ⟨h, hh, hj, hlearned⟩
      exact ⟨⟨h, hh, hj⟩, hlearned⟩
    · rintro ⟨⟨h, hh, hj⟩, hlearned⟩
      exact ⟨h, hh, hj, hlearned⟩
  rw [hleft, hright, State.stringOfStation_iff hk hl]

/-! ### The identity of an answer -/

section Identity

variable {u : State} {k : Nat} {id : BitVec 32}

/-- The same identity again changes nothing (R138). -/
theorem State.takeIdent_same (h : u.ident k = some id) : u.takeIdent k id = u := by
  unfold State.takeIdent
  rw [h]
  exact if_pos rfl

/-- A first identity is recorded, and nothing else (R138, R140). -/
theorem State.takeIdent_first (h : u.ident k = none) : u.takeIdent k id = (u.setIdent k (some id)).setUnsaved := by
  unfold State.takeIdent
  rw [h]

theorem State.takeIdent_change {old : BitVec 32} (h : u.ident k = some old) (hne : old ≠ id) :
    u.takeIdent k id = u.driverChange k old id := by
  unfold State.takeIdent
  rw [h]
  exact if_neg hne

/-- The record of a change of identity (R138, R139). -/
def State.driverChangeRecord (u : State) (k : Nat) (old new : BitVec 32) : LastChange :=
  { previous := old, current := new, action := if u.config.records.tunnel.freeze then .kept else .unlearned
    count := if u.config.records.tunnel.freeze then 0 else (u.learnedKeys k).length, time := u.stamp }

/-- What a driver change writes of the identities, and that it sets the unsaved flag (R139, R140). -/
theorem State.driverChange_sigs (u : State) (k : Nat) (old new : BitVec 32) :
    (u.driverChange k old new).sigs.idents = Tab.set none u.sigs.idents k (some new) ∧
      (u.driverChange k old new).sigs.changes = Tab.set none u.sigs.changes k (some (u.driverChangeRecord k old new)) ∧
      (u.driverChange k old new).sigs.unsaved = true := by
  have hfrozen : ∀ v : State, v.sigs.idents = u.sigs.idents → v.sigs.changes = u.sigs.changes →
      (({ v.setIdent k (some new) with
        sigs.changes := Tab.set none (v.setIdent k (some new)).sigs.changes k (some (u.driverChangeRecord k old new)) } :
          State).setUnsaved.raise .driverChanged).sigs.idents = Tab.set none u.sigs.idents k (some new) ∧
      (({ v.setIdent k (some new) with
        sigs.changes := Tab.set none (v.setIdent k (some new)).sigs.changes k (some (u.driverChangeRecord k old new)) } :
          State).setUnsaved.raise .driverChanged).sigs.changes =
            Tab.set none u.sigs.changes k (some (u.driverChangeRecord k old new)) ∧
      (({ v.setIdent k (some new) with
        sigs.changes := Tab.set none (v.setIdent k (some new)).sigs.changes k (some (u.driverChangeRecord k old new)) } :
          State).setUnsaved.raise .driverChanged).sigs.unsaved = true := by
    intro v hi hc
    rw [State.raise_sigs]
    exact ⟨congrArg (fun t => Tab.set none t k (some new)) hi,
      congrArg (fun t => Tab.set none t k (some (u.driverChangeRecord k old new))) hc, rfl⟩
  refine hfrozen (if u.config.records.tunnel.freeze = true then u else u.unlearnStation k) ?_ ?_ <;> split <;> rfl

/-- The identity that a station answered with is recorded, whatever it was (R138). -/
theorem State.takeIdent_ident (hw : Tab.wf none u.sigs.idents = true) (j : Nat) :
    (u.takeIdent k id).ident j = if j = k then some id else u.ident j := by
  have hset : ∀ v : State, v.sigs.idents = Tab.set none u.sigs.idents k (some id) →
      v.ident j = if j = k then some id else u.ident j := fun v hv => by
    unfold State.ident
    rw [hv, Tab.get_set _ _ _ _ hw]
  cases hold : u.ident k with
  | none => rw [State.takeIdent_first hold]; exact hset _ rfl
  | some old =>
    by_cases hne : old = id
    · rw [State.takeIdent_same (hold.trans (congrArg some hne))]
      split
      · rename_i hj; rw [hj, hold, hne]
      · rfl
    · rw [State.takeIdent_change hold hne]
      exact hset _ (u.driverChange_sigs k old id).1

/-- A new identity sets the unsaved flag (R140). -/
theorem State.takeIdent_unsaved (h : u.ident k ≠ some id) : (u.takeIdent k id).sigs.unsaved = true := by
  cases hold : u.ident k with
  | none => rw [State.takeIdent_first hold]; rfl
  | some old =>
    have hne : old ≠ id := fun he => h (hold.trans (congrArg some he))
    rw [State.takeIdent_change hold hne]
    exact (u.driverChange_sigs k old id).2.2

/-- Only a change of identity writes a last-change record, that of the station alone (R138, R139). -/
theorem State.takeIdent_changes :
    (u.takeIdent k id).sigs.changes = u.sigs.changes ∨
      ∃ old, u.ident k = some old ∧ old ≠ id ∧
        (u.takeIdent k id).sigs.changes = Tab.set none u.sigs.changes k (some (u.driverChangeRecord k old id)) := by
  cases hold : u.ident k with
  | none => rw [State.takeIdent_first hold]; exact .inl rfl
  | some old =>
    by_cases hne : old = id
    · rw [State.takeIdent_same (hold.trans (congrArg some hne))]; exact .inl rfl
    · rw [State.takeIdent_change hold hne]
      exact .inr ⟨old, rfl, hne, (u.driverChange_sigs k old id).2.1⟩

/-- A change of identity raises DRIVER_CHANGED once (R139). -/
theorem State.takeIdent_raised {old : BitVec 32} (hold : u.ident k = some old) (hne : old ≠ id) :
    u.RaisedTimes (u.takeIdent k id) .driverChanged 1 := by
  rw [State.takeIdent_change hold hne]
  have hpre : ∀ v : State, v.attn = u.attn → u.RaisedTimes (v.raise .driverChanged) .driverChanged 1 := fun v hv =>
    State.RaisedTimes.after (.of_attn hv) (raise_raisedTimes v _)
  refine hpre _ ?_
  show (if u.config.records.tunnel.freeze = true then u else u.unlearnStation k).attn = u.attn
  split <;> rfl

/-- A first identity and the same one again raise nothing (R138). -/
theorem State.takeIdent_unraised (h : u.ident k = none ∨ u.ident k = some id) (a : AttnKind) :
    u.RaisedTimes (u.takeIdent k id) a 0 := by
  rcases h with h | h
  · rw [State.takeIdent_first h]
    exact .of_attn rfl
  · rw [State.takeIdent_same h]
    exact .refl u _

end Identity

end Sys2Proof.Machine
end

