-- ==== Sys2Proof/Proofs/AnswerDisplays.lean ====
section
/-! PROOFS. What sample records and a station that goes make of the displayed aspects, the lamp test and the heads' records
(R69, R100, R104, R123, R160). -/

namespace Sys2Proof.Machine

/-! ### The heads of a station -/

theorem HeadRef.key_station {h : HeadRef} (hl : h.lane < 6) : h.key / 12 = h.station := by
  have hcode : h.face.code < 2 := by cases h.face <;> decide
  unfold HeadRef.key
  omega

theorem Face.code_inj {f g : Face} (h : f.code = g.code) : f = g := by
  cases f <;> cases g <;> first | rfl | cases h

theorem stationHeads_length (l k : Nat) : (stationHeads l k).length = 2 * l := by
  have h := congrArg List.length (stationHeads_keys l k)
  rwa [List.length_map, List.length_map, List.length_range] at h

/-- The place of a head among those of its station (R2). -/
theorem stationHeads_getElem {l k : Nat} {h : HeadRef} (hk : h.station = k) (hl : h.lane < l) :
    (stationHeads l k)[2 * h.lane + h.face.code]? = some h := by
  have hcode : ∀ f : Face, f.code < 2 := fun f => by cases f <;> decide
  have hlen := stationHeads_length l k
  have hi : 2 * h.lane + h.face.code < (stationHeads l k).length := by have := hcode h.face; omega
  have hkey : ((stationHeads l k)[2 * h.lane + h.face.code]).key = 12 * k + (2 * h.lane + h.face.code) := by
    have hmap := congrArg (fun ks => ks[2 * h.lane + h.face.code]?) (stationHeads_keys l k)
    simpa [List.getElem?_range, List.getElem?_eq_getElem hi, hlen ▸ hi] using hmap
  obtain ⟨hst, -⟩ := mem_stationHeads.1 (List.getElem_mem hi)
  rw [List.getElem?_eq_getElem hi, Option.some.injEq]
  generalize (stationHeads l k)[2 * h.lane + h.face.code] = x at hkey hst
  obtain ⟨xk, xl, xf⟩ := x
  obtain ⟨hk', hl', hf'⟩ := h
  simp only [HeadRef.key] at hkey hst hk hl
  have h1 := hcode xf
  have h2 := hcode hf'
  rw [HeadRef.mk.injEq]
  exact ⟨by omega, by omega, Face.code_inj (by omega)⟩

section Records

variable {l k : Nat} {rs : List Sample}

/-- The records of a frame, each with its head (R104). -/
theorem sampleHeads_keys (hlen : rs.length = 2 * l) :
    (((stationHeads l k).zip rs).map fun p => p.1.key) = (stationHeads l k).map HeadRef.key := by
  have hzip : ((stationHeads l k).zip rs).map Prod.fst = stationHeads l k :=
    List.map_fst_zip (by rw [stationHeads_length]; omega)
  calc ((stationHeads l k).zip rs).map (fun p => p.1.key)
      = (((stationHeads l k).zip rs).map Prod.fst).map HeadRef.key := by rw [List.map_map]; rfl
    _ = (stationHeads l k).map HeadRef.key := by rw [hzip]

theorem mem_sampleHeads {p : HeadRef × Sample} (hp : p ∈ (stationHeads l k).zip rs) :
    p.1.station = k ∧ p.1.lane < l := mem_stationHeads.1 (List.of_mem_zip hp).1

theorem sample_mem {h : HeadRef} {r : Sample} (hk : h.station = k) (hl : h.lane < l)
    (hr : rs[2 * h.lane + h.face.code]? = some r) : (h, r) ∈ (stationHeads l k).zip rs :=
  List.mem_of_getElem? (List.getElem?_zip_eq_some.2 ⟨stationHeads_getElem hk hl, hr⟩)

end Records

/-! ### Displayed aspects -/

section Displayed

variable {α : Type} (f : α → HeadRef) (g : α → Option Aspect) (xs : List α) (t : Tab (Option Aspect))

/-- The displayed aspects of some heads are written in turn (R69). -/
def showOn : Tab (Option Aspect) := xs.foldl (fun t x => Tab.set none t (f x).key (g x)) t

theorem showOn_wf (hw : Tab.wf none t = true) : Tab.wf none (showOn f g xs t) = true := by
  unfold showOn
  induction xs generalizing t with
  | nil => exact hw
  | cons x xs ih => exact ih _ (Tab.wf_set hw)

theorem showOn_other {j : Nat} (hx : ∀ x ∈ xs, (f x).key ≠ j) : Tab.get none (showOn f g xs t) j = Tab.get none t j := by
  unfold showOn
  induction xs generalizing t with
  | nil => rfl
  | cons x xs ih =>
    rw [List.foldl_cons, ih _ fun y hy => hx y (List.mem_cons_of_mem _ hy)]
    exact Tab.get_set_ne _ _ (hx x (List.mem_cons_self ..)).symm

theorem showOn_get (hw : Tab.wf none t = true) (hnd : (xs.map fun x => (f x).key).Nodup) {x : α} (hx : x ∈ xs) :
    Tab.get none (showOn f g xs t) (f x).key = g x := by
  induction xs generalizing t with
  | nil => cases hx
  | cons y xs ih =>
    obtain ⟨hy, hrest⟩ := List.nodup_cons.1 hnd
    rcases List.mem_cons.1 hx with rfl | hx
    · have hlater := showOn_other f g xs (Tab.set none t (f x).key (g x)) (j := (f x).key)
        fun z hz he => hy (List.mem_map.2 ⟨z, hz, he⟩)
      exact hlater.trans ((Tab.get_set _ _ _ _ hw).trans (if_pos rfl))
    · exact ih _ (Tab.wf_set hw) hrest hx

theorem State.foldl_setDisplayed (u : State) : xs.foldl (fun v x => v.setDisplayed (f x) (g x)) u =
    { u with resolver.displayed := showOn f g xs u.resolver.displayed } := by
  unfold showOn
  induction xs generalizing u with
  | nil => rfl
  | cons x xs ih => exact ih _

end Displayed

theorem State.setStationDisplayed_eq (u : State) (k : Nat) (a : Option Aspect) : u.setStationDisplayed k a =
    { u with resolver.displayed := showOn id (fun _ => a) (stationHeads u.l k) u.resolver.displayed } :=
  State.foldl_setDisplayed id (fun _ => a) _ u

/-! ### A station that goes -/

/-- A change of the records that pass a test leaves the others, in whatever form the table is. -/
theorem Tab.get_mapWhere_of_not {α : Type} [DecidableEq α] {d : α} (t : Tab α) {p : Nat → Bool} (g : α → α) {j : Nat}
    (hj : p j = false) : Tab.get d (Tab.mapWhere d p g t) j = Tab.get d t j := by
  induction t with
  | nil => rfl
  | cons q t ih =>
    obtain ⟨i, v⟩ := q
    by_cases hji : j = i
    · subst hji
      unfold Tab.mapWhere
      simp [Tab.get, hj]
    · unfold Tab.mapWhere
      by_cases hp : p i = true
      · by_cases hv : g v = d <;> simp [Tab.get, hp, hv, hji, ih]
      · simp [Tab.get, hp, hji, ih]

section Gone

variable (u : State) (k : Nat)

/-- The lamp test of a station that goes ends with cause STATION (R100). -/
def Resolver.stationEnded (r : Resolver) (k : Nat) : Resolver :=
  match r.lampTest with
  | none => r
  | some y => if y.station = k then { r with lampTest := none, lampLast := some ⟨y.station, y.face, y.aspect, .station⟩ } else r

theorem Resolver.stationEnded_of {r : Resolver} {k : Nat} {y : LampTest} (hy : r.lampTest = some y) (hk : y.station = k) :
    r.stationEnded k = { r with lampTest := none, lampLast := some ⟨y.station, y.face, y.aspect, .station⟩ } := by
  unfold Resolver.stationEnded
  rw [hy]
  exact if_pos hk

theorem Resolver.stationEnded_stays {r : Resolver} {k : Nat} (h : ∀ y, r.lampTest = some y → y.station ≠ k) :
    r.stationEnded k = r := by
  unfold Resolver.stationEnded
  split
  · rfl
  · rename_i y hy
    exact if_neg (h y hy)

/-- The end of a lamp test leaves the displayed aspects (R100). -/
theorem Resolver.stationEnded_displayed (r : Resolver) (d : Tab (Option Aspect)) (k : Nat) :
    Resolver.stationEnded { r with displayed := d } k = { r.stationEnded k with displayed := d } := by
  unfold Resolver.stationEnded
  dsimp only
  split
  · rfl
  · split <;> rfl

theorem State.endLampTestAt_eq : u.endLampTestAt k = { u with resolver := u.resolver.stationEnded k } := by
  unfold State.endLampTestAt State.endLampTest Resolver.stationEnded
  cases htest : u.resolver.lampTest with
  | none => rfl
  | some y =>
    dsimp only
    by_cases hy : y.station = k
    · rw [if_pos hy, if_pos hy]
    · rw [if_neg hy, if_neg hy]

/-- What a station that goes leaves to the resolver and the lamp records (R100, R123, R158, R160). -/
theorem State.stationGone_eq (a : Option Aspect) :
    u.stationGone k a = { u with
      resolver := { u.resolver.stationEnded k with
        displayed := showOn id (fun _ => a) (stationHeads u.l k) u.resolver.displayed }
      lamps := (u.quietStation k).lamps } := by
  unfold State.stationGone
  rw [State.setStationDisplayed_eq, State.endLampTestAt_eq]
  exact congrArg (fun r => { u with resolver := r, lamps := (u.quietStation k).lamps }) (u.resolver.stationEnded_displayed _ k)

/-- The heads of other stations keep their records (R123). -/
theorem State.quietStation_proving {h : HeadRef} (hk : h.station ≠ k) (hl : h.lane < 6) :
    Tab.get HeadProving.reset (u.quietStation k).lamps.heads h.key = u.proving h := by
  show Tab.get _ (Tab.mapWhere HeadProving.reset (u.headOfStation k) HeadProving.zeroed u.lamps.heads) h.key = _
  rw [Tab.get_mapWhere_of_not]
  · rfl
  · unfold State.headOfStation
    rw [HeadRef.key_station hl, decide_eq_false hk, Bool.false_and]

end Gone

end Sys2Proof.Machine
end

