-- ==== Sys2Proof/Proofs/AnswerStations.lean ====
section
/-! PROOFS. What a good answer makes of its station and of the pollers (R155, R157, R159, R160). -/

namespace Sys2Proof.Machine

/-! ### The station's record -/

/-- The record of a station that has answered on an end (R155, step 1). -/
def StationRec.heard (r : StationRec) (e : LinkEnd) : StationRec := { (r.setMiss e 0).setCause e .none with answered := true }

section Heard

variable (r : StationRec) (e : LinkEnd)

@[simp] theorem StationRec.heard_current : (r.heard e).current = r.current := by cases e <;> rfl
@[simp] theorem StationRec.heard_reprobe : (r.heard e).reprobe = r.reprobe := by cases e <;> rfl
@[simp] theorem StationRec.heard_restorePending : (r.heard e).restorePending = r.restorePending := by cases e <;> rfl

end Heard

/-- The record of a station after its answer on an end (R155, steps 1 and 2; R157, R159). -/
def StationRec.answeredOn (r : StationRec) (e home : LinkEnd) : StationRec :=
  match r.state with
  | .lost =>
    if e = home then { r.heard e with state := .online, current := e }
    else { r.heard e with state := .rerouted, current := e, reprobe := some Config.reprobeMs }
  | .rerouted => if e = home then { r.heard e with state := .online, current := e, reprobe := none } else r.heard e
  | .online => r.heard e
  | .cut => r.heard e

/-- The record of a station once its supply status is recorded (R155, step 4). -/
def StationRec.supplied (r : StationRec) (isOpen : Bool) : StationRec :=
  { r with supplyOpen := some isOpen, restorePending := r.restorePending || (isOpen && r.state != .cut) }

/-- The record of a station after a request to cut it (R160). -/
def StationRec.cutOff (r : StationRec) : StationRec :=
  match r.state with
  | .online => { r with state := .cut, reprobe := none, restorePending := false }
  | .rerouted => { r with state := .cut, reprobe := none, restorePending := false }
  | .cut => r
  | .lost => r

section Stations

variable {u : State} {e : LinkEnd} {k : Nat}

@[simp] theorem State.raise_station (u : State) (a : AttnKind) (j : Nat) : (u.raise a).station j = u.station j := by
  unfold State.station; rw [State.raise_link]

section Forms

variable (u e k)

theorem State.answerStation_lost (h : (u.station k).state = .lost) :
    u.answerStation e k = u.returnStation e k ((u.station k).heard e) := by
  unfold State.answerStation
  dsimp only
  rw [h]
  rfl

theorem State.answerStation_rerouted (h : (u.station k).state = .rerouted) :
    u.answerStation e k = if e = homeEnd u.n k then
        ((u.setStation k { (u.station k).heard e with state := .online, current := e, reprobe := none }).dropReprobe
          k).dropPoll k
      else u.setStation k ((u.station k).heard e) := by
  unfold State.answerStation
  dsimp only
  rw [h]
  rfl

theorem State.answerStation_kept (h : (u.station k).state = .online ∨ (u.station k).state = .cut) :
    u.answerStation e k = u.setStation k ((u.station k).heard e) := by
  unfold State.answerStation
  dsimp only
  rcases h with h | h <;> rw [h] <;> rfl

theorem StationRec.answeredOn_kept {r : StationRec} {home : LinkEnd} (h : r.state = .online ∨ r.state = .cut) :
    r.answeredOn e home = r.heard e := by
  unfold StationRec.answeredOn
  rcases h with h | h <;> rw [h]

theorem StationRec.answeredOn_rerouted {r : StationRec} {home : LinkEnd} (h : r.state = .rerouted) :
    r.answeredOn e home =
      if e = home then { r.heard e with state := .online, current := e, reprobe := none } else r.heard e := by
  unfold StationRec.answeredOn
  rw [h]

theorem StationRec.answeredOn_lost {r : StationRec} {home : LinkEnd} (h : r.state = .lost) :
    r.answeredOn e home =
      if e = home then { r.heard e with state := .online, current := e }
      else { r.heard e with state := .rerouted, current := e, reprobe := some Config.reprobeMs } := by
  unfold StationRec.answeredOn
  rw [h]

/-- What an answer does, by the state of its station (R155, R157, R159): a LOST station returns, and leaves its old end's list;
a REROUTED one that answers at home leaves REROUTED; every other one keeps its state. -/
theorem State.answerStation_forms :
    let r := (u.station k).answeredOn e (homeEnd u.n k)
    ((u.station k).state ≠ .lost ∧ ¬((u.station k).state = .rerouted ∧ e = homeEnd u.n k) ∧
        u.answerStation e k = u.setStation k r) ∨
      ((u.station k).state = .rerouted ∧ e = homeEnd u.n k ∧
        u.answerStation e k = ((u.setStation k r).dropReprobe k).dropPoll k) ∨
      ∃ v, (v = u ∨ v = u.dropPoll k) ∧ (u.station k).state = .lost ∧
        ((e = homeEnd u.n k ∧ u.answerStation e k = (v.setStation k r).returnStrings k) ∨
          (e ≠ homeEnd u.n k ∧
            u.answerStation e k = ((v.setStation k r).raise .ringDegraded).returnStrings k)) := by
  have hkeep : (u.station k).state = .online ∨ (u.station k).state = .cut →
      u.answerStation e k = u.setStation k ((u.station k).answeredOn e (homeEnd u.n k)) := fun h => by
    rw [u.answerStation_kept e k h, StationRec.answeredOn_kept e h]
  dsimp only
  cases hst : (u.station k).state with
  | lost =>
    refine .inr (.inr ⟨if e = (u.station k).current then u else u.dropPoll k, ?_, rfl, ?_⟩)
    · split
      · exact .inl rfl
      · exact .inr rfl
    · rw [u.answerStation_lost e k hst, StationRec.answeredOn_lost e hst]
      unfold State.returnStation
      dsimp only
      rw [StationRec.heard_current]
      by_cases he : e = homeEnd u.n k
      · rw [if_pos he, if_pos he]
        exact .inl ⟨he, rfl⟩
      · rw [if_neg he, if_neg he]
        exact .inr ⟨he, rfl⟩
  | rerouted =>
    rw [u.answerStation_rerouted e k hst, StationRec.answeredOn_rerouted e hst]
    by_cases he : e = homeEnd u.n k
    · rw [if_pos he, if_pos he]
      exact .inr (.inl ⟨rfl, he, rfl⟩)
    · rw [if_neg he, if_neg he]
      exact .inl ⟨by decide, fun h => he h.2, rfl⟩
  | online => exact .inl ⟨by decide, fun h => StationState.noConfusion h.1, hkeep (.inl hst)⟩
  | cut => exact .inl ⟨by decide, fun h => StationState.noConfusion h.1, hkeep (.inr hst)⟩

end Forms

theorem State.answerStation_station (hw : Tab.wf (StationRec.reset .west) u.link.stations = true) (j : Nat) :
    (u.answerStation e k).station j =
      if j = k then (u.station k).answeredOn e (homeEnd u.n k) else u.station j := by
  rcases u.answerStation_forms e k with ⟨-, -, h⟩ | ⟨-, -, h⟩ | ⟨v, hv, -, ⟨-, h⟩ | ⟨-, h⟩⟩
  · rw [h, State.setStation_station _ _ _ _ hw]
  · rw [h, State.dropPoll_station, State.dropReprobe_station, State.setStation_station _ _ _ _ hw]
  all_goals
    have hst : v.link.stations = u.link.stations := by rcases hv with rfl | rfl <;> rfl
    have hput : ∀ r, (v.setStation k r).station j = if j = k then r else u.station j := fun r => by
      rw [State.setStation_station _ _ _ _ (hst ▸ hw)]
      unfold State.station
      rw [hst]
    rw [h]
  · exact hput _
  · show (((v.setStation k _).raise .ringDegraded).station j) = _
    rw [State.raise_station]
    exact hput _

theorem State.takeSupply_station (hw : Tab.wf (StationRec.reset .west) u.link.stations = true) (o : Bool) (j : Nat) :
    (u.takeSupply k o).station j = if j = k then (u.station k).supplied o else u.station j :=
  State.setStation_station _ _ _ _ hw

/-! ### A cut -/

/-- What a request to cut a station does (R160): a station that answers is cut, and one already CUT or LOST is not changed. -/
theorem State.cutStation_forms (u : State) (k : Nat) :
    (((u.station k).state = .cut ∨ (u.station k).state = .lost) ∧ u.cutStation k = u ∧
        (u.station k).cutOff = u.station k) ∨
      (((u.station k).state = .online ∨ (u.station k).state = .rerouted) ∧
        (u.station k).cutOff = { u.station k with state := .cut, reprobe := none, restorePending := false } ∧
        u.cutStation k =
          (((u.setStation k (u.station k).cutOff).dropReprobe k).raise .stationCut).stationGone k (some .dark)) := by
  have hoff : ∀ r : StationRec, r.state = .online ∨ r.state = .rerouted →
      r.cutOff = { r with state := .cut, reprobe := none, restorePending := false } := fun r hr => by
    unfold StationRec.cutOff
    rcases hr with hr | hr <;> rw [hr]
  have hstay : ∀ r : StationRec, r.state = .cut ∨ r.state = .lost → r.cutOff = r := fun r hr => by
    unfold StationRec.cutOff
    rcases hr with hr | hr <;> rw [hr]
  by_cases hst : (u.station k).state = .cut ∨ (u.station k).state = .lost
  · refine .inl ⟨hst, ?_, hstay _ hst⟩
    unfold State.cutStation
    dsimp only
    rcases hst with hst | hst <;> rw [hst]
  · have hst' : (u.station k).state = .online ∨ (u.station k).state = .rerouted := by
      cases h : (u.station k).state <;> simp [h] at hst ⊢
    refine .inr ⟨hst', hoff _ hst', ?_⟩
    rw [hoff _ hst']
    unfold State.cutStation
    dsimp only
    rcases hst' with hst' | hst' <;> rw [hst']

theorem State.stationGone_link (u : State) (k : Nat) (a : Option Aspect) : (u.stationGone k a).link = u.link := by
  rw [State.stationGone_eq]

theorem State.cutStation_station (hw : Tab.wf (StationRec.reset .west) u.link.stations = true) (j : Nat) :
    (u.cutStation k).station j = if j = k then (u.station k).cutOff else u.station j := by
  rcases u.cutStation_forms k with ⟨-, h, hr⟩ | ⟨-, -, h⟩
  · rw [h, hr]
    split
    · rename_i hj; rw [hj]
    · rfl
  · rw [h]
    unfold State.station
    rw [State.stationGone_link, State.raise_link, State.dropReprobe_stations]
    exact State.setStation_station _ _ _ _ hw

/-! ### The pollers -/

/-- The receivers and the answer timeouts stay, and no reprobe becomes due or committed. -/
structure PollersKept (s t : State) : Prop where
  rx : ∀ e, (t.poller e).rx = (s.poller e).rx
  answerTimer : ∀ e, (t.poller e).answerTimer = (s.poller e).answerTimer
  due : ∀ e k, k ∈ (t.poller e).due → k ∈ (s.poller e).due
  committed : ∀ e k, (t.poller e).committed = some ⟨k, true⟩ → (s.poller e).committed = some ⟨k, true⟩

/-- No end has a reprobe of a station left to send (R157). -/
def State.noReprobe (s : State) (k : Nat) : Prop :=
  ∀ e, k ∉ (s.poller e).due ∧ (s.poller e).committed ≠ some ⟨k, true⟩

namespace PollersKept

variable {s t v : State}

theorem of_same (h : ∀ e, t.poller e = s.poller e) : PollersKept s t := by
  refine ⟨fun e => ?_, fun e => ?_, fun e k hk => ?_, fun e k hk => ?_⟩
  · rw [h]
  · rw [h]
  · rwa [h] at hk
  · rwa [h] at hk

theorem of_link (h : t.link = s.link) : PollersKept s t := of_same fun e => by unfold State.poller; rw [h]

theorem trans (h : PollersKept s t) (k : PollersKept t v) : PollersKept s v :=
  ⟨fun e => (k.rx e).trans (h.rx e), fun e => (k.answerTimer e).trans (h.answerTimer e),
    fun e i hi => h.due e i (k.due e i hi), fun e i hi => h.committed e i (k.committed e i hi)⟩

theorem noReprobe (h : PollersKept s t) {k : Nat} (hs : s.noReprobe k) : t.noReprobe k := fun e =>
  ⟨fun hk => (hs e).1 (h.due e k hk), fun hk => (hs e).2 (h.committed e k hk)⟩

theorem setStation (s : State) (k : Nat) (r : StationRec) : PollersKept s (s.setStation k r) :=
  of_same fun e => State.setStation_poller s k r e

theorem dropReprobe (s : State) (k : Nat) : PollersKept s (s.dropReprobe k) := by
  refine ⟨fun e => ?_, fun e => ?_, fun e j hj => ?_, fun e j hj => ?_⟩
  · rw [State.dropReprobe_poller]; rfl
  · rw [State.dropReprobe_poller]; rfl
  · rw [State.dropReprobe_poller] at hj; exact List.mem_of_mem_filter hj
  · rw [State.dropReprobe_poller] at hj; exact (Option.filter_eq_some_iff.1 hj).1

theorem dropPoll (s : State) (k : Nat) : PollersKept s (s.dropPoll k) := by
  refine ⟨fun e => ?_, fun e => ?_, fun e j hj => ?_, fun e j hj => ?_⟩
  · rw [State.dropPoll_poller]; rfl
  · rw [State.dropPoll_poller]; rfl
  · rw [State.dropPoll_poller] at hj; exact hj
  · rw [State.dropPoll_poller] at hj; exact (Option.filter_eq_some_iff.1 hj).1

end PollersKept

theorem State.dropReprobe_noReprobe (s : State) (k : Nat) : (s.dropReprobe k).noReprobe k := by
  intro e
  rw [State.dropReprobe_poller]
  refine ⟨fun hk => ?_, fun hk => ?_⟩
  · simp [Poller.withoutReprobe] at hk
  · simp [Poller.withoutReprobe, Option.filter_eq_some_iff] at hk

theorem PollerStep.noReprobe {s t : State} (h : PollerStep s t) {k : Nat} (hs : s.noReprobe k) : t.noReprobe k := fun e =>
  ⟨fun hk => (hs e).1 (h.due e k hk), fun hk => (h.committed e k hk).elim (hs e).2 (hs e).1⟩

theorem State.answerStation_pollers (u : State) (e : LinkEnd) (k : Nat) : PollersKept u (u.answerStation e k) := by
  rcases u.answerStation_forms e k with ⟨-, -, h⟩ | ⟨-, -, h⟩ | ⟨v, hv, -, ⟨-, h⟩ | ⟨-, h⟩⟩
  · rw [h]; exact .setStation ..
  · rw [h]; exact ((PollersKept.setStation ..).trans (.dropReprobe ..)).trans (.dropPoll ..)
  all_goals
    have hdrop : PollersKept u v := by
      rcases hv with rfl | rfl
      · exact .of_same fun _ => rfl
      · exact .dropPoll _ k
    rw [h]
  · exact (hdrop.trans (.setStation ..)).trans (.of_link rfl)
  · exact ((hdrop.trans (.setStation ..)).trans (.of_link (State.raise_link _ .ringDegraded))).trans (.of_link rfl)

theorem State.answerStation_noReprobe (hr : (u.station k).state = .rerouted) (he : e = homeEnd u.n k) :
    (u.answerStation e k).noReprobe k := by
  rcases u.answerStation_forms e k with ⟨-, hno, -⟩ | ⟨-, -, h⟩ | ⟨v, -, hl, -⟩
  · exact absurd ⟨hr, he⟩ hno
  · rw [h]
    exact (PollersKept.dropPoll _ k).noReprobe (State.dropReprobe_noReprobe _ k)
  · rw [hr] at hl; cases hl

theorem State.cutStation_pollers (u : State) (k : Nat) : PollersKept u (u.cutStation k) := by
  rcases u.cutStation_forms k with ⟨-, h, -⟩ | ⟨-, -, h⟩
  · rw [h]; exact .of_same fun _ => rfl
  · rw [h]
    exact (((PollersKept.setStation ..).trans (.dropReprobe ..)).trans (.of_link (State.raise_link ..))).trans
      (.of_link (State.stationGone_link ..))

theorem State.cutStation_noReprobe (hst : (u.station k).state = .online ∨ (u.station k).state = .rerouted) :
    (u.cutStation k).noReprobe k := by
  rcases u.cutStation_forms k with ⟨hno, -, -⟩ | ⟨-, -, h⟩
  · rcases hst with hst | hst <;> rw [hst] at hno <;> rcases hno with hno | hno <;> cases hno
  · rw [h]
    refine (PollersKept.of_link ?_).noReprobe (State.dropReprobe_noReprobe (u.setStation k (u.station k).cutOff) k)
    rw [State.stationGone_link, State.raise_link]

end Stations

end Sys2Proof.Machine
end

