-- ==== Sys2Proof/Proofs/AnswerSamples.lean ====
section
/-! PROOFS. What a cut, and the sample records of a good answer, make of the other blocks (R69, R100, R104, R121, R155,
R160). -/

namespace Sys2Proof.Machine

/-! ### A cut -/

section Cut

variable {u : State} {k : Nat}

/-- What a cut of a station that answers writes (R69, R100, R123, R160). -/
theorem State.cutStation_eq (hst : (u.station k).state = .online ∨ (u.station k).state = .rerouted) :
    u.cutStation k = { u with
      link := (u.cutStation k).link
      resolver := { u.resolver.stationEnded k with
        displayed := showOn id (fun _ => some .dark) (stationHeads u.l k) u.resolver.displayed }
      lamps := (u.quietStation k).lamps
      attn := (u.raise .stationCut).attn
      host := (u.raise .stationCut).host } := by
  rcases u.cutStation_forms k with ⟨hno, -, -⟩ | ⟨-, -, h⟩
  · rcases hst with hst | hst <;> rw [hst] at hno <;> rcases hno with hno | hno <;> cases hno
  · rw [h, State.stationGone_link, State.stationGone_eq]
    rfl

/-- A station already CUT stays so, with all else (R160). -/
theorem State.cutStation_again (hst : (u.station k).state = .cut) : u.cutStation k = u := by
  rcases u.cutStation_forms k with ⟨-, h, -⟩ | ⟨hno, -, -⟩
  · exact h
  · rw [hst] at hno
    rcases hno with hno | hno <;> cases hno

/-- A request to cut a station writes its record, the resolver and the lamp records, or nothing (R160). -/
theorem State.cutStation_cases (u : State) (k : Nat) :
    u.cutStation k = u ∨ (u.station k).state = .online ∨ (u.station k).state = .rerouted :=
  (u.cutStation_forms k).imp (fun h => h.2.1) fun h => h.1

theorem State.cutStation_sigs (u : State) (k : Nat) : (u.cutStation k).sigs = u.sigs := by
  rcases u.cutStation_cases k with h | hst
  · rw [h]
  · rw [State.cutStation_eq hst]

theorem State.cutStation_falseOpen (u : State) (k j : Nat) : (u.cutStation k).falseOpen j = u.falseOpen j := by
  rcases u.cutStation_cases k with h | hst
  · rw [h]
  · rw [State.cutStation_eq hst]
    rfl

theorem State.cutStation_raised (hst : (u.station k).state = .online ∨ (u.station k).state = .rerouted) :
    u.RaisedTimes (u.cutStation k) .stationCut 1 := by
  rw [State.cutStation_eq hst]
  exact raise_raisedTimes u .stationCut

/-- A cut darkens the heads of the station (R69, R160). -/
theorem State.cutStation_displayed (hst : (u.station k).state = .online ∨ (u.station k).state = .rerouted)
    (hw : Tab.wf none u.resolver.displayed = true) {h : HeadRef} (hk : h.station = k) (hl : h.lane < u.l) :
    (u.cutStation k).displayed h = some .dark := by
  rw [State.cutStation_eq hst]
  exact showOn_get id (fun _ => some .dark) (stationHeads u.l k) _ hw (stationHeads_keys_nodup u.l k)
    (mem_stationHeads.2 ⟨hk, hl⟩)

/-- The heads of other stations have other numbers (R2). -/
theorem HeadRef.key_ne {x h : HeadRef} (hx : x.lane < 6) (hl : h.lane < 6) (hk : h.station ≠ x.station) : x.key ≠ h.key :=
  fun he => hk ((HeadRef.key_station hl).symm.trans (he ▸ HeadRef.key_station hx))

/-- A cut leaves the heads of the other stations (R160). -/
theorem State.cutStation_other (u : State) (hu : u.l ≤ 6) {h : HeadRef} (hk : h.station ≠ k) (hl : h.lane < 6) :
    (u.cutStation k).displayed h = u.displayed h ∧ (u.cutStation k).proving h = u.proving h := by
  rcases u.cutStation_cases k with hsame | hst
  · rw [hsame]
    exact ⟨rfl, rfl⟩
  · rw [State.cutStation_eq hst]
    refine ⟨showOn_other id _ _ _ fun x hx => ?_, u.quietStation_proving k hk hl⟩
    obtain ⟨rfl, hlane⟩ := mem_stationHeads.1 hx
    exact HeadRef.key_ne (x := x) (by omega) hl hk

/-- The lamp test of a station that is cut ends with it (R100). -/
theorem State.cutStation_test (hst : (u.station k).state = .online ∨ (u.station k).state = .rerouted) :
    (u.cutStation k).resolver.lampTest = (u.resolver.stationEnded k).lampTest ∧
      (u.cutStation k).resolver.lampLast = (u.resolver.stationEnded k).lampLast := by
  rw [State.cutStation_eq hst]
  exact ⟨rfl, rfl⟩

end Cut

/-! ### Sample records -/

/-- The records of a frame with their heads (R104). -/
def State.headSamples (u : State) (k : Nat) (f : SampleFrame) : List (HeadRef × Sample) := (stationHeads u.l k).zip f.records

/-- A station shows the aspects of its records, unless it is CUT (R69). -/
def State.showSamples (u : State) (k : Nat) (f : SampleFrame) : State :=
  if (u.station k).state == .cut then u else u.takeDisplayed (u.headSamples k f)

/-- The records of a frame are accepted, with whether one asks for a cut (R155, step 6). -/
def State.proveSamples (u : State) (k : Nat) (f : SampleFrame) : State × Bool :=
  (u.showSamples k f).acceptFrame u.resolved ((u.station k).state == .cut) (u.stationDim k) (u.headSamples k f)

theorem State.takeSamples_eq (u : State) (k : Nat) (f : SampleFrame) : u.takeSamples k f =
    if (u.proveSamples k f).2 = true then (u.proveSamples k f).1.cutStation k else (u.proveSamples k f).1 := rfl

section Samples

variable {u : State} {k : Nat} {f : SampleFrame}

theorem State.showSamples_eq (u : State) (k : Nat) (f : SampleFrame) : u.showSamples k f = { u with
    resolver.displayed :=
      if (u.station k).state = .cut then u.resolver.displayed
      else showOn Prod.fst (fun p : HeadRef × Sample => Aspect.ofCode p.2.shown) (u.headSamples k f) u.resolver.displayed } := by
  unfold State.showSamples
  by_cases hst : (u.station k).state = .cut
  · rw [if_pos (beq_iff_eq.2 hst), if_pos hst]
  · rw [if_neg (fun h => hst (beq_iff_eq.1 h)), if_neg hst]
    exact State.foldl_setDisplayed Prod.fst (fun p : HeadRef × Sample => Aspect.ofCode p.2.shown) _ u

theorem State.mem_headSamples {p : HeadRef × Sample} (hp : p ∈ u.headSamples k f) : p.1.station = k ∧ p.1.lane < u.l :=
  mem_sampleHeads hp

/-- The records are accepted after they are shown: a step of the lamps and the signatures of the station (R105). -/
theorem State.proveSamples_step (u : State) (hu : u.l ≤ 6) (k : Nat) (f : SampleFrame) :
    RecordStep (fun i => i / 12 = k) ((u.headSamples k f).flatMap fun p => headKeys p.1) (u.showSamples k f)
      (u.proveSamples k f).1 :=
  RecordStep.acceptFrame _ _ _ _ _ fun p hp => by
    obtain ⟨hk, hl⟩ := State.mem_headSamples hp
    exact (HeadRef.key_station (by omega)).trans hk

theorem RecordStep.link {heads : Nat → Prop} {keys : List Nat} {s t : State} (h : RecordStep heads keys s t) :
    t.link = s.link := by rw [h.frame]

theorem RecordStep.resolver {heads : Nat → Prop} {keys : List Nat} {s t : State} (h : RecordStep heads keys s t) :
    t.resolver = s.resolver := by rw [h.frame]

theorem RecordStep.config {heads : Nat → Prop} {keys : List Nat} {s t : State} (h : RecordStep heads keys s t) :
    t.config = s.config := by rw [h.frame]

/-- A cut leaves the signatures (R160). -/
theorem State.takeSamples_sigs (u : State) (k : Nat) (f : SampleFrame) :
    (u.takeSamples k f).sigs = (u.proveSamples k f).1.sigs := by
  rw [State.takeSamples_eq]
  split
  · exact State.cutStation_sigs _ k
  · rfl

variable (hu : u.l ≤ 6)
include hu

theorem State.proveSamples_link : (u.proveSamples k f).1.link = u.link := by
  rw [(u.proveSamples_step hu k f).link, State.showSamples_eq]

theorem State.proveSamples_station (j : Nat) : (u.proveSamples k f).1.station j = u.station j := by
  unfold State.station; rw [State.proveSamples_link hu]

theorem State.proveSamples_l : (u.proveSamples k f).1.l = u.l := by
  unfold State.l; rw [(u.proveSamples_step hu k f).config, State.showSamples_eq]

/-- What the samples make of the station records (R155, R160). -/
theorem State.takeSamples_station (hw : Tab.wf (StationRec.reset .west) u.link.stations = true) (j : Nat) :
    (u.takeSamples k f).station j =
      if j = k ∧ (u.proveSamples k f).2 = true then (u.station k).cutOff else u.station j := by
  rw [State.takeSamples_eq]
  by_cases hc : (u.proveSamples k f).2 = true
  · rw [if_pos hc, State.cutStation_station (by rw [State.proveSamples_link hu]; exact hw), State.proveSamples_station hu,
      State.proveSamples_station hu]
    simp only [hc, and_true]
  · rw [if_neg hc, State.proveSamples_station hu, if_neg fun h => hc h.2]

/-- The samples leave the pollers, but that a cut drops the station's reprobes (R160). -/
theorem State.takeSamples_pollers (k : Nat) (f : SampleFrame) : PollersKept u (u.takeSamples k f) := by
  have hprove : PollersKept u (u.proveSamples k f).1 := .of_link (State.proveSamples_link hu)
  rw [State.takeSamples_eq]
  split
  · exact hprove.trans (State.cutStation_pollers _ k)
  · exact hprove

/-- The identities and their last changes stay (R138). -/
theorem State.takeSamples_idents : (u.takeSamples k f).sigs.idents = u.sigs.idents ∧
    (u.takeSamples k f).sigs.changes = u.sigs.changes := by
  have hstep := (u.proveSamples_step hu k f).frame
  rw [State.takeSamples_sigs, hstep, State.showSamples_eq]
  exact ⟨rfl, rfl⟩

/-- The samples leave the unsaved flag set (R140). -/
theorem State.takeSamples_keepsUnsaved (h : u.sigs.unsaved = true) : (u.takeSamples k f).sigs.unsaved = true := by
  obtain ⟨ws, -, -, hunsaved⟩ := (u.proveSamples_step hu k f).writes
  rw [State.takeSamples_sigs, hunsaved, State.showSamples_eq, h]
  rfl

/-- The samples set the unsaved flag where they change an entry, and not else (R140). -/
theorem State.takeSamples_unsaved (hw : Tab.wf .unlearned u.sigs.entries = true) (hlen : f.records.length = 2 * u.l) :
    (u.takeSamples k f).sigs.unsaved = true ↔
      u.sigs.unsaved = true ∨ (u.takeSamples k f).sigs.entries ≠ u.sigs.entries := by
  obtain ⟨ws, hkeys, hwrites, hunsaved⟩ := (u.proveSamples_step hu k f).writes
  rw [State.showSamples_eq] at hwrites hunsaved
  have hnd : (ws.map Prod.fst).Nodup := by
    refine (flatMap_headKeys_nodup ?_).sublist hkeys
    unfold State.headSamples
    rw [sampleHeads_keys hlen]
    exact stationHeads_keys_nodup u.l k
  rw [State.takeSamples_sigs, hunsaved, Bool.or_eq_true]
  refine or_congr_right ⟨fun hne => hwrites.ne hw (by simpa using hne) hnd, fun hne => ?_⟩
  cases ws with
  | nil => exact absurd hwrites hne
  | cons w ws => rfl

/-- The samples leave the heads of the other stations (R104). -/
theorem State.takeSamples_other {h : HeadRef} (hk : h.station ≠ k) (hl : h.lane < 6) :
    (u.takeSamples k f).displayed h = u.displayed h ∧ (u.takeSamples k f).proving h = u.proving h := by
  have hstep := u.proveSamples_step hu k f
  have hshown : (u.proveSamples k f).1.displayed h = u.displayed h := by
    unfold State.displayed
    rw [hstep.resolver, State.showSamples_eq]
    dsimp only
    split
    · rfl
    · refine showOn_other _ _ _ _ fun p hp => ?_
      obtain ⟨rfl, hlane⟩ := State.mem_headSamples hp
      exact HeadRef.key_ne (by omega) hl hk
  have hproved : (u.proveSamples k f).1.proving h = u.proving h := by
    refine (hstep.others h.key fun he => hk ((HeadRef.key_station hl).symm.trans he)).trans ?_
    rw [State.showSamples_eq]
    rfl
  rw [State.takeSamples_eq]
  split
  · obtain ⟨hd, hp⟩ := State.cutStation_other (k := k) (u.proveSamples k f).1 (by rw [State.proveSamples_l hu]; exact hu) hk hl
    exact ⟨hd.trans hshown, hp.trans hproved⟩
  · exact ⟨hshown, hproved⟩

/-- What samples that cut no station leave: the aspects shown, the lamp test, and STATION_CUT (R69, R160). -/
theorem State.takeSamples_uncut (hno : (u.proveSamples k f).2 = true → (u.station k).state = .cut) :
    (u.takeSamples k f).resolver = (u.showSamples k f).resolver ∧ u.RaisedTimes (u.takeSamples k f) .stationCut 0 := by
  have hstep := u.proveSamples_step hu k f
  have htake : u.takeSamples k f = (u.proveSamples k f).1 := by
    rw [State.takeSamples_eq]
    split
    · rename_i hc
      exact State.cutStation_again (by rw [State.proveSamples_station hu]; exact hno hc)
    · rfl
  rw [htake]
  refine ⟨hstep.resolver, ?_⟩
  have hshow : u.RaisedTimes (u.showSamples k f) .stationCut 0 := .of_attn (by rw [State.showSamples_eq])
  exact hshow.after (hstep.raises.others _ (by decide))

omit hu in
/-- The heads of a station that is not cut show the aspects of their records (R69). -/
theorem State.showSamples_displayed (hw : Tab.wf none u.resolver.displayed = true) (hlen : f.records.length = 2 * u.l)
    (hst : (u.station k).state ≠ .cut) {h : HeadRef} {r : Sample} (hk : h.station = k) (hl : h.lane < u.l)
    (hr : f.records[2 * h.lane + h.face.code]? = some r) : (u.showSamples k f).displayed h = Aspect.ofCode r.shown := by
  rw [State.showSamples_eq, if_neg hst]
  refine showOn_get Prod.fst (fun p : HeadRef × Sample => Aspect.ofCode p.2.shown) _ _ hw ?_ (sample_mem hk hl hr)
  rw [sampleHeads_keys hlen]
  exact stationHeads_keys_nodup u.l k

/-- What samples that cut their station do (R69, R100, R121, R160). -/
theorem State.takeSamples_cut (hc : (u.proveSamples k f).2 = true)
    (hst : (u.station k).state = .online ∨ (u.station k).state = .rerouted) (hw : Tab.wf none u.resolver.displayed = true) :
    (∀ h : HeadRef, h.station = k → h.lane < u.l → (u.takeSamples k f).displayed h = some .dark) ∧
      u.FindsFalseOpen (u.takeSamples k f) k ∧ u.RaisedTimes (u.takeSamples k f) .stationCut 1 ∧
      (u.takeSamples k f).resolver.lampTest = (u.resolver.stationEnded k).lampTest ∧
      (u.takeSamples k f).resolver.lampLast = (u.resolver.stationEnded k).lampLast := by
  have hstep := u.proveSamples_step hu k f
  have hst' : ((u.proveSamples k f).1.station k).state = .online ∨ ((u.proveSamples k f).1.station k).state = .rerouted := by
    rw [State.proveSamples_station hu]; exact hst
  have hncut : (u.station k).state ≠ .cut := by rcases hst with hst | hst <;> rw [hst] <;> decide
  have hshow : (u.showSamples k f).attn = u.attn := by rw [State.showSamples_eq]
  have hdisplayed : Tab.wf none (u.proveSamples k f).1.resolver.displayed = true := by
    rw [hstep.resolver, State.showSamples_eq, if_neg hncut]
    exact showOn_wf _ _ _ _ hw
  have hfound : (u.showSamples k f).FindsFalseOpen (u.proveSamples k f).1 k :=
    RecordStep.acceptFrame_finds _ _ _ _ _ (fun p hp => (State.mem_headSamples hp).1) hc
  have hended : (u.proveSamples k f).1.resolver.stationEnded k =
      { u.resolver.stationEnded k with displayed := (u.showSamples k f).resolver.displayed } := by
    rw [hstep.resolver, State.showSamples_eq, Resolver.stationEnded_displayed]
  rw [State.takeSamples_eq, if_pos hc]
  refine ⟨fun h hk hl => State.cutStation_displayed hst' hdisplayed hk (by rw [State.proveSamples_l hu]; exact hl),
    ⟨?_, ?_⟩, ?_, ?_, ?_⟩
  · rw [State.cutStation_falseOpen]
    exact hfound.1
  · have hkept := ((LinkStep.cutStation (u.proveSamples k f).1 k).raises).keepsAtLeast hfound.2
    unfold State.RaisedAtLeast at hkept ⊢
    rwa [hshow] at hkept
  · have hnone : (u.showSamples k f).RaisedTimes (u.proveSamples k f).1 .stationCut 0 := hstep.raises.others _ (by decide)
    have hall := hnone.after (State.cutStation_raised hst')
    unfold State.RaisedTimes at hall ⊢
    rwa [hshow] at hall
  · rw [(State.cutStation_test hst').1, hended]
  · rw [(State.cutStation_test hst').2, hended]

/-- A station that is cut has no reprobe left to send (R160). -/
theorem State.takeSamples_noReprobe (hc : (u.proveSamples k f).2 = true)
    (hst : (u.station k).state = .online ∨ (u.station k).state = .rerouted) : (u.takeSamples k f).noReprobe k := by
  rw [State.takeSamples_eq, if_pos hc]
  exact State.cutStation_noReprobe (by rw [State.proveSamples_station hu]; exact hst)

end Samples

end Sys2Proof.Machine
end

