-- ==== Sys2Proof/Proofs/AnswersTaken.lean ====
section
/-! PROOFS. What a good answer does, before the end of its event (R155). -/

namespace Sys2Proof.Machine

/-! ### The station's record -/

/-- The record of a station after its good answer: the answer is counted, its supply recorded, and the station may be cut
(R155, R157, R159, R160). -/
def StationRec.taken (r : StationRec) (e home : LinkEnd) (o c : Bool) : StationRec :=
  if c = true then ((r.answeredOn e home).supplied o).cutOff else (r.answeredOn e home).supplied o

section Taken

variable (r : StationRec) (e home : LinkEnd) (o c : Bool)

/-- The state of a station that has answered on an end (R155, R157, R159). -/
def StationRec.stateOn : StationState :=
  if r.state = .lost ∨ (r.state = .rerouted ∧ e = home) then (if e = home then .online else .rerouted) else r.state

/-- No station stays LOST that answers (R159). -/
theorem StationRec.stateOn_found : r.stateOn e home ≠ .lost := by
  unfold StationRec.stateOn
  split
  · split <;> decide
  · rename_i h
    exact fun hl => h (.inl hl)

theorem StationRec.stateOn_cut : r.stateOn e home = .cut ↔ r.state = .cut := by
  unfold StationRec.stateOn
  cases r.state <;> by_cases he : e = home <;> simp [he]

theorem StationRec.answeredOn_eq : r.answeredOn e home = { r.heard e with
    state := r.stateOn e home
    current := if r.state = .lost ∨ (r.state = .rerouted ∧ e = home) then e else r.current
    reprobe := if r.state = .lost ∧ e ≠ home then some Config.reprobeMs
      else if r.state = .rerouted ∧ e = home then none else r.reprobe } := by
  have hkeep : r.heard e = { r.heard e with state := r.state, current := r.current, reprobe := r.reprobe } := by
    cases e <;> rfl
  unfold StationRec.answeredOn StationRec.stateOn
  cases hst : r.state with
  | lost =>
    by_cases he : e = home
    · simp [he]
    · simp [he]
  | rerouted =>
    by_cases he : e = home
    · simp [he]
    · simpa [he, hst] using hkeep
  | online => simpa [hst] using hkeep
  | cut => simpa [hst] using hkeep

/-- The record of a station after its answer: whether it has been cut by it, as one record (R155, R160). -/
theorem StationRec.taken_eq : r.taken e home o c = { r.heard e with
    state := if c = true ∨ r.state = .cut then .cut else r.stateOn e home
    current := if r.state = .lost ∨ (r.state = .rerouted ∧ e = home) then e else r.current
    reprobe := if c = true ∧ r.state ≠ .cut then none
      else if r.state = .lost ∧ e ≠ home then some Config.reprobeMs
      else if r.state = .rerouted ∧ e = home then none else r.reprobe
    supplyOpen := some o
    restorePending := !(c && r.state != .cut) && (r.restorePending || (o && r.state != .cut)) } := by
  have hcut := r.stateOn_cut e home
  by_cases hst : r.state = .cut
  · have hon : r.stateOn e home = .cut := hcut.2 hst
    unfold StationRec.taken StationRec.cutOff StationRec.supplied
    rw [StationRec.answeredOn_eq]
    cases c <;> simp [hst, hon]
  · have hon : r.stateOn e home ≠ .cut := fun h => hst (hcut.1 h)
    have hoff : ∀ q : StationRec, q.state = r.stateOn e home →
        q.cutOff = { q with state := .cut, reprobe := none, restorePending := false } := fun q hq => by
      unfold StationRec.cutOff
      cases hs : q.state with
      | lost => exact absurd (hq.symm.trans hs) (r.stateOn_found e home)
      | cut => exact absurd (hq.symm.trans hs) hon
      | online => rfl
      | rerouted => rfl
    unfold StationRec.taken
    cases c with
    | true =>
      rw [if_pos rfl, hoff _ (by unfold StationRec.supplied; rw [StationRec.answeredOn_eq])]
      unfold StationRec.supplied
      rw [StationRec.answeredOn_eq]
      simp [hst]
    | false =>
      rw [if_neg (by decide)]
      unfold StationRec.supplied
      rw [StationRec.answeredOn_eq]
      simp [bne_iff_ne.2 hst, bne_iff_ne.2 hon, hst]

/-- The record of a station that has answered and may since have been sent a RESTORE (R147, R155). -/
def StationRec.takenAnd (b : Bool) : StationRec := { r.taken e home o c with restorePending := b }

variable {r e home o c} {b : Bool}

/-- An answer is counted, and its supply status recorded (R155). -/
theorem StationRec.takenAnd_heard : (r.takenAnd e home o c b).miss e = 0 ∧ (match e with
    | .west => (r.takenAnd e home o c b).causeWest
    | .east => (r.takenAnd e home o c b).causeEast) = .none ∧
    (r.takenAnd e home o c b).answered = true ∧ (r.takenAnd e home o c b).supplyOpen = some o := by
  unfold StationRec.takenAnd
  rw [StationRec.taken_eq]
  cases e <;> exact ⟨rfl, rfl, rfl, rfl⟩

theorem StationRec.takenAnd_state : (r.takenAnd e home o c b).state =
    if c = true ∨ r.state = .cut then .cut else r.stateOn e home := by
  unfold StationRec.takenAnd
  rw [StationRec.taken_eq]

theorem StationRec.takenAnd_current : (r.takenAnd e home o c b).current =
    if r.state = .lost ∨ (r.state = .rerouted ∧ e = home) then e else r.current := by
  unfold StationRec.takenAnd
  rw [StationRec.taken_eq]

theorem StationRec.takenAnd_reprobe : (r.takenAnd e home o c b).reprobe =
    if c = true ∧ r.state ≠ .cut then none
    else if r.state = .lost ∧ e ≠ home then some Config.reprobeMs
    else if r.state = .rerouted ∧ e = home then none else r.reprobe := by
  unfold StationRec.takenAnd
  rw [StationRec.taken_eq]

/-- A station is CUT after an answer where it was, or where the answer cut it (R160). -/
theorem StationRec.takenAnd_cut : (r.takenAnd e home o c b).state = .cut ↔ c = true ∨ r.state = .cut := by
  rw [StationRec.takenAnd_state]
  by_cases h : c = true ∨ r.state = .cut
  · simp [h]
  · rw [if_neg h, StationRec.stateOn_cut]
    exact iff_of_false (fun hc => h (.inr hc)) h

/-- The state and the end of a station after its answer (R155, R157, R159, R160). -/
theorem StationRec.takenAnd_clauses :
    (r.state = .cut → (r.takenAnd e home o c b).state = .cut ∧ (r.takenAnd e home o c b).current = r.current) ∧
    (r.state = .online → ((r.takenAnd e home o c b).state = .online ∨ (r.takenAnd e home o c b).state = .cut) ∧
      (r.takenAnd e home o c b).current = r.current) ∧
    (r.state = .rerouted → e = home →
      ((r.takenAnd e home o c b).state = .online ∨ (r.takenAnd e home o c b).state = .cut) ∧
      (r.takenAnd e home o c b).current = home ∧ (r.takenAnd e home o c b).reprobe = none) ∧
    (r.state = .rerouted → e ≠ home →
      ((r.takenAnd e home o c b).state = .rerouted ∨ (r.takenAnd e home o c b).state = .cut) ∧
      (r.takenAnd e home o c b).current = r.current) ∧
    (r.state = .lost → (r.takenAnd e home o c b).current = e ∧ ((r.takenAnd e home o c b).state = .cut ∨
      (e = home ∧ (r.takenAnd e home o c b).state = .online) ∨
      (e ≠ home ∧ (r.takenAnd e home o c b).state = .rerouted ∧ (r.takenAnd e home o c b).reprobe = some 30000))) := by
  rw [StationRec.takenAnd_state, StationRec.takenAnd_current, StationRec.takenAnd_reprobe]
  unfold StationRec.stateOn
  refine ⟨fun h => ?_, fun h => ?_, fun h he => ?_, fun h he => ?_, fun h => ?_⟩
  · simp [h]
  · cases c <;> simp [h]
  · cases c <;> simp [h, he]
  · cases c <;> simp [h, he]
  · by_cases he : e = home <;> cases c <;> simp [h, he, Config.reprobeMs]

/-- RESTORE is pending after an answer where it was, or the supply is OPEN, unless the station is CUT by it (R147, R155). -/
theorem StationRec.taken_restorePending : (r.taken e home o c).restorePending =
    (!(c && r.state != .cut) && (r.restorePending || (o && r.state != .cut))) := by
  rw [StationRec.taken_eq]

end Taken

section Before

variable {u : State} {e : LinkEnd} {k : Nat} {f : SampleFrame}

/-- The part of a good answer that precedes its sample records (R155, steps 1 to 4). -/
def State.beforeSamples (u : State) (e : LinkEnd) (k : Nat) (f : SampleFrame) : State :=
  ((u.answerStation e k).takeIdent k f.ident).takeSupply k f.supplyOpen

theorem State.takeAnswer_eq (u : State) (e : LinkEnd) (k : Nat) (f : SampleFrame) :
    u.takeAnswer e k f = (u.beforeSamples e k f).takeSamples k f := rfl

theorem State.answerStation_frame (u : State) (e : LinkEnd) (k : Nat) : u.answerStation e k = { u with
    lamps := { u.lamps with strings := (u.answerStation e k).lamps.strings }
    link := (u.answerStation e k).link
    attn := (u.answerStation e k).attn
    host := (u.answerStation e k).host } := by
  rcases u.answerStation_forms e k with ⟨-, -, h⟩ | ⟨-, -, h⟩ | ⟨v, hv, -, ⟨-, h⟩ | ⟨-, h⟩⟩
  · rw [h]; rfl
  · rw [h]; rfl
  all_goals
    rw [h]
    rcases hv with rfl | rfl <;> rfl

theorem State.takeIdent_frame (u : State) (k : Nat) (id : BitVec 32) : u.takeIdent k id = { u with
    lamps := { u.lamps with strings := (u.takeIdent k id).lamps.strings }
    sigs := (u.takeIdent k id).sigs
    attn := (u.takeIdent k id).attn
    host := (u.takeIdent k id).host } := by
  cases hold : u.ident k with
  | none => rw [State.takeIdent_first hold]; rfl
  | some old =>
    by_cases hne : old = id
    · rw [State.takeIdent_same (hold.trans (congrArg some hne))]
    · rw [State.takeIdent_change hold hne]
      unfold State.driverChange
      by_cases hf : u.config.records.tunnel.freeze = true <;> simp only [hf, if_true] <;> rfl

theorem State.beforeSamples_frame (u : State) (e : LinkEnd) (k : Nat) (f : SampleFrame) : u.beforeSamples e k f = { u with
    lamps := { u.lamps with strings := (u.beforeSamples e k f).lamps.strings }
    sigs := ((u.answerStation e k).takeIdent k f.ident).sigs
    link := (u.beforeSamples e k f).link
    attn := (u.beforeSamples e k f).attn
    host := (u.beforeSamples e k f).host } := by
  have hanswer := u.answerStation_frame e k
  have hident := (u.answerStation e k).takeIdent_frame k f.ident
  unfold State.beforeSamples
  generalize (u.answerStation e k).takeIdent k f.ident = w at hident ⊢
  generalize u.answerStation e k = v at hanswer hident
  rw [hanswer] at hident
  rw [hident]
  rfl

theorem State.beforeSamples_l (u : State) (e : LinkEnd) (k : Nat) (f : SampleFrame) : (u.beforeSamples e k f).l = u.l := by
  rw [State.beforeSamples_frame]
  rfl

theorem State.answerStation_sigs (u : State) (e : LinkEnd) (k : Nat) : (u.answerStation e k).sigs = u.sigs := by
  rw [State.answerStation_frame]

theorem State.answerStation_ident (u : State) (e : LinkEnd) (k j : Nat) : (u.answerStation e k).ident j = u.ident j := by
  unfold State.ident
  rw [State.answerStation_sigs]

theorem State.takeIdent_link (u : State) (k : Nat) (id : BitVec 32) : (u.takeIdent k id).link = u.link := by
  rw [State.takeIdent_frame]

theorem State.takeIdent_station (u : State) (k : Nat) (id : BitVec 32) (j : Nat) :
    (u.takeIdent k id).station j = u.station j := by
  unfold State.station
  rw [State.takeIdent_link]

/-- The stations before the sample records are taken: the one that answered, and the others as they were (R155). -/
theorem State.beforeSamples_station (hw : Tab.wf (StationRec.reset .west) u.link.stations = true) (j : Nat) :
    (u.beforeSamples e k f).station j =
      if j = k then ((u.station k).answeredOn e (homeEnd u.n k)).supplied f.supplyOpen else u.station j := by
  have hanswered : Tab.wf (StationRec.reset .west) ((u.answerStation e k).takeIdent k f.ident).link.stations = true := by
    rw [State.takeIdent_link]
    exact (LinkStep.answerStation u e k).stations hw
  unfold State.beforeSamples
  rw [State.takeSupply_station hanswered, State.takeIdent_station, State.takeIdent_station, State.answerStation_station hw,
    State.answerStation_station hw, if_pos rfl]
  split <;> rfl

theorem State.beforeSamples_pollers (u : State) (e : LinkEnd) (k : Nat) (f : SampleFrame) :
    PollersKept u (u.beforeSamples e k f) :=
  ((State.answerStation_pollers u e k).trans (.of_link (State.takeIdent_link _ k f.ident))).trans (.setStation _ k _)

/-- A REROUTED station that answers at home has no reprobe left to send (R157). -/
theorem State.beforeSamples_noReprobe (hr : (u.station k).state = .rerouted) (he : e = homeEnd u.n k) :
    (u.beforeSamples e k f).noReprobe k :=
  ((PollersKept.of_link (State.takeIdent_link _ k f.ident)).trans (.setStation _ k _)).noReprobe
    (State.answerStation_noReprobe hr he)

/-- A LOST station that answers away from its home end raises RING_DEGRADED, and no other answer does (R159). -/
theorem State.answerStation_raised (u : State) (e : LinkEnd) (k : Nat) :
    u.RaisedTimes (u.answerStation e k) .ringDegraded
      (if (u.station k).state = .lost ∧ e ≠ homeEnd u.n k then 1 else 0) := by
  rcases u.answerStation_forms e k with ⟨hno, -, h⟩ | ⟨hr, -, h⟩ | ⟨v, hv, hl, ⟨he, h⟩ | ⟨he, h⟩⟩
  · rw [h, if_neg fun hc => hno hc.1]
    exact .of_attn rfl
  · rw [h, if_neg fun hc => by rw [hr] at hc; exact StationState.noConfusion hc.1]
    exact .of_attn rfl
  all_goals have hattn : v.attn = u.attn := by rcases hv with rfl | rfl <;> rfl
  · rw [h, if_neg fun hc => hc.2 he]
    exact .of_attn hattn
  · rw [h, if_pos ⟨hl, he⟩]
    have hput : u.RaisedTimes (v.setStation k ((u.station k).answeredOn e (homeEnd u.n k))) .ringDegraded 0 := .of_attn hattn
    exact (hput.after (raise_raisedTimes _ _)).before (.of_attn rfl)

end Before

section Answer

variable {u : State} {e : LinkEnd} {k : Nat} {f : SampleFrame}

/-- A record of a good answer's frame asks for a cut (R155, step 6). -/
def State.asksCut (u : State) (e : LinkEnd) (k : Nat) (f : SampleFrame) : Bool := ((u.beforeSamples e k f).proveSamples k f).2

/-- RING_DEGRADED is raised where a LOST station returns on its other end, and not else (R159). -/
theorem State.takeAnswer_ring (u : State) (e : LinkEnd) (k : Nat) (f : SampleFrame) :
    u.RaisedTimes (u.takeAnswer e k f) .ringDegraded
      (if (u.station k).state = .lost ∧ e ≠ homeEnd u.n k then 1 else 0) :=
  (((u.answerStation_raised e k).before ((LinkStep.takeIdent _ k f.ident).raises.others _ (by decide))).before
    (.of_attn rfl)).before ((LinkStep.takeSamples (u.beforeSamples e k f) k f).raises.others _ (by decide))

/-- DRIVER_CHANGED is raised by the identity alone (R139). -/
theorem State.takeAnswer_driver {n : Nat}
    (h : (u.answerStation e k).RaisedTimes ((u.answerStation e k).takeIdent k f.ident) .driverChanged n) :
    u.RaisedTimes (u.takeAnswer e k f) .driverChanged n :=
  ((State.RaisedTimes.after ((LinkStep.answerStation u e k).raises.others _ (by decide)) h).before (.of_attn rfl)).before
    ((LinkStep.takeSamples (u.beforeSamples e k f) k f).raises.others _ (by decide))

/-- The part before the sample records raises neither STATION_CUT nor FALSE_OPEN. -/
theorem State.beforeSamples_unraised (u : State) (e : LinkEnd) (k : Nat) (f : SampleFrame) {a : AttnKind}
    (ha : a ∉ [AttnKind.ringDegraded, .driverChanged]) : u.RaisedTimes (u.beforeSamples e k f) a 0 := by
  simp only [List.mem_cons, List.not_mem_nil, or_false, not_or] at ha
  obtain ⟨hring, hdriver⟩ := ha
  exact (((LinkStep.answerStation u e k).raises.others _ (by simpa using hring)).before
    ((LinkStep.takeIdent _ k f.ident).raises.others _ (by simpa using hdriver))).before (.of_attn rfl)

/-! ### The station and the pollers -/

theorem State.beforeSamples_state (hw : Tab.wf (StationRec.reset .west) u.link.stations = true) :
    ((u.beforeSamples e k f).station k).state = (u.station k).stateOn e (homeEnd u.n k) := by
  rw [State.beforeSamples_station hw, if_pos rfl]
  unfold StationRec.supplied
  rw [StationRec.answeredOn_eq]

theorem State.beforeSamples_cut (hw : Tab.wf (StationRec.reset .west) u.link.stations = true) :
    ((u.beforeSamples e k f).station k).state = .cut ↔ (u.station k).state = .cut := by
  rw [State.beforeSamples_state hw, StationRec.stateOn_cut]

/-- A station that was not CUT answers, ONLINE or REROUTED, until its samples cut it (R155, R159). -/
theorem State.beforeSamples_answers (hw : Tab.wf (StationRec.reset .west) u.link.stations = true)
    (h : (u.station k).state ≠ .cut) : ((u.beforeSamples e k f).station k).state = .online ∨
      ((u.beforeSamples e k f).station k).state = .rerouted := by
  have hcut := mt (State.beforeSamples_cut (e := e) (f := f) hw).1 h
  have hlost := (u.station k).stateOn_found e (homeEnd u.n k)
  rw [← State.beforeSamples_state (f := f) hw] at hlost
  cases hst : ((u.beforeSamples e k f).station k).state with
  | online => exact .inl rfl
  | rerouted => exact .inr rfl
  | lost => exact absurd hst hlost
  | cut => exact absurd hst hcut

section Canonical

variable (hu : u.l ≤ 6) (hw : Tab.wf (StationRec.reset .west) u.link.stations = true)
include hu hw

theorem State.takeAnswer_station (j : Nat) : (u.takeAnswer e k f).station j =
    if j = k then (u.station k).taken e (homeEnd u.n k) f.supplyOpen (u.asksCut e k f) else u.station j := by
  have hbefore : Tab.wf (StationRec.reset .west) (u.beforeSamples e k f).link.stations = true :=
    (((LinkStep.answerStation u e k).mono (kinds := _) (more := answerKinds) (by decide)).trans
      (((LinkStep.takeIdent _ k f.ident).mono (by decide)).trans (.takeSupply _ k _))).stations hw
  rw [State.takeAnswer_eq, State.takeSamples_station (by rw [State.beforeSamples_l]; exact hu) hbefore,
    State.beforeSamples_station hw, State.beforeSamples_station hw, if_pos rfl]
  unfold StationRec.taken State.asksCut
  by_cases hj : j = k
  · simp only [hj, true_and, if_true]
  · simp only [hj, false_and, if_false]

omit hw in
theorem State.takeAnswer_pollers : PollersKept u (u.takeAnswer e k f) :=
  (State.beforeSamples_pollers u e k f).trans (State.takeSamples_pollers (by rw [State.beforeSamples_l]; exact hu) k f)

/-- A station that leaves REROUTED has no reprobe left to send (R157, R160). -/
theorem State.takeAnswer_noReprobe (hr : (u.station k).state = .rerouted)
    (ht : ((u.takeAnswer e k f).station k).state ≠ .rerouted) : (u.takeAnswer e k f).noReprobe k := by
  have hl : (u.beforeSamples e k f).l ≤ 6 := by rw [State.beforeSamples_l]; exact hu
  by_cases he : e = homeEnd u.n k
  · exact (State.takeSamples_pollers hl k f).noReprobe (State.beforeSamples_noReprobe hr he)
  · have hasks : u.asksCut e k f = true := by
      by_contra hno
      rw [State.takeAnswer_station hu hw, if_pos rfl, StationRec.taken_eq] at ht
      simp [hno, hr, he, StationRec.stateOn] at ht
    exact State.takeSamples_noReprobe hl hasks (State.beforeSamples_answers hw (by rw [hr]; decide))

end Canonical

/-! ### The signatures -/

theorem State.beforeSamples_sigs (u : State) (e : LinkEnd) (k : Nat) (f : SampleFrame) :
    (u.beforeSamples e k f).sigs = ((u.answerStation e k).takeIdent k f.ident).sigs := by
  rw [State.beforeSamples_frame]

section Signatures

variable (hu : u.l ≤ 6)
include hu

/-- The identity of the answer is recorded (R138). -/
theorem State.takeAnswer_ident (hw : Tab.wf none u.sigs.idents = true) (j : Nat) :
    (u.takeAnswer e k f).ident j = if j = k then some f.ident else u.ident j := by
  have hl : (u.beforeSamples e k f).l ≤ 6 := by rw [State.beforeSamples_l]; exact hu
  have hident := State.takeIdent_ident (u := u.answerStation e k) (k := k) (id := f.ident)
    (by rw [State.answerStation_sigs]; exact hw) j
  unfold State.ident at hident ⊢
  rw [State.takeAnswer_eq, (State.takeSamples_idents hl).1, State.beforeSamples_sigs, hident, State.answerStation_sigs]

/-- A new identity sets the unsaved flag, and else only a change of an entry does (R140). -/
theorem State.takeAnswer_unsaved (hw : Tab.wf .unlearned u.sigs.entries = true) (hlen : f.records.length = 2 * u.l) :
    (u.takeAnswer e k f).sigs.unsaved = true ↔
      u.sigs.unsaved = true ∨ u.ident k ≠ some f.ident ∨ (u.takeAnswer e k f).sigs.entries ≠ u.sigs.entries := by
  have hl : (u.beforeSamples e k f).l ≤ 6 := by rw [State.beforeSamples_l]; exact hu
  rw [State.takeAnswer_eq]
  by_cases hident : u.ident k = some f.ident
  · have hsigs : (u.beforeSamples e k f).sigs = u.sigs := by
      rw [State.beforeSamples_sigs, State.takeIdent_same (by rw [State.answerStation_ident]; exact hident),
        State.answerStation_sigs]
    have hall := State.takeSamples_unsaved (k := k) hl (by rw [hsigs]; exact hw) (by rw [State.beforeSamples_l]; exact hlen)
    rw [hsigs] at hall
    rw [hall]
    simp [hident]
  · have hset : (u.beforeSamples e k f).sigs.unsaved = true := by
      rw [State.beforeSamples_sigs]
      exact State.takeIdent_unsaved (by rw [State.answerStation_ident]; exact hident)
    exact iff_of_true (State.takeSamples_keepsUnsaved hl hset) (.inr (.inl hident))

/-- What the last-change records are after an answer (R138). -/
theorem State.takeAnswer_changes :
    (u.takeAnswer e k f).sigs.changes = ((u.answerStation e k).takeIdent k f.ident).sigs.changes := by
  have hl : (u.beforeSamples e k f).l ≤ 6 := by rw [State.beforeSamples_l]; exact hu
  rw [State.takeAnswer_eq, (State.takeSamples_idents hl).2, State.beforeSamples_sigs]

/-- The last changes of the other stations stay (R138). -/
theorem State.takeAnswer_otherChange {j : Nat} (hj : j ≠ k) : (u.takeAnswer e k f).lastChange j = u.lastChange j := by
  unfold State.lastChange
  rw [State.takeAnswer_changes hu]
  rcases State.takeIdent_changes (u := u.answerStation e k) (k := k) (id := f.ident) with h | ⟨old, -, -, h⟩
  · rw [h, State.answerStation_sigs]
  · rw [h, State.answerStation_sigs]
    exact Tab.get_set_ne _ _ hj

/-- No change of identity, no record and no raising (R138, R139). -/
theorem State.takeAnswer_unchanged (h : u.ident k = none ∨ u.ident k = some f.ident) :
    (u.takeAnswer e k f).lastChange k = u.lastChange k ∧ u.RaisedTimes (u.takeAnswer e k f) .driverChanged 0 := by
  have h' : (u.answerStation e k).ident k = none ∨ (u.answerStation e k).ident k = some f.ident := by
    rw [State.answerStation_ident]; exact h
  refine ⟨?_, State.takeAnswer_driver (State.takeIdent_unraised h' _)⟩
  unfold State.lastChange
  rw [State.takeAnswer_changes hu]
  rcases State.takeIdent_changes (u := u.answerStation e k) (k := k) (id := f.ident) with hsame | ⟨old, hold, hne, -⟩
  · rw [hsame, State.answerStation_sigs]
  · rw [hold] at h'
    rcases h' with h' | h'
    · cases h'
    · exact absurd (Option.some.inj h') hne

/-- A change of identity is recorded, with the LEARNED entries that it unlearns (R138, R139). -/
theorem State.takeAnswer_changed {old : BitVec 32} (hold : u.ident k = some old) (hne : old ≠ f.ident) :
    (u.takeAnswer e k f).lastChange k = some (u.driverChangeRecord k old f.ident) ∧
      u.RaisedTimes (u.takeAnswer e k f) .driverChanged 1 := by
  have hold' : (u.answerStation e k).ident k = some old := by rw [State.answerStation_ident]; exact hold
  refine ⟨?_, State.takeAnswer_driver (State.takeIdent_raised hold' hne)⟩
  have hrecord : (u.answerStation e k).driverChangeRecord k old f.ident = u.driverChangeRecord k old f.ident := by
    rw [State.answerStation_frame]
    rfl
  unfold State.lastChange
  rw [State.takeAnswer_changes hu, State.takeIdent_change hold' hne, (State.driverChange_sigs _ k old f.ident).2.1, hrecord]
  exact Tab.get_set_self _ _ (by simp)

end Signatures

/-! ### The displayed aspects and the lamp test -/

section Heads

variable (hu : u.l ≤ 6)
include hu

/-- The heads of the other stations stay (R69, R104). -/
theorem State.takeAnswer_other {h : HeadRef} (hk : h.station ≠ k) (hl : h.lane < 6) :
    (u.takeAnswer e k f).displayed h = u.displayed h ∧ (u.takeAnswer e k f).proving h = u.proving h := by
  have hb : (u.beforeSamples e k f).l ≤ 6 := by rw [State.beforeSamples_l]; exact hu
  have hbefore : (u.beforeSamples e k f).displayed h = u.displayed h ∧ (u.beforeSamples e k f).proving h = u.proving h := by
    rw [State.beforeSamples_frame]
    exact ⟨rfl, rfl⟩
  obtain ⟨hd, hp⟩ := State.takeSamples_other (f := f) hb hk hl
  exact ⟨hd.trans hbefore.1, hp.trans hbefore.2⟩

variable (hw : Tab.wf (StationRec.reset .west) u.link.stations = true)
include hw

/-- An answer that cuts no station leaves the lamp test and STATION_CUT; a CUT station keeps its displayed aspects, and any
other shows the aspects of its records (R69, R160). -/
theorem State.takeAnswer_uncut (hd : Tab.wf none u.resolver.displayed = true) (hlen : f.records.length = 2 * u.l)
    (hno : u.asksCut e k f = true → (u.station k).state = .cut) :
    (u.takeAnswer e k f).resolver.lampTest = u.resolver.lampTest ∧
      (u.takeAnswer e k f).resolver.lampLast = u.resolver.lampLast ∧
      u.RaisedTimes (u.takeAnswer e k f) .stationCut 0 ∧
      ((u.station k).state = .cut → ∀ h, (u.takeAnswer e k f).displayed h = u.displayed h) ∧
      ((u.station k).state ≠ .cut → ∀ h : HeadRef, h.station = k → h.lane < u.l → ∀ r : Sample,
        f.records[2 * h.lane + h.face.code]? = some r → (u.takeAnswer e k f).displayed h = Aspect.ofCode r.shown) := by
  have hl := State.beforeSamples_l u e k f
  have hres : (u.beforeSamples e k f).resolver = u.resolver := by rw [State.beforeSamples_frame]
  have hcut := State.beforeSamples_cut (e := e) (k := k) (f := f) hw
  obtain ⟨hresolver, hraised⟩ := State.takeSamples_uncut (u := u.beforeSamples e k f) (k := k) (f := f) (hl ▸ hu)
    fun hc => hcut.2 (hno hc)
  have hshow := (u.beforeSamples e k f).showSamples_eq k f
  rw [State.takeAnswer_eq]
  refine ⟨?_, ?_, State.RaisedTimes.after (u.beforeSamples_unraised e k f (by decide)) hraised, fun hst h => ?_,
    fun hst h hk hlane r hr => ?_⟩
  · rw [hresolver, hshow, hres]
  · rw [hresolver, hshow, hres]
  · unfold State.displayed
    rw [hresolver, hshow, hres, if_pos (hcut.2 hst)]
  · have hshown := State.showSamples_displayed (u := u.beforeSamples e k f) (by rw [hres]; exact hd) (by rw [hl]; exact hlen)
      (mt hcut.1 hst) hk (by rw [hl]; exact hlane) hr
    unfold State.displayed at hshown ⊢
    rw [hresolver, hshown]

/-- What an answer that cuts its station does (R69, R100, R121, R160). -/
theorem State.takeAnswer_cuts (hd : Tab.wf none u.resolver.displayed = true) (hc : u.asksCut e k f = true)
    (hst : (u.station k).state ≠ .cut) :
    (∀ h : HeadRef, h.station = k → h.lane < u.l → (u.takeAnswer e k f).displayed h = some .dark) ∧
      u.FindsFalseOpen (u.takeAnswer e k f) k ∧ u.RaisedTimes (u.takeAnswer e k f) .stationCut 1 ∧
      (u.takeAnswer e k f).resolver.lampTest = (u.resolver.stationEnded k).lampTest ∧
      (u.takeAnswer e k f).resolver.lampLast = (u.resolver.stationEnded k).lampLast := by
  have hl := State.beforeSamples_l u e k f
  have hres : (u.beforeSamples e k f).resolver = u.resolver := by rw [State.beforeSamples_frame]
  obtain ⟨hdark, ⟨hrecord, hfound⟩, hraised, htest, hlast⟩ := State.takeSamples_cut (hl ▸ hu) hc
    (State.beforeSamples_answers hw hst) (by rw [hres]; exact hd)
  rw [State.takeAnswer_eq, ← hres, ← hl]
  refine ⟨hdark, ⟨hrecord, ?_⟩, State.RaisedTimes.after (u.beforeSamples_unraised e k f (by decide)) hraised, htest, hlast⟩
  have hbefore := (u.beforeSamples_unraised e k f (a := .falseOpen) (by decide)).eq_of_zero
  unfold State.RaisedAtLeast at hfound ⊢
  rwa [← hbefore.1]

end Heads

end Answer

end Sys2Proof.Machine
end

