-- ==== Sys2Proof/Proofs/GoodAnswers.lean ====
section
/-! PROOFS. The event of a good SAMPLE answer (O53). -/

namespace Sys2Proof.Machine

/-- A good answer has ended its exchange and been taken (R153, R155). -/
def State.answered (s : State) (e : LinkEnd) (k : Nat) (f : SampleFrame) : State := (s.endExchange e).takeAnswer e k f

/-- A good answer cuts its station, were it not CUT already (R160). -/
def State.cutBy (s : State) (e : LinkEnd) (k : Nat) (f : SampleFrame) : Bool := (s.endExchange e).asksCut e k f

section Ended

variable (s : State) (e : LinkEnd)

theorem State.endExchange_frame : s.endExchange e = { s with link := (s.endExchange e).link } := by
  cases e <;> rfl

@[simp] theorem State.endExchange_stations : (s.endExchange e).link.stations = s.link.stations := by cases e <;> rfl
@[simp] theorem State.endExchange_station (k : Nat) : (s.endExchange e).station k = s.station k := State.setPoller_station ..
@[simp] theorem State.endExchange_n : (s.endExchange e).n = s.n := by rw [State.endExchange_frame]; rfl
@[simp] theorem State.endExchange_l : (s.endExchange e).l = s.l := by rw [State.endExchange_frame]; rfl
@[simp] theorem State.endExchange_sigs : (s.endExchange e).sigs = s.sigs := by rw [State.endExchange_frame]
@[simp] theorem State.endExchange_resolver : (s.endExchange e).resolver = s.resolver := by rw [State.endExchange_frame]
@[simp] theorem State.endExchange_lamps : (s.endExchange e).lamps = s.lamps := by rw [State.endExchange_frame]
@[simp] theorem State.endExchange_attn : (s.endExchange e).attn = s.attn := by rw [State.endExchange_frame]

end Ended

/-- The section has at most 16 stations (R1). -/
theorem State.Good.n_le {s : State} (h : s.Good) : s.n ≤ 16 := by
  obtain ⟨himage, -⟩ := h.config
  obtain ⟨ht, -⟩ := (ConfigImage.legal_iff _).1 himage
  change s.config.records.tunnel.legal = true at ht
  simp only [Tunnel.legal, Bool.and_eq_true, and_assoc] at ht
  obtain ⟨h1, -⟩ := ht
  show s.config.records.tunnel.n ≤ 16
  split at h1
  · simp only [Bool.and_eq_true, within_iff] at h1; omega
  · simp only [Bool.and_eq_true, beq_iff_eq] at h1; omega

section Answered

variable {s : State} {e : LinkEnd} {k : Nat} {f : SampleFrame}

theorem State.answered_link (s : State) (e : LinkEnd) (k : Nat) (f : SampleFrame) : LinkStep answerKinds s (s.answered e k f) :=
  (LinkStep.endExchange s e).trans (.takeAnswer _ e k f)

/-- What the answer raises after its exchange has ended, it raises in the event. -/
theorem State.answered_raised {a : AttnKind} {n : Nat} (h : (s.endExchange e).RaisedTimes (s.answered e k f) a n) :
    s.RaisedTimes (s.answered e k f) a n := State.RaisedTimes.after (.of_attn (s.endExchange_attn e)) h

/-- A driver's SAMPLE frame that answers the exchange in flight is taken, and the event ends (R149, R155). -/
theorem exec_gantryAnswer {x : Exchange} (hg : s.Good) (hlive : s.live = true) (hx : (s.poller e).exchange = some x)
    (hrx : (s.poller e).rx = .hunting) (hk : x.station < s.n) (hlen : f.records.length = 2 * s.l)
    (hr : ∀ r ∈ f.records, r.sendable) :
    exec (.gantryAnswer e (sampleFrame x.station f).octets) s = .next (settle s (s.answered e x.station f)) := by
  have hn := hg.n_le
  have htaken : s.gantryOctets e (sampleFrame x.station f).octets = s.answered e x.station f :=
    gantryOctets_sample hx hrx (by omega) hg.l_le hlen hr
  show event s (fun s => s.gantryOctets e (sampleFrame x.station f).octets) = _
  unfold event answer
  rw [if_pos hlive]
  dsimp only
  rw [htaken]

/-- The answer leaves the exchange over, and its end hunting (R145, R153). -/
theorem State.endExchange_poller (s : State) (e : LinkEnd) : (s.endExchange e).poller e =
    { s.poller e with exchange := none, answerTimer := none } := State.setPoller_poller ..

variable (hg : s.Good)
include hg

theorem State.answered_stations : Tab.wf (StationRec.reset .west) (s.answered e k f).link.stations = true :=
  (s.answered_link e k f).stations hg.stations_wf

theorem State.answered_station (j : Nat) : (s.answered e k f).station j =
    if j = k then (s.station k).taken e (homeEnd s.n k) f.supplyOpen (s.cutBy e k f) else s.station j := by
  have hall := State.takeAnswer_station (u := s.endExchange e) (e := e) (k := k) (f := f)
    (by simpa using hg.l_le) (by simpa using hg.stations_wf) j
  simp only [State.endExchange_station, State.endExchange_n] at hall
  exact hall

/-! ### The end of the event -/

theorem State.answered_pollerStep : PollerStep (s.answered e k f) (settle s (s.answered e k f)) :=
  settle_pollerStep _ _ (State.answered_stations hg)

/-- The other stations keep their records (R155). -/
theorem State.answered_keepsStation {j : Nat} (hj : j ≠ k) : s.KeepsStation (settle s (s.answered e k f)) j := by
  have hsame : (s.answered e k f).station j = s.station j := by rw [State.answered_station hg, if_neg hj]
  have hstep := (State.answered_pollerStep (e := e) (k := k) (f := f) hg).station j
  rwa [hsame] at hstep

/-- The record of the station that answered, and its RESTORE: the mark goes with the frame alone (R147, R155). -/
theorem State.answered_record : ∃ b,
    (settle s (s.answered e k f)).station k =
      (s.station k).takenAnd e (homeEnd s.n k) f.supplyOpen (s.cutBy e k f) b ∧
    (b = true → ((s.station k).taken e (homeEnd s.n k) f.supplyOpen (s.cutBy e k f)).restorePending = true) ∧
    (((s.station k).taken e (homeEnd s.n k) f.supplyOpen (s.cutBy e k f)).restorePending = true →
      b = true ∨ ∃ d, ((settle s (s.answered e k f)).poller d).sending = some ⟨octet k, 3#8, []⟩) := by
  have hsame : (s.answered e k f).station k =
      (s.station k).taken e (homeEnd s.n k) f.supplyOpen (s.cutBy e k f) := by rw [State.answered_station hg, if_pos rfl]
  have hstep := (State.answered_pollerStep (e := e) (k := k) (f := f) hg).station k
  rw [hsame] at hstep
  rcases hstep with h | ⟨hp, h, hsend⟩
  · exact ⟨((s.station k).taken e (homeEnd s.n k) f.supplyOpen (s.cutBy e k f)).restorePending, h, id, .inl⟩
  · exact ⟨false, h, fun hb => (nomatch hb), fun _ => .inr hsend⟩

/-- The receiver and the answer timeout of the end (R145, R153). -/
theorem State.answered_poller (hrx : (s.poller e).rx = .hunting) :
    ((settle s (s.answered e k f)).poller e).rx = .hunting ∧
      ((settle s (s.answered e k f)).poller e).answerTimer = none := by
  have hstep := State.answered_pollerStep (e := e) (k := k) (f := f) hg
  have hkept : PollersKept (s.endExchange e) (s.answered e k f) :=
    State.takeAnswer_pollers (by simpa using hg.l_le)
  rw [hstep.rx, hstep.answerTimer, hkept.rx, hkept.answerTimer, State.endExchange_poller]
  exact ⟨hrx, rfl⟩

/-- A station that leaves REROUTED has no reprobe left to send (R157, R160). -/
theorem State.answered_noReprobe (hr : (s.station k).state = .rerouted)
    (ht : ((settle s (s.answered e k f)).station k).state ≠ .rerouted) :
    (settle s (s.answered e k f)).noReprobe k := by
  rw [settle_station_state _ _ (State.answered_stations hg)] at ht
  exact (State.answered_pollerStep hg).noReprobe
    (State.takeAnswer_noReprobe (by simpa using hg.l_le) (by simpa using hg.stations_wf) (by simpa using hr) ht)

omit hg in
/-- What the event does to the port, the attention flags and the engine (R36, R186, R189). -/
theorem State.answered_rest (hs : s.Settled) :
    s.KeepsPort (settle s (s.answered e k f)) ∧ s.Unreplied (settle s (s.answered e k f)) ∧
      s.KeepsFlags (settle s (s.answered e k f)) [.stringFault, .headFault, .falseOpen, .stationCut, .ringDegraded,
        .driverChanged, .learnRejected, .taskUnsuccessful] ∧
      ((∀ m, (s.lane m).phase.freshOpening = false) → (settle s (s.answered e k f)).engine = s.engine) := by
  have hlink := s.answered_link e k f
  refine ⟨settle_keepsPort_unreplied hlink.host, settle_unreplied hs hlink.host,
    settle_flagsFollow hs hlink.n hlink.l (settledEngine_raises (by decide) (hlink.raises.mono (by decide))) (by decide)
      (by decide) (chosen_notice_unreplied hs hlink.host), fun hfresh => ?_⟩
  have hlane : ∀ m, (s.answered e k f).lane m = s.lane m := fun m => by unfold State.lane; rw [hlink.engine]
  rw [settle_engine, settledEngine_of_nil (settledFailures_nil fun m => by rw [hlane]; exact hfresh m), hlink.engine]

omit hg in
/-- The kinds that settling does not raise are raised by the answer's own steps. -/
theorem State.answered_raisedTimes {a : AttnKind} {n : Nat}
    (h : (s.endExchange e).RaisedTimes (s.answered e k f) a n)
    (ha : a ∉ [AttnKind.entryClosureLost, .aspectFailed, .taskUnsuccessful]) :
    s.RaisedTimes (settle s (s.answered e k f)) a n :=
  settle_raisedOwn (s.answered_link e k f).n (s.answered_link e k f).l (State.answered_raised h) ha

omit hg in
/-- RING_DEGRADED is raised where a LOST station returns on its other end, and not else (R159). -/
theorem State.answered_ring : s.RaisedTimes (settle s (s.answered e k f)) .ringDegraded
    (if (s.station k).state = .lost ∧ e ≠ homeEnd s.n k then 1 else 0) := by
  have h := State.answered_raisedTimes (s := s) ((s.endExchange e).takeAnswer_ring e k f) (by decide)
  simpa only [State.endExchange_station, State.endExchange_n] using h

/-! ### The identity -/

omit hg in
theorem State.endExchange_ident (s : State) (e : LinkEnd) (j : Nat) : (s.endExchange e).ident j = s.ident j := by
  unfold State.ident; rw [State.endExchange_sigs]

omit hg in
theorem State.endExchange_lastChange (s : State) (e : LinkEnd) (j : Nat) :
    (s.endExchange e).lastChange j = s.lastChange j := by
  unfold State.lastChange; rw [State.endExchange_sigs]

omit hg in
theorem State.settle_lastChange (b a : State) (j : Nat) : (settle b a).lastChange j = a.lastChange j := by
  unfold State.lastChange; rw [settle_sigs]

/-- The identity, the unsaved flag and the other stations' last changes (R138, R140). -/
theorem State.answered_sigs (hlen : f.records.length = 2 * s.l) :
    ((settle s (s.answered e k f)).sigs.unsaved = true ↔ s.sigs.unsaved = true ∨ s.ident k ≠ some f.ident ∨
        (settle s (s.answered e k f)).sigs.entries ≠ s.sigs.entries) ∧
      ((settle s (s.answered e k f)).ident k = some f.ident ∧
        ∀ j, j ≠ k → (settle s (s.answered e k f)).ident j = s.ident j) ∧
      (∀ j, j ≠ k → (settle s (s.answered e k f)).lastChange j = s.lastChange j) := by
  have hl : (s.endExchange e).l ≤ 6 := by simpa using hg.l_le
  have hident : ∀ j, (settle s (s.answered e k f)).ident j = if j = k then some f.ident else s.ident j := fun j => by
    have h := State.takeAnswer_ident (e := e) (k := k) (f := f) hl (by simpa using hg.idents_wf) j
    rw [State.endExchange_ident] at h
    unfold State.ident at h ⊢
    rw [settle_sigs]
    exact h
  refine ⟨?_, ⟨by rw [hident, if_pos rfl], fun j hj => by rw [hident, if_neg hj]⟩, fun j hj => ?_⟩
  · have h := State.takeAnswer_unsaved (e := e) (k := k) (f := f) hl (by simpa using hg.entries_wf) (by simpa using hlen)
    rw [State.endExchange_ident, State.endExchange_sigs] at h
    rw [settle_sigs]
    exact h
  · rw [State.settle_lastChange]
    exact (State.takeAnswer_otherChange hl hj).trans (s.endExchange_lastChange e j)

/-- No change of identity (R138). -/
theorem State.answered_unchanged (h : s.ident k = none ∨ s.ident k = some f.ident) :
    (settle s (s.answered e k f)).lastChange k = s.lastChange k ∧
      s.RaisedTimes (settle s (s.answered e k f)) .driverChanged 0 := by
  obtain ⟨hsame, hraised⟩ := State.takeAnswer_unchanged (u := s.endExchange e) (e := e) (k := k) (f := f)
    (by simpa using hg.l_le) (by rw [State.endExchange_ident]; exact h)
  exact ⟨(State.settle_lastChange ..).trans (hsame.trans (s.endExchange_lastChange e k)),
    State.answered_raisedTimes hraised (by decide)⟩

/-- A change of identity, its record counting the entries made UNLEARNED (R138, R139). -/
theorem State.answered_changed (hk : k < s.n) {i : BitVec 32} (hold : s.ident k = some i) (hne : i ≠ f.ident) :
    s.RaisedTimes (settle s (s.answered e k f)) .driverChanged 1 ∧
      ∃ c, (settle s (s.answered e k f)).lastChange k = some c ∧ c.previous = i ∧ c.current = f.ident ∧
        c.time = s.time.clock ∧
        (c.action = if s.config.records.tunnel.freeze = true then .kept else .unlearned) ∧
        c.count = if s.config.records.tunnel.freeze = true then 0 else (s.learnedOf k).length := by
  obtain ⟨hrecord, hraised⟩ := State.takeAnswer_changed (u := s.endExchange e) (e := e) (k := k) (f := f)
    (by simpa using hg.l_le) (by rw [State.endExchange_ident]; exact hold) hne
  have hsame : (s.endExchange e).driverChangeRecord k i f.ident = s.driverChangeRecord k i f.ident := by
    rw [State.endExchange_frame]
    rfl
  refine ⟨State.answered_raisedTimes hraised (by decide), _,
    (State.settle_lastChange ..).trans (hrecord.trans (congrArg some hsame)), rfl, rfl, rfl, rfl, ?_⟩
  rw [← State.learnedKeys_length hg.entries_wf hk hg.l_le]
  rfl

/-! ### The heads -/

omit hg in
/-- A head of a station that is CUT resolves to DARK (R72, R74). -/
theorem State.Settled.resolved_cut {t : State} (ht : t.Settled) {h : HeadRef} (hh : t.hasHead h = true)
    (hst : (t.station h.station).state = .cut) : t.resolved h = .dark := by
  have hall : ∀ a, t.availability h a = .failed := fun a => by
    unfold State.availability
    exact if_pos ((t.headUnavailable_iff h).2 (.inr (.inl hst)))
  unfold State.resolved
  rw [ht.headRec hh]
  show resolvedAspect _ (t.availability h) = .dark
  unfold resolvedAspect
  simp only [hall, ne_eq, not_true_eq_false, if_false]
  split <;> rfl

omit hg in
/-- What a kind has been raised at least, it stays raised at the end of the event. -/
theorem settle_raisedAtLeast {a : State} {q : AttnKind} {m : Nat} (hn : a.n = s.n) (hl : a.l = s.l)
    (h : s.RaisedAtLeast a q m) : s.RaisedAtLeast (settle s a) q m := by
  have hengine : s.RaisedAtLeast (settledEngine s a) q m :=
    (EngineMove.failOpenings (List.mem_singleton_self _) a _).raises.keepsAtLeast h
  have htable := (Raises.takeTable (settledEngine s a) s.resolver.heads (settledEngine s a).resolveTable []).keepsAtLeast
    hengine
  rw [← settleHeads_compared hn hl] at htable
  unfold State.RaisedAtLeast at htable ⊢
  rw [settle_attn]
  exact htable

omit hg in
/-- FALSE_OPEN is a CRITICAL kind (R189). -/
theorem alertLevel_falseOpen {a : Attention} (h : hasFlag a.latched .falseOpen = true) : alertLevel a = true := by
  unfold alertLevel
  rw [bne_iff_ne]
  intro hzero
  have hbit := congrArg (fun w : BitVec 22 => w.getLsbD AttnKind.falseOpen.index) hzero
  have hflag : a.latched.getLsbD 7 = true := h
  simp [criticalMask, AttnKind.index] at hbit hflag
  rw [hbit.2] at hflag
  cases hflag

/-- The heads of the other stations keep their displayed aspects and conditions (R104). -/
theorem State.answered_other {h : HeadRef} (hh : s.hasHead h = true) (hk : h.station ≠ k) :
    (settle s (s.answered e k f)).displayed h = s.displayed h ∧ (settle s (s.answered e k f)).proving h = s.proving h := by
  obtain ⟨-, hlane⟩ := (s.hasHead_iff h).1 hh
  have hl := hg.l_le
  obtain ⟨hd, hp⟩ := State.takeAnswer_other (u := s.endExchange e) (e := e) (f := f) (by simpa using hl) hk (by omega)
  rw [settle_heads]
  unfold State.displayed State.proving at *
  rw [settle_resolver]
  rw [State.endExchange_resolver] at hd
  rw [State.endExchange_lamps] at hp
  exact ⟨hd, hp⟩

/-- An answer that cuts no station (R69, R160). -/
theorem State.answered_uncut (hlen : f.records.length = 2 * s.l) (hno : s.cutBy e k f = true → (s.station k).state = .cut) :
    ((settle s (s.answered e k f)).resolver.lampTest = s.resolver.lampTest ∧
        (settle s (s.answered e k f)).resolver.lampLast = s.resolver.lampLast) ∧
      s.RaisedTimes (settle s (s.answered e k f)) .stationCut 0 ∧
      ((s.station k).state = .cut → ∀ h, (settle s (s.answered e k f)).displayed h = s.displayed h) ∧
      ((s.station k).state ≠ .cut → ∀ h, s.hasHead h = true → h.station = k → ∀ r : Sample,
        f.records[2 * h.lane + h.face.code]? = some r →
          (settle s (s.answered e k f)).displayed h = Aspect.ofCode r.shown) := by
  obtain ⟨htest, hlast, hraised, hcut, hshown⟩ := State.takeAnswer_uncut (u := s.endExchange e) (e := e) (k := k) (f := f)
    (by simpa using hg.l_le) (by simpa using hg.stations_wf) (by simpa using hg.displayed_wf) (by simpa using hlen)
    (by rw [State.endExchange_station]; exact hno)
  have hdisplayed : ∀ h, (settle s (s.answered e k f)).displayed h = (s.answered e k f).displayed h := fun h => by
    unfold State.displayed; rw [settle_resolver]
  have hkept : ∀ h, (s.endExchange e).displayed h = s.displayed h := fun h => by
    unfold State.displayed; rw [State.endExchange_resolver]
  rw [State.endExchange_resolver] at htest hlast
  rw [State.endExchange_station] at hcut hshown
  rw [State.endExchange_l] at hshown
  refine ⟨by rw [settle_resolver]; exact ⟨htest, hlast⟩, State.answered_raisedTimes hraised (by decide), fun hst h => ?_,
    fun hst h hh hk r hr => ?_⟩
  · rw [hdisplayed, ← hkept]; exact hcut hst h
  · rw [hdisplayed]; exact hshown hst h hk ((s.hasHead_iff h).1 hh).2 r hr

/-- An answer that cuts its station: its heads show DARK, and a lamp test of the station ends (R69, R100, R160). -/
theorem State.answered_cuts (hc : s.cutBy e k f = true) (hst : (s.station k).state ≠ .cut) :
    (∀ h, s.hasHead h = true → h.station = k → (settle s (s.answered e k f)).displayed h = some .dark) ∧
      (settle s (s.answered e k f)).resolver.lampTest = (s.resolver.stationEnded k).lampTest ∧
      (settle s (s.answered e k f)).resolver.lampLast = (s.resolver.stationEnded k).lampLast ∧
      s.RaisedAtLeast (settle s (s.answered e k f)) .falseOpen 1 ∧
      s.RaisedTimes (settle s (s.answered e k f)) .stationCut 1 ∧ (settle s (s.answered e k f)).attn.alert = true ∧
      ((settle s (s.answered e k f)).falseOpen k).isSome = true := by
  have hlink := s.answered_link e k f
  obtain ⟨hdark, ⟨hrecord, hfound⟩, hraised, htest, hlast⟩ := State.takeAnswer_cuts (u := s.endExchange e) (e := e) (k := k)
    (f := f) (by simpa using hg.l_le) (by simpa using hg.stations_wf) (by simpa using hg.displayed_wf) hc
    (by rw [State.endExchange_station]; exact hst)
  rw [State.endExchange_resolver] at htest hlast
  rw [State.endExchange_l] at hdark
  have hopen : s.RaisedAtLeast (settle s (s.answered e k f)) .falseOpen 1 := by
    refine settle_raisedAtLeast hlink.n hlink.l ?_
    unfold State.RaisedAtLeast at hfound ⊢
    rwa [State.endExchange_attn] at hfound
  refine ⟨fun h hh hk => ?_, by rw [settle_resolver]; exact htest, by rw [settle_resolver]; exact hlast, hopen,
    State.answered_raisedTimes hraised (by decide), ?_, ?_⟩
  · unfold State.displayed
    rw [settle_resolver]
    exact hdark h hk ((s.hasHead_iff h).1 hh).2
  · rw [settle_alert]
    exact alertLevel_falseOpen (hopen.1 le_rfl)
  · unfold State.falseOpen
    rw [settle_lamps]
    exact hrecord

end Answered

/-- Settles O53: the answer's own stages say what becomes of the station, the signatures, the heads and the lamp test, and the
end of the event what becomes of the pollers, the port and the engine. -/
theorem gantryAnswer : Obligations.GantryAnswer := by
  intro s e x sf hg hlive hx hrx hk hlen hr
  have hs := hg.settled hlive
  have hlink := s.answered_link e x.station sf
  obtain ⟨hport, hunreplied, hflags, hengine⟩ := State.answered_rest (e := e) (k := x.station) (f := sf) hs
  obtain ⟨hhunting, htimer⟩ := State.answered_poller (k := x.station) (f := sf) hg hrx
  obtain ⟨b, hrecord, hmark, hsent⟩ := State.answered_record (e := e) (k := x.station) (f := sf) hg
  obtain ⟨hunsaved, hident, hchanges⟩ := State.answered_sigs (e := e) (k := x.station) hg hlen
  have hring := State.answered_ring (s := s) (e := e) (k := x.station) (f := sf)
  have hreprobe := State.answered_noReprobe (e := e) (k := x.station) (f := sf) hg
  have huncut := State.answered_uncut (e := e) (k := x.station) hg hlen
  have hcuts := State.answered_cuts (e := e) (k := x.station) (f := sf) hg
  have hsettled : (settle s (s.answered e x.station sf)).Settled :=
    settle_settled s _ (hlink.strings hg.strings_wf) (State.answered_stations hg)
  have hcut : ((settle s (s.answered e x.station sf)).station x.station).state = .cut ↔
      s.cutBy e x.station sf = true ∨ (s.station x.station).state = .cut := by
    rw [hrecord]; exact StationRec.takenAnd_cut
  obtain ⟨hmiss, hcause, hanswered, hsupply⟩ := StationRec.takenAnd_heard (r := s.station x.station) (e := e)
    (home := homeEnd s.n x.station) (o := sf.supplyOpen) (c := s.cutBy e x.station sf) (b := b)
  obtain ⟨hstcut, honline, hhome, haway, hlost⟩ := StationRec.takenAnd_clauses (r := s.station x.station) (e := e)
    (home := homeEnd s.n x.station) (o := sf.supplyOpen) (c := s.cutBy e x.station sf) (b := b)
  have hpending := StationRec.taken_restorePending (r := s.station x.station) (e := e)
    (home := homeEnd s.n x.station) (o := sf.supplyOpen) (c := s.cutBy e x.station sf)
  have hmarked : ((settle s (s.answered e x.station sf)).station x.station).restorePending = b := by rw [hrecord]; rfl
  rw [← hrecord] at hmiss hcause hanswered hsupply hstcut honline hhome haway hlost
  refine ⟨_, exec_gantryAnswer hg hlive hx hrx hk hlen hr, ?config, ?time, hport, hunreplied, hflags, hengine, hhunting,
    htimer, fun j hj => State.answered_keepsStation hg hj, hmiss, hcause, hanswered, hsupply, hstcut, honline, hhome, haway,
    hlost, ?ring, ?noRing, ?cut, ?uncut, ?pending, ?noPending, hreprobe, hunsaved, hident,
    fun i => State.answered_changed hg hk, State.answered_unchanged hg, hchanges, ?overrides, ?test,
    fun h => State.answered_other hg, fun h hh hst => ⟨?shownCut, ?shownDark, ?shown⟩⟩
  case config => rw [settle_config, hlink.config]
  case time => rw [settle_time, hlink.time]
  case ring => intro hl he; rwa [if_pos ⟨hl, he⟩] at hring
  case noRing => intro hno; rwa [if_neg hno] at hring
  case cut =>
    intro hst ht
    have hc := (hcut.1 ht).resolve_right hst
    obtain ⟨-, -, -, hopen, hraised, halert, hfound⟩ := hcuts hc hst
    refine ⟨hopen, hraised, halert, hfound, ?_⟩
    rw [hmarked, Bool.eq_false_iff]
    intro hb
    rw [hmark hb, hc, bne_iff_ne.2 hst] at hpending
    cases hpending
  case uncut =>
    intro hno
    obtain ⟨-, hraised, -⟩ := huncut fun hc => by_contra fun hst => hno ⟨hst, hcut.2 (.inl hc)⟩
    exact hraised
  case pending =>
    intro ht hor
    have hst : (s.station x.station).state ≠ .cut := fun h => ht (hcut.2 (.inr h))
    have hc : s.cutBy e x.station sf = false := Bool.eq_false_iff.2 fun h => ht (hcut.2 (.inl h))
    rw [hmarked]
    refine hsent ?_
    rw [hpending, hc, bne_iff_ne.2 hst]
    rcases hor with h | h <;> simp [h]
  case noPending =>
    intro hm
    have hp := hpending.symm.trans (hmark (hmarked.symm.trans hm))
    simp only [Bool.and_eq_true, Bool.or_eq_true, bne_iff_ne] at hp
    obtain ⟨-, hor⟩ := hp
    exact hor
  case overrides => rw [settle_resolver]; exact hlink.overrides
  case test =>
    dsimp only
    by_cases hnew : s.cutBy e x.station sf = true ∧ (s.station x.station).state ≠ .cut
    · obtain ⟨hc, hst⟩ := hnew
      obtain ⟨-, htest, hlast, -⟩ := hcuts hc hst
      refine ⟨fun y hy hends => ?_, fun hno => ?_⟩
      · rw [htest, hlast, Resolver.stationEnded_of hy hends.1]
        exact ⟨rfl, rfl⟩
      · rw [htest, hlast, Resolver.stationEnded_stays fun y hy hk' => hno y hy ⟨hk', hst, hcut.2 (.inl hc)⟩]
        exact ⟨rfl, rfl⟩
    · have hno : s.cutBy e x.station sf = true → (s.station x.station).state = .cut := fun hc =>
        by_contra fun hst => hnew ⟨hc, hst⟩
      exact ⟨fun y _ ⟨_, hst, ht⟩ => absurd ((hcut.1 ht).elim hno id) hst, fun _ => (huncut hno).1⟩
  case shownCut =>
    intro hst'
    obtain ⟨-, -, hkept, -⟩ := huncut fun _ => hst'
    exact hkept hst' h
  case shownDark =>
    intro hst' ht
    have hc := (hcut.1 ht).resolve_right hst'
    obtain ⟨hdark, -⟩ := hcuts hc hst'
    refine ⟨hdark h hh hst, hsettled.resolved_cut ?_ (by rw [hst]; exact ht)⟩
    rw [State.hasHead_iff, settle_n, settle_l, hlink.n, hlink.l, ← State.hasHead_iff]
    exact hh
  case shown =>
    intro ht r hrec
    have hst' : (s.station x.station).state ≠ .cut := fun h => ht (hcut.2 (.inr h))
    obtain ⟨-, -, -, hshown⟩ := huncut fun hc => absurd (hcut.2 (.inl hc)) ht
    exact hshown hst' h hh hst r hrec

end Sys2Proof.Machine
end

