-- ==== Sys2Proof/Proofs/PlanExpansion.lean ====
section
/-! PROOFS. Projected states, and the tasks of a plan's expansion: obligation O38 (R50, R60, R62). -/

namespace Sys2Proof.Machine

/-! ### The projected state of a lane (R50) -/

section Projection

variable {s : State} {queue older newer : List Task} {l : Nat} {t : Task}

/-- The tasks of a lane in a queue that holds none. -/
theorem laneTasks_nil (h : ∀ t ∈ queue, t.lane ≠ l) : (queue.filter fun t => t.lane == l) = [] :=
  List.filter_eq_nil_iff.2 fun t ht he => h t ht (beq_iff_eq.1 he)

theorem State.project_none_queued (h : ∀ t ∈ queue, t.lane ≠ l) : s.project queue l = (s.lane l).phase.projected := by
  unfold State.project
  rw [laneTasks_nil h]
  rfl

/-- The newest task of the lane decides (R50, step 2). -/
theorem State.project_newest (hl : t.lane = l) (h : ∀ u ∈ newer, u.lane ≠ l) :
    s.project (older ++ t :: newer) l = t.kind.project := by
  unfold State.project
  have hpass : (t.lane == l) = true := beq_iff_eq.2 hl
  rw [List.filter_append, List.filter_cons, if_pos hpass, laneTasks_nil h, List.foldl_append]
  rfl

end Projection

/-! ### The tasks of a plan (R62) -/

section Expansion

variable {s : State} {o : Origin} {id : Nat}

/-- A lane's projected state once the queued PLAN and SCHEDULE tasks are out of the queue (R62, step 1). -/
def State.planProjection (s : State) (l : Nat) : Option Face := s.project s.unmarked l

/-- A task that the expansion of a plan makes for a lane, entered now (R62). -/
def State.planTask (s : State) (o : Origin) (id l : Nat) (k : TaskKind) : Task :=
  { lane := l, kind := k, origin := o, plan := some id, stamp := s.stamp }

/-- The CLOSE tasks of a plan, in lane order. -/
def State.planCloseTasks (s : State) (o : Origin) (id : Nat) : List Task :=
  (s.laneNumbers.filter fun l => planCloses (s.target id l) (s.planProjection l)).map fun l => s.planTask o id l .close

/-- The OPEN tasks of a plan, in lane order. -/
def State.planOpenTasks (s : State) (o : Origin) (id : Nat) : List Task :=
  s.laneNumbers.filterMap fun l =>
    (planOpens (s.target id l) (s.planProjection l)).map fun d => s.planTask o id l (.opn d)

theorem State.expandPlan_eq : s.expandPlan o id = s.planCloseTasks o id ++ s.planOpenTasks o id := rfl

theorem planCloses_iff (t : Target) (p : Option Face) :
    planCloses t p = true ↔ ∃ e, p = some e ∧ (t = .shut ∨ ∃ d, t = .dir d ∧ d ≠ e) := by
  cases t with
  | keep => cases p <;> simp [planCloses]
  | shut => cases p <;> simp [planCloses]
  | dir d => cases p <;> simp [planCloses]

theorem planOpens_iff (t : Target) (p : Option Face) (d : Face) : planOpens t p = some d ↔ t = .dir d ∧ p ≠ some d := by
  cases t with
  | keep => simp [planOpens]
  | shut => simp [planOpens]
  | dir e =>
    rw [Target.dir.injEq, show planOpens (.dir e) p = if p = some e then none else some e from rfl]
    split
    · rename_i h
      refine ⟨fun he => (by cases he), fun he => absurd h (he.1 ▸ he.2)⟩
    · rename_i h
      rw [Option.some.injEq]
      exact ⟨fun he => ⟨he, he ▸ h⟩, fun he => he.1⟩

/-- A task is the one that a plan makes of its lane and kind. -/
theorem planTask_iff (t : Task) : t = s.planTask o id t.lane t.kind ↔ t.origin = o ∧ t.plan = some id ∧ t.stamp = s.stamp := by
  obtain ⟨l, k, o', p, x⟩ := t
  simp [State.planTask]

theorem mem_planCloseTasks (t : Task) : t ∈ s.planCloseTasks o id ↔
    t.lane < s.l ∧ t = s.planTask o id t.lane t.kind ∧ t.kind = .close ∧
      planCloses (s.target id t.lane) (s.planProjection t.lane) = true := by
  simp only [State.planCloseTasks, State.laneNumbers, List.mem_map, List.mem_filter, List.mem_range]
  constructor
  · rintro ⟨l, ⟨hl, hc⟩, rfl⟩
    exact ⟨hl, rfl, rfl, hc⟩
  · rintro ⟨hl, ht, hk, hc⟩
    exact ⟨t.lane, ⟨hl, hc⟩, by rw [← hk]; exact ht.symm⟩

theorem mem_planOpenTasks (t : Task) : t ∈ s.planOpenTasks o id ↔
    t.lane < s.l ∧ t = s.planTask o id t.lane t.kind ∧
      ∃ d, t.kind = .opn d ∧ planOpens (s.target id t.lane) (s.planProjection t.lane) = some d := by
  simp only [State.planOpenTasks, State.laneNumbers, List.mem_filterMap, List.mem_range, Option.map_eq_some_iff]
  constructor
  · rintro ⟨l, hl, d, hd, rfl⟩
    exact ⟨hl, rfl, d, rfl, hd⟩
  · rintro ⟨hl, ht, d, hk, hd⟩
    exact ⟨t.lane, hl, d, hd, by rw [← hk]; exact ht.symm⟩

/-- Two tasks of a plan stand in its order: a CLOSE before an OPEN, and tasks of one kind in lane order (R62). -/
def planOrder (t u : Task) : Prop :=
  (t.kind.isOpen = u.kind.isOpen ∧ t.lane < u.lane) ∨ (t.kind.isOpen = false ∧ u.kind.isOpen = true)

/-- Tasks made of lanes in lane order, all of one kind, are in order. -/
theorem planOrder_filterMap {f : Nat → Option Task} {b : Bool} (hf : ∀ l t, f l = some t → t.lane = l ∧ t.kind.isOpen = b)
    (n : Nat) : ((List.range n).filterMap f).Pairwise planOrder := by
  refine List.Pairwise.filterMap f (R := (· < ·)) (fun l m hlm t ht u hu => .inl ?_) List.pairwise_lt_range
  obtain ⟨htl, htk⟩ := hf l t ht
  obtain ⟨hul, huk⟩ := hf m u hu
  exact ⟨htk.trans huk.symm, by omega⟩

theorem expandPlan_ordered (s : State) (o : Origin) (id : Nat) : (s.expandPlan o id).Pairwise planOrder := by
  have hcloses : (s.planCloseTasks o id).Pairwise planOrder := by
    refine List.pairwise_map.2 (List.Pairwise.filter _ (List.pairwise_lt_range.imp fun hlm => .inl ⟨rfl, hlm⟩))
  have hopens : (s.planOpenTasks o id).Pairwise planOrder := by
    refine planOrder_filterMap (b := true) (fun l t ht => ?_) _
    obtain ⟨d, -, rfl⟩ := Option.map_eq_some_iff.1 ht
    exact ⟨rfl, rfl⟩
  refine List.pairwise_append.2 ⟨hcloses, hopens, fun t ht u hu => .inr ?_⟩
  obtain ⟨-, -, hk, -⟩ := (mem_planCloseTasks t).1 ht
  obtain ⟨-, -, d, hd, -⟩ := (mem_planOpenTasks u).1 hu
  rw [hk, hd]
  exact ⟨rfl, rfl⟩

end Expansion

/-- Settles O38. -/
theorem planExpansion : Obligations.PlanExpansion := by
  refine ⟨fun s queue l => ⟨fun h => ?_, ?_⟩, fun s o id => ⟨fun t => ?_, expandPlan_ordered s o id⟩⟩
  · rw [State.project_none_queued h]
    cases (s.lane l).phase <;> rfl
  · rintro older t newer rfl hl h
    rw [State.project_newest hl h]
    cases t.kind <;> rfl
  · rw [State.expandPlan_eq, List.mem_append, mem_planCloseTasks, mem_planOpenTasks, planTask_iff, planCloses_iff]
    simp only [planOpens_iff]
    constructor
    · rintro (⟨hl, ⟨ho, hp, hx⟩, hk, hc⟩ | ⟨hl, ⟨ho, hp, hx⟩, hd⟩)
      · exact ⟨hl, ho, hp, hx, .inl ⟨hk, hc⟩⟩
      · exact ⟨hl, ho, hp, hx, .inr hd⟩
    · rintro ⟨hl, ho, hp, hx, ⟨hk, hc⟩ | hd⟩
      · exact .inl ⟨hl, ⟨ho, hp, hx⟩, hk, hc⟩
      · exact .inr ⟨hl, ⟨ho, hp, hx⟩, hd⟩

end Sys2Proof.Machine
end

