-- ==== Sys2Proof/Proofs/LaneQueueing.lean ====
section
/-! PROOFS. The tasks of the lane commands that join the queue, and CANCEL-TASK: obligations O32 and O37 (R48 to R56). -/

namespace Sys2Proof.Machine

/-! ### Adding tasks (R49, R51) -/

section Queueing

variable {s : State} {l : Nat} {lane : Octet} {ts : List Task}

/-- The queue holds a task of the lane and kind of one of these (R49). -/
def State.holdsOne (s : State) (ts : List Task) : Prop :=
  ∃ t ∈ ts, ∃ u ∈ s.engine.queue, u.lane = t.lane ∧ u.kind.same t.kind = true

theorem State.holdsOne_iff : s.holdsOne ts ↔ ts.any (holdsTask s.engine.queue) = true := by
  simp only [State.holdsOne, holdsTask, List.any_eq_true, Bool.and_eq_true, beq_iff_eq]

theorem State.addTasks_duplicate (h : s.holdsOne ts) : s.addTasks l ts = refuse s 24 l 0 := by
  unfold State.addTasks
  exact if_pos (State.holdsOne_iff.1 h)

theorem State.addTasks_full (h : ¬s.holdsOne ts) (hf : 8 < s.engine.queue.length + ts.length) :
    s.addTasks l ts = refuse s 25 s.engine.queue.length ts.length := by
  unfold State.addTasks
  rw [if_neg fun hd => h (State.holdsOne_iff.2 hd)]
  exact if_pos hf

theorem State.addTasks_fits (h : ¬s.holdsOne ts) (hf : s.engine.queue.length + ts.length ≤ 8) :
    s.addTasks l ts = acceptedWith (s.setQueue (s.engine.queue ++ ts)).scan
      [octet ts.length, octet (s.engine.queue.length + ts.length)] := by
  unfold State.addTasks
  rw [if_neg fun hd => h (State.holdsOne_iff.2 hd), if_neg (show ¬Config.queuePlaces < _ from Nat.not_lt.2 hf)]
  show acceptedWith _ (o1 _ ++ o1 (s.engine.queue ++ ts).length) = _
  rw [List.length_append]
  rfl

/-- A command whose own checks end with adding tasks (R51): they join the queue and the scan runs, or they are DUPLICATE or
QUEUE_FULL. -/
theorem queues_of {row : Octet → List Octet → Instr} {kind len : Nat} {act : State → List Octet → CmdResult}
    {b : List Octet} (hrow : ∀ tag, exec (row tag b) s = runCommand kind len .runOnly act tag b s) (hlen : b.length = len)
    (hm : s.config.mode = .run) (hact : act s b = s.addTasks lane.toNat ts) :
    ((∀ t ∈ ts, ∀ u ∈ s.engine.queue, ¬(u.lane = t.lane ∧ u.kind.same t.kind = true)) →
      s.engine.queue.length + ts.length ≤ 8 →
      (let reply := [octet ts.length, octet (s.engine.queue.length + ts.length)]
       (s.sweepFree = false → ∀ tag, s.takes (commandFrame kind tag b) →
        exec (row tag b) s =
          ({ s with engine.queue := s.engine.queue ++ ts } : State).replies (commandFrame kind tag b) 2 reply) ∧
       s.performs row kind b 2 reply fun t =>
        s.EngineEvent t [.taskUnsuccessful] ∧
          t.engine = (({ s with engine.queue := s.engine.queue ++ ts } : State).scan).engine)) ∧
    ((∃ t ∈ ts, ∃ u ∈ s.engine.queue, u.lane = t.lane ∧ u.kind.same t.kind = true) →
      s.answers row kind b 24 [lane, 0]) ∧
    ((∀ t ∈ ts, ∀ u ∈ s.engine.queue, ¬(u.lane = t.lane ∧ u.kind.same t.kind = true)) →
      8 < s.engine.queue.length + ts.length →
      s.answers row kind b 25 [octet s.engine.queue.length, octet ts.length]) := by
  have hnone : (∀ t ∈ ts, ∀ u ∈ s.engine.queue, ¬(u.lane = t.lane ∧ u.kind.same t.kind = true)) → ¬s.holdsOne ts :=
    fun h ⟨t, ht, u, hu, hsame⟩ => h t ht u hu hsame
  have haccept := runOnly_accept hm
  refine ⟨fun h hf => ?_, fun h => ?_, fun h hf => ?_⟩
  · have hfits := hact.trans (State.addTasks_fits (hnone h) hf)
    refine ⟨fun hheld tag ht => ?_, ?_⟩
    · have hsame := SameSweeps.setQueue s (s.engine.queue ++ ts)
      rw [State.scan_held _ (hsame.sweepFree.trans hheld)] at hfits
      exact (hrow tag).trans (runCommand_of_quiet ht hlen haccept hfits (.of_same rfl rfl rfl rfl rfl rfl rfl rfl))
    · exact ((EngineMove.setQueue s _).trans (.scan (by simp) _)).performs hrow hlen hm rfl hfits (by decide) (by decide)
        fun _ t ht => ⟨ht.event, ht.engine⟩
  · have hans := answers_refused hrow hlen haccept (hact.trans (State.addTasks_duplicate h))
    rwa [octet_toNat] at hans
  · exact answers_refused hrow hlen haccept (hact.trans (State.addTasks_full (hnone h) hf))

end Queueing

/-- Settles O32. -/
theorem laneTasksQueued : Obligations.LaneTasksQueued := by
  intro s lane dir hm hl
  refine ⟨fun e he => ?_, fun he hdir hb => ?_, fun e he hb => ?_⟩
  · exact queues_of (fun _ => rfl) rfl hm (actCloseLane_run hl he)
  · rw [← faceOf_eq hdir] at hb ⊢
    exact queues_of (fun _ => rfl) rfl hm (actOpenLane_shut hl hdir hb he)
  · exact queues_of (fun _ => rfl) rfl hm (actReverseLane_run hl hb he)

/-! ### Tasks of one lane and kind (R48, R49) -/

/-- Two tasks differ in lane or kind (R49). -/
def Task.Apart (t u : Task) : Prop := ¬(t.lane = u.lane ∧ t.kind.same u.kind = true)

theorem TaskKind.same_iff_isOpen (k m : TaskKind) : k.same m = true ↔ k.isOpen = m.isOpen := by
  cases k <;> cases m <;> simp [TaskKind.same, TaskKind.isOpen]

/-! ### CANCEL-TASK (R55) -/

/-- A command that its mode does not accept is answered WRONG_MODE (R196, R198). -/
theorem answers_wrongMode {s : State} {row : Octet → List Octet → Instr} {kind len : Nat} {modes : Modes}
    {act : State → List Octet → CmdResult} {b : List Octet}
    (hrow : ∀ tag, exec (row tag b) s = runCommand kind len modes act tag b s) (hlen : b.length = len)
    (hm : modes.accept s.config.mode = false) : s.answers row kind b 19 [octet s.config.mode.code, 0] := by
  intro tag ht
  have hact : checked len modes act s b = refuse s 19 s.config.mode.code 0 := by
    unfold checked
    rw [if_neg (not_not.2 hlen), hm]
    rfl
  have hrun : runCommand kind len modes act tag b s = runCommand kind len .both (checked len modes act) tag b s := by
    unfold runCommand checked
    simp only [hlen, ne_eq, not_true_eq_false, if_false, Modes.accept, Bool.not_true, Bool.false_eq_true]
  rw [hrow, hrun]
  exact runCommand_replies ht hlen rfl hact

section Cancel

variable {s : State} {lane kind : Octet} {t : Task} {older newer : List Task}

theorem isNamed_iff (hk : kind.toNat < 2) (t : Task) : Task.isNamed lane.toNat kind.toNat t = true ↔
    t.lane = lane.toNat ∧ t.kind.isOpen = (kind.toNat == 1) := by
  unfold Task.isNamed
  rw [Bool.and_eq_true, beq_iff_eq, beq_iff_eq]
  refine and_congr_right fun _ => ?_
  have h : kind.toNat = 0 ∨ kind.toNat = 1 := by omega
  rcases h with h | h <;> rw [h] <;> cases t.kind <;> simp [TaskKind.code, TaskKind.isOpen]

theorem cancelFields (hl : lane.toNat < s.l) (hk : kind.toNat < 2) :
    firstBad [(s.okLane lane.toNat, 0), (okBit kind.toNat, 1)] = none := openLaneFields hl hk

theorem actCancelTask_absent (hl : lane.toNat < s.l) (hk : kind.toNat < 2)
    (h : ∀ t ∈ s.engine.queue, ¬Task.isNamed lane.toNat kind.toNat t = true) :
    actCancelTask s [lane, kind] = refuse s 22 0 0 := by
  simp only [actCancelTask, oct_cons_zero, oct_cons_succ, withFields_good (cancelFields hl hk)]
  exact if_neg fun ha => by
    obtain ⟨t, ht, hn⟩ := List.any_eq_true.1 ha
    exact h t ht hn

theorem actCancelTask_present (hl : lane.toNat < s.l) (hk : kind.toNat < 2) (ht : t ∈ s.engine.queue)
    (hn : Task.isNamed lane.toNat kind.toNat t = true) :
    actCancelTask s [lane, kind] = okWith (s.removeQueued (Task.isNamed lane.toNat kind.toNat) .cancelled).scan [] := by
  simp only [actCancelTask, oct_cons_zero, oct_cons_succ, withFields_good (cancelFields hl hk)]
  exact if_pos (List.any_eq_true.2 ⟨t, ht, hn⟩)

/-- No other queued task has the lane and kind of one (R49). -/
theorem named_unique (hk : kind.toNat < 2)
    (hu : s.engine.queue.Pairwise Task.Apart)
    (hq : s.engine.queue = older ++ t :: newer) (hn : Task.isNamed lane.toNat kind.toNat t = true) :
    ∀ u ∈ older ++ newer, ¬Task.isNamed lane.toNat kind.toNat u = true := by
  obtain ⟨htl, htk⟩ := (isNamed_iff hk t).1 hn
  rw [hq, List.pairwise_append, List.pairwise_cons] at hu
  obtain ⟨-, ⟨hafter, -⟩, hbefore⟩ := hu
  intro u hm hn'
  obtain ⟨hul, huk⟩ := (isNamed_iff hk u).1 hn'
  rcases List.mem_append.1 hm with hm | hm
  · exact hbefore u hm t (List.mem_cons_self ..) ⟨hul.trans htl.symm, (TaskKind.same_iff_isOpen _ _).2 (huk.trans htk.symm)⟩
  · exact hafter u hm ⟨htl.trans hul.symm, (TaskKind.same_iff_isOpen _ _).2 (htk.trans huk.symm)⟩

/-- A test that one task of a queue alone passes. -/
theorem filter_only {p : Task → Bool} (ht : p t = true) (h : ∀ u ∈ older ++ newer, ¬p u = true) :
    (older ++ t :: newer).filter p = [t] ∧ (older ++ t :: newer).filter (fun u => !p u) = older ++ newer := by
  have hnone : ∀ us : List Task, (∀ u ∈ us, u ∈ older ++ newer) → us.filter p = [] ∧ us.filter (fun u => !p u) = us :=
    fun us hus => ⟨List.filter_eq_nil_iff.2 fun u hu => h u (hus u hu),
      List.filter_eq_self.2 fun u hu => by simpa using h u (hus u hu)⟩
  obtain ⟨hold, hold'⟩ := hnone older fun u hu => List.mem_append_left _ hu
  obtain ⟨hnew, hnew'⟩ := hnone newer fun u hu => List.mem_append_right _ hu
  constructor
  · rw [List.filter_append, List.filter_cons, if_pos ht, hold, hnew]
    rfl
  · rw [List.filter_append, List.filter_cons, if_neg (by rw [ht]; exact Bool.false_ne_true), hold', hnew']

/-- One task leaves the queue, its last outcome written and TASK_UNSUCCESSFUL raised (R44). -/
theorem removeQueued_only {p : Task → Bool} (hq : s.engine.queue = older ++ t :: newer) (ht : p t = true)
    (h : ∀ u ∈ older ++ newer, ¬p u = true) :
    s.removeQueued p .cancelled = (s.setQueue (older ++ newer)).endTask t .cancelled none := by
  obtain ⟨hyes, hno⟩ := filter_only ht h
  rw [State.removeQueued_eq, hq, hyes, hno]
  rfl

/-- The scan reads nothing of the flags that a raising sets (R57, R189). -/
theorem scan_raise_engine (v : State) (k : AttnKind) : (v.raise k).scan.engine = v.scan.engine :=
  SameLanes.scan ⟨(raise_step v k).sameReads, rfl, rfl⟩ rfl

/-- The task that the command names ends CANCELLED, and the scan runs. -/
theorem performs_cancelTask (hm : s.config.mode = .run) (hl : lane.toNat < s.l) (hk : kind.toNat < 2)
    (hq : s.engine.queue = older ++ t :: newer) (hn : Task.isNamed lane.toNat kind.toNat t = true) :
    s.performs .cancelTask 23 [lane, kind] 0 [] fun u =>
      s.EngineEvent u [.taskUnsuccessful] ∧ s.RaisedAtLeast u .taskUnsuccessful 1 ∧
      u.engine =
        ((({ s with engine.queue := older ++ newer } : State).setLane t.lane
          { s.lane t.lane with last := some (s.outcomeOf t .cancelled none) }).scan).engine := by
  have hmem : t ∈ s.engine.queue := by rw [hq]; simp
  refine ((EngineMove.removeQueued s _ _ (by decide) (by simp)).trans (.scan (by simp) _)).performs (fun _ => rfl) rfl hm rfl
    (actCancelTask_present hl hk hmem hn) (kinds := [.taskUnsuccessful]) (by decide) (by decide) fun hg u hout => ?_
  have honly := removeQueued_only hq hn (named_unique hk hg.capacity.tasks hq hn)
  refine ⟨hout.event, hout.atLeast_scan rfl ?_, ?_⟩
  · rw [honly]
    exact endTask_raisedTimes (s.setQueue (older ++ newer)) t .cancelled none
  · rw [hout.engine, honly]
    exact scan_raise_engine _ _

end Cancel

/-- Settles O37. -/
theorem cancelTask : Obligations.CancelTask := by
  intro s lane kind
  refine ⟨fun hm => ?_, fun hm hl => ?_, fun hm hl => ⟨fun hk => ?_, fun hk hno => ?_, fun hk t older newer hq hn => ?_⟩⟩
  · have hans := answers_wrongMode (s := s) (row := .cancelTask) (b := [lane, kind]) (act := actCancelTask)
      (modes := .runOnly) (len := 2) (fun _ => rfl) rfl (by rw [hm]; rfl)
    rwa [hm] at hans
  · refine answers_badField (len := 2) (act := actCancelTask) (fun _ => rfl) rfl (runOnly_accept hm) rfl ?_
    rw [oct_cons_zero, firstBad_cons, if_neg (by rw [State.okLane_iff]; omega)]
  · refine answers_badField (len := 2) (act := actCancelTask) (fun _ => rfl) rfl (runOnly_accept hm) rfl ?_
    rw [oct_cons_zero, firstBad_cons, if_pos ((s.okLane_iff _).2 hl), firstBad_cons]
    exact if_neg (by rw [oct_cons_succ, oct_cons_zero, okBit_iff]; omega)
  · exact answers_refused (fun _ => rfl) rfl (runOnly_accept hm)
      (actCancelTask_absent hl hk fun t ht hn => hno t ht ((isNamed_iff hk t).1 hn))
  · exact performs_cancelTask hm hl hk hq ((isNamed_iff hk t).2 hn)

end Sys2Proof.Machine
end

