-- ==== Sys2Proof/Proofs/RecordTables.lean ====
section
/-! PROOFS. The tables of the displayed aspects, the Lamp Proving Unit, the Signature Table and the gantry link stay canonical
under every operation of those blocks (O9). -/

namespace Sys2Proof.Machine

/-- The tables of displayed aspects, lamp records, signature records and stations are in their canonical form. -/
structure State.RecordTables (s : State) : Prop where
  displayed : Tab.wf none s.resolver.displayed = true
  strings : Tab.wf StringRec.reset s.lamps.strings = true
  heads : Tab.wf HeadProving.reset s.lamps.heads = true
  falseOpen : Tab.wf none s.lamps.falseOpen = true
  entries : Tab.wf .unlearned s.sigs.entries = true
  idents : Tab.wf none s.sigs.idents = true
  changes : Tab.wf none s.sigs.changes = true
  stations : Tab.wf (StationRec.reset .west) s.link.stations = true

namespace State.RecordTables

variable {s t : State}

theorem congr (h : s.RecordTables) (hd : t.resolver.displayed = s.resolver.displayed) (hl : t.lamps = s.lamps)
    (hs : t.sigs = s.sigs) (hk : t.link.stations = s.link.stations) : t.RecordTables :=
  ⟨hd ▸ h.displayed, hl ▸ h.strings, hl ▸ h.heads, hl ▸ h.falseOpen, hs ▸ h.entries, hs ▸ h.idents, hs ▸ h.changes,
    hk ▸ h.stations⟩

/-- What keeps the tables in every state, keeps them over a list. -/
theorem foldl {α : Type} {f : State → α → State} (hf : ∀ u x, u.RecordTables → (f u x).RecordTables) (xs : List α)
    (h : s.RecordTables) : (xs.foldl f s).RecordTables := by
  induction xs generalizing s with
  | nil => exact h
  | cons x xs ih => exact ih (hf s x h)

/-! ### Single writes -/

theorem setString (h : s.RecordTables) (i : Nat) (r : StringRec) : (s.setString i r).RecordTables :=
  { h with strings := Tab.wf_set h.strings }
theorem mapStrings (h : s.RecordTables) (p : Nat → Bool) (f : StringRec → StringRec) : (s.mapStrings p f).RecordTables :=
  { h with strings := Tab.wf_mapWhere p f h.strings }
theorem emptyAccs (h : s.RecordTables) (p : Nat → Bool) : (s.emptyAccs p).RecordTables := h.mapStrings p _
theorem emptyHead (h : s.RecordTables) (x : HeadRef) : (s.emptyHead x).RecordTables := h.emptyAccs _
theorem setProving (h : s.RecordTables) (x : HeadRef) (r : HeadProving) : (s.setProving x r).RecordTables :=
  { h with heads := Tab.wf_set h.heads }
theorem mapProving (h : s.RecordTables) (p : Nat → Bool) (f : HeadProving → HeadProving) :
    (s.mapProving p f).RecordTables := { h with heads := Tab.wf_mapWhere p f h.heads }
theorem setFalseOpen (h : s.RecordTables) (k : Nat) (f : Option FalseOpen) :
    ({ s with lamps.falseOpen := Tab.set none s.lamps.falseOpen k f } : State).RecordTables :=
  { h with falseOpen := Tab.wf_set h.falseOpen }
theorem setDisplayed (h : s.RecordTables) (x : HeadRef) (a : Option Aspect) : (s.setDisplayed x a).RecordTables :=
  { h with displayed := Tab.wf_set h.displayed }
theorem setEntry (h : s.RecordTables) (i : Nat) (e : SigEntry) : (s.setEntry i e).RecordTables :=
  { h with entries := Tab.wf_set h.entries }
theorem setIdent (h : s.RecordTables) (k : Nat) (i : Option (BitVec 32)) : (s.setIdent k i).RecordTables :=
  { h with idents := Tab.wf_set h.idents }
theorem setUnsaved (h : s.RecordTables) : s.setUnsaved.RecordTables := { h with }
theorem setStation (h : s.RecordTables) (k : Nat) (r : StationRec) : (s.setStation k r).RecordTables :=
  { h with stations := Tab.wf_set h.stations }
theorem setPoller (h : s.RecordTables) (e : LinkEnd) (p : Poller) : (s.setPoller e p).RecordTables := by
  cases e <;> exact { h with }
theorem raise (h : s.RecordTables) (k : AttnKind) : (s.raise k).RecordTables := { h with }
theorem raiseIf (h : s.RecordTables) (c : Bool) (k : AttnKind) : (s.raiseIf c k).RecordTables := by
  cases c
  · exact h
  · exact h.raise k

/-! ### Lamp records and signatures -/

theorem quietStation (h : s.RecordTables) (k : Nat) : (s.quietStation k).RecordTables :=
  (h.emptyAccs _).mapProving _ _
theorem returnStrings (h : s.RecordTables) (k : Nat) : (s.returnStrings k).RecordTables := h.mapStrings _ _
theorem clearLamps (h : s.RecordTables) (p : Nat → Bool) : (s.clearLamps p).RecordTables :=
  (h.mapStrings _ _).mapProving _ _
theorem setStationDisplayed (h : s.RecordTables) (k : Nat) (a : Option Aspect) : (s.setStationDisplayed k a).RecordTables :=
  h.foldl (fun _ x hu => hu.setDisplayed x a) _
theorem takeDisplayed (h : s.RecordTables) (rs : List (HeadRef × Sample)) : (s.takeDisplayed rs).RecordTables :=
  h.foldl (fun _ p hu => hu.setDisplayed p.1 _) rs
theorem changeClass (h : s.RecordTables) (i : Nat) (e : SigEntry) : (s.changeClass i e).RecordTables :=
  (h.setEntry i e).emptyAccs _

theorem unlearnStation (h : s.RecordTables) (k : Nat) : (s.unlearnStation k).RecordTables :=
  emptyAccs (s := { s with sigs.entries := (s.unlearnStation k).sigs.entries })
    { h with entries := Tab.wf_setAll _ h.entries } _

theorem reject (h : s.RecordTables) (j : Option Rejection) :
    (({ s with sigs.rejection := j } : State).raise .learnRejected).RecordTables := { h with }

theorem takeResult (h : s.RecordTables) (r : StringRef) (v : Verdict) (avg duty : Nat) :
    (s.takeResult r v avg duty).RecordTables := by
  unfold State.takeResult
  split
  · exact h
  · split
    case h_1 => split; exacts [(h.changeClass _ _).setUnsaved, h]
    case h_2 => dsimp only; split; exacts [h, (h.setEntry _ _).setUnsaved]
    case h_3 => split; exacts [h.reject _, h]
    case h_4 => split; exacts [h.reject _, h]
    case h_5 => exact h

theorem handOver (h : s.RecordTables) (r : StringRef) (st : StringState) (res : LastResult) (duty : Nat) :
    (s.handOver r st res duty).RecordTables := by
  unfold State.handOver
  split
  · exact h
  · split
    case h_1 => exact h.takeResult _ _ _ _
    case h_2 => exact h.takeResult _ _ _ _
    case h_3 => exact h.takeResult _ _ _ _
    all_goals exact h

/-! ### Samples -/

theorem prove (h : s.RecordTables) (r : StringRef) (a : Acc) (d : Nat) : (s.prove r a d).RecordTables :=
  ((h.setString _ _).raiseIf _ _).handOver _ _ _ _

theorem addSample (h : s.RecordTables) (r : StringRef) (x d : Nat) : (s.addSample r x d).RecordTables := by
  unfold State.addSample
  dsimp only
  split
  · exact h.prove _ _ _
  · exact h.setString _ _

theorem accumulate (h : s.RecordTables) (x : HeadRef) (a : Aspect) (r : Sample) (d : Nat) :
    (s.accumulate x a r d).RecordTables := by
  unfold State.accumulate
  split
  case h_1 => exact h
  case h_2 => split <;> exact h.addSample _ _ _
  all_goals exact (h.addSample _ _ _).addSample _ _ _

theorem enterCondition (h : s.RecordTables) (x : HeadRef) (c : HeadCondition) : (s.enterCondition x c).RecordTables := by
  unfold State.enterCondition
  split
  · exact (h.setProving _ _).raise _
  · exact h

theorem detectFalseOpen (h : s.RecordTables) (x : HeadRef) (c : FalseOpenCause) : (s.detectFalseOpen x c).RecordTables := by
  unfold State.detectFalseOpen
  dsimp only
  split
  · exact h.raise _
  · exact (h.raise _).setFalseOpen _ _

theorem acceptLit (h : s.RecordTables) (x : HeadRef) (a : Aspect) (d : Option Nat) (r : Sample) :
    (s.acceptLit x a d r).1.RecordTables := by
  unfold State.acceptLit
  dsimp only
  split
  · split
    · exact h.setProving _ _
    · split
      · exact (h.setProving _ _).accumulate _ _ _ _
      · exact (h.setProving _ _).emptyHead _
  · split
    · exact (h.emptyHead _).setProving _ _
    · split
      · exact ((h.emptyHead _).setProving _ _).detectFalseOpen _ _
      · exact ((h.emptyHead _).setProving _ _).enterCondition _ _

theorem checkOpenLeak (h : s.RecordTables) (x : HeadRef) (a : Aspect) (r : Sample) :
    (s.checkOpenLeak x a r).1.RecordTables := by
  unfold State.checkOpenLeak
  dsimp only
  split
  · split
    · exact h.setProving _ _
    · exact (h.setProving _ _).detectFalseOpen _ _
  · exact h.setProving _ _

theorem checkOtherLeak (h : s.RecordTables) (x : HeadRef) (r : Sample) : (s.checkOtherLeak x r).RecordTables := by
  unfold State.checkOtherLeak
  dsimp only
  split
  · split
    · exact h.setProving _ _
    · exact (h.setProving _ _).enterCondition _ _
  · exact h.setProving _ _

theorem acceptSample (h : s.RecordTables) (x : HeadRef) (a : Aspect) (cut : Bool) (d : Option Nat) (r : Sample) :
    (s.acceptSample x a cut d r).1.RecordTables := by
  have hlit : (if cut then (s, false) else s.acceptLit x a d r).1.RecordTables := by
    cases cut
    · exact h.acceptLit x a d r
    · exact h
  exact (hlit.checkOpenLeak x a r).checkOtherLeak x r

theorem acceptFrame (h : s.RecordTables) (a : HeadRef → Aspect) (cut : Bool) (d : Option Nat)
    (rs : List (HeadRef × Sample)) : (s.acceptFrame a cut d rs).1.RecordTables := by
  induction rs generalizing s with
  | nil => exact h
  | cons p rs ih => exact ih (h.acceptSample p.1 (a p.1) cut d p.2)

/-! ### Driver identities -/

theorem driverChange (h : s.RecordTables) (k : Nat) (i j : BitVec 32) : (s.driverChange k i j).RecordTables := by
  have hrecord : ∀ {u : State} (c : Option LastChange), u.RecordTables →
      (({ u with sigs.changes := Tab.set none u.sigs.changes k c } : State).setUnsaved.raise .driverChanged).RecordTables :=
    fun c hu => { hu with changes := Tab.wf_set hu.changes }
  have hclass : (if s.config.records.tunnel.freeze = true then s else s.unlearnStation k).RecordTables := by
    split
    · exact h
    · exact h.unlearnStation k
  exact hrecord _ (hclass.setIdent k (some j))

theorem takeIdent (h : s.RecordTables) (k : Nat) (i : BitVec 32) : (s.takeIdent k i).RecordTables := by
  unfold State.takeIdent
  split
  · exact (h.setIdent _ _).setUnsaved
  · split
    · exact h
    · exact h.driverChange _ _ _

/-! ### Stations and pollers -/

theorem dropReprobe (h : s.RecordTables) (k : Nat) : (s.dropReprobe k).RecordTables := { h with }
theorem dropPoll (h : s.RecordTables) (k : Nat) : (s.dropPoll k).RecordTables := { h with }

theorem endLampTest (h : s.RecordTables) (c : LampEndCause) : (s.endLampTest c).RecordTables := by
  unfold State.endLampTest
  split
  · exact h
  · exact { h with }

theorem endLampTestAt (h : s.RecordTables) (k : Nat) : (s.endLampTestAt k).RecordTables := by
  unfold State.endLampTestAt
  split
  · exact h
  · split
    · exact h.endLampTest _
    · exact h

theorem stationGone (h : s.RecordTables) (k : Nat) (a : Option Aspect) : (s.stationGone k a).RecordTables :=
  ((h.setStationDisplayed k a).quietStation k).endLampTestAt k

theorem loseStation (h : s.RecordTables) (k : Nat) (r : StationRec) : (s.loseStation k r).RecordTables :=
  (((h.setStation _ _).dropReprobe k).raise _).stationGone k none

theorem miss (h : s.RecordTables) (e : LinkEnd) (x : Exchange) (c : MissCause) : (s.miss e x c).RecordTables := by
  have hset : ∀ r, (s.setStation x.station r).RecordTables := fun r => h.setStation x.station r
  unfold State.miss
  dsimp only
  split
  case h_1 => split <;> exact hset _
  case h_2 => split; exacts [(hset _).raise _, hset _]
  case h_3 =>
    split
    · exact h.loseStation _ _
    · split <;> exact hset _
  case h_4 => split <;> exact hset _

theorem returnStation (h : s.RecordTables) (e : LinkEnd) (k : Nat) (r : StationRec) :
    (s.returnStation e k r).RecordTables := by
  have hdrop : (if e = r.current then s else s.dropPoll k).RecordTables := by
    split
    · exact h
    · exact h.dropPoll k
  unfold State.returnStation
  dsimp only
  split
  · exact (hdrop.setStation _ _).returnStrings k
  · exact ((hdrop.setStation _ _).raise _).returnStrings k

theorem answerStation (h : s.RecordTables) (e : LinkEnd) (k : Nat) : (s.answerStation e k).RecordTables := by
  unfold State.answerStation
  dsimp only
  split
  case h_1 => exact h.returnStation _ _ _
  case h_2 => split; exacts [((h.setStation _ _).dropReprobe k).dropPoll k, h.setStation _ _]
  all_goals exact h.setStation _ _

theorem cutStation (h : s.RecordTables) (k : Nat) : (s.cutStation k).RecordTables := by
  have hcut : ∀ r, ((((s.setStation k r).dropReprobe k).raise .stationCut).stationGone k (some .dark)).RecordTables :=
    fun r => (((h.setStation k r).dropReprobe k).raise _).stationGone k _
  unfold State.cutStation
  dsimp only
  split
  · exact h
  · exact hcut _
  · exact hcut _
  · exact h

theorem takeSamples (h : s.RecordTables) (k : Nat) (f : SampleFrame) : (s.takeSamples k f).RecordTables := by
  have hcut : ∀ p : State × Bool, p.1.RecordTables → (if p.2 = true then p.1.cutStation k else p.1).RecordTables := by
    intro p hp
    split
    · exact hp.cutStation k
    · exact hp
  refine hcut _ (acceptFrame ?_ _ _ _ _)
  split
  · exact h
  · exact h.takeDisplayed _

theorem takeAnswer (h : s.RecordTables) (e : LinkEnd) (k : Nat) (f : SampleFrame) : (s.takeAnswer e k f).RecordTables :=
  (((h.answerStation e k).takeIdent k _).setStation k _).takeSamples k f

/-! ### Reception, and the poller's own events -/

theorem endExchange (h : s.RecordTables) (e : LinkEnd) : (s.endExchange e).RecordTables := h.setPoller e _

theorem gantryEvent (h : s.RecordTables) (e : LinkEnd) (ev : GantryRxEvent) : (s.gantryEvent e ev).RecordTables := by
  unfold State.gantryEvent
  split
  case h_1 =>
    split
    · exact (h.endExchange e).takeAnswer e _ _
    · exact (h.endExchange e).miss e _ _
  case h_2 => exact (h.endExchange e).miss e _ _
  all_goals exact h

theorem gantryReceived (h : s.RecordTables) (e : LinkEnd) (r : GantryRx × Option GantryRxEvent) :
    (s.gantryReceived e r).RecordTables := by
  unfold State.gantryReceived
  dsimp only
  split
  · exact h.setPoller e _
  · exact (h.setPoller e _).gantryEvent e _

theorem gantryOctets (h : s.RecordTables) (e : LinkEnd) (os : List Octet) : (s.gantryOctets e os).RecordTables :=
  h.foldl (fun _ _ hu => hu.gantryReceived e _) os

theorem gantryCutShort (h : s.RecordTables) (e : LinkEnd) : (s.gantryCutShort e).RecordTables := h.gantryReceived e _

theorem timeOut (h : s.RecordTables) (e : LinkEnd) : (s.timeOut e).RecordTables := by
  unfold State.timeOut
  split
  · exact h
  · exact (h.endExchange e).miss e _ _

theorem reprobeDue (h : s.RecordTables) (k : Nat) : (s.reprobeDue k).RecordTables := (h.setStation k _).setPoller _ _

theorem restoreStation (h : s.RecordTables) (k : Nat) : (s.restoreStation k).RecordTables := by
  have hst : (if (s.station k).current = homeEnd s.n k then
        s.setStation k { s.station k with restorePending := true, state := .online }
      else (s.setStation k
        { s.station k with
          restorePending := true, state := .rerouted, reprobe := some Config.reprobeMs }).raise
          .ringDegraded).RecordTables := by
    split
    · exact h.setStation k _
    · exact (h.setStation k _).raise _
  exact ((hst.setStationDisplayed k none).clearLamps _).setFalseOpen k none

/-! ### Changes of the section (R5) -/

theorem resetStation (h : s.RecordTables) (k : Nat) : (s.resetStation k).RecordTables := by
  unfold State.resetStation
  dsimp only
  split
  case h_2 => exact (h.setStation k _).returnStrings k
  all_goals exact h.setStation k _

theorem resetStations (h : s.RecordTables) : s.resetStations.RecordTables :=
  congr (h.foldl (fun _ k hu => hu.resetStation k) s.stationNumbers) rfl rfl rfl rfl

theorem newHeadSet (h : s.RecordTables) : s.newHeadSet.RecordTables := by
  have hblank : ({ s with resolver.displayed := Tab.eraseWhere s.headKeyIn s.resolver.displayed } : State).RecordTables :=
    { h with displayed := Tab.wf_eraseWhere _ h.displayed }
  exact ((hblank.mapProving _ _).emptyAccs _).congr rfl rfl rfl rfl

theorem raiseNewConditions (h : s.RecordTables) (u : State) : (s.raiseNewConditions u).RecordTables :=
  (((h.raiseIf _ _).raiseIf _ _).raiseIf _ _).raiseIf _ _

theorem applyTunnel (h : s.RecordTables) (t : Tunnel) : (s.applyTunnel t).RecordTables := by
  have h1 : (s.writeTunnel t).followRole.RecordTables := by
    rw [followRole_frame]
    exact { h with }
  have h2 : (if s.n = t.n then (s.writeTunnel t).followRole else (s.writeTunnel t).followRole.resetStations).RecordTables := by
    split
    · exact h1
    · exact h1.resetStations
  unfold State.applyTunnel
  dsimp only
  split
  · exact h2.emptyAccs _
  · exact h2.newHeadSet.raiseNewConditions s

/-! ### The end of an event -/

/-- Settling empties accumulators and lets the pollers choose (R83, R153). -/
theorem settle {a : State} (b : State) (h : a.RecordTables) : (Machine.settle b a).RecordTables := by
  have hlamps := settle_lamps b a
  refine ⟨?_, ?_, ?_, ?_, ?_, ?_, ?_, settle_wf b a h.stations⟩
  · rw [settle_resolver]; exact h.displayed
  · rw [hlamps]; exact Tab.wf_mapWhere _ _ h.strings
  · rw [hlamps]; exact h.heads
  · rw [hlamps]; exact h.falseOpen
  · rw [settle_sigs]; exact h.entries
  · rw [settle_sigs]; exact h.idents
  · rw [settle_sigs]; exact h.changes

end State.RecordTables

end Sys2Proof.Machine
end

