-- ==== Sys2Proof/Proofs/QueuePlaces.lean ====
section
/-! PROOFS. The changeover queue keeps its capacity, and its tasks differ in lane or kind, under every operation of the
Changeover Engine (O9; R49). -/

namespace Sys2Proof.Machine

/-- A queue within its capacity, no two tasks of which have one lane and kind (R49). -/
structure QueueFits (q : List Task) : Prop where
  length : q.length ≤ 8
  apart : q.Pairwise Task.Apart

theorem QueueFits.sublist {q r : List Task} (h : QueueFits r) (hq : q.Sublist r) : QueueFits q :=
  ⟨hq.length_le.trans h.length, h.apart.sublist hq⟩

theorem QueueFits.nil : QueueFits [] := ⟨by simp, .nil⟩

/-- Tasks that differ among themselves and from the queued ones join it where they fit (R49). -/
theorem QueueFits.append {q ts : List Task} (hq : QueueFits q) (hts : ts.Pairwise Task.Apart)
    (hnew : ts.any (holdsTask q) = false) (hlen : q.length + ts.length ≤ 8) : QueueFits (q ++ ts) := by
  refine ⟨by rwa [List.length_append], List.pairwise_append.2 ⟨hq.apart, hts, fun t ht u hu hsame => ?_⟩⟩
  refine List.any_eq_false.1 hnew u hu (List.any_eq_true.2 ⟨t, ht, ?_⟩)
  rw [hsame.2, Bool.and_true, beq_iff_eq]
  exact hsame.1

/-- A plan's new tasks differ in lane or kind (R62). -/
theorem expandPlan_apart (s : State) (o : Origin) (id : Nat) :
    (s.expandPlan o id).Pairwise Task.Apart := by
  refine (expandPlan_ordered s o id).imp fun hord hsame => ?_
  have hopen := (TaskKind.same_iff_isOpen _ _).1 hsame.2
  rcases hord with ⟨-, hlt⟩ | ⟨hclose, hopn⟩
  · exact absurd hsame.1 (Nat.ne_of_lt hlt)
  · rw [hclose, hopn] at hopen
    cases hopen

/-- The walk of the scan keeps some of the tasks, in their order (R57). -/
theorem scanQueue_sublist (s : State) (kept rest : List Task) :
    (s.scanQueue kept rest).engine.queue.Sublist (kept ++ rest) := by
  induction rest generalizing s kept with
  | nil => rw [List.append_nil]; exact .refl _
  | cons t rest ih =>
    have hstay : (s.scanQueue (kept ++ [t]) rest).engine.queue.Sublist (kept ++ t :: rest) := by
      have h := ih s (kept ++ [t])
      rwa [List.append_assoc, List.singleton_append] at h
    have hgone : (kept ++ rest).Sublist (kept ++ t :: rest) := (List.sublist_cons_self t rest).append_left kept
    have hends : ∀ o r, ((s.endTask t o r).scanQueue kept rest).engine.queue.Sublist (kept ++ t :: rest) := fun o r =>
      (ih _ kept).trans hgone
    unfold State.scanQueue
    split
    · exact hstay
    · split
      · exact hgone
      · exact hends _ _
      · exact hends _ _
      · split
        · exact hends _ _
        · exact hgone
      all_goals exact hstay

/-- The queue of a state fits. -/
def State.Queued (s : State) : Prop := QueueFits s.engine.queue

namespace State.Queued

variable {s t : State} {b : List Octet}

theorem congr (h : s.Queued) (hq : t.engine.queue = s.engine.queue) : t.Queued := by
  unfold State.Queued
  rw [hq]
  exact h

/-! ### Writes that leave the queue -/

theorem setLane (h : s.Queued) (l : Nat) (r : LaneRec) : (s.setLane l r).Queued := h
theorem putPhase (h : s.Queued) (l : Nat) (p : LanePhase) (x : Option Nat) : (s.putPhase l p x).Queued := h
theorem raise (h : s.Queued) (k : AttnKind) : (s.raise k).Queued := h
theorem endTask (h : s.Queued) (u : Task) (o : TaskOutcome) (r : Option Reason) : (s.endTask u o r).Queued := h

theorem endOpening (h : s.Queued) (l : Nat) (d : Face) (u : Option Task) (o : TaskOutcome) (r : Option Reason) :
    (s.endOpening l d u o r).Queued := by
  cases u with
  | none => exact h
  | some u => exact h.endTask u o r

theorem openingDone (h : s.Queued) (u : Option Task) : (s.openingDone u).Queued := by
  cases u <;> exact h

theorem preEmpt (h : s.Queued) (u : Option Task) : (s.preEmpt u).Queued := by
  cases u <;> exact h

theorem mergeFallback (h : s.Queued) (target : Nat) : (s.mergeFallback target).Queued := by
  have hall : ∀ (ls : List Nat) (u : State), u.Queued →
      (ls.foldl (fun s l => s.putPhase l ((s.lane l).phase.unmerge l target) (s.lane l).timer) u).Queued := by
    intro ls
    induction ls with
    | nil => exact fun _ hu => hu
    | cons l ls ih => exact fun u hu => ih _ (hu.putPhase l _ _)
  exact hall _ s h

theorem failOpening (h : s.Queued) (l : Nat) : (s.failOpening l).Queued := by
  unfold State.failOpening
  split
  · exact (h.putPhase _ _ _).endOpening _ _ _ _ _
  · exact h

/-! ### Tasks that leave the queue -/

theorem removeQueued (h : s.Queued) (p : Task → Bool) (o : TaskOutcome) : (s.removeQueued p o).Queued := by
  unfold State.Queued
  rw [State.removeQueued_queue]
  exact h.sublist List.filter_sublist

theorem cancelOpens (h : s.Queued) (l : Nat) : (s.cancelOpens l).Queued := h.removeQueued _ _

theorem scan (h : s.Queued) : s.scan.Queued := by
  unfold State.scan
  split
  · exact QueueFits.sublist h (scanQueue_sublist s [] s.engine.queue)
  · exact h

theorem failOpenings (h : s.Queued) (ls : List Nat) : (s.failOpenings ls).Queued := by
  have hall : ∀ (ms : List Nat) (u : State), u.Queued → (ms.foldl State.failOpening u).Queued := by
    intro ms
    induction ms with
    | nil => exact fun _ hu => hu
    | cons m ms ih => exact fun u hu => ih _ (hu.failOpening m)
  cases ls with
  | nil => exact h
  | cons m ms => exact (hall (m :: ms) s h).scan

/-! ### Tasks that join the queue -/

theorem addTasks (h : s.Queued) (l : Nat) {ts : List Task}
    (hts : ts.Pairwise Task.Apart) : (s.addTasks l ts).state.Queued := by
  unfold State.addTasks
  split
  · exact h
  · rename_i hnew
    split
    · exact h
    · rename_i hlen
      exact scan (s := s.enqueue ts) (QueueFits.append h hts (Bool.eq_false_iff.2 hnew) (Nat.le_of_not_lt hlen))

theorem selectPlan (h : s.Queued) {o : Origin} {id m n : Nat} (hs : s.selectPlan o id = .applied t m n) : t.Queued := by
  unfold State.selectPlan at hs
  dsimp only at hs
  split_ifs at hs with hdup hlen
  obtain ⟨rfl, -, -⟩ := PlanResult.applied.inj hs
  have hnone : (s.expandPlan o id).any (holdsTask s.unmarked) = false := by
    rw [List.any_eq_false]
    exact List.filter_eq_nil_iff.1 (not_not.1 hdup)
  have hstay : QueueFits s.unmarked := QueueFits.sublist h List.filter_sublist
  have hfits := hstay.append (expandPlan_apart s o id) hnone (Nat.le_of_not_lt hlen)
  refine scan ?_
  unfold State.Queued
  rwa [show ((s.removeQueued _ _).enqueue _).engine.queue = s.hostTasks ++ s.expandPlan o id from supersede_queue s _]

/-! ### The composed operations of the engine -/

theorem endClearance (h : s.Queued) (l : Nat) (u : Task) (o : TaskOutcome) : (s.endClearance l u o).Queued :=
  ((h.putPhase _ _ _).endTask _ _ _).scan

theorem closingStep (h : s.Queued) (l : Nat) : (s.closingStep l).Queued := by
  unfold State.closingStep
  split
  · split
    · exact h.putPhase _ _ _
    · exact (h.putPhase _ _ _).scan
  all_goals exact h

theorem openingStep (h : s.Queued) (l : Nat) : (s.openingStep l).Queued := by
  unfold State.openingStep
  split
  · split
    · exact h.putPhase _ _ _
    · exact ((h.putPhase _ _ _).openingDone _).scan
  all_goals exact h

theorem clearanceEnds (h : s.Queued) (l : Nat) : (s.clearanceEnds l).Queued := by
  unfold State.clearanceEnds
  split
  · split
    · exact (h.putPhase _ _ _).raise _
    · exact h.endClearance _ _ _
  all_goals exact h

theorem windowEnds (h : s.Queued) (l : Nat) : (s.windowEnds l).Queued := by
  unfold State.windowEnds
  split
  · exact (((h.putPhase _ _ _).endTask _ _ _).cancelOpens _).scan
  all_goals exact h

theorem abortClosing (h : s.Queued) (l : Nat) (d : Face) (f : Nat) (u : Task) : (s.abortClosing l d f u).state.Queued := by
  unfold State.abortClosing
  split
  · exact (((h.putPhase _ _ _).endTask _ _ _).cancelOpens _).scan
  · exact ((h.putPhase _ _ _).endTask _ _ _).cancelOpens _

theorem abortClearance (h : s.Queued) (l : Nat) (d : Face) (u : Task) : (s.abortClearance l d u).state.Queued := by
  have h1 := ((h.putPhase l .shut none).endTask u .aborted none).cancelOpens l
  unfold State.abortClearance
  dsimp only
  split
  · exact h1.putPhase _ _ _
  · exact h1.scan

theorem abortOpening (h : s.Queued) (l : Nat) (d : Face) (u : Option Task) : (s.abortOpening l d u).state.Queued :=
  ((h.putPhase _ _ _).endOpening _ _ _ _ _).scan

theorem closeNow (h : s.Queued) (l : Nat) : (s.closeNow l).Queued :=
  ((((h.setLane _ _).preEmpt _).removeQueued _ _).mergeFallback _).scan

/-! ### The commands -/

theorem withFields {tests : List (Bool × Nat)} {act : CmdResult} (h : s.Queued) (ha : act.state.Queued) :
    (Machine.withFields s tests act).state.Queued := withFields_keeps h fun _ => ha

theorem actCloseLane (h : s.Queued) : (Machine.actCloseLane s b).state.Queued := by
  refine h.withFields ?_
  split
  · exact h
  · exact h.addTasks _ (List.pairwise_singleton _ _)

theorem actOpenLane (h : s.Queued) : (Machine.actOpenLane s b).state.Queued := by
  refine h.withFields ?_
  split
  · exact h
  · split
    · exact h.addTasks _ (List.pairwise_singleton _ _)
    · split <;> exact h

theorem actReverseLane (h : s.Queued) : (Machine.actReverseLane s b).state.Queued := by
  refine h.withFields ?_
  split
  · exact h
  · split
    · exact h
    · exact h.addTasks _ (List.pairwise_pair.2 fun hsame => Bool.false_ne_true hsame.2)

theorem actCancelTask (h : s.Queued) : (Machine.actCancelTask s b).state.Queued := by
  refine h.withFields ?_
  split
  · exact (h.removeQueued _ _).scan
  · exact h

theorem actConfirmClear (h : s.Queued) : (Machine.actConfirmClear s b).state.Queued := by
  refine h.withFields ?_
  split
  · exact h.putPhase _ _ _
  · exact h.endClearance _ _ _
  all_goals exact h

theorem actAbortLane (h : s.Queued) : (Machine.actAbortLane s b).state.Queued := by
  refine h.withFields ?_
  split
  · exact h
  · exact h
  · exact h.abortClosing _ _ _ _
  · exact h.abortClearance _ _ _
  · exact h.abortOpening _ _ _
  · exact h

theorem actCloseNow (h : s.Queued) : (Machine.actCloseNow s b).state.Queued := h.withFields (h.closeNow _)

theorem actSetPlan (h : s.Queued) : (Machine.actSetPlan s b).state.Queued := by
  refine h.withFields ?_
  split <;> exact h

theorem actSelectPlan (h : s.Queued) : (Machine.actSelectPlan s b).state.Queued := by
  refine h.withFields ?_
  split
  · rename_i hs
    exact h.selectPlan hs
  · exact h
  · exact h

/-- A settled event may fail openings, and the scan runs (R36). -/
theorem settle {a : State} (b : State) (h : a.Queued) : (Machine.settle b a).Queued := by
  unfold State.Queued
  rw [settle_engine]
  exact h.failOpenings _

end State.Queued

end Sys2Proof.Machine
end

