-- ==== Sys2Proof/Proofs/Capacities.lean ====
section
/-! PROOFS. What the part holds within its capacities, with its tables in canonical form, and the operations that keep it
(O9; R49, R88, R182, R183, R186). -/

namespace Sys2Proof.Machine

/-! ### The blocks -/

/-- The Host Link Port within its capacities, with places left for `room` more replies (R182, R183, R186). A store write keeps
a place for its own. -/
structure HostPort.Fits (room : Nat) (p : HostPort) : Prop where
  slots : p.slots.length ≤ 4
  replies : p.replies.length + room ≤ 4
  writing : p.processor = .writing → p.replies.length + room < 4
  counters : p.crcErrors ≤ 65535 ∧ p.lengthErrors ≤ 65535 ∧ p.gapErrors ≤ 65535 ∧ p.breakErrors ≤ 65535 ∧ p.overruns ≤ 65535

/-- An override table within its capacity, with one entry to a head at most (R88). -/
structure OverridesFit (os : List Override) : Prop where
  length : os.length ≤ 32
  apart : os.Pairwise fun o p => o.head ≠ p.head

/-- The tables of the configuration in force, stored and being written are in canonical form. -/
structure ConfigStore.Canonical (c : ConfigStore) : Prop where
  records : c.records.canonical = true
  nvConfig : ∀ i, c.nvConfig = some i → i.records.canonical = true
  nvSig : ∀ i, c.nvSig = some i → i.canonical = true
  writing : ∀ w, c.writing = some w → w.canonical = true

/-- The part within its capacities, with its tables in canonical form, those of the lanes apart, and places left for `room`
more replies. -/
structure State.Contained (room : Nat) (s : State) : Prop where
  port : s.host.Fits room
  queue : s.Queued
  overrides : OverridesFit s.resolver.overrides
  records : s.RecordTables
  store : s.config.Canonical

theorem OverridesFit.sublist {os ps : List Override} (h : OverridesFit ps) (ho : os.Sublist ps) : OverridesFit os :=
  ⟨ho.length_le.trans h.length, h.apart.sublist ho⟩

theorem OverridesFit.nil : OverridesFit [] := ⟨by simp, .nil⟩

theorem Records.canonical_iff (r : Records) :
    r.canonical = true ↔ Tab.wf none r.lanes = true ∧ Tab.wf none r.stations = true := Bool.and_eq_true_iff

theorem SigImage.canonical_iff (i : SigImage) :
    i.canonical = true ↔ Tab.wf .unlearned i.entries = true ∧ Tab.wf none i.idents = true := Bool.and_eq_true_iff

namespace HostPort.Fits

variable {n : Nat} {p q : HostPort}

/-- The slots, replies, processor and counters are read, and nothing else of the port. -/
theorem congr (h : p.Fits n) (hs : q.slots = p.slots) (hr : q.replies = p.replies) (hp : q.processor = p.processor)
    (hc : (q.crcErrors, q.lengthErrors, q.gapErrors, q.breakErrors, q.overruns) =
      (p.crcErrors, p.lengthErrors, p.gapErrors, p.breakErrors, p.overruns)) : q.Fits n := by
  simp only [Prod.mk.injEq] at hc
  obtain ⟨h1, h2, h3, h4, h5⟩ := hc
  exact ⟨hs ▸ h.slots, hr ▸ h.replies, by rw [hp, hr]; exact h.writing, by rw [h1, h2, h3, h4, h5]; exact h.counters⟩

theorem marked (h : p.Fits n) (m : Bool) : ({ p with noticePending := m } : HostPort).Fits n := h.congr rfl rfl rfl rfl

end HostPort.Fits

theorem ConfigStore.Canonical.stopWrite {c : ConfigStore} (h : c.Canonical) : c.stopWrite.Canonical := by
  refine ⟨?_, fun i hi => ?_, fun i hi => ?_, fun w hw => ?_⟩
  · unfold ConfigStore.stopWrite
    split <;> exact h.records
  · rw [ConfigStore.stopWrite_nvConfig] at hi
    split at hi
    · cases hi
    · exact h.nvConfig i hi
  · rw [ConfigStore.stopWrite_nvSig] at hi
    split at hi
    · cases hi
    · exact h.nvSig i hi
  · rw [ConfigStore.stopWrite_writing] at hw
    cases hw

namespace State.Contained

variable {n : Nat} {s t : State} {b : List Octet}

/-! ### Changes of one block -/

/-- A change outside the port, the queue, the overrides, the tables and the store. -/
theorem same (h : s.Contained n) (hh : t.host = s.host) (hq : t.engine.queue = s.engine.queue)
    (ho : t.resolver.overrides = s.resolver.overrides) (hd : t.resolver.displayed = s.resolver.displayed)
    (hl : t.lamps = s.lamps) (hs : t.sigs = s.sigs) (hk : t.link.stations = s.link.stations) (hc : t.config = s.config) :
    t.Contained n :=
  ⟨hh ▸ h.port, h.queue.congr hq, ho ▸ h.overrides, h.records.congr hd hl hs hk, hc ▸ h.store⟩

theorem engineStep (h : s.Contained n) (he : EngineStep s t) (hq : t.Queued) : t.Contained n := by
  obtain ⟨m, hm⟩ := he.port
  refine ⟨hm ▸ h.port.marked m, hq, he.resolver ▸ h.overrides, ?_, he.config ▸ h.store⟩
  exact h.records.congr (by rw [he.resolver]) he.lamps (by rw [he]) (by rw [he.link])

theorem linkStep {kinds : List AttnKind} (h : s.Contained n) (hk : LinkStep kinds s t) (hr : t.RecordTables) :
    t.Contained n := by
  obtain ⟨m, hm⟩ := hk.host
  exact ⟨hm ▸ h.port.marked m, h.queue.congr (by rw [hk.engine]), hk.overrides ▸ h.overrides, hr, hk.config ▸ h.store⟩

theorem raise (h : s.Contained n) (k : AttnKind) : (s.raise k).Contained n := h.engineStep (raise_step s k) (h.queue.raise k)

theorem raiseTimes (h : s.Contained n) (k : AttnKind) (m : Nat) : (s.raiseTimes k m).Contained n := by
  induction m generalizing s with
  | zero => exact h
  | succ m ih => exact ih (h.raise k)

/-- The records of the configuration are written in canonical form. -/
theorem setRecords (h : s.Contained n) {r : Records} (hr : r.canonical = true) :
    ({ s with config.records := r } : State).Contained n :=
  ⟨h.port, h.queue, h.overrides, h.records.congr rfl rfl rfl rfl, { h.store with records := hr }⟩

theorem emptyAccs (h : s.Contained n) (p : Nat → Bool) : (s.emptyAccs p).Contained n :=
  h.linkStep (LinkStep.emptyAccs (kinds := []) s p) (h.records.emptyAccs p)

/-! ### Replies -/

/-- A command that the processor takes finds a place for its reply (R184). -/
theorem room_of_canTake (h : s.Contained 0) {f : HostFrame} (hf : s.canTake f = true) : s.Contained 1 := by
  unfold State.canTake at hf
  simp only [Bool.and_eq_true, beq_iff_eq, decide_eq_true_eq] at hf
  obtain ⟨⟨hready, -⟩, hroom⟩ := hf
  exact ⟨⟨h.port.slots, hroom, fun hw => (by rw [hready] at hw; cases hw), h.port.counters⟩, h.queue, h.overrides, h.records,
    h.store⟩

/-- The reply of a command takes the place left for it (R186). -/
theorem complete (h : s.Contained 1) (f : HostFrame) (r : Reply) : (s.complete f r).Contained 0 := by
  have hlen : (s.complete f r).host.replies.length = s.host.replies.length + 1 := List.length_append
  have hslots : (s.complete f r).host.slots.length ≤ s.host.slots.length := by
    show s.host.slots.tail.length ≤ _
    rw [List.length_tail]
    exact Nat.sub_le _ _
  refine ⟨⟨hslots.trans h.port.slots, ?_, fun hw => ?_, h.port.counters⟩, h.queue, h.overrides,
    h.records.congr rfl rfl rfl rfl, h.store⟩
  · rw [hlen]
    exact h.port.replies
  · rw [hlen]
    exact h.port.writing hw

/-! ### What ends every event -/

/-- The transmitter takes a reply from the queue, or none (R186). -/
theorem driveTransmitter_fits {u : State} (h : u.host.Fits n) : u.driveTransmitter.host.Fits n := by
  unfold State.driveTransmitter
  split
  · exact h
  · rename_i r rest htx hr
    have hlen : u.host.replies.length = rest.length + 1 := by rw [hr]; rfl
    have hreplies := h.replies
    refine ⟨h.slots, ?_, fun hw => ?_, h.counters⟩
    · show rest.length + n ≤ 4
      omega
    · show rest.length + n < 4
      omega
  · split
    · split
      · exact h.congr rfl rfl rfl rfl
      · exact h.congr rfl rfl rfl rfl
    · exact h

theorem settle {a : State} (b : State) (h : a.Contained n) : (Machine.settle b a).Contained n := by
  refine ⟨?_, h.queue.settle b, ?_, h.records.settle b, ?_⟩
  · rw [settle_hostPort]
    refine driveTransmitter_fits ?_
    rw [chosen_host, settleHeads_host]
    exact h.port.marked _
  · rw [settle_resolver]
    exact h.overrides
  · rw [settle_config]
    exact h.store

/-! ### The host link's events -/

theorem countUp_le {m : Nat} (h : m ≤ 65535) : countUp m ≤ 65535 := by
  unfold countUp
  split
  · rename_i hlt
    exact hlt
  · exact h

theorem frameArrives (h : s.Contained n) (f : HostFrame) : (s.frameArrives f).Contained n := by
  obtain ⟨hcrc, hlength, hgap, hbrk, hover⟩ := h.port.counters
  unfold State.frameArrives
  dsimp only
  split
  · rename_i hfree
    refine ⟨⟨?_, h.port.replies, h.port.writing, h.port.counters⟩, h.queue, h.overrides, h.records.congr rfl rfl rfl rfl,
      h.store⟩
    rw [List.length_append]
    exact hfree
  · refine raise (s := { ({ s with host.silence := some s.silenceMs } : State).report .hostSilent false with
      host.overruns := _ }) ⟨⟨h.port.slots, h.port.replies, h.port.writing, hcrc, hlength, hgap, hbrk, countUp_le hover⟩,
      h.queue, h.overrides, h.records.congr rfl rfl rfl rfl, h.store⟩ _

theorem frameDropped (h : s.Contained n) (fault : HostFault) : (s.frameDropped fault).Contained n := by
  obtain ⟨hcrc, hlength, hgap, hbrk, hover⟩ := h.port.counters
  have hport : ∀ p : HostPort, p.Fits n → ({ s with host := p } : State).Contained n := fun p hp =>
    ⟨hp, h.queue, h.overrides, h.records.congr rfl rfl rfl rfl, h.store⟩
  refine raise ?_ _
  cases fault with
  | length => exact hport _ ⟨h.port.slots, h.port.replies, h.port.writing, hcrc, countUp_le hlength, hgap, hbrk, hover⟩
  | gap => exact hport _ ⟨h.port.slots, h.port.replies, h.port.writing, hcrc, hlength, countUp_le hgap, hbrk, hover⟩
  | brk => exact hport _ ⟨h.port.slots, h.port.replies, h.port.writing, hcrc, hlength, hgap, countUp_le hbrk, hover⟩
  | crc => exact hport _ ⟨h.port.slots, h.port.replies, h.port.writing, countUp_le hcrc, hlength, hgap, hbrk, hover⟩

theorem hostReceived (h : s.Contained n) (r : HostRx × List HostRxEvent) : (s.hostReceived r).Contained n := by
  refine hostReceived_keeps (p := State.Contained n) (fun u rx hu => ?_) (fun u ev hu => ?_) h r
  · exact ⟨hu.port.congr rfl rfl rfl rfl, hu.queue, hu.overrides, hu.records.congr rfl rfl rfl rfl, hu.store⟩
  · cases ev with
    | good f => exact hu.frameArrives f
    | dropped fault => exact hu.frameDropped fault

/-! ### The Time Base -/

theorem setPhase (h : s.Contained n) (v : Bool) : (s.setPhase v).Contained n := by
  unfold State.setPhase
  split
  · exact h
  · unfold State.markPhase
    split <;> exact h.same rfl rfl rfl rfl rfl rfl rfl rfl

theorem fire (h : s.Contained n) (id : Nat) : (s.fire id).1.Contained n := by
  unfold State.fire
  split
  · exact h.raise _
  · split
    · rename_i hs
      exact (h.engineStep (selectPlan_step hs) (h.queue.selectPlan hs)).raise _
    · exact h.raise _
    · exact h.raise _

theorem minuteEvent (h : s.Contained n) (t : Time) : (s.minuteEvent t).Contained n := by
  unfold State.minuteEvent
  dsimp only
  split
  · exact h
  · exact h
  · have hf := (h.raiseTimes .scheduleNotApplied ((s.matching t).length - 1)).fire ‹Nat›
    exact ⟨hf.port, hf.queue, hf.overrides, hf.records.congr rfl rfl rfl rfl, hf.store⟩

theorem secondEnds (h : s.Contained n) : s.secondEnds.Contained n := by
  unfold State.secondEnds
  split
  · exact h
  · have hclock : ∀ t : Time, ({ s with time.clock := some t, time.secondTimer := some 1000 } : State).Contained n :=
      fun _ => h.same rfl rfl rfl rfl rfl rfl rfl rfl
    dsimp only
    split
    · exact (hclock _).minuteEvent _
    · exact hclock _

/-- A millisecond passes: timers alone go down (log entry 23). -/
theorem tick (h : s.Contained n) : s.tick.Contained n := by
  refine ⟨h.port.congr rfl rfl rfl rfl, h.queue, ⟨?_, ?_⟩, ?_, h.store⟩
  · show (s.resolver.overrides.map _).length ≤ 32
    rw [List.length_map]
    exact h.overrides.length
  · exact List.pairwise_map.2 h.overrides.apart
  · exact { h.records with stations := Tab.wf_mapWhere _ _ h.records.stations }

/-! ### The overrides and the lamp test -/

theorem dropOverride (h : s.Contained n) (x : HeadRef) : (s.dropOverride x).Contained n :=
  ⟨h.port, h.queue, h.overrides.sublist List.filter_sublist, h.records.congr rfl rfl rfl rfl, h.store⟩

theorem overridesExpire (h : s.Contained n) (hs : List HeadRef) : (s.overridesExpire hs).Contained n := by
  have hkept : ({ s with
      resolver.overrides := s.resolver.overrides.filter fun o => !hs.contains o.head } : State).Contained n :=
    ⟨h.port, h.queue, h.overrides.sublist List.filter_sublist, h.records.congr rfl rfl rfl rfl, h.store⟩
  exact hkept.raiseTimes _ _

/-- The entry of a head that has one leaves a place (R90). -/
theorem dropOverride_length {x : HeadRef} (hx : (s.overrideOf x).isSome = true) :
    (s.dropOverride x).resolver.overrides.length < s.resolver.overrides.length := by
  obtain ⟨o, ho, hox⟩ := List.find?_isSome.1 hx
  refine List.length_filter_lt_length_iff_exists.2 ⟨o, ho, ?_⟩
  rw [of_decide_eq_true hox]
  simp

theorem placeOverride (h : s.Contained n) {x : HeadRef} (a : Aspect) (m : Nat)
    (hroom : (s.overrideOf x).isSome = true ∨ s.resolver.overrides.length < 32) : (s.placeOverride x a m).Contained n := by
  have hdrop := h.dropOverride x
  have hlen : (s.dropOverride x).resolver.overrides.length < 32 := by
    rcases hroom with hx | hlt
    · exact (dropOverride_length hx).trans_le h.overrides.length
    · exact List.length_filter_le _ _ |>.trans_lt hlt
  refine ⟨h.port, h.queue, ⟨?_, ?_⟩, h.records.congr rfl rfl rfl rfl, h.store⟩
  · show ((s.dropOverride x).resolver.overrides ++ [_]).length ≤ 32
    rw [List.length_append]
    exact hlen
  · refine List.pairwise_append.2 ⟨hdrop.overrides.apart, List.pairwise_singleton _ _, fun o ho p hp => ?_⟩
    obtain rfl := List.mem_singleton.1 hp
    simpa using (List.mem_filter.1 ho).2

theorem endLampTest (h : s.Contained n) (c : LampEndCause) : (s.endLampTest c).Contained n :=
  h.linkStep (LinkStep.endLampTest (kinds := []) s c) (h.records.endLampTest c)

/-! ### The store, the supply and RESET_N -/

theorem beginWrite (h : s.Contained 1) (f : HostFrame) {w : StoreWrite} (hw : w.canonical = true) :
    (s.beginWrite f w).Contained 0 := by
  unfold State.beginWrite
  split
  · exact h.complete _ _
  · have hreplies := h.port.replies
    refine ⟨⟨h.port.slots, Nat.le_of_succ_le hreplies, fun _ => hreplies, h.port.counters⟩, h.queue, h.overrides,
      h.records.congr rfl rfl rfl rfl, { h.store with writing := fun v hv => ?_ }⟩
    obtain rfl := Option.some.inj hv
    exact hw

/-- The end of a store write frees the processor, and its reply's place is there (R18). -/
theorem endWrite (h : s.Contained 0) (hp : s.host.processor = .writing) {w : StoreWrite} (hw : s.config.writing = some w)
    (ok : Bool) : (s.endWrite w ok).state.Contained 1 := by
  have hport : ({ s.host with processor := .ready } : HostPort).Fits 1 :=
    ⟨h.port.slots, h.port.writing hp, fun hr => (by cases hr), h.port.counters⟩
  have hwc : w.canonical = true := h.store.writing w hw
  have hnone : ∀ v : StoreWrite, none = some v → v.canonical = true := fun _ hv => by cases hv
  have hstored : ∀ (u : Bool) {c : ConfigStore}, c.Canonical →
      ({ s with host.processor := .ready, config := c, sigs.unsaved := u } : State).Contained 1 := fun _ _ hc =>
    ⟨hport, h.queue, h.overrides, { h.records with }, hc⟩
  unfold State.endWrite
  cases w with
  | config image =>
    cases ok with
    | true =>
      refine hstored s.sigs.unsaved ⟨h.store.records, fun i hi => ?_, h.store.nvSig, hnone⟩
      obtain rfl := Option.some.inj hi
      exact hwc
    | false =>
      exact (hstored s.sigs.unsaved (c := { s.config with writing := none, nvConfig := none, configValid := false })
        ⟨h.store.records, fun i hi => (by cases hi), h.store.nvSig, hnone⟩).raise _
  | signature image =>
    cases ok with
    | true =>
      refine hstored s.sigs.unsaved ⟨h.store.records, h.store.nvConfig, fun i hi => ?_, hnone⟩
      obtain rfl := Option.some.inj hi
      exact hwc
    | false =>
      exact (hstored true
        (c := { s.config with writing := none, nvSig := none, sigValid := false })
        ⟨h.store.records, h.store.nvConfig, fun i hi => (by cases hi), hnone⟩).raise _

theorem hold (h : s.Contained n) : s.hold.Contained n :=
  ⟨h.port.congr rfl rfl rfl rfl, h.queue, h.overrides, h.records.congr rfl rfl rfl rfl, h.store.stopWrite⟩

theorem fail (h : s.Contained n) : s.fail.Contained n := h.hold.same rfl rfl rfl rfl rfl rfl rfl rfl

/-- The start-up sequence loads the store's tables, and every other table and queue is empty (R16). -/
theorem loadedIn (h : s.config.Canonical) (cause : ResetCause) (m : Mode) (f : Option ConfigFault) :
    (s.loadedIn cause m f).Contained 0 := by
  have hstop := h.stopWrite
  have hrecords : (loadedConfig s.config.stopWrite.nvConfig).records.canonical = true := by
    unfold loadedConfig
    cases hnv : s.config.stopWrite.nvConfig with
    | none => rfl
    | some i => exact hstop.nvConfig i hnv
  have hsig : ∀ i, loadSig s.config.stopWrite.nvSig = some i → i.canonical = true := by
    intro i hi
    unfold loadSig at hi
    split at hi
    · cases hi
    · rename_i j hj
      split at hi
      · obtain rfl := Option.some.inj hi
        exact hstop.nvSig j hj
      · cases hi
  have htables : Tab.wf .unlearned (((loadSig s.config.stopWrite.nvSig).map (·.entries)).getD []) = true ∧
      Tab.wf none (((loadSig s.config.stopWrite.nvSig).map (·.idents)).getD []) = true := by
    cases hl : loadSig s.config.stopWrite.nvSig with
    | none => exact ⟨rfl, rfl⟩
    | some i => exact (SigImage.canonical_iff i).1 (hsig i hl)
  refine ⟨⟨by simp [State.loadedIn, State.loaded], by simp [State.loadedIn, State.loaded], fun hw => (by cases hw),
    by simp [State.loadedIn, State.loaded]⟩, .nil, .nil,
    ⟨rfl, rfl, rfl, rfl, htables.1, htables.2, rfl, State.Timed.resetStationTab_wf _⟩,
    hrecords, hstop.nvConfig, hstop.nvSig, fun w hw => by cases hw⟩

theorem startUp (h : s.config.Canonical) (cause : ResetCause) : (s.startUp cause).Contained 0 := by
  obtain ⟨mode, refusal, ha, -⟩ := s.autoStart_loaded cause
  unfold State.startUp
  rw [ha]
  exact (loadedIn h cause mode refusal).settle _

/-! ### The modes and the records -/

theorem enterRun (h : s.Contained n) : s.enterRun.Contained n := by
  have hlanes : ((s.startLanes s.laneNumbers).setQueue []).Contained n :=
    h.engineStep ((startLanes_step _ _).trans (setQueue_step _ _)) .nil
  have hended := hlanes.endLampTest .start
  rw [State.enterRun_eq]
  exact ⟨hended.port, hended.queue, hended.overrides, hended.records.congr rfl rfl rfl rfl, { hended.store with }⟩

theorem enterStandby (h : s.Contained n) : s.enterStandby.Contained n := by
  have hq := h.engineStep (removeQueued_step s (fun _ => true) .cancelled) (h.queue.removeQueued _ _)
  exact ⟨hq.port, hq.queue, .nil, hq.records.congr rfl rfl rfl rfl, { hq.store with }⟩

theorem setStartRefusal (h : s.Contained n) (f : Option ConfigFault) :
    ({ s with config.startRefusal := f } : State).Contained n :=
  ⟨h.port, h.queue, h.overrides, h.records.congr rfl rfl rfl rfl, { h.store with }⟩

theorem setLaneCfg (h : s.Contained n) (l : Nat) (c : LaneCfg) :
    ({ s with config.records.lanes := Tab.set none s.config.records.lanes l (some c) } : State).Contained n := by
  obtain ⟨hlanes, hstations⟩ := (Records.canonical_iff _).1 h.store.records
  exact h.setRecords (r := { s.config.records with lanes := _ }) ((Records.canonical_iff _).2 ⟨Tab.wf_set hlanes, hstations⟩)

theorem setStationCfg (h : s.Contained n) (k : Nat) (c : StationCfg) :
    ({ s with config.records.stations := Tab.set none s.config.records.stations k (some c) } : State).Contained n := by
  obtain ⟨hlanes, hstations⟩ := (Records.canonical_iff _).1 h.store.records
  exact h.setRecords (r := { s.config.records with stations := _ })
    ((Records.canonical_iff _).2 ⟨hlanes, Tab.wf_set hstations⟩)

theorem setIdent (h : s.Contained n) (k : Nat) (i : Option (BitVec 32)) : (s.setIdent k i).setUnsaved.Contained n :=
  h.linkStep ((LinkStep.setIdent (kinds := []) s k i).trans (.setUnsaved _)) (h.records.setIdent k i).setUnsaved

theorem applyStation (h : s.Contained n) (k : Nat) (c : StationCfg) : (s.applyStation k c).Contained n := by
  have h1 := h.setStationCfg k c
  have h2 : ∀ (q : Prop) [Decidable q] (p : Nat → Bool),
      (if q then { s with config.records.stations := Tab.set none s.config.records.stations k (some c) }
       else ({ s with config.records.stations := Tab.set none s.config.records.stations k (some c) } : State).emptyAccs
        p).Contained n := by
    intro q _ p
    split
    · exact h1
    · exact h1.emptyAccs p
  unfold State.applyStation
  dsimp only
  split
  · exact (h2 _ _).setIdent k none
  · exact h2 _ _

theorem applyProving (h : s.Contained n) (p : Proving) : (s.applyProving p).Contained n := by
  have h1 := (h.setRecords (r := { s.config.records with proving := p }) h.store.records).emptyAccs s.stringKeyIn
  unfold State.applyProving
  dsimp only
  split
  · exact h
  · split
    · exact h1.linkStep (LinkStep.mapStrings (kinds := []) _ _ _) (h1.records.mapStrings _ _)
    · exact h1

theorem applyDuties (h : s.Contained n) (d : List Nat) : (s.applyDuties d).Contained n := by
  unfold State.applyDuties
  split
  · exact h
  · exact (h.setRecords (r := { s.config.records with duties := d }) h.store.records).emptyAccs _

theorem applyDim (h : s.Contained n) (k v : Nat) : (s.applyDim k v).Contained n := by
  have h1 : ({ s with config.dims := s.config.dims.set k v } : State).Contained n :=
    ⟨h.port, h.queue, h.overrides, h.records.congr rfl rfl rfl rfl, { h.store with }⟩
  exact h1.emptyAccs _

theorem applyTunnel (h : s.Contained n) (t : Tunnel) : (s.applyTunnel t).Contained n := by
  obtain ⟨hlanes, hstations⟩ := (Records.canonical_iff _).1 h.store.records
  have hstep := applyTunnel_section s t
  obtain ⟨m, hm⟩ := hstep.host
  refine ⟨?_, h.queue.congr ?_, ?_, h.records.applyTunnel t, ?_⟩
  · rw [hm, followRole_frame]
    exact h.port.marked m
  · rw [hstep.engine, followRole_frame]
    rfl
  · rw [hstep.overrides, followRole_frame]
    exact h.overrides
  · rw [hstep.config, followRole_frame]
    exact ⟨(Records.canonical_iff _).2 ⟨Tab.wf_eraseWhere (fun i => decide (t.l ≤ i)) hlanes,
      Tab.wf_eraseWhere (fun i => decide (t.n ≤ i)) hstations⟩, h.store.nvConfig, h.store.nvSig, h.store.writing⟩

end State.Contained

end Sys2Proof.Machine
end

