-- ==== Sys2Proof/Proofs/CapacitiesKept.lean ====
section
/-! PROOFS. Every row keeps the capacities and the canonical tables: obligation O9. -/

namespace Sys2Proof.Machine

/-! ### The commands -/

namespace State.Contained

variable {n : Nat} {s : State} {b : List Octet}

theorem withFields {tests : List (Bool × Nat)} {act : CmdResult} (h : s.Contained n) (ha : act.state.Contained n) :
    (Machine.withFields s tests act).state.Contained n := withFields_keeps h fun _ => ha

theorem actGetLane (h : s.Contained n) : (Machine.actGetLane s b).state.Contained n := by
  refine h.withFields ?_
  split <;> exact h

theorem actGetStation (h : s.Contained n) : (Machine.actGetStation s b).state.Contained n := by
  refine h.withFields ?_
  split <;> exact h

theorem actSetTunnel (h : s.Contained n) : (Machine.actSetTunnel s b).state.Contained n := by
  refine h.withFields ?_
  dsimp only
  split
  · exact h
  · exact h.applyTunnel _

theorem actStart (h : s.Contained n) : (Machine.actStart s b).state.Contained n := by
  unfold Machine.actStart
  split
  · exact h.enterRun
  · exact h.setStartRefusal _

theorem actStop (h : s.Contained n) : (Machine.actStop s b).state.Contained n := by
  unfold Machine.actStop
  split
  · exact h.enterStandby
  · exact h

theorem actRestart (h : s.Contained n) : (Machine.actRestart s b).state.Contained n :=
  ⟨⟨h.port.slots, h.port.replies, fun hw => (by cases hw), h.port.counters⟩, h.queue, h.overrides,
    h.records.congr rfl rfl rfl rfl, h.store⟩

/-- OVERRIDE asks for a place, or takes the one its head has (R89, R90). -/
theorem actOverride (h : s.Contained n) : (Machine.actOverride s b).state.Contained n := by
  refine h.withFields ?_
  split
  · exact h
  · rename_i hfull
    rw [Bool.and_eq_true, decide_eq_true_eq, Bool.not_eq_true', not_and, Nat.not_le, Bool.eq_false_iff] at hfull
    exact h.placeOverride _ _ (Classical.or_iff_not_imp_left.2 hfull)

theorem actRelease (h : s.Contained n) : (Machine.actRelease s b).state.Contained n := by
  refine h.withFields ?_
  split
  · exact h.dropOverride _
  · exact h

theorem actLampTest (h : s.Contained n) : (Machine.actLampTest s b).state.Contained n := by
  refine h.withFields ?_
  split
  · exact h
  · split
    · exact h
    · exact h.same rfl rfl rfl rfl rfl rfl rfl rfl

theorem actEndLampTest (h : s.Contained n) : (Machine.actEndLampTest s b).state.Contained n := by
  unfold Machine.actEndLampTest
  split
  · exact h.endLampTest _
  · exact h

theorem actClearFault (h : s.Contained n) : (Machine.actClearFault s b).state.Contained n :=
  h.withFields (h.linkStep (LinkStep.clearLamps (kinds := []) s _) (h.records.clearLamps _))

theorem changeClass (h : s.Contained n) (i : Nat) (e : SigEntry) : (s.changeClass i e).setUnsaved.Contained n :=
  h.linkStep ((LinkStep.changeClass (kinds := []) s i e).trans (.setUnsaved _)) (h.records.changeClass i e).setUnsaved

theorem actUnfix (h : s.Contained n) : (Machine.actUnfix s b).state.Contained n := by
  refine h.withFields ?_
  split
  · exact h.changeClass _ _
  · exact h
  · exact h

theorem actUnlearn (h : s.Contained n) : (Machine.actUnlearn s b).state.Contained n := by
  refine h.withFields ?_
  show (s.unlearn _).Contained n
  unfold State.unlearn
  split
  · exact h
  · exact h.linkStep ((LinkStep.unlearnStation (kinds := []) s _).trans (.setUnsaved _))
      (h.records.unlearnStation _).setUnsaved

theorem actRestoreStation (h : s.Contained n) : (Machine.actRestoreStation s b).state.Contained n := by
  refine h.withFields ?_
  split
  · exact h.linkStep (.restoreStation s _) (h.records.restoreStation _)
  · exact h

/-- GET-LINK sets the counters to 0 (R195). -/
theorem zeroCounters (h : s.Contained n) : s.zeroCounters.Contained n :=
  ⟨⟨h.port.slots, h.port.replies, h.port.writing, by simp [State.zeroCounters]⟩, h.queue, h.overrides,
    h.records.congr rfl rfl rfl rfl, h.store⟩

theorem gantryOctets (h : s.Contained n) (e : LinkEnd) (os : List Octet) : (s.gantryOctets e os).Contained n :=
  h.linkStep (.gantryOctets s e os) (h.records.gantryOctets e os)

theorem gantryCutShort (h : s.Contained n) (e : LinkEnd) : (s.gantryCutShort e).Contained n :=
  h.linkStep (.gantryCutShort s e) (h.records.gantryCutShort e)

end State.Contained

/-! ### Every row -/

section Rows

variable {n : Nat} {s t : State}

theorem event_contained {f : State → State} (hs : s.Contained n) (h : event s f = .next t) (hf : (f s).Contained n) :
    t.Contained n := by
  rcases event_cases h with rfl | ⟨-, rfl⟩
  · exact hs
  · exact hf.settle _

theorem eventIf_contained {allowed : Bool} {f : State → State} (hs : s.Contained n) (h : eventIf s allowed f = .next t)
    (hf : allowed = true → (f s).Contained n) : t.Contained n := by
  rcases eventIf_cases h with rfl | ⟨-, ha, rfl⟩
  · exact hs
  · exact (hf ha).settle _

/-- A command's own act leaves the place for its reply that the processor found (R184, R186). -/
theorem runCommand_contained {kind len : Nat} {modes : Modes} {act : State → List Octet → CmdResult} {tag : Octet}
    {b : List Octet} (hs : s.Contained 0) (h : runCommand kind len modes act tag b s = .next t)
    (ha : s.Contained 1 → (act s b).state.Contained 1) : t.Contained 0 := by
  unfold runCommand at h
  refine eventIf_contained hs h fun ht => ?_
  have hroom := hs.room_of_canTake ht
  refine State.Contained.complete ?_ _ _
  unfold checked
  split
  · exact hroom
  · split
    · exact hroom
    · exact ha hroom

/-- A row of the Changeover Engine. -/
theorem engineRow_contained {kind len : Nat} {modes : Modes} {act : State → List Octet → CmdResult} {tag : Octet}
    {b : List Octet} (hs : s.Contained 0) (h : runCommand kind len modes act tag b s = .next t)
    (he : EngineStep s (act s b).state) (hq : (act s b).state.Queued) : t.Contained 0 :=
  runCommand_contained hs h fun hroom => hroom.engineStep he hq

theorem powerUp_contained (hs : s.Contained 0) (h : execPowerUp s = .next t) : t.Contained 0 := by
  unfold execPowerUp at h
  dsimp only at h
  split at h
  · obtain rfl := Host.Outcome.next.inj h
    exact .startUp (s := { s.fail with power.on := true }) hs.fail.store _
  · obtain rfl := Host.Outcome.next.inj h
    exact hs.fail.same rfl rfl rfl rfl rfl rfl rfl rfl

theorem resetNFall_contained (hs : s.Contained 0) (h : execResetNFall s = .next t) : t.Contained 0 := by
  unfold execResetNFall at h
  split_ifs at h
  · obtain rfl := Host.Outcome.next.inj h; exact hs
  · obtain rfl := Host.Outcome.next.inj h; exact hs.hold.same rfl rfl rfl rfl rfl rfl rfl rfl
  · obtain rfl := Host.Outcome.next.inj h; exact hs.same rfl rfl rfl rfl rfl rfl rfl rfl

theorem resetNRise_contained (hs : s.Contained 0) (h : execResetNRise s = .next t) : t.Contained 0 := by
  unfold execResetNRise at h
  split_ifs at h
  · obtain rfl := Host.Outcome.next.inj h; exact hs
  · obtain rfl := Host.Outcome.next.inj h; exact .startUp (s := { s with power.resetN := true }) hs.store _
  · obtain rfl := Host.Outcome.next.inj h; exact hs.same rfl rfl rfl rfl rfl rfl rfl rfl

theorem hostTransmitEnd_contained (hs : s.Contained 0) (h : execHostTransmitEnd s = .next t) : t.Contained 0 := by
  unfold execHostTransmitEnd at h
  split at h
  · obtain rfl := Host.Outcome.next.inj h; exact hs
  · split at h
    · obtain rfl := Host.Outcome.next.inj h; exact .startUp hs.store _
    · exact event_contained hs h ⟨hs.port.congr rfl rfl rfl rfl, hs.queue, hs.overrides,
        hs.records.congr rfl rfl rfl rfl, hs.store⟩

theorem unknownKind_contained {k tag : Octet} {b : List Octet} (hs : s.Contained 0)
    (h : execUnknownKind k tag b s = .next t) : t.Contained 0 := by
  unfold execUnknownKind at h
  exact eventIf_contained hs h fun ha => (hs.room_of_canTake (Bool.and_eq_true_iff.1 ha).2).complete _ _

theorem commit_contained {tag : Octet} {b : List Octet} (hs : s.Contained 0) (h : execCommit tag b s = .next t) :
    t.Contained 0 := by
  unfold execCommit at h
  exact eventIf_contained hs h fun ha => (hs.room_of_canTake ha).beginWrite _ hs.store.records

theorem saveSignatures_contained {tag : Octet} {b : List Octet} (hs : s.Contained 0)
    (h : execSaveSignatures tag b s = .next t) : t.Contained 0 := by
  unfold execSaveSignatures at h
  refine eventIf_contained hs h fun ha => ?_
  have hw := (hs.room_of_canTake ha).beginWrite (commandFrame 17 tag b) (w := .signature s.sigImage)
    ((SigImage.canonical_iff _).2 ⟨hs.records.entries, hs.records.idents⟩)
  dsimp only
  split
  · exact hw
  · exact ⟨hw.port, hw.queue, hw.overrides, { hw.records with }, hw.store⟩

theorem storeWriteComplete_contained {ok : Bool} (hs : s.Contained 0) (h : execStoreWriteComplete ok s = .next t) :
    t.Contained 0 := by
  unfold execStoreWriteComplete at h
  split at h
  · rename_i w f _ hw _
    refine eventIf_contained hs h fun ha => ?_
    exact (hs.endWrite (beq_iff_eq.1 ha) hw ok).complete _ _
  · obtain rfl := Host.Outcome.next.inj h; exact hs
  · obtain rfl := Host.Outcome.next.inj h; exact hs

/-- Each row keeps the capacities and the tables: the rows of the engine by what they do to the queue, those of the link by what
they do to the records, those of the port because they leave the place for a reply that they fill. -/
theorem exec_contained (c : Instr) (h : exec c s = .next t) (hs : s.Contained 0) : t.Contained 0 := by
  have hread : ∀ {kind len : Nat} {modes : Modes} {act : State → List Octet → CmdResult} {tag : Octet} {b : List Octet},
      (act s b).state = s → runCommand kind len modes act tag b s = .next t → t.Contained 0 := fun ha h =>
    runCommand_contained hs h fun hroom => by rw [ha]; exact hroom
  unfold exec at h
  cases c with
  | powerUp => exact powerUp_contained hs h
  | resetNFall => exact resetNFall_contained hs h
  | resetNRise => exact resetNRise_contained hs h
  | hostFrameReceived o => exact event_contained hs h (hs.hostReceived _)
  | hostFrameDropped o brk =>
    refine event_contained hs h ?_
    split
    · exact (hs.hostReceived _).hostReceived _
    · exact hs.hostReceived _
  | hostGapTimeout o => exact event_contained hs h ((hs.hostReceived _).hostReceived _)
  | hostTransmitEnd => exact hostTransmitEnd_contained hs h
  | silenceTimeout =>
    exact eventIf_contained hs h fun _ => State.Contained.raise
      (s := ({ s with host.silence := none } : State).report .hostSilent true)
      ⟨hs.port.congr rfl rfl rfl rfl, hs.queue, hs.overrides, hs.records.congr rfl rfl rfl rfl, hs.store⟩ _
  | unknownKind k tag b => exact unknownKind_contained hs h
  | setTunnel tag b => exact runCommand_contained hs h fun hroom => hroom.actSetTunnel
  | getTunnel tag b => exact hread rfl h
  | setLane tag b => exact runCommand_contained hs h fun hroom => hroom.withFields (hroom.setLaneCfg _ _)
  | getLane tag b => exact runCommand_contained hs h fun hroom => hroom.actGetLane
  | setStation tag b => exact runCommand_contained hs h fun hroom => hroom.withFields (hroom.applyStation _ _)
  | getStation tag b => exact runCommand_contained hs h fun hroom => hroom.actGetStation
  | setProving tag b => exact runCommand_contained hs h fun hroom => hroom.applyProving _
  | getProving tag b => exact hread rfl h
  | setDuty tag b => exact runCommand_contained hs h fun hroom => hroom.applyDuties _
  | getDuty tag b => exact hread rfl h
  | setDim tag b => exact runCommand_contained hs h fun hroom => hroom.withFields (hroom.applyDim _ _)
  | getDim tag b => exact hread rfl h
  | start tag b => exact runCommand_contained hs h fun hroom => hroom.actStart
  | stop tag b => exact runCommand_contained hs h fun hroom => hroom.actStop
  | getMode tag b => exact hread rfl h
  | commit tag b => exact commit_contained hs h
  | saveSignatures tag b => exact saveSignatures_contained hs h
  | storeWriteComplete ok => exact storeWriteComplete_contained hs h
  | restart tag b => exact runCommand_contained hs h fun hroom => hroom.actRestart
  | closeLane tag b => exact engineRow_contained hs h actCloseLane_step hs.queue.actCloseLane
  | openLane tag b => exact engineRow_contained hs h actOpenLane_step hs.queue.actOpenLane
  | reverseLane tag b => exact engineRow_contained hs h actReverseLane_step hs.queue.actReverseLane
  | cancelTask tag b => exact engineRow_contained hs h actCancelTask_step hs.queue.actCancelTask
  | confirmClear tag b => exact engineRow_contained hs h actConfirmClear_step hs.queue.actConfirmClear
  | abortLane tag b => exact engineRow_contained hs h actAbortLane_step hs.queue.actAbortLane
  | closeNow tag b => exact engineRow_contained hs h actCloseNow_step hs.queue.actCloseNow
  | getQueue tag b => exact hread rfl h
  | setPlan tag b => exact engineRow_contained hs h actSetPlan_step hs.queue.actSetPlan
  | getPlan tag b => exact runCommand_contained hs h fun hroom => hroom.withFields hroom
  | selectPlan tag b => exact engineRow_contained hs h actSelectPlan_step hs.queue.actSelectPlan
  | closingStepExpiry l =>
    exact eventIf_contained hs h fun _ => hs.engineStep (closingStep_step l) (hs.queue.closingStep l)
  | openingStepExpiry l =>
    exact eventIf_contained hs h fun _ => hs.engineStep (openingStep_step l) (hs.queue.openingStep l)
  | clearanceTimerExpiry l =>
    exact eventIf_contained hs h fun _ => hs.engineStep (clearanceEnds_step l) (hs.queue.clearanceEnds l)
  | confirmWindowExpiry l =>
    exact eventIf_contained hs h fun _ => hs.engineStep (windowEnds_step l) (hs.queue.windowEnds l)
  | getHeads tag b => exact runCommand_contained hs h fun hroom => hroom.withFields hroom
  | getClosures tag b => exact hread rfl h
  | override tag b => exact runCommand_contained hs h fun hroom => hroom.actOverride
  | release tag b => exact runCommand_contained hs h fun hroom => hroom.actRelease
  | getOverrides tag b => exact hread rfl h
  | overrideHoldExpiry hd => exact eventIf_contained hs h fun _ => hs.overridesExpire hd
  | lampTest tag b => exact runCommand_contained hs h fun hroom => hroom.actLampTest
  | endLampTest tag b => exact runCommand_contained hs h fun hroom => hroom.actEndLampTest
  | getLampTest tag b => exact hread rfl h
  | lampTestWindowExpiry => exact eventIf_contained hs h fun _ => (hs.endLampTest _).raise _
  | clearFault tag b => exact runCommand_contained hs h fun hroom => hroom.actClearFault
  | getLamps tag b => exact runCommand_contained hs h fun hroom => hroom.withFields hroom
  | getFaults tag b => exact hread rfl h
  | freeze tag b =>
    exact runCommand_contained hs h fun hroom => hroom.withFields
      (hroom.setRecords (r := { s.config.records with tunnel.freeze := bitOf (oct b 0) }) hroom.store.records)
  | fixSignature tag b => exact runCommand_contained hs h fun hroom => hroom.withFields (hroom.changeClass _ _)
  | unfix tag b => exact runCommand_contained hs h fun hroom => hroom.actUnfix
  | unlearn tag b => exact runCommand_contained hs h fun hroom => hroom.actUnlearn
  | getSignatures tag b => exact runCommand_contained hs h fun hroom => hroom.withFields hroom
  | getLearning tag b => exact hread rfl h
  | gantryAnswer e o => exact event_contained hs h (hs.gantryOctets e o)
  | gantryBadAnswer e o brk =>
    refine event_contained hs h ?_
    split
    · exact (hs.gantryOctets e o).gantryCutShort e
    · exact hs.gantryOctets e o
  | gantryStrayFrame e o => exact event_contained hs h (hs.gantryOctets e o)
  | gantryGapTimeout e o => exact event_contained hs h ((hs.gantryOctets e o).gantryCutShort e)
  | pollTimeout e => exact eventIf_contained hs h fun _ => hs.linkStep (.timeOut s e) (hs.records.timeOut e)
  | gantryTransmitEnd e =>
    exact eventIf_contained hs h fun _ => hs.linkStep (LinkStep.frameSent (kinds := []) s e) (hs.records.setPoller e _)
  | reprobeTimerExpiry k =>
    exact eventIf_contained hs h fun _ => hs.linkStep (LinkStep.reprobeDue (kinds := []) s k) (hs.records.reprobeDue k)
  | restoreStation tag b => exact runCommand_contained hs h fun hroom => hroom.actRestoreStation
  | getRing tag b => exact hread rfl h
  | halfPeriodExpiry =>
    exact eventIf_contained hs h fun _ => (hs.setPhase _).same rfl rfl rfl rfl rfl rfl rfl rfl
  | flashSyncEdge high =>
    exact eventIf_contained hs h fun _ => (hs.setPhase high).same rfl rfl rfl rfl rfl rfl rfl rfl
  | lossTimerExpiry =>
    exact eventIf_contained hs h fun _ => State.Contained.raise
      (s := { s with time.line := .freeRunning, time.lossTimer := none }) (hs.same rfl rfl rfl rfl rfl rfl rfl rfl) _
  | getFlash tag b => exact hread rfl h
  | secondTimerExpiry => exact eventIf_contained hs h fun _ => hs.secondEnds
  | setClock tag b =>
    exact runCommand_contained hs h fun hroom => hroom.withFields (hroom.same rfl rfl rfl rfl rfl rfl rfl rfl)
  | getClock tag b => exact hread rfl h
  | setSchedule tag b =>
    exact runCommand_contained hs h fun hroom => hroom.withFields (hroom.same rfl rfl rfl rfl rfl rfl rfl rfl)
  | getSchedule tag b => exact hread rfl h
  | ackAttention tag b =>
    exact runCommand_contained hs h fun hroom => hroom.withFields (hroom.same rfl rfl rfl rfl rfl rfl rfl rfl)
  | setNoticeMask tag b =>
    exact runCommand_contained hs h fun hroom => hroom.withFields (hroom.same rfl rfl rfl rfl rfl rfl rfl rfl)
  | getAttention tag b => exact hread rfl h
  | getLink tag b => exact runCommand_contained hs h fun hroom => hroom.zeroCounters
  | powerFailure => obtain rfl := Host.Outcome.next.inj h; exact hs.fail

end Rows

/-! ### The laws of a good state -/

theorem State.Good.contained {s : State} (h : s.Good) : s.Contained 0 := by
  have hc := h.capacity
  obtain ⟨⟨-, hdisplayed, hstrings, hheads, hfalse⟩, ⟨hentries, hidents, hchanges, hstations⟩, hrecords, hnv, hsig, hwriting⟩ :=
    h.tables
  exact ⟨⟨hc.slots, hc.replies, hc.writing, hc.counters⟩, ⟨hc.queue, hc.tasks⟩, ⟨hc.overrides, hc.oneEach⟩,
    ⟨hdisplayed, hstrings, hheads, hfalse, hentries, hidents, hchanges, hstations⟩, hrecords, hnv, hsig, hwriting⟩

theorem State.Contained.withinCapacity {s : State} (h : s.Contained 0) : s.WithinCapacity :=
  ⟨h.port.slots, h.port.replies, h.port.writing, h.queue.length, h.queue.apart, h.overrides.length, h.overrides.apart,
    h.port.counters⟩

theorem State.Contained.tablesCanonical {s : State} (h : s.Contained 0)
    (hlanes : Tab.wf LaneRec.reset s.engine.lanes = true) : s.TablesCanonical :=
  ⟨⟨hlanes, h.records.displayed, h.records.strings, h.records.heads, h.records.falseOpen⟩,
    ⟨h.records.entries, h.records.idents, h.records.changes, h.records.stations⟩, h.store.records, h.store.nvConfig,
    h.store.nvSig, h.store.writing⟩

/-- The lane records keep their laws and the other blocks their capacities and tables. -/
structure State.Kept (s : State) : Prop where
  lawful : s.Lawful fun _ _ => True
  contained : s.Contained 0

theorem State.Good.kept {s : State} (h : s.Good) : s.Kept :=
  ⟨⟨s.legal_iff.2 ⟨h.config, h.clock⟩, h.lanes_wf, h.lanes, fun _ _ _ => trivial⟩, h.contained⟩

/-- Settles O9: the table of the lanes by the laws of the lane records (O8), the rest by `exec_contained`. -/
theorem capacitiesAndTablesKept : Obligations.CapacitiesAndTablesKept := by
  intro s t hg h
  have hP : Admits fun _ _ => True := fun _ _ _ _ => trivial
  have ht : t.Kept := step_keeps (p := State.Kept)
    (fun _ _ hs => ⟨hs.lawful.outside rfl rfl rfl rfl, hs.contained.same rfl rfl rfl rfl rfl rfl rfl rfl⟩)
    (fun _ hs => ⟨hs.lawful.tick_as fun _ _ _ => trivial, hs.contained.tick⟩)
    (fun c _ _ hs h => ⟨exec_lawful hP c h hs.lawful, exec_contained c h hs.contained⟩) hg.kept h
  exact ⟨ht.contained.withinCapacity, ht.contained.tablesCanonical ht.lawful.table⟩

end Sys2Proof.Machine
end
